-- ==== Sys2Proof/Word.lean ====
section
/-! DEFINITION. The words of the ZN-800: 64-bit registers and addresses, bytes (R5, R23). -/

namespace Sys2Proof

/-- A 64-bit register, address or special register (R23, R37). -/
abbrev Word := BitVec 64

/-- A byte of memory (R5). -/
abbrev Byte := BitVec 8

end Sys2Proof
end

