-- ==== Sys2Proof/Syntax.lean ====
section
/-! DEFINITION. The instructions and events of spec/opcode_table.json: one inductive, one constructor per row. An
instruction's constructor holds the fields of its format (R54, R60, R64, R68); an event's holds what its rule makes it
depend on. -/

namespace Sys2Proof

/-- S format (R54): FN · GN · G · RS2 · RS1 · RD. -/
structure SForm where
  fn  : BitVec 5
  gn  : BitVec 1
  g   : BitVec 3
  rs2 : BitVec 5
  rs1 : BitVec 5
  rd  : BitVec 5
  deriving DecidableEq, Repr

/-- I format (R54): IMM10 · GN · G · RS1 · RD. -/
structure IForm where
  imm : BitVec 10
  gn  : BitVec 1
  g   : BitVec 3
  rs1 : BitVec 5
  rd  : BitVec 5
  deriving DecidableEq, Repr

/-- M format (R54): IMM6 · SCOPE · ORD · W · RS1 · RD/RS. AMO and CAS hold RS2 in IMM6[5:1] and SZ in IMM6[0] (R273). -/
structure MForm where
  imm   : BitVec 6
  scope : BitVec 3
  ord   : BitVec 2
  w     : BitVec 3
  rs1   : BitVec 5
  rd    : BitVec 5
  deriving DecidableEq, Repr

/-- B format (R54): OFF20 · GN · G. -/
structure BForm where
  off : BitVec 20
  gn  : BitVec 1
  g   : BitVec 3
  deriving DecidableEq, Repr

/-- J format (R54): OFF19 · RD. -/
structure JForm where
  off : BitVec 19
  rd  : BitVec 5
  deriving DecidableEq, Repr

/-- SRD and SWR (R68, R411): the special-register number and the x register. -/
structure SrForm where
  num : BitVec 12
  rd  : BitVec 5
  deriving DecidableEq, Repr

/-- The convoy header (R64). -/
structure CForm where
  guard : BitVec 3
  u5    : BitVec 3
  u4    : BitVec 3
  u3    : BitVec 3
  u2    : BitVec 3
  u1    : BitVec 3
  u0    : BitVec 3
  n     : BitVec 3
  deriving DecidableEq, Repr

/-- The V format (R60). `g` is bits [47:45]: G − 1, or NT in its bit 2 and ORD in its bits 1 and 0. -/
structure VForm where
  vd   : BitVec 6
  vs1  : BitVec 6
  vs2  : BitVec 6
  vm   : BitVec 3
  p    : BitVec 1
  vs3  : BitVec 6
  fmt  : BitVec 4
  slot : BitVec 3
  g    : BitVec 3
  rm   : BitVec 3
  tpop : BitVec 1
  popu : BitVec 3
  tpsh : BitVec 1
  pshu : BitVec 3
  fn   : BitVec 4
  xs   : BitVec 1
  deriving DecidableEq, Repr

/-- A firmware image as the boot ROM finds it (R440, R441): whether it is well formed, what the two signatures cover,
the signatures, its security version, and what accepted firmware then sets. -/
structure FwImage where
  malformed : Bool
  body      : Nat
  rsaSig    : Nat
  slhSig    : Nat
  version   : Nat
  config    : Nat
  podId     : BitVec 7
  podTable  : List Nat
  census    : Word
  freeq     : Word
  deriving DecidableEq, Repr

/-- What a link that must retrain ends as (R428). -/
inductive LinkOutcome where
  | retrained (back : List Nat)    -- the failing lane is shifted out; packages a route reaches again
  | landingLost                    -- a central-die-to-Landing link fails to retrain
  | portRerouted                   -- a UALink port fails, another route remains
  | packagesLost (pkgs : List Nat) -- a UALink port fails and these packages are unreachable
  deriving DecidableEq, Repr

/-- Bytes that a request names: the physical address, how many, the slot of the owning package. -/
abbrev UaSpan := Nat × Nat × Nat

/-- What a far instruction of another package brings of its hart: VL, VSTART, the governing mask and the mask that VS1 names,
DYN, the trap enables of TSTAT (bit 0 NVE, 1 DZE, 2 OFE), VCFG, lanes, SRSEED, and x(VS3). -/
structure FarSource where
  vl    : Nat
  start : Nat
  mask  : Nat
  mask1 : Nat
  dyn   : Nat
  en    : Nat
  vcfg  : Nat
  lanes : Nat
  seed  : Nat
  x3    : Word
  deriving DecidableEq, Repr

/-- A request of another package (R430, R438): a read, a write, an atomic; or a write to the command window, which carries
a lease, a far instruction, its loads, stores and transfers, a bank-level command, or a collective phase. -/
inductive UaRequest where
  | read (pa n slot : Nat)
  | write (pa : Nat) (data : List Byte) (slot : Nat)
  | atomicAdd (pa n value slot : Nat)
  | atomic (op pa n value slot : Nat)              -- op: W of R273
  | compareSwap (pa n expected value slot : Nat)
  | lease (landing : Nat)
  | release (ctx : Nat)
  | far (ctx : Nat) (words : BitVec 64) (src : FarSource)
  | farLoad (ctx reg w : Nat) (els : List (Nat × Nat × Nat))           -- element, address, slot
  | farStore (ctx reg w : Nat) (add : Bool) (els : List (Nat × Nat × Nat))
  | farRead (ctx reg : Nat)
  | farWrite (ctx reg value : Nat)
  | reduce (ctx op fmt rm nelem : Nat) (rows : List (List UaSpan)) (dst : List UaSpan) (yd : Option Nat) (cword : Option UaSpan)
  | combine (ctx op fmt rm n : Nat) (d a b : List UaSpan)
  | phase (desc : UaSpan) (buf : List UaSpan) (hart rank op fmt vl nmem active : Nat) (values : List Nat) (step : Nat)
  deriving DecidableEq, Repr

/-- One constructor per row of spec/opcode_table.json. -/
inductive Instr where
  -- scalar instructions (R67)
  | alu (f : SForm)
  | mul (f : SForm)
  | div (f : SForm)
  | addi (f : IForm)
  | andi (f : IForm)
  | ori (f : IForm)
  | xori (f : IForm)
  | shi (f : IForm)
  | lit32 (f : IForm) (lit : BitVec 32)
  | lit64 (f : IForm) (lit : BitVec 64)
  | lea (f : IForm)
  | bitc (f : SForm)
  | cmp (f : SForm)
  | cmpi (f : IForm)
  | glog (f : SForm)
  | sel (f : SForm)
  | falu (f : SForm)
  | fma (f : SForm)
  | fsqrt (f : SForm)
  | fcmp (f : SForm)
  | fcvt (f : SForm)
  | br (f : BForm)
  | cbr (f : IForm)
  | jal (f : JForm)
  | jalr (f : IForm)
  | rep (f : IForm)
  | nop (f : IForm)
  | ld (f : MForm)
  | st (f : MForm)
  | amo (f : MForm)
  | cas (f : MForm)
  | fence (f : MForm)
  | pfetch (f : MForm)
  -- system and synchronisation (R68)
  | stkfence (f : IForm)
  | clnr (f : SForm)
  | invr (f : SForm)
  | cflr (f : SForm)
  | waita (f : SForm)
  | gsync (f : IForm)
  | fork (f : IForm)
  | join (f : IForm)
  | joinl (f : IForm)
  | yield (f : IForm)
  | halt (f : IForm)
  | launch (f : SForm)
  | wmpub (f : SForm)
  | wmwait (f : SForm)
  | srd (f : SrForm)
  | swr (f : SrForm)
  | trap (f : IForm)
  | tret (f : IForm)
  | hcall (f : IForm)
  | kdnew (f : SForm)
  | kdnewRecycle (f : SForm)
  | kdend (f : SForm)
  | pgref (f : SForm)
  | pgrefNew (f : SForm)
  | pgrefSeal (f : SForm)
  | pgunref (f : SForm)
  | tlbinvPage (f : SForm)
  | tlbinvAsid (f : SForm)
  | tlbinvAll (f : SForm)
  | preempt (f : SForm)
  | fqdone (f : SForm)
  | hset (f : MForm)
  | hget (f : MForm)
  | migr (f : SForm)
  | ptset (f : SForm)
  | convoyHeader (f : CForm)
  -- vector, matrix, engine and far instructions (R69, R70)
  | setvl (f : VForm)
  | setvlw (f : VForm)
  | vcfg (f : VForm)
  | vint (f : VForm)
  | vmul (f : VForm)
  | vsat (f : VForm)
  | vmulw (f : VForm)
  | vaddw (f : VForm)
  | vnarrow (f : VForm)
  | vabsd (f : VForm)
  | vbitc (f : VForm)
  | vfalu (f : VForm)
  | vfma (f : VForm)
  | vfdiv (f : VForm)
  | vfsqrt (f : VForm)
  | vfexp2 (f : VForm)
  | vfclass (f : VForm)
  | vcmp (f : VForm)
  | vmlog (f : VForm)
  | vmpop (f : VForm)
  | vsel (f : VForm)
  | vcvt (f : VForm)
  | vquant (f : VForm)
  | vblkhdr (f : VForm)
  | vperm (f : VForm)
  | vpermb (f : VForm)
  | vslide (f : VForm)
  | vcompress (f : VForm)
  | vexpand (f : VForm)
  | vsplat (f : VForm)
  | vmvx (f : VForm)
  | vmvv (f : VForm)
  | viota (f : VForm)
  | vred (f : VForm)
  | vredo (f : VForm)
  | vscan (f : VForm)
  | vrecur (f : VForm)
  | vtopk (f : VForm)
  | vld (f : VForm)
  | vldff (f : VForm)
  | vldx (f : VForm)
  | vst (f : VForm)
  | vstx (f : VForm)
  | vstxa (f : VForm)
  | vldh (f : VForm)
  | vsth (f : VForm)
  | vls (f : VForm)
  | vmma (f : VForm)
  | vmmax (f : VForm)
  | vmmaq (f : VForm)
  | tld (f : VForm)
  | tst (f : VForm)
  | tmov (f : VForm)
  | tzero (f : VForm)
  | tflags (f : VForm)
  | vsoft (f : VForm)
  | vsmerge (f : VForm)
  | yxfer (f : VForm)
  | vcoll (f : VForm)
  | fbind (f : VForm)
  | frel (f : VForm)
  | fdone (f : VForm)
  | yired (f : VForm)
  | ybop (f : VForm)
  | ysync (f : VForm)
  | flstream (f : VForm)
  | flpaged (f : VForm)
  | flcopy (f : VForm)
  | flwait (f : VForm)
  | flstop (f : VForm)
  | clset (f : VForm)
  | clsplit (f : VForm)
  | clrun (f : VForm)
  | clnext (f : VForm)
  | clsave (f : VForm)
  | clrest (f : VForm)
  | impose (f : VForm)
  | impwait (f : VForm)
  | collwait (f : VForm)
  | tkclr (f : VForm)
  -- events: moves of the device's units and of the outside world (rows 149 to 195)
  | vectorIssue (hart : Nat)                                     -- R352
  | heldEntryWrite (ring : Nat)                                  -- R413: the ring of this FQBASE.BASE
  | parkedHartRestart (hart : Nat)                               -- R419
  | fqhead (value : Word)                                        -- R412: by the hart whose turn it is
  | specialRegisterWrite (num : BitVec 12) (value : Word)        -- R411: by the hart whose turn it is
  | launchRecordCheck (q : Nat)                                  -- R342
  | watermarkRecheck (q : Nat)                                   -- R347
  | gangPlacement (cluster core gangId : Nat)                    -- R348, R349
  | priorityAging (cluster : Nat)                                -- R349
  | grantNarrowing (gang gshift : Nat)                           -- R351
  | preemptionRequest (core : Nat) (spill : Bool)                -- R365
  | preemptionHalt (core : Nat)                                  -- R366
  | contextSave (core : Nat)                                     -- R368
  | leaseGrant (landing fctx : Nat)                              -- R364: the context chosen
  | waitaWake (hart : Nat)                                       -- R362
  | waitaTimeout (hart : Nat)                                    -- R362
  | yieldExpiry (hart : Nat)                                     -- R360
  | watermarkPass (hart : Nat)                                   -- R137, R318
  | farExecute (hart : Nat)                                      -- R321
  | bankAction (cmd : Nat)                                       -- R248
  | flumeFetch (core sid : Nat)                                  -- R307
  | flumeCopyElement (core sid : Nat)                            -- R311
  | tileConversion (impid : Nat)                                 -- R328
  | collectivePhase (hart : Nat)                                 -- R336
  | copyOnWrite (hart : Nat) (va : Word)                         -- R387
  | linkCrcReplay (link dir flits : Nat)                         -- R427
  | linkRetrain (link : Nat) (outcome : LinkOutcome)             -- R428
  | ualinkRequest (pkg : Nat) (req : UaRequest)                  -- R438
  | remotePackageReset (pkg : Nat)                               -- R439
  | deviceReset (image : FwImage)                                -- R440, R441
  | attestationRequest (nonce : BitVec 256) (certs : Bool)       -- R443, R442
  | securityVersionRaise (image : FwImage)                       -- R440
  | doorbell (q : Nat) (value : Word)                            -- R434
  | qring (q : Nat) (value : Word)                               -- R434
  | pcap (value : Word)                                          -- R458
  | hostRegisterWrite (offset : Nat) (value : Word)              -- R432, R433
  | apertureAccess (a off n : Nat) (data : Option (List Byte))   -- R432: a write when data is given
  | rawApertureAccess (a off n : Nat) (data : Option (List Byte))
  | endTask (taskid : Word)                                      -- R436, the row END
  | hostPreempt (value : Word)                                   -- R436
  | notify (value : Word)                                        -- R436
  | invpage (asid va pod : Word)                                 -- R436
  | fqcomp (fqbase seq code value : Word)                        -- R436
  | illegalInstruction (parcels : BitVec 64)                     -- R71, R72, R401
  | fetchFault                                                   -- R51: at the hart whose turn it is
  | maintenanceEffect (hart : Nat)                               -- R279
  | podTableUpdate (pkg : Nat) (enter : Bool)                    -- R438
  deriving DecidableEq, Repr

end Sys2Proof
end

