-- ==== Sys2Proof/WellFormed.lean ====
section
/-! DEFINITION. Which field values of an encoding are an instruction "by its encoding alone" (R62, R63, R65, R72 and the
entry of each instruction). What these checks refuse raises illegal instruction at decode (R401 DETAIL 0). -/

namespace Sys2Proof

/-! ### Formats (R85) -/

/-- The width of a format in bits (R85); 0 for the block formats, which have none. -/
def fmtWidth : Nat → Nat
  | 0 => 8 | 1 => 16 | 2 => 32 | 3 => 64 | 4 => 8 | 5 => 8 | 6 => 16 | 7 => 16 | 8 => 32 | 9 => 64 | _ => 0

/-- The block formats, FMT 10 to 14 (R85). -/
def fmtIsBlock (f : Nat) : Bool := 10 ≤ f && f ≤ 14

/-- The integer formats, FMT 0 to 3 (R85). -/
def fmtIsInt (f : Nat) : Bool := f ≤ 3

/-- The bytes of a record of 32 elements (R92). -/
def rec32 : Nat → Nat
  | 10 => 20 | 14 => 20 | 12 => 28 | 13 => 28 | 11 => 36 | _ => 20

/-- The reference count N of a format for a register of `bytes` bytes: VLMAX of R17, or VLMAX_block of R94. -/
def vlmaxOf (fmt bytes : Nat) : Nat :=
  if fmtIsBlock fmt then bytes / rec32 fmt * 32 else if fmtWidth fmt = 0 then 0 else bytes * 8 / fmtWidth fmt

/-- The least power of two that is at least n. -/
def ceilPow2 (n : Nat) : Nat := if n ≤ 1 then 1 else 2 ^ (Nat.log2 (n - 1) + 1)

/-- The registers of an operand of width w with reference count n and register size `bytes` (R141):
max(1, 2^⌈log2(n × w / (8 × bytes))⌉). -/
def groupSize (n w bytes : Nat) : Nat := ceilPow2 ((n * w + 8 * bytes - 1) / (8 * bytes))

/-- The group size of an operand of width w when `fmt` is the reference. R141's quotient does not depend on the register
size beyond its rounding; 256 bytes is the smallest register (R17). -/
def groupOf (fmt w : Nat) : Nat := groupSize (vlmaxOf fmt 256) w 256

/-- Two register groups share a register (R143). -/
def overlaps (a ga b gb : Nat) : Bool := a < b + gb && b < a + ga

/-! ### Field checks of the V format -/

/-- The fields of the V format that an entry may leave without a meaning (R62). -/
inductive VFld where
  | vd | vs1 | vs2 | vs3 | vm | fmt | g | rm | fn | xs
  deriving DecidableEq, Repr

/-- A field as a number. -/
def VForm.fld (f : VForm) : VFld → Nat
  | .vd => f.vd.toNat | .vs1 => f.vs1.toNat | .vs2 => f.vs2.toNat | .vs3 => f.vs3.toNat | .vm => f.vm.toNat
  | .fmt => f.fmt.toNat | .g => f.g.toNat | .rm => f.rm.toNat | .fn => f.fn.toNat | .xs => f.xs.toNat

/-- Every field of the list is zero (R62). -/
def VForm.zeros (f : VForm) (l : List VFld) : Bool := l.all fun x => f.fld x == 0

/-- The unit classes of R64. -/
inductive UnitClass where
  | alu | fma | mtx | lsu | xel | far | eng | none
  deriving DecidableEq, Repr

/-- The unit code of R64. -/
def UnitClass.code : UnitClass → Nat
  | .alu => 0 | .fma => 1 | .mtx => 2 | .lsu => 3 | .xel => 4 | .far => 5 | .eng => 6 | .none => 7

/-- The unit class of an opcode (R69, R70), before placement. -/
def opUnit (op : Nat) : UnitClass :=
  if op = 0x83 ∨ op = 0x85 ∨ (0x87 ≤ op ∧ op ≤ 0x8A) ∨ (0x90 ≤ op ∧ op ≤ 0x97) ∨ (0x9D ≤ op ∧ op ≤ 0xA0) then .alu
  else if op = 0x84 ∨ op = 0x86 ∨ (0x8B ≤ op ∧ op ≤ 0x8F) ∨ op = 0xB7 ∨ op = 0xB8 then .fma
  else if (0x98 ≤ op ∧ op ≤ 0x9C) ∨ (0xA1 ≤ op ∧ op ≤ 0xA5) then .xel
  else if (0xA6 ≤ op ∧ op ≤ 0xAD) ∨ op = 0xBA then .lsu
  else if 0xAF ≤ op ∧ op ≤ 0xB6 then .mtx
  else if op = 0xB9 ∨ (0xC3 ≤ op ∧ op ≤ 0xC6) then .far
  else if op = 0xAE ∨ op = 0xC1 ∨ op = 0xC2 ∨ (0xC7 ≤ op ∧ op ≤ 0xD5) then .eng
  else .none

/-- The unit class of an instruction: FAR with P = 1, else the opcode's (R65). -/
def VForm.unit (f : VForm) (op : Nat) : UnitClass := if f.p = 1 then .far else opUnit op

/-- Whether the opcode map marks an opcode convoyable (R69, R70). -/
def opConvoyable (op : Nat) : Bool :=
  0x83 ≤ op && op ≤ 0xB9 && op != 0x9E && op != 0xB6 || op == 0xCF

/-- The token fields (R63): codes zero without their bits, no class 7, and not the instruction's own class. -/
def VForm.tokensOk (f : VForm) (op : Nat) : Bool :=
  (if f.tpop = 1 then f.popu.toNat != 7 && f.popu.toNat != (f.unit op).code else f.popu == 0) &&
  (if f.tpsh = 1 then f.pshu.toNat != 7 && f.pshu.toNat != (f.unit op).code else f.pshu == 0)

/-- No token bits at all: SETVL, SETVLW, VCFG (R63), TKCLR (R316). -/
def VForm.noTokens (f : VForm) : Bool := f.tpop == 0 && f.popu == 0 && f.tpsh == 0 && f.pshu == 0

/-- P = 0, which requires SLOT = 0 (R29). -/
def VForm.near (f : VForm) : Bool := f.p == 0 && f.slot == 0

/-- Either placement. P = 0 requires SLOT = 0; P = 1 requires a format that may be placed far (R69) and register
fields below 8 (R29), the fields that name registers being those of the list. -/
def VForm.nearOrFar (f : VForm) (regs : List VFld) : Bool :=
  if f.p = 1 then !fmtIsBlock f.fmt.toNat && regs.all (fun r => f.fld r < 8) else f.slot == 0

/-- An x register in a six-bit field: the top bit is zero (R302, R213, R282). -/
def xField (r : BitVec 6) : Bool := r.toNat < 32

/-- The scalar operand (R61): with XS = 1, VS2 and VS3[37] are zero; with XS = 0, VS3 is zero. -/
def VForm.xsOpt (f : VForm) : Bool :=
  if f.xs = 1 then f.vs2 == 0 && xField f.vs3 else f.vs3 == 0

/-- XS = 1 is required. -/
def VForm.xsReq (f : VForm) : Bool := f.xs == 1 && f.vs2 == 0 && xField f.vs3

/-- XS = 0 and VS3 = 0. -/
def VForm.xsNo (f : VForm) : Bool := f.xs == 0 && f.vs3 == 0

/-- RM of an instruction that rounds when `r` holds, and is zero otherwise (R145, R72). Mode 5 is illegal with P = 1 (R102). -/
def VForm.rmIf (f : VForm) (r : Bool) : Bool :=
  if r then f.rm.toNat != 7 && !(f.p == 1 && f.rm.toNat == 5) else f.rm == 0

/-- RM used as SCOPE (R60, R72). -/
def VForm.scopeOk (f : VForm) : Bool := f.rm.toNat ≤ 5

/-- ORD of a memory instruction, bits [46:45]. -/
def VForm.ord (f : VForm) : Nat := f.g.toNat % 4

/-- NT of a memory instruction, bit [47]. -/
def VForm.nt (f : VForm) : Bool := f.g.toNat ≥ 4

/-- A load takes ORD 0 or 1, a store 0 or 2 (R72, R282). -/
def VForm.ordLoad (f : VForm) : Bool := f.ord ≤ 1
def VForm.ordStore (f : VForm) : Bool := f.ord == 0 || f.ord == 2

/-- A group of g registers starts at a multiple of g (R141). -/
def aligned (r : BitVec 6) (g : Nat) : Bool := r.toNat % g == 0

/-- Destination group against a source group of another width: no overlap (R143). -/
def apart (a : BitVec 6) (ga : Nat) (b : BitVec 6) (gb : Nat) : Bool := !overlaps a.toNat ga b.toNat gb

namespace Wf

/-! ### Scalar instructions -/

def alu (_ : SForm) : Bool := true
/-- FN 0 to 3 and their .w forms, 16 to 19 (R111). -/
def fn4w (fn : BitVec 5) : Bool := fn.toNat ≤ 3 || (16 ≤ fn.toNat && fn.toNat ≤ 19)
def mul (f : SForm) : Bool := fn4w f.fn
def div (f : SForm) : Bool := fn4w f.fn
def bitc (f : SForm) : Bool := fn4w f.fn && f.rs2 == 0
/-- R115: IMM10[9] zero, KIND below 3, a .w shift below 32. -/
def shi (f : IForm) : Bool :=
  f.imm.toNat < 512 && f.imm.toNat / 64 % 4 != 3 && !(f.imm.toNat / 256 % 2 == 1 && f.imm.toNat % 64 ≥ 32)
def lit32 (f : IForm) : Bool := f.imm.toNat ≤ 1
def lit64 (f : IForm) : Bool := f.imm == 0
def lea (f : IForm) : Bool := !(f.imm.toNat ≥ 512 && f.rs1 != 0)
/-- A guard in RD[10:8]: RD[12:11] is zero (R119). -/
def guardRd (rd : BitVec 5) : Bool := rd.toNat < 8
def cmp (f : SForm) : Bool := guardRd f.rd && (f.fn.toNat ≤ 7 || (16 ≤ f.fn.toNat && f.fn.toNat ≤ 23))
def cmpi (f : IForm) : Bool := !(f.imm.toNat ≥ 512 && f.rd.toNat / 8 < 2)
/-- R121. -/
def glog (f : SForm) : Bool :=
  if f.fn.toNat ≤ 5 then guardRd f.rd && f.rs1.toNat < 8 && f.rs2.toNat < 8
  else if f.fn.toNat = 6 then guardRd f.rd && f.rs2 == 0
  else if f.fn.toNat = 7 then f.rs1 == 0 && f.rs2 == 0
  else if f.fn.toNat = 8 then f.rd == 0 && f.rs2 == 0
  else false
def sel (f : SForm) : Bool := f.fn.toNat < 16
def falu (_ : SForm) : Bool := true
def fma (f : SForm) : Bool := f.fn.toNat % 8 ≤ 3
def fsqrt (f : SForm) : Bool := f.fn.toNat % 8 == 0 && f.rs2.toNat < 7
def fcmp (f : SForm) : Bool := guardRd f.rd && f.fn.toNat % 8 ≤ 4
/-- FCVT's fields (R129): DC is FN[4:2], SC is FN[1:0] with RS2[4] below, NOSAT RS2[3], RM RS2[2:0]. -/
def fcvtDc (f : SForm) : Nat := f.fn.toNat / 4
def fcvtSc (f : SForm) : Nat := f.fn.toNat % 4 * 2 + f.rs2.toNat / 16
def fcvtNosat (f : SForm) : Bool := f.rs2.toNat / 8 % 2 == 1
def fcvtRm (f : SForm) : Nat := f.rs2.toNat % 8
def fcvt (f : SForm) : Bool :=
  fcvtRm f != 7 && !(fcvtDc f ≤ 1 && fcvtSc f ≤ 1) && !(fcvtNosat f && fcvtDc f != 2)
def cbr (f : IForm) : Bool := f.rd.toNat ≤ 5
def rep (f : IForm) : Bool := f.imm.toNat < 32 && f.rd == 0 && f.rs1 != 0
def nop (f : IForm) : Bool := f.imm == 0 && f.rs1 == 0 && f.rd == 0
def scope (s : BitVec 3) : Bool := s.toNat ≤ 5
def ld (f : MForm) : Bool := f.w.toNat != 7 && f.ord.toNat ≤ 1 && scope f.scope
def st (f : MForm) : Bool := f.w.toNat ≤ 3 && (f.ord == 0 || f.ord == 2) && scope f.scope
def amo (f : MForm) : Bool := scope f.scope
def cas (f : MForm) : Bool := f.w == 0 && scope f.scope
def fence (f : MForm) : Bool :=
  f.w.toNat < 4 && f.ord == 0 && f.rd == 0 && f.rs1 == 0 && f.imm == 0 && scope f.scope
def pfetch (f : MForm) : Bool := f.rd == 0 && f.ord == 0 && f.scope == 0 && f.w.toNat ≤ 2
def stkfence (f : IForm) : Bool := f.imm.toNat < 256 && f.rs1 == 0 && f.rd == 0
def maint (f : SForm) : Bool := f.rd == 0 && f.fn == 0
/-- FN[2:0] is SCOPE and the rest of FN is zero. -/
def scopeFn (fn : BitVec 5) : Bool := fn.toNat ≤ 5
def waita (f : SForm) : Bool := f.fn.toNat < 16 && f.fn.toNat % 8 ≤ 5
def allZero (f : IForm) : Bool := f.imm == 0 && f.rs1 == 0 && f.rd == 0
def fork (f : IForm) : Bool := f.rs1 == 0
def join (f : IForm) : Bool := f.rd == 0 && f.imm == 0
def joinl (f : IForm) : Bool := f.rs1 == 0 && f.imm == 0
def yield (f : IForm) : Bool := f.rd == 0 && f.rs1 == 0
def launch (f : SForm) : Bool := scopeFn f.fn
def wmpub (f : SForm) : Bool := scopeFn f.fn && f.rd == 0
def wmwait (f : SForm) : Bool := scopeFn f.fn
/-- The numbers the table of R31 lists. -/
def sregListed (n : Nat) : Bool :=
  n ≤ 0x008 || (0x010 ≤ n && n ≤ 0x018) || (0x020 ≤ n && n ≤ 0x023) || (0x030 ≤ n && n ≤ 0x034) ||
  (0x040 ≤ n && n ≤ 0x043) || n == 0x050 || n == 0x051 || n == 0x060 || (0x100 ≤ n && n ≤ 0x107)
def sreg (f : SrForm) : Bool := sregListed f.num.toNat
def trap (f : IForm) : Bool := f.imm.toNat < 256 && f.rd == 0
def hcall (_ : IForm) : Bool := true
def kdnew (f : SForm) : Bool := f.fn == 0 && f.rs1 == 0 && f.rs2 == 0
def kdnewRecycle (f : SForm) : Bool := f.fn == 1 && f.rs2 == 0
def fn0rs2 (f : SForm) : Bool := f.fn == 0 && f.rs2 == 0
def pgrefNew (f : SForm) : Bool := f.fn == 1 && f.rs2 == 0
def pgrefSeal (f : SForm) : Bool := f.fn == 2
/-- FN[2] is POD, FN[1:0] is KIND (R398). -/
def tlbinv (kind : Nat) (f : SForm) : Bool := f.fn.toNat < 8 && f.fn.toNat % 4 == kind && f.rd == 0
def tlbinvAsid (f : SForm) : Bool := tlbinv 1 f && f.rs2 == 0
def tlbinvAll (f : SForm) : Bool := tlbinv 2 f && f.rs2 == 0 && f.rs1 == 0
def preempt (f : SForm) : Bool := f.fn.toNat ≤ 1 && f.rs2 == 0
def fqdone (f : SForm) : Bool := f.fn.toNat ≤ 4
def hset (f : MForm) : Bool := f.rd.toNat < 16 && f.w == 0 && f.ord.toNat ≤ 1 && scope f.scope
def hget (f : MForm) : Bool := f.rd.toNat < 16 && f.w == 0 && (f.ord == 0 || f.ord == 2) && scope f.scope
def migr (f : SForm) : Bool := f.fn == 0
def ptset (f : SForm) : Bool := f.fn.toNat ≤ 1 && f.rs2 == 0
/-- The six unit codes of a convoy header, unit 0 first. -/
def convoyUnits (f : CForm) : List Nat :=
  [f.u0.toNat, f.u1.toNat, f.u2.toNat, f.u3.toNat, f.u4.toNat, f.u5.toNat]
/-- The header's own checks (R65): N − 2 is at most 4, the first N units are classes, the rest are 7, none twice. -/
def convoyHeader (f : CForm) : Bool :=
  let n := f.n.toNat + 2
  f.n.toNat ≤ 4 && ((convoyUnits f).take n).all (· != 7) && ((convoyUnits f).drop n).all (· == 7) &&
  ((convoyUnits f).take n).Nodup

/-! ### Vector instructions -/

def setvl (f : VForm) : Bool :=
  f.noTokens && f.near && xField f.vd && xField f.vs1 && f.fmt.toNat ≤ 14 && f.zeros [.vs2, .vm, .vs3, .g, .rm, .fn, .xs]
def setvlw (f : VForm) : Bool :=
  f.noTokens && f.near && xField f.vd && xField f.vs1 && xField f.vs2 && xField f.vs3 && f.fmt.toNat ≤ 14 && f.scopeOk &&
  f.zeros [.vm, .g, .fn, .xs]
def vcfg (f : VForm) : Bool :=
  f.noTokens && f.near && f.fn.toNat ≤ 3 && f.zeros [.vd, .vs1, .vs2, .vm, .vs3, .fmt, .g, .rm, .xs]

/-- What element-wise instructions share: tokens, placement, G − 1 zero. -/
def ew (op : Nat) (f : VForm) : Bool := f.tokensOk op && f.nearOrFar [.vd, .vs1, .vs2] && f.g == 0
/-- The same, near only. -/
def ewNear (op : Nat) (f : VForm) : Bool := f.tokensOk op && f.near && f.g == 0

def vint (f : VForm) : Bool := ew 0x83 f && f.fmt.toNat ≤ 3 && f.fn.toNat ≤ 14 && f.xsOpt && f.rm == 0
def vmul (f : VForm) : Bool := ew 0x84 f && f.fmt.toNat ≤ 3 && f.fn.toNat ≤ 5 && f.xsOpt && f.rm == 0
def vsat (f : VForm) : Bool :=
  ew 0x85 f && f.fmt.toNat ≤ 3 && f.fn.toNat ≤ 8 && f.xsOpt && f.rmIf (6 ≤ f.fn.toNat)
def vmulw (f : VForm) : Bool :=
  ew 0x86 f && f.fmt.toNat ≤ 2 && f.fn.toNat ≤ 5 && f.xsOpt && f.rm == 0 && aligned f.vd 2 &&
  apart f.vd 2 f.vs1 1 && (f.xs == 1 || apart f.vd 2 f.vs2 1)
def vaddw (f : VForm) : Bool :=
  ew 0x87 f && f.fmt.toNat ≤ 2 && f.fn.toNat ≤ 5 && f.xsOpt && f.rm == 0 && aligned f.vd 2 &&
  (if f.fn.toNat ≥ 4 then aligned f.vs1 2 else apart f.vd 2 f.vs1 1) && (f.xs == 1 || apart f.vd 2 f.vs2 1)
def vnarrow (f : VForm) : Bool :=
  ew 0x88 f && f.fmt.toNat ≤ 2 && f.fn.toNat ≤ 5 && (if f.fn.toNat ≤ 3 then f.xsNo && f.vs2 == 0 else f.xsOpt) &&
  f.rmIf (4 ≤ f.fn.toNat) && aligned f.vs1 2 && apart f.vd 1 f.vs1 2
def vabsd (f : VForm) : Bool :=
  ew 0x89 f && f.fmt.toNat ≤ 3 && f.fn.toNat ≤ 4 && (if f.fn.toNat = 4 then f.xsNo && f.vs2 == 0 else f.xsOpt) && f.rm == 0
def vbitc (f : VForm) : Bool :=
  ew 0x8A f && f.fmt.toNat ≤ 3 && f.fn.toNat ≤ 4 && !(f.fn.toNat == 4 && f.fmt == 0) && f.xsNo && f.vs2 == 0 && f.rm == 0
/-- FMT 6 to 9 (R152). -/
def fp (f : VForm) : Bool := 6 ≤ f.fmt.toNat && f.fmt.toNat ≤ 9
def vfalu (f : VForm) : Bool := ew 0x8B f && fp f && f.fn.toNat ≤ 8 && f.xsOpt && f.rmIf (f.fn.toNat ≤ 3)
def vfma (f : VForm) : Bool :=
  ew 0x8C f && fp f && f.fn.toNat ≤ 4 && f.xsOpt && f.rmIf true &&
  (f.fn.toNat != 4 || (f.fmt.toNat != 9 && aligned f.vd 2 && apart f.vd 2 f.vs1 1 && (f.xs == 1 || apart f.vd 2 f.vs2 1)))
def vfdiv (f : VForm) : Bool :=
  ew 0x8D f && fp f && f.fn.toNat ≤ 2 && (if f.fn.toNat = 2 then f.xsNo && f.vs2 == 0 else f.xsOpt) && f.rmIf true
def vfsqrt (f : VForm) : Bool :=
  ew 0x8E f && fp f && f.fn.toNat ≤ 1 && f.xsNo && f.vs2 == 0 && f.rmIf true
def vfexp2 (f : VForm) : Bool :=
  ew 0x8F f && fp f && f.fn.toNat ≤ 1 && (if f.fn.toNat = 0 then f.xsNo && f.vs2 == 0 else f.xsOpt) && f.rmIf true
def vfclass (f : VForm) : Bool :=
  ew 0x90 f && 4 ≤ f.fmt.toNat && f.fmt.toNat ≤ 9 && f.xsNo && f.vs2 == 0 && f.zeros [.fn, .rm]
/-- A mask register as a destination: m1 to m7 (R20). -/
def maskDst (r : BitVec 6) : Bool := 0 < r.toNat && r.toNat < 8
def vcmp (f : VForm) : Bool :=
  ewNear 0x91 f && maskDst f.vd && f.fmt.toNat ≤ 9 && f.fn.toNat ≤ 10 && f.xsOpt && f.rm == 0 &&
  !(6 ≤ f.fn.toNat && f.fn.toNat ≤ 9 && f.fmt.toNat > 3) && !(f.fn.toNat == 10 && f.fmt.toNat ≤ 3)
def vmlog (f : VForm) : Bool :=
  ewNear 0x92 f && maskDst f.vd && f.vs1.toNat < 8 && f.vs2.toNat < 8 && f.fn.toNat ≤ 14 &&
  f.zeros [.vm, .vs3, .xs, .rm, .fmt] && (f.fn.toNat < 8 || f.vs2 == 0) && !(8 ≤ f.fn.toNat && f.fn.toNat ≤ 9 && f.vs1 != 0)
def vmpop (f : VForm) : Bool :=
  ewNear 0x93 f && xField f.vd && f.vs1.toNat < 8 && f.fn.toNat ≤ 2 && f.zeros [.vs2, .vs3, .xs, .rm, .fmt]
def vsel (f : VForm) : Bool := ew 0x94 f && f.fmt.toNat ≤ 9 && f.fn == 0 && f.xsOpt && f.rm == 0
/-- The width that a VCVT or VQUANT operand occupies against its reference (R158, R141). -/
def vcvtRef (dst src : Nat) : Nat :=
  if fmtIsBlock src then src else if fmtWidth src < fmtWidth dst then src else dst
/-- VCVT (R158). Integer to integer and same-format copies round nothing, so RM is zero there (R145; log 21). -/
def vcvt (f : VForm) : Bool :=
  let d := f.fmt.toNat; let s := f.fn.toNat; let r := vcvtRef d s
  let gd := groupOf r (fmtWidth d); let gs := if fmtIsBlock s then 1 else groupOf r (fmtWidth s)
  f.tokensOk 0x95 && f.nearOrFar [.vd, .vs1] && !(f.p == 1 && fmtIsBlock s) && f.g == 0 && d ≤ 9 && s ≤ 14 &&
  f.vs3.toNat < 16 && f.zeros [.vs2, .xs] && f.rmIf (d != s && !(fmtIsInt d && fmtIsInt s)) &&
  !(f.vs3.toNat % 2 == 1 && !fmtIsInt s) && !(f.vs3.toNat / 2 % 2 == 1 && !fmtIsInt d) &&
  !(f.vs3.toNat / 4 % 2 == 1 && d != 4) && !(f.vs3.toNat / 8 % 2 == 1 && !(fmtIsInt d && fmtIsInt s)) &&
  gd ≤ 8 && gs ≤ 8 && aligned f.vd gd && aligned f.vs1 gs &&
  (fmtWidth d == fmtWidth s || apart f.vd gd f.vs1 gs)
/-- VQUANT's source format (R159). -/
def vquantSrc (f : VForm) : Nat := match f.fn.toNat % 4 with | 0 => 6 | 1 => 7 | _ => 8
def vquant (f : VForm) : Bool :=
  let gs := groupOf f.fmt.toNat (fmtWidth (vquantSrc f))
  ewNear 0x96 f && fmtIsBlock f.fmt.toNat && f.fn.toNat % 4 != 3 && !(f.fn.toNat ≥ 8 && f.fmt.toNat > 11) &&
  f.vs3.toNat < 3 && f.zeros [.vs2, .xs] && f.rmIf true && gs ≤ 8 && aligned f.vs1 gs && apart f.vd 1 f.vs1 gs
def vblkhdr (f : VForm) : Bool :=
  ewNear 0x97 f && fmtIsBlock f.fmt.toNat && f.rm == 0 &&
  (match f.fn.toNat with
   | 0 => f.zeros [.vs2, .vm, .xs, .vs3] && aligned f.vd (groupOf f.fmt.toNat 32)
   | 1 => f.zeros [.vs1, .xs, .vs3] && aligned f.vs2 (groupOf f.fmt.toNat 32)
   | 2 => f.xsReq && f.zeros [.vs1, .vm]
   | _ => false)
/-- R161: the record indices of a block FMT are INT16, in a group of that reference (R141). -/
def vperm (f : VForm) : Bool :=
  let gi := if fmtIsBlock f.fmt.toNat then groupOf f.fmt.toNat 16 else 1
  ew 0x98 f && f.fmt.toNat ≤ 14 && f.fn == 0 && f.xsNo && f.rm == 0 && aligned f.vs2 gi && apart f.vd 1 f.vs1 1 &&
  apart f.vd 1 f.vs2 gi
def vpermb (f : VForm) : Bool :=
  ewNear 0x99 f && f.fmt == 0 && f.fn.toNat ≤ 1 && f.xs == 0 && f.rm == 0 && f.vd != f.vs1 && f.vd != f.vs2 && f.vd != f.vs3
def vslide (f : VForm) : Bool := ew 0x9A f && f.fmt.toNat ≤ 9 && f.fn.toNat ≤ 4 && f.xsReq && f.rm == 0 && f.vd != f.vs1
def vcompress (f : VForm) : Bool :=
  ewNear 0x9B f && f.fmt.toNat ≤ 9 && f.fn.toNat ≤ 1 && f.xsNo && f.vs2 == 0 && f.rm == 0 && f.vd != f.vs1
def vexpand (f : VForm) : Bool :=
  ewNear 0x9C f && f.fmt.toNat ≤ 9 && f.fn.toNat ≤ 1 && f.xsNo && f.vs2 == 0 && f.rm == 0 && f.vd != f.vs1
def vsplat (f : VForm) : Bool :=
  ew 0x9D f && f.fmt.toNat ≤ 9 && f.fn.toNat ≤ 1 && f.xsReq && f.rm == 0 &&
  (if f.fn = 0 then f.vs1 == 0 else f.vd != f.vs1)
def vmvx (f : VForm) : Bool :=
  ewNear 0x9E f && f.fmt.toNat ≤ 9 && f.fn.toNat ≤ 2 && f.xsReq && f.zeros [.rm, .vm] &&
  (if f.fn.toNat = 2 then xField f.vs1 else xField f.vd)
def vmvv (f : VForm) : Bool :=
  ew 0x9F f && f.xsNo && f.zeros [.vs2, .rm] &&
  (match f.fn.toNat with | 0 => f.fmt.toNat ≤ 14 | 1 => f.zeros [.fmt, .vm] | _ => false)
def viota (f : VForm) : Bool :=
  f.tokensOk 0xA0 && f.nearOrFar [.vd] && f.g == 0 && f.fmt.toNat ≤ 3 && f.fn.toNat ≤ 2 && f.xsNo && f.zeros [.vs2, .rm] &&
  f.vs1.toNat < 8 && !(f.fn == 1 && f.vs1 != 0)
/-- FN and FMT of the reductions (R166): integers take FN 0 to 7, FMT 6 to 9 take sum, max and min; FMT 4 and 5, and
maxu and minu of a floating-point format, are refused, which R166 leaves open (log 21). -/
def redOp (fn fmt : Nat) : Bool := fn ≤ 7 && (fmt ≤ 3 || (6 ≤ fmt && fmt ≤ 9 && fn ≤ 2))
def vred (f : VForm) : Bool :=
  ew 0xA1 f && redOp f.fn.toNat f.fmt.toNat && f.xsOpt && f.rmIf (fp f && f.fn == 0)
def vredo (f : VForm) : Bool :=
  ew 0xA2 f && redOp f.fn.toNat f.fmt.toNat && f.xsOpt && f.rmIf (fp f && f.fn == 0)
def vscan (f : VForm) : Bool :=
  ewNear 0xA3 f && redOp (f.fn.toNat % 8) f.fmt.toNat && f.xsOpt && f.rmIf (fp f && f.fn.toNat % 8 == 0) &&
  (f.fn.toNat < 8 || (f.vd != f.vs1 && (f.xs == 1 || f.vd != f.vs2)))
def vrecur (f : VForm) : Bool :=
  ewNear 0xA4 f && (f.fmt.toNat ≤ 3 || fp f) && f.fn == 0 && f.xs == 0 && f.rmIf (fp f)
def vtopk (f : VForm) : Bool :=
  let gd := groupOf f.fmt.toNat 32
  ewNear 0xA5 f && (f.fmt.toNat ≤ 3 || fp f) && f.fn.toNat ≤ 1 && f.xsReq && f.rm == 0 && aligned f.vd gd && apart f.vd gd f.vs1 1

/-- What vector memory instructions share (R282): base in VS1, SCOPE in RM. -/
def vmem (op : Nat) (f : VForm) : Bool := f.tokensOk op && xField f.vs1 && f.scopeOk
def vstride (f : VForm) : Bool := f.vs2 == 0 && (if f.xs = 1 then xField f.vs3 else f.vs3 == 0)
def vld (f : VForm) : Bool := vmem 0xA6 f && f.nearOrFar [.vd] && vstride f && f.fmt.toNat ≤ 14 && f.fn == 0 && f.ordLoad
def vldff (f : VForm) : Bool := vmem 0xA7 f && f.near && vstride f && f.fmt.toNat ≤ 14 && f.fn == 0 && f.ordLoad
def vst (f : VForm) : Bool := vmem 0xA9 f && f.nearOrFar [.vd] && vstride f && f.fmt.toNat ≤ 14 && f.fn.toNat ≤ 1 && f.ordStore
/-- The width of an index operand (R282): IW 0 INT32, 1 INT64, 2 INT16. -/
def iwOf (f : VForm) : Nat := match f.fn.toNat / 4 with | 0 => 32 | 1 => 64 | _ => 16
/-- The index group's fields: IW is not 3, the group is aligned, SC takes no block format. -/
def vindex (f : VForm) : Bool :=
  let gi := groupOf f.fmt.toNat (iwOf f)
  f.xs == 0 && f.fn.toNat / 4 != 3 && !(f.vs3.toNat % 2 == 1 && fmtIsBlock f.fmt.toNat) && (f.p == 1 || (gi ≤ 8 && aligned f.vs2 gi))
def vldx (f : VForm) : Bool :=
  vmem 0xA8 f && f.nearOrFar [.vd, .vs2] && vindex f && f.vs3.toNat ≤ 1 && f.fmt.toNat ≤ 14 && f.ordLoad &&
  !(f.fn.toNat / 2 % 2 == 1 && f.p == 1)
def vstx (f : VForm) : Bool :=
  vmem 0xAA f && f.nearOrFar [.vd, .vs2] && vindex f && f.vs3.toNat ≤ 3 && f.fmt.toNat ≤ 14 && f.ordStore
def vstxa (f : VForm) : Bool :=
  vmem 0xAB f && f.nearOrFar [.vd, .vs2] && vindex f && f.vs3.toNat ≤ 1 && f.fmt.toNat ≤ 3 && f.ordStore && f.fn.toNat / 2 % 2 == 0
def vhandle (op : Nat) (f : VForm) : Bool :=
  f.tokensOk op && f.near && f.vs1.toNat < 16 && xField f.vs2 && xField f.vs3 && f.fmt.toNat ≤ 14 && f.scopeOk && f.xs == 0 &&
  f.fn.toNat < 8
def vldh (f : VForm) : Bool := vhandle 0xAC f && f.fn.toNat < 4 && f.ordLoad
def vsth (f : VForm) : Bool := vhandle 0xAD f && f.ordStore
def vls (f : VForm) : Bool :=
  f.tokensOk 0xAE && f.near && f.fmt.toNat ≤ 9 && f.zeros [.vs1, .vs2, .vs3, .g, .rm, .xs]

/-! ### Matrix and attention -/

/-- FMT and FN of VMMA and VMMAX (R180, R181). -/
def mmaFn (f : VForm) : Bool :=
  match f.fmt.toNat with
  | 0 => f.fn.toNat ≤ 3 | 4 => f.fn.toNat ≤ 1 | 5 => f.fn.toNat ≤ 1 | 6 => f.fn == 0 | 7 => f.fn == 0 | _ => false
def vmma (f : VForm) : Bool := f.tokensOk 0xAF && f.near && mmaFn f && f.zeros [.vd, .rm, .xs]
def vmmax (f : VForm) : Bool := f.tokensOk 0xB0 && f.near && mmaFn f && xField f.vd && f.zeros [.rm, .xs]
def vmmaq (f : VForm) : Bool :=
  f.tokensOk 0xB1 && f.near && fmtIsBlock f.fmt.toNat && f.fn.toNat / 4 != 3 && f.zeros [.vd, .rm, .xs]
def tmem (op : Nat) (f : VForm) : Bool :=
  f.tokensOk op && f.near && xField f.vd && xField f.vs1 && xField f.vs2 && f.fmt.toNat ≤ 9 && f.scopeOk && f.xs == 0 &&
  (if f.fn.toNat % 2 = 1 then f.fn.toNat / 2 != 7 else f.fn == 0)
def tld (f : VForm) : Bool := tmem 0xB2 f && f.ordLoad
def tst (f : VForm) : Bool := tmem 0xB3 f && f.ordStore
def tmov (f : VForm) : Bool :=
  f.tokensOk 0xB4 && f.near && f.fmt.toNat ≤ 9 && f.fn.toNat < 8 && xField f.vs2 && f.g == 0 && f.xs == 0 &&
  f.rmIf (f.fn.toNat / 2 % 2 == 1) && (if f.fn.toNat % 2 = 1 then f.vs1 == 0 else f.vd == 0)
def tzero (f : VForm) : Bool :=
  f.tokensOk 0xB5 && f.near && xField f.vs2 && f.zeros [.vd, .vs1, .fmt, .g, .rm, .fn, .xs]
def tflags (f : VForm) : Bool :=
  f.tokensOk 0xB6 && f.near && xField f.vd && f.fn.toNat ≤ 1 && f.zeros [.vs1, .vs2, .vs3, .vm, .fmt, .g, .rm, .xs]
def vsoft (f : VForm) : Bool :=
  f.tokensOk 0xB7 && f.near && f.vd.toNat < 16 && 4 ≤ f.fmt.toNat && f.fmt.toNat ≤ 7 && f.fn.toNat ≤ 3 && f.zeros [.rm, .xs]
def vsmerge (f : VForm) : Bool :=
  f.tokensOk 0xB8 && f.near && f.vd.toNat < 16 && f.zeros [.vs1, .vs2, .fmt, .rm, .fn, .xs]

/-! ### Engines, far and bank-level -/

def yxfer (f : VForm) : Bool :=
  f.tokensOk 0xB9 && f.p == 1 && f.fn.toNat ≤ 1 && f.fmt.toNat ≤ 9 && f.zeros [.vs2, .vs3, .g, .rm, .xs] &&
  (if f.fn = 0 then f.vd.toNat < 8 else f.vs1.toNat < 8)
/-- FMT of VCOLL (R335). -/
def collFmt (f : VForm) : Bool :=
  if f.fn.toNat = 3 then f.fmt.toNat ≤ 9 else f.fmt.toNat == 2 || f.fmt.toNat == 3 || fp f
def vcoll (f : VForm) : Bool :=
  f.tokensOk 0xBA && f.near && f.fn.toNat ≤ 4 && collFmt f && f.vs3.toNat < 4 && f.zeros [.vs2, .rm, .g, .xs] &&
  (f.fn.toNat < 3 || f.vm == 0)
def fbind (f : VForm) : Bool :=
  f.tokensOk 0xC1 && f.near && f.vd.toNat < 8 && xField f.vs1 && f.zeros [.vs2, .vs3, .vm, .fmt, .g, .rm, .fn, .xs]
def frel (f : VForm) : Bool :=
  f.tokensOk 0xC2 && f.near && f.vd.toNat < 8 && f.zeros [.vs1, .vs2, .vs3, .vm, .fmt, .g, .rm, .fn, .xs]
def fdone (f : VForm) : Bool :=
  f.tokensOk 0xC3 && f.p == 1 && xField f.vd && f.zeros [.vs1, .vs2, .vs3, .vm, .fmt, .g, .rm, .fn, .xs]
def yired (f : VForm) : Bool :=
  f.tokensOk 0xC4 && f.p == 1 && xField f.vs1 && f.fn.toNat < 8 && f.fn.toNat % 4 != 3 && (f.fn.toNat / 4 % 2 == 1 || f.vd.toNat < 8) &&
  (f.fmt.toNat == 2 || f.fmt.toNat == 6 || f.fmt.toNat == 7 || f.fmt.toNat == 8) && f.rm.toNat != 7 && f.rm.toNat != 5 &&
  f.zeros [.vs2, .vs3, .vm, .g, .xs]
def ybop (f : VForm) : Bool :=
  f.tokensOk 0xC5 && f.p == 1 && xField f.vd && xField f.vs1 && xField f.vs2 && xField f.vs3 && f.fn.toNat ≤ 5 &&
  (f.fmt.toNat ≤ 3 || fp f) && f.rmIf (fp f && f.fn.toNat ≤ 2) && f.zeros [.vm, .g, .xs] && (f.fn.toNat != 5 || f.vs2 == 0)
def ysync (f : VForm) : Bool :=
  f.tokensOk 0xC6 && f.p == 1 && f.zeros [.vd, .vs1, .vs2, .vs3, .vm, .fmt, .g, .rm, .fn, .xs]
def flstream (f : VForm) : Bool :=
  f.tokensOk 0xC7 && f.near && xField f.vd && xField f.vs1 && xField f.vs2 && xField f.vs3 && f.fmt.toNat ≤ 9 &&
  f.zeros [.vm, .g, .rm, .xs]
def flpaged (f : VForm) : Bool :=
  f.tokensOk 0xC8 && f.near && xField f.vd && xField f.vs1 && f.fmt.toNat ≤ 9 && f.zeros [.vs2, .vs3, .vm, .g, .rm, .xs]
/-- R311, R314: KIND 0 to 2; folds take VRED's functions and formats, and round floating-point sums. -/
def flcopy (f : VForm) : Bool :=
  f.tokensOk 0xC9 && f.near && xField f.vd && xField f.vs1 && xField f.vs2 && f.fmt.toNat ≤ 9 && f.g.toNat ≤ 2 &&
  f.zeros [.vm, .xs] && (if f.g = 0 then f.zeros [.vs3, .rm] else f.vs3.toNat < 8 && redOp f.vs3.toNat f.fmt.toNat &&
    f.rmIf (fp f && f.vs3 == 0) && f.rm.toNat != 5)
def flwait (f : VForm) : Bool :=
  f.tokensOk 0xCA && f.near && xField f.vd && xField f.vs1 && f.zeros [.vs2, .vs3, .vm, .fmt, .g, .rm, .xs]
def flstop (f : VForm) : Bool :=
  f.tokensOk 0xCB && f.near && f.zeros [.vd, .vs1, .vs2, .vs3, .vm, .fmt, .g, .rm, .xs]
/-- What the Collator family shares (R213). -/
def cl (op : Nat) (f : VForm) : Bool := f.tokensOk op && f.near && f.zeros [.vs3, .vm, .rm, .g, .xs]
def clset (f : VForm) : Bool := cl 0xCC f && xField f.vs1 && f.fn.toNat ≤ 1 && f.zeros [.vd, .vs2, .fmt]
def clsplit (f : VForm) : Bool :=
  cl 0xCD f && f.fn.toNat ≤ 1 && f.zeros [.vs1, .vs2] &&
  (if f.fn = 1 then f.fmt.toNat == 2 || f.fmt.toNat == 3 else f.zeros [.vd, .fmt])
def clrun (f : VForm) : Bool := cl 0xCE f && xField f.vs1 && xField f.vs2 && f.fn.toNat < 8 && f.zeros [.vd, .fmt]
def clnext (f : VForm) : Bool := cl 0xCF f && f.fn.toNat < 4 && (f.fmt.toNat == 2 || f.fmt.toNat == 3) && f.zeros [.vs1, .vs2]
def clsave (f : VForm) : Bool := cl 0xD0 f && xField f.vs1 && f.zeros [.vd, .vs2, .fmt, .fn]
def clrest (f : VForm) : Bool := cl 0xD1 f && xField f.vs1 && f.zeros [.vd, .vs2, .fmt, .fn]
def impose (f : VForm) : Bool :=
  f.tokensOk 0xD2 && f.near && f.vs1.toNat < 16 && xField f.vs2 && f.fn.toNat ≤ 3 && f.zeros [.vd, .vs3, .vm, .fmt, .g, .rm, .xs]
def impwait (f : VForm) : Bool :=
  f.tokensOk 0xD3 && f.near && f.vs1.toNat < 16 && f.zeros [.vd, .vs2, .vs3, .vm, .fmt, .g, .rm, .fn, .xs]
def collwait (f : VForm) : Bool :=
  f.tokensOk 0xD4 && f.near && f.vs3.toNat < 4 && f.zeros [.vd, .vs1, .vs2, .vm, .fmt, .g, .rm, .fn, .xs]
def tkclr (f : VForm) : Bool :=
  f.noTokens && f.near && f.zeros [.vd, .vs1, .vs2, .vs3, .vm, .fmt, .g, .rm, .fn, .xs]

end Wf

/-- The encoding of the instruction is one the opcode map and the entry accept. An event has no encoding. -/
def Instr.wf : Instr → Bool
  | .alu f => Wf.alu f
  | .mul f => Wf.mul f
  | .div f => Wf.div f
  | .addi _ => true
  | .andi _ => true
  | .ori _ => true
  | .xori _ => true
  | .shi f => Wf.shi f
  | .lit32 f _ => Wf.lit32 f
  | .lit64 f _ => Wf.lit64 f
  | .lea f => Wf.lea f
  | .bitc f => Wf.bitc f
  | .cmp f => Wf.cmp f
  | .cmpi f => Wf.cmpi f
  | .glog f => Wf.glog f
  | .sel f => Wf.sel f
  | .falu f => Wf.falu f
  | .fma f => Wf.fma f
  | .fsqrt f => Wf.fsqrt f
  | .fcmp f => Wf.fcmp f
  | .fcvt f => Wf.fcvt f
  | .br _ => true
  | .cbr f => Wf.cbr f
  | .jal _ => true
  | .jalr _ => true
  | .rep f => Wf.rep f
  | .nop f => Wf.nop f
  | .ld f => Wf.ld f
  | .st f => Wf.st f
  | .amo f => Wf.amo f
  | .cas f => Wf.cas f
  | .fence f => Wf.fence f
  | .pfetch f => Wf.pfetch f
  | .stkfence f => Wf.stkfence f
  | .clnr f => Wf.maint f
  | .invr f => Wf.maint f
  | .cflr f => Wf.maint f
  | .waita f => Wf.waita f
  | .gsync f => Wf.allZero f
  | .fork f => Wf.fork f
  | .join f => Wf.join f
  | .joinl f => Wf.joinl f
  | .yield f => Wf.yield f
  | .halt f => Wf.allZero f
  | .launch f => Wf.launch f
  | .wmpub f => Wf.wmpub f
  | .wmwait f => Wf.wmwait f
  | .srd f => Wf.sreg f
  | .swr f => Wf.sreg f
  | .trap f => Wf.trap f
  | .tret f => Wf.allZero f
  | .hcall f => Wf.hcall f
  | .kdnew f => Wf.kdnew f
  | .kdnewRecycle f => Wf.kdnewRecycle f
  | .kdend f => Wf.fn0rs2 f
  | .pgref f => Wf.fn0rs2 f
  | .pgrefNew f => Wf.pgrefNew f
  | .pgrefSeal f => Wf.pgrefSeal f
  | .pgunref f => Wf.fn0rs2 f
  | .tlbinvPage f => Wf.tlbinv 0 f
  | .tlbinvAsid f => Wf.tlbinvAsid f
  | .tlbinvAll f => Wf.tlbinvAll f
  | .preempt f => Wf.preempt f
  | .fqdone f => Wf.fqdone f
  | .hset f => Wf.hset f
  | .hget f => Wf.hget f
  | .migr f => Wf.migr f
  | .ptset f => Wf.ptset f
  | .convoyHeader f => Wf.convoyHeader f
  | .setvl f => Wf.setvl f
  | .setvlw f => Wf.setvlw f
  | .vcfg f => Wf.vcfg f
  | .vint f => Wf.vint f
  | .vmul f => Wf.vmul f
  | .vsat f => Wf.vsat f
  | .vmulw f => Wf.vmulw f
  | .vaddw f => Wf.vaddw f
  | .vnarrow f => Wf.vnarrow f
  | .vabsd f => Wf.vabsd f
  | .vbitc f => Wf.vbitc f
  | .vfalu f => Wf.vfalu f
  | .vfma f => Wf.vfma f
  | .vfdiv f => Wf.vfdiv f
  | .vfsqrt f => Wf.vfsqrt f
  | .vfexp2 f => Wf.vfexp2 f
  | .vfclass f => Wf.vfclass f
  | .vcmp f => Wf.vcmp f
  | .vmlog f => Wf.vmlog f
  | .vmpop f => Wf.vmpop f
  | .vsel f => Wf.vsel f
  | .vcvt f => Wf.vcvt f
  | .vquant f => Wf.vquant f
  | .vblkhdr f => Wf.vblkhdr f
  | .vperm f => Wf.vperm f
  | .vpermb f => Wf.vpermb f
  | .vslide f => Wf.vslide f
  | .vcompress f => Wf.vcompress f
  | .vexpand f => Wf.vexpand f
  | .vsplat f => Wf.vsplat f
  | .vmvx f => Wf.vmvx f
  | .vmvv f => Wf.vmvv f
  | .viota f => Wf.viota f
  | .vred f => Wf.vred f
  | .vredo f => Wf.vredo f
  | .vscan f => Wf.vscan f
  | .vrecur f => Wf.vrecur f
  | .vtopk f => Wf.vtopk f
  | .vld f => Wf.vld f
  | .vldff f => Wf.vldff f
  | .vldx f => Wf.vldx f
  | .vst f => Wf.vst f
  | .vstx f => Wf.vstx f
  | .vstxa f => Wf.vstxa f
  | .vldh f => Wf.vldh f
  | .vsth f => Wf.vsth f
  | .vls f => Wf.vls f
  | .vmma f => Wf.vmma f
  | .vmmax f => Wf.vmmax f
  | .vmmaq f => Wf.vmmaq f
  | .tld f => Wf.tld f
  | .tst f => Wf.tst f
  | .tmov f => Wf.tmov f
  | .tzero f => Wf.tzero f
  | .tflags f => Wf.tflags f
  | .vsoft f => Wf.vsoft f
  | .vsmerge f => Wf.vsmerge f
  | .yxfer f => Wf.yxfer f
  | .vcoll f => Wf.vcoll f
  | .fbind f => Wf.fbind f
  | .frel f => Wf.frel f
  | .fdone f => Wf.fdone f
  | .yired f => Wf.yired f
  | .ybop f => Wf.ybop f
  | .ysync f => Wf.ysync f
  | .flstream f => Wf.flstream f
  | .flpaged f => Wf.flpaged f
  | .flcopy f => Wf.flcopy f
  | .flwait f => Wf.flwait f
  | .flstop f => Wf.flstop f
  | .clset f => Wf.clset f
  | .clsplit f => Wf.clsplit f
  | .clrun f => Wf.clrun f
  | .clnext f => Wf.clnext f
  | .clsave f => Wf.clsave f
  | .clrest f => Wf.clrest f
  | .impose f => Wf.impose f
  | .impwait f => Wf.impwait f
  | .collwait f => Wf.collwait f
  | .tkclr f => Wf.tkclr f
  | .vectorIssue _ => false
  | .heldEntryWrite _ => false
  | .parkedHartRestart _ => false
  | .fqhead _ => false
  | .specialRegisterWrite _ _ => false
  | .launchRecordCheck _ => false
  | .watermarkRecheck _ => false
  | .gangPlacement _ _ _ => false
  | .priorityAging _ => false
  | .grantNarrowing _ _ => false
  | .preemptionRequest _ _ => false
  | .preemptionHalt _ => false
  | .contextSave _ => false
  | .leaseGrant _ _ => false
  | .waitaWake _ => false
  | .waitaTimeout _ => false
  | .yieldExpiry _ => false
  | .watermarkPass _ => false
  | .farExecute _ => false
  | .bankAction _ => false
  | .flumeFetch _ _ => false
  | .flumeCopyElement _ _ => false
  | .tileConversion _ => false
  | .collectivePhase _ => false
  | .copyOnWrite _ _ => false
  | .linkCrcReplay _ _ _ => false
  | .linkRetrain _ _ => false
  | .ualinkRequest _ _ => false
  | .remotePackageReset _ => false
  | .deviceReset _ => false
  | .attestationRequest _ _ => false
  | .securityVersionRaise _ => false
  | .doorbell _ _ => false
  | .qring _ _ => false
  | .pcap _ => false
  | .hostRegisterWrite _ _ => false
  | .apertureAccess _ _ _ _ => false
  | .rawApertureAccess _ _ _ _ => false
  | .endTask _ => false
  | .hostPreempt _ => false
  | .notify _ => false
  | .invpage _ _ _ => false
  | .fqcomp _ _ _ _ => false
  | .illegalInstruction _ => false
  | .fetchFault => false
  | .maintenanceEffect _ => false
  | .podTableUpdate _ _ => false

end Sys2Proof
end

