-- ==== Sys2Proof/Decode.lean ====
section
/-! DEFINITION. Decoding bytes to instructions and encoding instructions to parcels (R49, R54, R60, R64, R67 to R70, R72). -/

namespace Sys2Proof

/-- Why bytes are no instruction. -/
inductive DecodeError where
  | truncated   -- fewer bytes than the length of R49
  | unassigned  -- an opcode outside the map (R72)
  | reserved    -- a reserved bit is not zero (R60, R68)
  | illFormed   -- a field value the entry does not accept (R62, R63, R65)
  deriving DecidableEq, Repr

/-! ### Fields of a parcel -/

/-- A parcel is four bytes, the lowest address first (R49). -/
def parcelOfBytes (b0 b1 b2 b3 : Byte) : BitVec 32 := b3 ++ b2 ++ b1 ++ b0

/-- The bytes of a parcel, the lowest address first. -/
def bytesOfParcel (p : BitVec 32) : List Byte :=
  [p.extractLsb' 0 8, p.extractLsb' 8 8, p.extractLsb' 16 8, p.extractLsb' 24 8]

/-- The opcode of a first parcel (R49). -/
def opcodeOf (p : BitVec 32) : BitVec 8 := p.extractLsb' 0 8

/-- The fields of an S-format parcel (R54). -/
def SForm.ofParcel (p : BitVec 32) : SForm where
  fn := p.extractLsb' 27 5
  gn := p.extractLsb' 26 1
  g := p.extractLsb' 23 3
  rs2 := p.extractLsb' 18 5
  rs1 := p.extractLsb' 13 5
  rd := p.extractLsb' 8 5

/-- The S-format parcel of an opcode and fields. -/
def SForm.parcel (f : SForm) (op : BitVec 8) : BitVec 32 :=
  f.fn ++ f.gn ++ f.g ++ f.rs2 ++ f.rs1 ++ f.rd ++ op

/-- The fields of an I-format parcel (R54). -/
def IForm.ofParcel (p : BitVec 32) : IForm where
  imm := p.extractLsb' 22 10
  gn := p.extractLsb' 21 1
  g := p.extractLsb' 18 3
  rs1 := p.extractLsb' 13 5
  rd := p.extractLsb' 8 5

/-- The I-format parcel. -/
def IForm.parcel (f : IForm) (op : BitVec 8) : BitVec 32 := f.imm ++ f.gn ++ f.g ++ f.rs1 ++ f.rd ++ op

/-- The fields of an M-format parcel (R54). -/
def MForm.ofParcel (p : BitVec 32) : MForm where
  imm := p.extractLsb' 26 6
  scope := p.extractLsb' 23 3
  ord := p.extractLsb' 21 2
  w := p.extractLsb' 18 3
  rs1 := p.extractLsb' 13 5
  rd := p.extractLsb' 8 5

/-- The M-format parcel. -/
def MForm.parcel (f : MForm) (op : BitVec 8) : BitVec 32 :=
  f.imm ++ f.scope ++ f.ord ++ f.w ++ f.rs1 ++ f.rd ++ op

/-- The fields of a B-format parcel (R54). -/
def BForm.ofParcel (p : BitVec 32) : BForm where
  off := p.extractLsb' 12 20
  gn := p.extractLsb' 11 1
  g := p.extractLsb' 8 3

/-- The B-format parcel. -/
def BForm.parcel (f : BForm) (op : BitVec 8) : BitVec 32 := f.off ++ f.gn ++ f.g ++ op

/-- The fields of a J-format parcel (R54). -/
def JForm.ofParcel (p : BitVec 32) : JForm where
  off := p.extractLsb' 13 19
  rd := p.extractLsb' 8 5

/-- The J-format parcel. -/
def JForm.parcel (f : JForm) (op : BitVec 8) : BitVec 32 := f.off ++ f.rd ++ op

/-- The fields of SRD and SWR (R68). -/
def SrForm.ofParcel (p : BitVec 32) : SrForm where
  num := p.extractLsb' 13 12
  rd := p.extractLsb' 8 5

/-- Bits [31:25] of SRD and SWR must be zero (R68). -/
def SrForm.reserved (p : BitVec 32) : BitVec 7 := p.extractLsb' 25 7

/-- The SRD or SWR parcel. -/
def SrForm.parcel (f : SrForm) (op : BitVec 8) : BitVec 32 := (0 : BitVec 7) ++ f.num ++ f.rd ++ op

/-- The fields of a convoy header (R64). -/
def CForm.ofParcel (p : BitVec 32) : CForm where
  guard := p.extractLsb' 29 3
  u5 := p.extractLsb' 26 3
  u4 := p.extractLsb' 23 3
  u3 := p.extractLsb' 20 3
  u2 := p.extractLsb' 17 3
  u1 := p.extractLsb' 14 3
  u0 := p.extractLsb' 11 3
  n := p.extractLsb' 8 3

/-- The convoy header's parcel. -/
def CForm.parcel (f : CForm) (op : BitVec 8) : BitVec 32 :=
  f.guard ++ f.u5 ++ f.u4 ++ f.u3 ++ f.u2 ++ f.u1 ++ f.u0 ++ f.n ++ op

/-- The fields of the low and the high parcel of the V format (R60). -/
def VForm.ofParcels (lo hi : BitVec 32) : VForm where
  vd := lo.extractLsb' 8 6
  vs1 := lo.extractLsb' 14 6
  vs2 := lo.extractLsb' 20 6
  vm := lo.extractLsb' 26 3
  p := lo.extractLsb' 29 1
  vs3 := hi.extractLsb' 0 6
  fmt := hi.extractLsb' 6 4
  slot := hi.extractLsb' 10 3
  g := hi.extractLsb' 13 3
  rm := hi.extractLsb' 16 3
  tpop := hi.extractLsb' 19 1
  popu := hi.extractLsb' 20 3
  tpsh := hi.extractLsb' 23 1
  pshu := hi.extractLsb' 24 3
  fn := hi.extractLsb' 27 4
  xs := hi.extractLsb' 31 1

/-- Bits [31:30] of the V format must be zero (R60). -/
def VForm.reserved (lo : BitVec 32) : BitVec 2 := lo.extractLsb' 30 2

/-- The low parcel of the V format. -/
def VForm.low (f : VForm) (op : BitVec 8) : BitVec 32 :=
  (0 : BitVec 2) ++ f.p ++ f.vm ++ f.vs2 ++ f.vs1 ++ f.vd ++ op

/-- The high parcel of the V format. -/
def VForm.high (f : VForm) : BitVec 32 :=
  f.xs ++ f.fn ++ f.pshu ++ f.tpsh ++ f.popu ++ f.tpop ++ f.rm ++ f.g ++ f.slot ++ f.fmt ++ f.vs3

/-! ### Lengths (R49) -/

/-- An opcode of the V format. -/
def opIsV (op : Nat) : Bool := (0x80 ≤ op && op ≤ 0xBA) || (0xC1 ≤ op && op ≤ 0xD5)

/-- Parcels of an instruction with this opcode (R49). -/
def opParcels (op : Nat) : Nat :=
  if opIsV op then 2 else if op = 0x09 then 2 else if op = 0x0A then 3 else 1

/-! ### The opcode map -/

/-- The V-format instruction of an opcode and its fields (R69, R70). -/
def vInstr (op : Nat) (f : VForm) : Option Instr :=
  match op with
  | 0x80 => some (.setvl f)
  | 0x81 => some (.setvlw f)
  | 0x82 => some (.vcfg f)
  | 0x83 => some (.vint f)
  | 0x84 => some (.vmul f)
  | 0x85 => some (.vsat f)
  | 0x86 => some (.vmulw f)
  | 0x87 => some (.vaddw f)
  | 0x88 => some (.vnarrow f)
  | 0x89 => some (.vabsd f)
  | 0x8A => some (.vbitc f)
  | 0x8B => some (.vfalu f)
  | 0x8C => some (.vfma f)
  | 0x8D => some (.vfdiv f)
  | 0x8E => some (.vfsqrt f)
  | 0x8F => some (.vfexp2 f)
  | 0x90 => some (.vfclass f)
  | 0x91 => some (.vcmp f)
  | 0x92 => some (.vmlog f)
  | 0x93 => some (.vmpop f)
  | 0x94 => some (.vsel f)
  | 0x95 => some (.vcvt f)
  | 0x96 => some (.vquant f)
  | 0x97 => some (.vblkhdr f)
  | 0x98 => some (.vperm f)
  | 0x99 => some (.vpermb f)
  | 0x9A => some (.vslide f)
  | 0x9B => some (.vcompress f)
  | 0x9C => some (.vexpand f)
  | 0x9D => some (.vsplat f)
  | 0x9E => some (.vmvx f)
  | 0x9F => some (.vmvv f)
  | 0xA0 => some (.viota f)
  | 0xA1 => some (.vred f)
  | 0xA2 => some (.vredo f)
  | 0xA3 => some (.vscan f)
  | 0xA4 => some (.vrecur f)
  | 0xA5 => some (.vtopk f)
  | 0xA6 => some (.vld f)
  | 0xA7 => some (.vldff f)
  | 0xA8 => some (.vldx f)
  | 0xA9 => some (.vst f)
  | 0xAA => some (.vstx f)
  | 0xAB => some (.vstxa f)
  | 0xAC => some (.vldh f)
  | 0xAD => some (.vsth f)
  | 0xAE => some (.vls f)
  | 0xAF => some (.vmma f)
  | 0xB0 => some (.vmmax f)
  | 0xB1 => some (.vmmaq f)
  | 0xB2 => some (.tld f)
  | 0xB3 => some (.tst f)
  | 0xB4 => some (.tmov f)
  | 0xB5 => some (.tzero f)
  | 0xB6 => some (.tflags f)
  | 0xB7 => some (.vsoft f)
  | 0xB8 => some (.vsmerge f)
  | 0xB9 => some (.yxfer f)
  | 0xBA => some (.vcoll f)
  | 0xC1 => some (.fbind f)
  | 0xC2 => some (.frel f)
  | 0xC3 => some (.fdone f)
  | 0xC4 => some (.yired f)
  | 0xC5 => some (.ybop f)
  | 0xC6 => some (.ysync f)
  | 0xC7 => some (.flstream f)
  | 0xC8 => some (.flpaged f)
  | 0xC9 => some (.flcopy f)
  | 0xCA => some (.flwait f)
  | 0xCB => some (.flstop f)
  | 0xCC => some (.clset f)
  | 0xCD => some (.clsplit f)
  | 0xCE => some (.clrun f)
  | 0xCF => some (.clnext f)
  | 0xD0 => some (.clsave f)
  | 0xD1 => some (.clrest f)
  | 0xD2 => some (.impose f)
  | 0xD3 => some (.impwait f)
  | 0xD4 => some (.collwait f)
  | 0xD5 => some (.tkclr f)
  | _ => none

/-- The opcode and the fields of a V-format instruction. -/
def Instr.vForm : Instr → Option (BitVec 8 × VForm)
  | .setvl f => some (0x80, f)
  | .setvlw f => some (0x81, f)
  | .vcfg f => some (0x82, f)
  | .vint f => some (0x83, f)
  | .vmul f => some (0x84, f)
  | .vsat f => some (0x85, f)
  | .vmulw f => some (0x86, f)
  | .vaddw f => some (0x87, f)
  | .vnarrow f => some (0x88, f)
  | .vabsd f => some (0x89, f)
  | .vbitc f => some (0x8A, f)
  | .vfalu f => some (0x8B, f)
  | .vfma f => some (0x8C, f)
  | .vfdiv f => some (0x8D, f)
  | .vfsqrt f => some (0x8E, f)
  | .vfexp2 f => some (0x8F, f)
  | .vfclass f => some (0x90, f)
  | .vcmp f => some (0x91, f)
  | .vmlog f => some (0x92, f)
  | .vmpop f => some (0x93, f)
  | .vsel f => some (0x94, f)
  | .vcvt f => some (0x95, f)
  | .vquant f => some (0x96, f)
  | .vblkhdr f => some (0x97, f)
  | .vperm f => some (0x98, f)
  | .vpermb f => some (0x99, f)
  | .vslide f => some (0x9A, f)
  | .vcompress f => some (0x9B, f)
  | .vexpand f => some (0x9C, f)
  | .vsplat f => some (0x9D, f)
  | .vmvx f => some (0x9E, f)
  | .vmvv f => some (0x9F, f)
  | .viota f => some (0xA0, f)
  | .vred f => some (0xA1, f)
  | .vredo f => some (0xA2, f)
  | .vscan f => some (0xA3, f)
  | .vrecur f => some (0xA4, f)
  | .vtopk f => some (0xA5, f)
  | .vld f => some (0xA6, f)
  | .vldff f => some (0xA7, f)
  | .vldx f => some (0xA8, f)
  | .vst f => some (0xA9, f)
  | .vstx f => some (0xAA, f)
  | .vstxa f => some (0xAB, f)
  | .vldh f => some (0xAC, f)
  | .vsth f => some (0xAD, f)
  | .vls f => some (0xAE, f)
  | .vmma f => some (0xAF, f)
  | .vmmax f => some (0xB0, f)
  | .vmmaq f => some (0xB1, f)
  | .tld f => some (0xB2, f)
  | .tst f => some (0xB3, f)
  | .tmov f => some (0xB4, f)
  | .tzero f => some (0xB5, f)
  | .tflags f => some (0xB6, f)
  | .vsoft f => some (0xB7, f)
  | .vsmerge f => some (0xB8, f)
  | .yxfer f => some (0xB9, f)
  | .vcoll f => some (0xBA, f)
  | .fbind f => some (0xC1, f)
  | .frel f => some (0xC2, f)
  | .fdone f => some (0xC3, f)
  | .yired f => some (0xC4, f)
  | .ybop f => some (0xC5, f)
  | .ysync f => some (0xC6, f)
  | .flstream f => some (0xC7, f)
  | .flpaged f => some (0xC8, f)
  | .flcopy f => some (0xC9, f)
  | .flwait f => some (0xCA, f)
  | .flstop f => some (0xCB, f)
  | .clset f => some (0xCC, f)
  | .clsplit f => some (0xCD, f)
  | .clrun f => some (0xCE, f)
  | .clnext f => some (0xCF, f)
  | .clsave f => some (0xD0, f)
  | .clrest f => some (0xD1, f)
  | .impose f => some (0xD2, f)
  | .impwait f => some (0xD3, f)
  | .collwait f => some (0xD4, f)
  | .tkclr f => some (0xD5, f)
  | _ => none

/-- The one-parcel instruction of an opcode and its parcel (R67, R68, C0 of R64). -/
def parcelInstr (op : Nat) (p : BitVec 32) : Except DecodeError Instr :=
  match op with
  | 0x01 => .ok (.alu (.ofParcel p))
  | 0x02 => .ok (.mul (.ofParcel p))
  | 0x03 => .ok (.div (.ofParcel p))
  | 0x04 => .ok (.addi (.ofParcel p))
  | 0x05 => .ok (.andi (.ofParcel p))
  | 0x06 => .ok (.ori (.ofParcel p))
  | 0x07 => .ok (.xori (.ofParcel p))
  | 0x08 => .ok (.shi (.ofParcel p))
  | 0x0B => .ok (.lea (.ofParcel p))
  | 0x0C => .ok (.bitc (.ofParcel p))
  | 0x0D => .ok (.cmp (.ofParcel p))
  | 0x0E => .ok (.cmpi (.ofParcel p))
  | 0x0F => .ok (.glog (.ofParcel p))
  | 0x10 => .ok (.sel (.ofParcel p))
  | 0x11 => .ok (.falu (.ofParcel p))
  | 0x12 => .ok (.fma (.ofParcel p))
  | 0x13 => .ok (.fsqrt (.ofParcel p))
  | 0x14 => .ok (.fcmp (.ofParcel p))
  | 0x15 => .ok (.fcvt (.ofParcel p))
  | 0x16 => .ok (.br (.ofParcel p))
  | 0x17 => .ok (.cbr (.ofParcel p))
  | 0x18 => .ok (.jal (.ofParcel p))
  | 0x19 => .ok (.jalr (.ofParcel p))
  | 0x1A => .ok (.rep (.ofParcel p))
  | 0x1B => .ok (.nop (.ofParcel p))
  | 0x1C => .ok (.ld (.ofParcel p))
  | 0x1D => .ok (.st (.ofParcel p))
  | 0x1E => .ok (.amo (.ofParcel p))
  | 0x1F => .ok (.cas (.ofParcel p))
  | 0x20 => .ok (.fence (.ofParcel p))
  | 0x21 => .ok (.pfetch (.ofParcel p))
  | 0x40 => .ok (.stkfence (.ofParcel p))
  | 0x41 => .ok (.clnr (.ofParcel p))
  | 0x42 => .ok (.invr (.ofParcel p))
  | 0x43 => .ok (.cflr (.ofParcel p))
  | 0x44 => .ok (.waita (.ofParcel p))
  | 0x45 => .ok (.gsync (.ofParcel p))
  | 0x46 => .ok (.fork (.ofParcel p))
  | 0x47 => .ok (.join (.ofParcel p))
  | 0x48 => .ok (.joinl (.ofParcel p))
  | 0x49 => .ok (.yield (.ofParcel p))
  | 0x4A => .ok (.halt (.ofParcel p))
  | 0x4B => .ok (.launch (.ofParcel p))
  | 0x4C => .ok (.wmpub (.ofParcel p))
  | 0x4D => .ok (.wmwait (.ofParcel p))
  | 0x4E => if SrForm.reserved p = 0 then .ok (.srd (.ofParcel p)) else .error .reserved
  | 0x4F => if SrForm.reserved p = 0 then .ok (.swr (.ofParcel p)) else .error .reserved
  | 0x50 => .ok (.trap (.ofParcel p))
  | 0x51 => .ok (.tret (.ofParcel p))
  | 0x52 => .ok (.hcall (.ofParcel p))
  | 0x53 =>
    match (SForm.ofParcel p).fn.toNat with
    | 0 => .ok (.kdnew (.ofParcel p))
    | 1 => .ok (.kdnewRecycle (.ofParcel p))
    | _ => .error .illFormed
  | 0x54 => .ok (.kdend (.ofParcel p))
  | 0x55 =>
    match (SForm.ofParcel p).fn.toNat with
    | 0 => .ok (.pgref (.ofParcel p))
    | 1 => .ok (.pgrefNew (.ofParcel p))
    | 2 => .ok (.pgrefSeal (.ofParcel p))
    | _ => .error .illFormed
  | 0x56 => .ok (.pgunref (.ofParcel p))
  | 0x57 =>
    match (SForm.ofParcel p).fn.toNat % 4 with
    | 0 => .ok (.tlbinvPage (.ofParcel p))
    | 1 => .ok (.tlbinvAsid (.ofParcel p))
    | 2 => .ok (.tlbinvAll (.ofParcel p))
    | _ => .error .illFormed
  | 0x58 => .ok (.preempt (.ofParcel p))
  | 0x59 => .ok (.fqdone (.ofParcel p))
  | 0x5A => .ok (.hset (.ofParcel p))
  | 0x5B => .ok (.hget (.ofParcel p))
  | 0x5C => .ok (.migr (.ofParcel p))
  | 0x5D => .ok (.ptset (.ofParcel p))
  | 0xC0 => .ok (.convoyHeader (.ofParcel p))
  | _ => .error .unassigned

/-- The instruction that parcels hold, its own parcels only, before the checks of WellFormed. -/
def decodeParcels : List (BitVec 32) → Except DecodeError (Instr × List (BitVec 32))
  | [] => .error .truncated
  | p :: ps =>
    let op := (opcodeOf p).toNat
    if opIsV op then
      match ps with
      | [] => .error .truncated
      | hi :: rest =>
        if VForm.reserved p = 0 then
          match vInstr op (.ofParcels p hi) with
          | some i => .ok (i, rest)
          | none => .error .unassigned
        else .error .reserved
    else if op = 0x09 then
      match ps with
      | [] => .error .truncated
      | l :: rest => .ok (.lit32 (.ofParcel p) l, rest)
    else if op = 0x0A then
      match ps with
      | l :: h :: rest => .ok (.lit64 (.ofParcel p) (h ++ l), rest)
      | _ => .error .truncated
    else
      match parcelInstr op p with
      | .ok i => .ok (i, ps)
      | .error e => .error e

/-- The parcels of bytes; up to three bytes at the end make no parcel. -/
def parcels : List Byte → List (BitVec 32)
  | b0 :: b1 :: b2 :: b3 :: rest => parcelOfBytes b0 b1 b2 b3 :: parcels rest
  | _ => []

/-- Decoding, total on any bytes: the instruction with the parcels after it, or why there is none. What it refuses
raises illegal instruction (R72); the alignment of R50 is checked where the address is known, at the fetch. -/
def decode (bs : List Byte) : Except DecodeError (Instr × List (BitVec 32)) :=
  match decodeParcels (parcels bs) with
  | .ok (i, rest) => if i.wf then .ok (i, rest) else .error .illFormed
  | .error e => .error e

/-! ### Encoding -/

/-- The parcels of an instruction, in order; an event has none. -/
def encode : Instr → List (BitVec 32)
  | .lit32 f l => [f.parcel 0x09, l]
  | .lit64 f l => [f.parcel 0x0A, l.extractLsb' 0 32, l.extractLsb' 32 32]
  | .alu f => [f.parcel 0x01]
  | .mul f => [f.parcel 0x02]
  | .div f => [f.parcel 0x03]
  | .addi f => [f.parcel 0x04]
  | .andi f => [f.parcel 0x05]
  | .ori f => [f.parcel 0x06]
  | .xori f => [f.parcel 0x07]
  | .shi f => [f.parcel 0x08]
  | .lea f => [f.parcel 0x0B]
  | .bitc f => [f.parcel 0x0C]
  | .cmp f => [f.parcel 0x0D]
  | .cmpi f => [f.parcel 0x0E]
  | .glog f => [f.parcel 0x0F]
  | .sel f => [f.parcel 0x10]
  | .falu f => [f.parcel 0x11]
  | .fma f => [f.parcel 0x12]
  | .fsqrt f => [f.parcel 0x13]
  | .fcmp f => [f.parcel 0x14]
  | .fcvt f => [f.parcel 0x15]
  | .br f => [f.parcel 0x16]
  | .cbr f => [f.parcel 0x17]
  | .jal f => [f.parcel 0x18]
  | .jalr f => [f.parcel 0x19]
  | .rep f => [f.parcel 0x1A]
  | .nop f => [f.parcel 0x1B]
  | .ld f => [f.parcel 0x1C]
  | .st f => [f.parcel 0x1D]
  | .amo f => [f.parcel 0x1E]
  | .cas f => [f.parcel 0x1F]
  | .fence f => [f.parcel 0x20]
  | .pfetch f => [f.parcel 0x21]
  | .stkfence f => [f.parcel 0x40]
  | .clnr f => [f.parcel 0x41]
  | .invr f => [f.parcel 0x42]
  | .cflr f => [f.parcel 0x43]
  | .waita f => [f.parcel 0x44]
  | .gsync f => [f.parcel 0x45]
  | .fork f => [f.parcel 0x46]
  | .join f => [f.parcel 0x47]
  | .joinl f => [f.parcel 0x48]
  | .yield f => [f.parcel 0x49]
  | .halt f => [f.parcel 0x4A]
  | .launch f => [f.parcel 0x4B]
  | .wmpub f => [f.parcel 0x4C]
  | .wmwait f => [f.parcel 0x4D]
  | .srd f => [f.parcel 0x4E]
  | .swr f => [f.parcel 0x4F]
  | .trap f => [f.parcel 0x50]
  | .tret f => [f.parcel 0x51]
  | .hcall f => [f.parcel 0x52]
  | .kdnew f => [f.parcel 0x53]
  | .kdnewRecycle f => [f.parcel 0x53]
  | .kdend f => [f.parcel 0x54]
  | .pgref f => [f.parcel 0x55]
  | .pgrefNew f => [f.parcel 0x55]
  | .pgrefSeal f => [f.parcel 0x55]
  | .pgunref f => [f.parcel 0x56]
  | .tlbinvPage f => [f.parcel 0x57]
  | .tlbinvAsid f => [f.parcel 0x57]
  | .tlbinvAll f => [f.parcel 0x57]
  | .preempt f => [f.parcel 0x58]
  | .fqdone f => [f.parcel 0x59]
  | .hset f => [f.parcel 0x5A]
  | .hget f => [f.parcel 0x5B]
  | .migr f => [f.parcel 0x5C]
  | .ptset f => [f.parcel 0x5D]
  | .convoyHeader f => [f.parcel 0xC0]
  | .setvl f => [f.low 0x80, f.high]
  | .setvlw f => [f.low 0x81, f.high]
  | .vcfg f => [f.low 0x82, f.high]
  | .vint f => [f.low 0x83, f.high]
  | .vmul f => [f.low 0x84, f.high]
  | .vsat f => [f.low 0x85, f.high]
  | .vmulw f => [f.low 0x86, f.high]
  | .vaddw f => [f.low 0x87, f.high]
  | .vnarrow f => [f.low 0x88, f.high]
  | .vabsd f => [f.low 0x89, f.high]
  | .vbitc f => [f.low 0x8A, f.high]
  | .vfalu f => [f.low 0x8B, f.high]
  | .vfma f => [f.low 0x8C, f.high]
  | .vfdiv f => [f.low 0x8D, f.high]
  | .vfsqrt f => [f.low 0x8E, f.high]
  | .vfexp2 f => [f.low 0x8F, f.high]
  | .vfclass f => [f.low 0x90, f.high]
  | .vcmp f => [f.low 0x91, f.high]
  | .vmlog f => [f.low 0x92, f.high]
  | .vmpop f => [f.low 0x93, f.high]
  | .vsel f => [f.low 0x94, f.high]
  | .vcvt f => [f.low 0x95, f.high]
  | .vquant f => [f.low 0x96, f.high]
  | .vblkhdr f => [f.low 0x97, f.high]
  | .vperm f => [f.low 0x98, f.high]
  | .vpermb f => [f.low 0x99, f.high]
  | .vslide f => [f.low 0x9A, f.high]
  | .vcompress f => [f.low 0x9B, f.high]
  | .vexpand f => [f.low 0x9C, f.high]
  | .vsplat f => [f.low 0x9D, f.high]
  | .vmvx f => [f.low 0x9E, f.high]
  | .vmvv f => [f.low 0x9F, f.high]
  | .viota f => [f.low 0xA0, f.high]
  | .vred f => [f.low 0xA1, f.high]
  | .vredo f => [f.low 0xA2, f.high]
  | .vscan f => [f.low 0xA3, f.high]
  | .vrecur f => [f.low 0xA4, f.high]
  | .vtopk f => [f.low 0xA5, f.high]
  | .vld f => [f.low 0xA6, f.high]
  | .vldff f => [f.low 0xA7, f.high]
  | .vldx f => [f.low 0xA8, f.high]
  | .vst f => [f.low 0xA9, f.high]
  | .vstx f => [f.low 0xAA, f.high]
  | .vstxa f => [f.low 0xAB, f.high]
  | .vldh f => [f.low 0xAC, f.high]
  | .vsth f => [f.low 0xAD, f.high]
  | .vls f => [f.low 0xAE, f.high]
  | .vmma f => [f.low 0xAF, f.high]
  | .vmmax f => [f.low 0xB0, f.high]
  | .vmmaq f => [f.low 0xB1, f.high]
  | .tld f => [f.low 0xB2, f.high]
  | .tst f => [f.low 0xB3, f.high]
  | .tmov f => [f.low 0xB4, f.high]
  | .tzero f => [f.low 0xB5, f.high]
  | .tflags f => [f.low 0xB6, f.high]
  | .vsoft f => [f.low 0xB7, f.high]
  | .vsmerge f => [f.low 0xB8, f.high]
  | .yxfer f => [f.low 0xB9, f.high]
  | .vcoll f => [f.low 0xBA, f.high]
  | .fbind f => [f.low 0xC1, f.high]
  | .frel f => [f.low 0xC2, f.high]
  | .fdone f => [f.low 0xC3, f.high]
  | .yired f => [f.low 0xC4, f.high]
  | .ybop f => [f.low 0xC5, f.high]
  | .ysync f => [f.low 0xC6, f.high]
  | .flstream f => [f.low 0xC7, f.high]
  | .flpaged f => [f.low 0xC8, f.high]
  | .flcopy f => [f.low 0xC9, f.high]
  | .flwait f => [f.low 0xCA, f.high]
  | .flstop f => [f.low 0xCB, f.high]
  | .clset f => [f.low 0xCC, f.high]
  | .clsplit f => [f.low 0xCD, f.high]
  | .clrun f => [f.low 0xCE, f.high]
  | .clnext f => [f.low 0xCF, f.high]
  | .clsave f => [f.low 0xD0, f.high]
  | .clrest f => [f.low 0xD1, f.high]
  | .impose f => [f.low 0xD2, f.high]
  | .impwait f => [f.low 0xD3, f.high]
  | .collwait f => [f.low 0xD4, f.high]
  | .tkclr f => [f.low 0xD5, f.high]
  | .vectorIssue _ => []
  | .heldEntryWrite _ => []
  | .parkedHartRestart _ => []
  | .fqhead _ => []
  | .specialRegisterWrite _ _ => []
  | .launchRecordCheck _ => []
  | .watermarkRecheck _ => []
  | .gangPlacement _ _ _ => []
  | .priorityAging _ => []
  | .grantNarrowing _ _ => []
  | .preemptionRequest _ _ => []
  | .preemptionHalt _ => []
  | .contextSave _ => []
  | .leaseGrant _ _ => []
  | .waitaWake _ => []
  | .waitaTimeout _ => []
  | .yieldExpiry _ => []
  | .watermarkPass _ => []
  | .farExecute _ => []
  | .bankAction _ => []
  | .flumeFetch _ _ => []
  | .flumeCopyElement _ _ => []
  | .tileConversion _ => []
  | .collectivePhase _ => []
  | .copyOnWrite _ _ => []
  | .linkCrcReplay _ _ _ => []
  | .linkRetrain _ _ => []
  | .ualinkRequest _ _ => []
  | .remotePackageReset _ => []
  | .deviceReset _ => []
  | .attestationRequest _ _ => []
  | .securityVersionRaise _ => []
  | .doorbell _ _ => []
  | .qring _ _ => []
  | .pcap _ => []
  | .hostRegisterWrite _ _ => []
  | .apertureAccess _ _ _ _ => []
  | .rawApertureAccess _ _ _ _ => []
  | .endTask _ => []
  | .hostPreempt _ => []
  | .notify _ => []
  | .invpage _ _ _ => []
  | .fqcomp _ _ _ _ => []
  | .illegalInstruction _ => []
  | .fetchFault => []
  | .maintenanceEffect _ => []
  | .podTableUpdate _ _ => []

/-- The bytes of an instruction in memory, the lowest address first. -/
def encodeBytes (i : Instr) : List Byte := (encode i).flatMap bytesOfParcel

/-! ### The opcode table's words -/

/-- The first n bytes of a word, the least significant first. -/
def bytesOfNat (w : Nat) : Nat → List Byte
  | 0 => []
  | n + 1 => BitVec.ofNat 8 w :: bytesOfNat (w / 256) n

/-- The instruction this decoder reads from `nbits` bits of an opcode-table word, every higher bit zero: parcels in the
order of R49, so bit 8k is the least significant bit of byte k; the longest instruction has 12 bytes. -/
def decodeTableWord (nbits w : Nat) : Option Instr :=
  match decode (bytesOfNat (w % 2 ^ nbits) 12) with
  | .ok (i, _) => some i
  | .error _ => none

end Sys2Proof
end

