-- ==== Sys2Proof/Config.lean ====
section
/-! DEFINITION. What an implementation fixes, and the free values: constants without a body, so that nothing can be
proved about which value they have. Each takes the value of the State field `fresh` (a plain counter), the operands,
or both (log 5). -/

namespace Sys2Proof.Config

/-- A value a rule leaves unspecified, taken at the counter `fresh` (log 5). -/
opaque free : Nat → Nat

/-- The byte read at a physical address under a key it was not last written under (R391): of the counter, the reading
key and the address, and of no plaintext (log 5). -/
opaque foreignByte : Nat → Nat → Nat → Byte

/-- AES-256-XTS on one 16-byte block (R391): of the slot and the key it holds, the seal, and PA[15:4], the place of the
block in its frame. Every key permutes the blocks; nothing else is assumed of it (log 13). -/
opaque cipher : Nat → Nat → Nat → Nat → (BitVec 128 ≃ BitVec 128)

/-- The host port is in CXL mode (R430, R432): a failed read returns poisoned data, else a completer abort (log 3). -/
opaque cxlMem : Bool

/-- The 32 bits the Clasp's DRBG draws for a SEAL (R387, R389), at the counter `fresh` (log 5). -/
opaque drbgSeal : Nat → BitVec 32

/-- Of a device reset and a core: the clocks by which the core left that reset before or after the model's count began
(R36): not specified (log 9). -/
opaque cycOffset : Nat → Nat → Word

/-- Whether element i or element j of an unordered scatter survives at a common byte (R288), at the counter (log 5). -/
opaque scatterKeepsFirst : Nat → Nat → Nat → Bool

/-- RSA-3072 verification of an image: body, signature (R4, R440; log 13). -/
opaque rsaVerifies : Nat → Nat → Bool

/-- SLH-DSA-SHA2-192s verification of an image: body, signature (R4, R440; log 13). -/
opaque slhVerifies : Nat → Nat → Bool

/-- The RSA-3072 PSS signature over the first 0x120 bytes of evidence (R443; log 13). -/
opaque rsaSign : Nat → Nat

/-- The SLH-DSA-SHA2-192s signature over the first 0x120 bytes of evidence (R443; log 13). -/
opaque slhSign : Nat → Nat

/-- The contents of the boot ROM as it is measured (R443; log 13). -/
opaque bootRom : Nat

/-- The device's serial number (R443; log 13). -/
opaque serial : Nat

/-- The two certificates the mailbox returns (R442; log 13). -/
opaque certificates : Nat

/-- The pseudo-channel of a physical address (R425): the spec gives no mapping (log 14). -/
opaque pseudoChannel : Nat → BitVec 6

/-- What the firmware a power-on reset finds does not fix and R441 lists: the package number in the pod (log 3). -/
def podIdBeforeFirmware : Nat := 0

/-- The VIQ holds 64 entries (R1). -/
def viqDepth : Nat := 64

/-- The entries of a core's TLB and of a cluster's second level (R1, R378). -/
def coreTlb : Nat := 1024
def clusterTlb : Nat := 32768

/-- The granules of a 64 KiB L1I (R1, R229). -/
def l1iGranules : Nat := 2048

/-- The 128-byte lines of a Landing's M-cache of 128 MiB, and of a package's two L2s of 96 MiB (R1, R229). -/
def mcacheLines : Nat := 1048576
def l2Lines : Nat := 1572864

/-- A token FIFO holds 16 tokens (R1, R315). -/
def tokenDepth : Nat := 16

/-- A hart has at most 16 accepted maintenance operations not yet in effect (R279). -/
def maintDepth : Nat := 16

end Sys2Proof.Config
end

