-- ==== Sys2Proof/Machine/Tab.lean ====
section
/-! DEFINITION. Sparse tables: lists of (key, value) in one canonical form, keys strictly rising and no entry equal to
what an unlisted key reads as. Memory is such a table of bytes (Host.Cell). -/

namespace Sys2Proof.Machine

/-- A sparse table from numbers to values. -/
abbrev Tab (α : Type) := List (Nat × α)

namespace Tab

variable {α : Type}

/-- The value at key k; an unlisted key reads as d. -/
def get (d : α) : Tab α → Nat → α
  | [], _ => d
  | (a, v) :: t, k => if a = k then v else get d t k

/-- The table without key k. -/
def erase : Tab α → Nat → Tab α
  | [], _ => []
  | (a, v) :: t, k => if a = k then erase t k else (a, v) :: erase t k

/-- The table with (k, v) before the first greater key. -/
def insert : Tab α → Nat → α → Tab α
  | [], k, v => [(k, v)]
  | (a, w) :: t, k, v => if k < a then (k, v) :: (a, w) :: t else (a, w) :: insert t k v

/-- The table with v at key k, in canonical form: the value an unlisted key reads as is not listed. -/
def put [DecidableEq α] (d : α) (t : Tab α) (k : Nat) (v : α) : Tab α :=
  if v = d then t.erase k else (t.erase k).insert k v

/-- Every key of the table is above k. -/
def above (k : Nat) : Tab α → Bool
  | [] => true
  | (a, _) :: _ => k < a

/-- The canonical form: keys strictly rising, no value equal to d. -/
def wf [DecidableEq α] (d : α) : Tab α → Bool
  | [] => true
  | (a, v) :: t => v ≠ d && above a t && wf d t

/-- The keys of a table. -/
def keys (t : Tab α) : List Nat := t.map (·.1)

end Tab

/-- Memory: the bytes that differ from what an unlisted address reads as. -/
abbrev Memory := List Host.Cell

/-- What an unlisted address reads as: zero (log 4). -/
def Memory.unlisted : Byte := 0

/-- The canonical form of a memory. -/
abbrev Memory.wf (m : Memory) : Bool := Tab.wf (α := Byte) Memory.unlisted m

/-- The byte at an address. -/
def Memory.read (m : Memory) (a : Nat) : Byte := Tab.get (α := Byte) Memory.unlisted m a

/-- The memory with a byte written. -/
def Memory.write (m : Memory) (a : Nat) (b : Byte) : Memory := Tab.put (α := Byte) Memory.unlisted m a b

/-- The n bytes from an address as a little-endian number (R5). -/
def Memory.readN (m : Memory) (a : Nat) : Nat → Nat
  | 0 => 0
  | n + 1 => (Memory.read m a).toNat + 256 * Memory.readN m (a + 1) n

/-- The memory with the low n bytes of a number written little-endian from an address. -/
def Memory.writeN (m : Memory) (a : Nat) (v : Nat) : Nat → Memory
  | 0 => m
  | n + 1 => Memory.writeN (Memory.write m a (BitVec.ofNat 8 v)) (a + 1) (v / 256) n

end Sys2Proof.Machine
end

