-- ==== Sys2Proof/Machine/State.lean ====
section
/-! DEFINITION. The state of the package: every hart, core, cluster, Landing, queue and port, as plain data; the reasons a
step can stop; and the state right after device reset. Each structure's docstring names the rules that give its fields. -/

namespace Sys2Proof.Machine

open Sys2Proof

/-! ### Stops -/

/-- Why the machine stops. -/
inductive Fault where
  /-- Raised by every step after a central-die-to-Landing link failed to retrain (R428 "The package stops"). Safe: the
  spec gives the package no further behaviour until a device reset. -/
  | packageStopped
  deriving DecidableEq, Repr

/-- Why an instruction has no meaning. -/
inductive Refusal where
  /-- Raised by an arm of exec whose instruction the model does not give a meaning yet. Safe: no next state is claimed. -/
  | notModelled (mnemonic : String)
  deriving DecidableEq, Repr

/-! ### Per hart -/

/-- A handle descriptor (R294), the fields of its 64 bytes. -/
structure Handle where
  base    : Word := 0
  oldBase : Word := 0
  ext0 : BitVec 32 := 0
  ext1 : BitVec 32 := 0
  ext2 : BitVec 32 := 0
  ext3 : BitVec 32 := 0
  goff0 : BitVec 32 := 0
  goff1 : BitVec 32 := 0
  goff2 : BitVec 32 := 0
  goff3 : BitVec 32 := 0
  pitch1 : BitVec 32 := 0
  pitch2 : BitVec 32 := 0
  padv   : BitVec 32 := 0
  tag    : BitVec 4 := 0
  oldTag : BitVec 4 := 0
  fmt    : BitVec 4 := 0
  rank1  : BitVec 2 := 0   -- RANK − 1
  pad    : BitVec 2 := 0
  impid  : BitVec 16 := 0  -- [11:0] IMPID, [15:12] reserved
  deriving DecidableEq, Repr

/-- A binding slot's FSTK register (R30). -/
structure Fstk where
  pkg   : BitVec 7 := 0
  stack : BitVec 3 := 0
  fctx  : BitVec 8 := 0
  bound : Bool := false
  lost  : Bool := false          -- the remote package was reset since: no route to the context (R439)
  deriving DecidableEq, Repr

/-- TSTAT (R403). -/
structure Tstat where
  shn    : BitVec 7 := 0
  rback  : BitVec 7 := 0
  rpos   : BitVec 5 := 0
  rb     : BitVec 5 := 0
  rreg   : BitVec 5 := 0
  ract   : Bool := false
  lvl    : Bool := false   -- true: S
  pl     : Bool := false
  inh    : Bool := false
  narrow : Bool := false
  ofe    : Bool := false
  dze    : Bool := false
  nve    : Bool := false
  deriving DecidableEq, Repr

/-- The repeat state (R135). -/
structure Repeat where
  active : Bool := false
  reg    : BitVec 5 := 0
  len    : Nat := 0        -- B
  pos    : Nat := 0        -- position in the body of the next instruction
  start  : Word := 0       -- address of the body's first instruction
  deriving DecidableEq, Repr

/-- An entry of the VIQ: the instruction, its address, and what it captured at entry (R107, R315, R404). -/
structure VEntry where
  seq   : Nat              -- its number among the hart's entries
  pc    : Word
  instr : Instr
  xd    : Word             -- x registers named by VD, VS1, VS2, VS3
  x1    : Word
  x2    : Word
  x3    : Word
  vl    : Option Nat       -- none: the VL an earlier queued instruction will trim (R218)
  dyn   : BitVec 3         -- RMODE.DYN at entry (R99)
  handle : Handle          -- h(VS1[17:14]) at entry (R296)
  popped   : Bool := false
  reserved : Bool := false
  imp    : Nat := 0          -- IMPOSE and IMPWAIT: the IMPID allocated or captured at entry (R329, R330)
  impFail : Option (Nat × Nat × Word) := none -- and the failure found there: code, DETAIL, value
  coll   : Option (Nat × Nat) := none -- VCOLL: the group and round it has joined (R336)
  convoy : Option Nat := none -- the convoy it entered with, by its first member's number (R352)
  dead   : Bool := false     -- a later scalar instruction has written its x destination (R108; log 21)
  ends   : Bool := false     -- its x result is the count at the end of the pass that the scalar side has reached (R134)
  again  : Bool := false     -- that failure has been raised: the entry's checks are made again (R329)
  until_ : Option Nat := none -- the element, pass or row at which a pre-emption halts it (R367)
  early  : Nat := 0          -- elements whose accesses have been performed ahead (R238; log 2)
  fence  : Bool := false     -- a FENCE of kind V→V follows it: nothing behind it is performed ahead of it (R240)
  flush  : Bool := false     -- and the FENCE is at SYSTEM scope: at its completion tier-1 stores reach the pool (R233)
  probe  : Bool := false     -- not queued, but looked ahead at: its accesses are noted (log 2)
  deriving DecidableEq, Repr

/-- A maintenance operation accepted and not yet in effect (R279). -/
inductive MaintKind where
  | clnr | invr | cflr
  deriving DecidableEq, Repr

/-- A maintenance operation: its kind, the physical lines of its range as (first line, lines), a line being an address
/ 128, and the VIQ entries it is ordered after (R249, R278, R279). -/
structure Maint where
  id    : Nat
  kind  : MaintKind
  lines : List (Nat × Nat)
  after : List Nat
  deriving DecidableEq, Repr

/-- A recorded STKFENCE (R280): its place among the hart's numbered work, its mask, the maintenance operations of the hart
before it, the bank-level commands before it that are accepted, and those still in the VIQ. -/
structure StkFence where
  id     : Nat
  mask   : BitVec 8
  maints : List Nat
  cmds   : List Nat
  queued : List Nat
  deriving DecidableEq, Repr

/-- The contents of a fault-queue entry but its SEQ (R414). -/
structure Entry where
  taskid : Nat
  addr   : Word
  val    : Word
  pc     : Word
  pte    : Word
  elem   : Nat
  hartid : Nat
  asid   : BitVec 16
  code   : Nat
  detail : Nat
  kind   : Nat
  src    : Nat
  deriving DecidableEq, Repr

/-- What a hart context is doing (R355 to R363, R415, R419). -/
inductive Run where
  | free                                            -- no hart in the context
  | running
  | parked (entry : Nat)                            -- on a fault entry, by its identifier (R415)
  | restart (code : Nat) (value : Word) (entry : Entry) -- its entry is completed; it restarts later (R419)
  | asleep (line : Nat) (until_ : Nat)              -- WAITA, on a 128-byte line (R362)
  | woken                                           -- WAITA's wake event came (R362)
  | yielding (until_ : Nat)                         -- R360
  | barrier (member : Bool)                         -- waiting at GSYNC (R359)
  | joined (v : BitVec 32)                          -- JOIN executed (R355)
  deriving DecidableEq, Repr

/-- What SKIP does about the latest unsorted-index fault of a cursor (R224): the side, the kind, and where the side stands
past it: unit, bit, positions counted. -/
structure ClSkip where
  side  : Nat
  kind  : Nat
  unit  : Nat
  bit   : Nat
  count : Nat
  deriving DecidableEq, Repr

/-- A page move between its steps 3 and 7 (R390): the instruction, the address, the leaf with MIG = 1 and its place, the two
frames. -/
structure Move where
  form : SForm
  va   : Nat
  leaf : Nat
  at_  : Nat
  src  : Nat
  dst  : Nat
  deriving DecidableEq, Repr

/-- A hart: the registers of R16 and R31 and the state the chapters give it. Scalar registers R23, guards R24, vector
storage R17, masks R20, handles R25, special registers R31, cursor R211, tokens R315, repeat R135, VIQ R107. -/
structure Hart where
  run    : Run := .free
  gang   : Nat := 0                -- key of its gang
  x      : Tab Word := []          -- x1 to x31; unlisted reads zero
  g      : BitVec 8 := 0           -- g1 to g7 in bits 1 to 7
  pc     : Word := 0
  v      : Tab Nat := []           -- vector registers as numbers; unlisted: invalid, reads zero
  m      : Tab Nat := []           -- m1 to m7
  h      : Tab Handle := []        -- h0 to h15
  vl     : BitVec 16 := 0
  vvl    : Nat := 0                -- the VL the latest trimming instruction left (R218)
  vlPending : Bool := false        -- VL is what a queued trimming instruction will leave (R218)
  vcfg   : BitVec 2 := 0
  vstart : BitVec 16 := 0
  gshift : BitVec 2 := 0           -- the grant this hart has taken (R35)
  first  : BitVec 5 := 0
  count  : BitVec 6 := 32
  flags  : BitVec 6 := 0
  nohint : Bool := false
  dyn    : BitVec 3 := 0
  srseed : BitVec 32 := 1
  fstk   : Tab Fstk := []
  vcp0   : Word := 0               -- VCP's reset value, the entry PC (R31; log 8)
  tvec   : Word := 0
  tcause : BitVec 17 := 0
  tpc    : Word := 0
  tval   : Word := 0
  tstat  : Tstat := {}
  cg     : Tab Word := []          -- CG0 to CG3
  ufcount : Word := 0
  asid   : BitVec 16 := 0
  ptbase : Word := 0               -- bits [51:17]
  fqbase : Word := 0               -- bits [51:12] and [4:0]
  keydom : BitVec 16 := 0          -- GEN, SLOT
  rep    : Repeat := {}
  viq    : List VEntry := []       -- not held, oldest first
  entered : Nat := 0               -- queue entries and maintenance operations numbered so far
  held   : List VEntry := []       -- held for the trap point (R405)
  heldVl : BitVec 16 := 0          -- the kept scalar-side VL
  heldVvl : Nat := 0
  heldPending : Bool := false
  tokens : Tab Nat := []           -- tokens in the FIFO from a to b, at key 8a + b
  resv   : Tab Nat := []           -- reservations in the FIFO
  cursor : Nat := 0                -- the 512-byte block of R211, little-endian
  splits : List (Nat × Nat) := []  -- CLSPLIT's points (R210), held in the Collator
  skip   : Option ClSkip := none   -- of the cursor's latest unsorted-index fault (R224)
  member : Bool := true            -- of the current barrier phase (R358)
  parent : Option Nat := none      -- the hart that forked it
  index  : Nat := 0                -- in the gang
  maint  : List Maint := []
  fences : List StkFence := []
  colls  : List (Nat × Nat × Nat) := [] -- per CG number: the group and round of the latest VCOLL (R337)
  tflags : BitVec 4 := 0           -- SAT, UF, OF, NV (R176)
  badv   : List (Nat × Nat) := []  -- poisoned 8-byte words of v registers: register, word (R424)
  badh   : List Nat := []          -- poisoned h registers (R424)
  callRd : BitVec 5 := 0           -- RD of the HCALL the hart waits at (R410, R418)
  answer : Option Nat := none      -- the count a waiting PREEMPT receives (R370)
  members : List (Instr × VForm) := [] -- members of a checked convoy still to enter the VIQ (R51, R65)
  convoy : Nat := 0                -- the number of the first of them (R352)
  noRoom : Bool := false           -- a handler's vector instruction has found no free VIQ entry (R406)
  dueAt  : Nat := 0                -- when its completion took effect, by the counter fresh (R419)
  move   : Option Move := none     -- MIGR past its step 3 (R390)
  ending : Option SForm := none    -- KDEND past its step 1 (R393)
  deriving DecidableEq, Repr

/-- A core's Flume stream (R305). -/
inductive StreamKind where
  | stream | paged | copy | foldo | foldu
  deriving DecidableEq, Repr

/-- Why a job paused or stopped (R303): a pending fault entry, or a failure taken at the instruction that needs it. -/
inductive JobStop where
  | none
  | entry (id : Nat)
  | failure (code detail : Nat) (value : Word)
  deriving DecidableEq, Repr

/-- The state of a stream (R305) with the parameters of its job (R306, R309 to R311). -/
structure Stream where
  job      : Nat                 -- the model's number of the job
  owner    : Nat                 -- hart key
  kind     : StreamKind
  pc       : Word                -- the instruction that started it
  fmt      : Nat
  avl      : Nat
  fetched  : Nat := 0
  consumed : Nat := 0
  stop     : JobStop := .none
  buf      : Nat := 0            -- buffer address
  cap      : Nat := 0            -- C, in elements
  base     : Nat := 0            -- source base, or xS
  stride   : Int := 0
  dst      : Nat := 0            -- xD
  op       : Nat := 0
  rm       : Nat := 0
  acc      : Nat := 0            -- fold accumulator
  strip    : List Nat := []      -- elements of the fold's current strip, latest first
  flags    : BitVec 6 := 0       -- flags of the fold
  blocks   : List Nat := []      -- PAGED: the table entries read, from the block of token `tok`
  bt       : Nat := 16           -- PAGED: BT
  tok      : Nat := 0            -- PAGED: TOK0 + PROG at the start
  headOff  : Nat := 0            -- PAGED: HEAD × HSTR
  rowElems : Nat := 1            -- PAGED: elements per row
  progAddr : Nat := 0            -- PAGED: address of PROG
  prog0    : Nat := 0            -- PAGED: PROG at the start
  progDone : Nat := 0            -- PAGED: rows stored in PROG since
  after    : List Nat := []      -- the earlier jobs it waits for (R253)
  regions  : List (Nat × Nat × Bool) := [] -- declared regions: first line, one past the last line, written (R304)
  token    : Option Nat := none  -- the FIFO its token goes to when it is done (R254)
  deriving DecidableEq, Repr

/-! ### Domains and sectors -/

/-- The identity a byte is encrypted under: package × 4096 + slot, the slot's key, and the frame's seal (R391). -/
structure Domain where
  kslot : Nat
  key  : Nat
  sealv : Nat
  deriving DecidableEq, Repr

/-- A cached 32-byte sector (R229, R292, R293): bytes as a little-endian number, byte-valid mask, the mask of the bytes
that coherent writes have made valid, dirty, poison, the domain of its copy, and the TASKID and ASID of the latest store. -/
structure Sector where
  data    : Nat
  valid   : Nat
  written : Nat
  dirty   : Bool
  poison  : Bool
  domain  : Domain
  task    : Nat
  asid    : BitVec 16
  deriving DecidableEq, Repr

/-! ### Gangs, tasks, queues -/

/-- The gang barrier register (R358). -/
structure Gbar where
  phase   : BitVec 8 := 0
  early   : BitVec 4 := 0
  arrived : BitVec 4 := 0
  next    : BitVec 4 := 0
  expect  : BitVec 4 := 0
  deriving DecidableEq, Repr

/-- A launch record (R341). -/
structure Record where
  entry   : Word := 0
  arg     : Word := 0
  status  : Word := 0
  scratch : Nat := 0
  gangs   : Nat := 0
  harts   : Nat := 0
  lanes   : Nat := 0
  vcfg    : Nat := 0
  farctx  : Nat := 0
  tilerows : Nat := 0
  prio    : Nat := 0
  asid    : BitVec 16 := 0
  nwm     : Nat := 0
  keydom  : Word := 0
  save    : Word := 0
  wms     : List (Word × Word) := []
  reservedZero : Bool := true
  deriving DecidableEq, Repr

/-- A hart of a suspended gang: its context, itself, and its streams (R368, R369). -/
structure SavedHart where
  ctx  : Nat
  hart : Hart
  streams : List (Nat × Stream)
  deriving DecidableEq, Repr

/-- The bytes visible when a gang was placed (R53): memory, the domains of its granules, the cached copies. -/
structure CodeView where
  mem     : Memory := []
  domains : List (Nat × Domain) := []
  sectors : List (Nat × Sector) := []
  deriving DecidableEq, Repr

/-- A gang placed on a core, or suspended with its saved harts (R14, R348, R368). -/
structure Gang where
  task   : Nat := 0               -- TASKID
  index  : Nat := 0
  gangid : BitVec 16 := 0
  splo   : Word := 0
  sphi   : Word := 0
  gshift : BitVec 2 := 0
  gbar   : Gbar := {}
  core   : Nat := 0               -- package core number
  since  : Nat := 0               -- clock of its suspension (R369)
  spilled : Bool := false
  saved  : List SavedHart := []   -- the retained harts of a suspended gang (log 12)
  tile   : List (Nat × Nat) := [] -- when suspended, its tile columns: row, contents in its lanes' places
  badTile : List (Nat × Nat) := []  -- and their poisoned words
  scratch : Memory := []          -- when spilled, its scratchpad bytes
  badScratch : List Nat := []
  image  : List Nat := []         -- when suspended, what its image held when it was stored, part by part (R368)
  suspended : Bool := false
  level  : Nat := 0               -- when suspended, its effective priority as aged (R349)
  grantAt : Option Nat := none    -- clock of the latest change of GSHIFT (R351)
  code   : CodeView := {}         -- what its harts' fetches may rely on (R53)
  deriving DecidableEq, Repr

/-- A live task (R340, R343). -/
structure Task where
  record : Record
  queue  : Nat
  slevel : Bool := false
  ptbase : Word := 0
  fqbase : Word := 0
  left   : Nat := 0                -- gangs not ended
  keydom : BitVec 16 := 0          -- after any replacement by FIXID
  deriving DecidableEq, Repr

/-- A status store that a page move or a copy holds (R233, R343): the task, its TASKID, the code. -/
structure HeldStatus where
  task : Task
  id   : Nat
  code : Nat
  deriving DecidableEq, Repr

/-- The record at the head of a queue (R347). -/
structure Head where
  record : Record
  task   : Nat
  placed : Nat := 0
  since  : Option Nat := none      -- t0: since when it is a candidate (R349)
  level  : Nat := 0                -- its effective priority as aged (R349)
  deriving DecidableEq, Repr

/-- A launch queue's context (R433) and the record at its head. -/
structure Queue where
  qring  : Word := 0
  stvec  : BitVec 8 := 0
  fqvec  : BitVec 8 := 0
  err    : Bool := false
  fixid  : Bool := false
  slevel : Bool := false
  devlaunch : Bool := false
  en     : Bool := false
  qptbase : Word := 0
  qfqbase : Word := 0
  qid    : BitVec 32 := 0
  qhead  : Word := 0
  qtail  : Word := 0
  head   : Option Head := none
  deriving DecidableEq, Repr

/-! ### Memory side -/

/-- What a read of a granule with a DRAM error finds (R421). -/
inductive DramErr where
  | none | transient | correctable | uncorrectable
  deriving DecidableEq, Repr

/-- A key slot (R391): state, generation, and the identity of its keys (which draw of the DRBG they are). `ending`: a KDEND has
taken it from LIVE and waits for what is under way (R393 steps 1 and 2). -/
inductive SlotState where
  | free | live | ending | spent
  deriving DecidableEq, Repr

structure KeySlot where
  state : SlotState := .free
  gen   : BitVec 4 := 0
  key   : Nat := 0
  deriving DecidableEq, Repr

/-- A TLB entry (R378): the TLB that holds it, a core's by the core's number or a cluster's second level as 384 + cluster;
the ASID, the page, the leaf and its address, the frame's seal, the key slot of the check. -/
structure TlbEntry where
  holder  : Nat
  asid    : BitVec 16
  big     : Bool              -- 512 MiB
  page    : Nat               -- va / 2^16 or va / 2^29, over 56 bits
  leaf    : Word
  leafPa  : Nat
  sealv   : Nat
  key     : Nat
  deriving DecidableEq, Repr

/-- What happens to an array of the device next: an eviction (R232, R378), or an error of an SRAM or a repair (R424, R428,
R429). -/
inductive ArrayEvent where
  | sector (g : Nat)                  -- a sector leaves the caches
  | translation (t : TlbEntry)        -- a translation leaves its TLB
  | code (key : Nat)                  -- a granule leaves an L1I
  | corrected (inst : Nat)            -- a single-bit error of a core (0 to 383) or of Landing 384 + n
  | badSector (g inst : Nat)          -- a double-bit error in the sector of a granule
  | badReg (hart reg w : Nat)         -- and in an 8-byte word of a v register,
  | badHandle (hart n : Nat)          -- of an h register,
  | badFar (ctx reg w : Nat)          -- of a y register,
  | badTile (core row w : Nat)        -- of the tile window,
  | badScratch (w : Nat)              -- of a scratchpad,
  | badControl (hart : Nat)           -- or in the control state of a hart
  | lanes (link n : Nat)              -- lanes mapped out at training
  | tsvs (stack n : Nat)              -- TSVs mapped out at training
  deriving DecidableEq, Repr

/-! ### Landings and engines -/

/-- A far context (R28, R323). -/
structure FarCtx where
  leased : Bool := false
  y      : Tab Nat := []
  done   : Word := 0
  bady   : List (Nat × Nat) := []  -- poisoned 8-byte words: register, word (R424)
  marks  : List (Nat × Nat) := []  -- words of elements that YIRED marked poisoned (R423)
  deriving DecidableEq, Repr

/-- A range of bytes at physical addresses under a domain: physical base, bytes, domain. A base of 2^64 or more is a
scratchpad place above 2^64. -/
structure Span where
  pa     : Nat
  bytes  : Nat
  domain : Domain
  deriving DecidableEq, Repr

/-- What a bank-level command does (R325, R326). -/
inductive BankOp where
  | yired (op fmt rm nelem : Nat) (rows : List (List Span)) (dst : List Span) (yd : Option Nat) (cword : Option Span)
  | ybop (op fmt rm n : Nat) (d a b : List Span) (vague : List (Nat × Nat)) -- elements left unspecified: first, count
  deriving DecidableEq, Repr

/-- A piece of spans read at the banks: offset, bytes, value, poisoned. -/
abbrev Piece := Nat × Nat × Nat × Bool

/-- A bank-level command accepted and not done (R248), with what its parts have done (R46). -/
structure BankCmd where
  id   : Nat
  hart : Nat
  gang : Nat
  ctx  : Nat                     -- Landing × 256 + context
  task : Nat
  asid : BitVec 16
  stackMask : BitVec 8           -- stacks of this package it touches
  token : Option Nat := none
  op   : BankOp
  got  : List (Nat × List Piece) := [] -- what its parts have read: row, pieces
  acted : List Nat := []         -- the Landings that have read their part, or of a YBOP made it
  wrote : List Nat := []         -- the Landings that have written their part of DST
  raised : Bool := false         -- it is done: only the add to CWORD is left (R325)
  deriving DecidableEq, Repr

/-- A conversion (R328, R329), with the translation state of its task. -/
structure Conv where
  job    : Nat                   -- the model's number of the job
  old    : Handle                -- the descriptor before IMPOSE
  new    : Handle                -- and after
  tiles  : Nat
  ndone  : Nat := 0
  got    : List Nat := []        -- of the tile being converted, the elements read so far (R256)
  put    : Nat := 0              -- and how many of them are written
  stored : List Nat := []        -- the tiles that a handle store has reached in their old storage (R266)
  accepted : Bool := false
  bay    : Nat
  hart   : Nat
  pc     : Word
  task   : Nat
  stop   : JobStop := .none
  asHart : Hart                  -- the ASID, PTBASE, KEYDOM, level and gang its accesses use
  splo   : Nat                   -- the scratchpad bounds of its gang
  sphi   : Nat
  after  : List Nat := []
  regions : List (Nat × Nat × Bool) := []
  token  : Option Nat := none
  deriving DecidableEq, Repr

/-- Where the bytes of an access are: a scratchpad place, or a physical address and the domain of its page. -/
inductive Place where
  | scratch (key : Nat)
  | phys (pa : Nat) (d : Domain)
  deriving DecidableEq, Repr

/-- The parts of a checked access: virtual address, bytes, place. -/
abbrev Access := List (Nat × Nat × Place)

/-- A member's contribution to a collective round (R335, R336), and the regions its job declares (R304). -/
structure Contribution where
  job    : Nat
  rank   : Nat
  hart   : Nat
  gang   : Nat
  values : List Nat              -- element encodings
  active : Nat                   -- mask of active elements
  regions : List (Nat × Nat × Bool) := []
  added  : Bool := false         -- the truncated contribution is added (step 2), or a gather's is written
  read   : Bool := false         -- its results are read
  trapped : Bool := false        -- it has taken the abort
  remote : Bool := false         -- a member in another package, `pkg` (R201, R428, R430)
  pkg    : Nat := 0
  deriving DecidableEq, Repr

/-- A round of a collective group (R336, R338), at the key of its descriptor's physical address. -/
structure Round where
  serial : Nat := 0
  op     : Nat := 0
  fmt    : Nat := 0
  vl     : Nat := 0
  nmem   : Nat := 0
  parts  : List Contribution := []
  aborted : Bool := false
  task   : Nat := 0              -- the task of the members (R336)
  desc   : Access := []          -- the descriptor and the buffer, as the first member translated them (R379)
  buf    : Access := []
  deriving DecidableEq, Repr

/-! ### Fault service and host -/

/-- Whom an entry's completion resumes: harts parked on it, or a job (R415, R416). -/
structure Pending where
  id     : Nat                   -- the model's identifier
  ring   : Word                  -- FQBASE
  seq    : Option Nat            -- none: held in the device (R413, R414)
  entry  : Entry
  harts  : List Nat
  stream : Option Nat            -- the number of the Flume job that paused on it
  conv   : Option Nat            -- IMPID
  deriving DecidableEq, Repr

/-- An aperture (R432). -/
structure Aperture where
  base : BitVec 36 := 0          -- [51:16]
  size : BitVec 21 := 0          -- [36:16]
  wr   : Bool := false
  en   : Bool := false
  raw  : Bool := false
  gen  : BitVec 4 := 0
  slot : BitVec 12 := 0
  deriving DecidableEq, Repr

/-- A pre-emption request under way at a core (R365, R366). -/
structure Preempting where
  spill   : Bool := false
  halted  : Option Nat := none   -- gangs halted, once every hart has halted
  waiters : List Nat := []       -- harts whose PREEMPT waits for the halt
  deriving DecidableEq, Repr

/-- The result of the latest access of a host or pod port, as the port returns it (R432, R438). -/
inductive PortReply where
  | none
  | done
  | data (bytes : List Byte)
  | poisoned
  | unsupported
  | aborted
  | evidence (bytes : Nat)         -- the 16,896 bytes of R443, little-endian
  | certificates (c : Nat)
  deriving DecidableEq, Repr

/-- The boundary (R430 to R445, R458). -/
structure Port where
  podId    : BitVec 7 := BitVec.ofNat 7 Config.podIdBeforeFirmware
  pcap     : BitVec 12 := 2400
  reason   : BitVec 8 := 0
  state    : BitVec 2 := 0
  apertures : Tab Aperture := []
  queues   : Tab Queue := []
  latch    : Tab Word := []       -- command page words 0x020, 0x028, 0x040, 0x048, 0x050
  cmds     : List (Nat × Word) := [] -- writes to the command page not yet taken, oldest first: offset, value (R379, R436)
  cdone    : Word := 0
  cres     : Word := 0
  msix     : List Nat := []       -- vectors signalled, latest first
  reply    : PortReply := .none
  podTable : List Nat := []       -- packages whose requests are accepted
  lostPkgs : List Nat := []       -- packages no route reaches (R428)
  fused    : Nat := 0             -- fused minimum security version
  image    : Nat := 0             -- the firmware image measured
  config   : Nat := 0             -- the firmware configuration measured
  errLog   : List Entry := []     -- package error log (R426)
  retired  : Tab (List Nat) := [] -- per Landing: retired frames (R422)
  counters : Tab Nat := []        -- R429: class × 4096 + instance
  narrowed : Bool := false        -- the power controller holds the package narrowed (R34, R351)
  mailbox  : PortReply := .none
  deriving DecidableEq, Repr

/-- Choices of order that the rules leave to the device (log 2): harts whose queue does not issue before a clock; of a hart,
the place in its queue of an entry and the mask of its elements whose accesses are performed ahead (R238); harts whose MIGR
shows its step 3 before it goes on; and the addresses and bytes that a look ahead at an instruction has noted, which no step
leaves. -/
structure Plan where
  late  : List (Nat × Nat) := []
  ahead : List (Nat × Nat × Nat) := []
  hold  : List Nat := []
  noted : List (Nat × Nat) := []
  deriving DecidableEq, Repr

/-- The state of the machine. -/
structure State where
  harts   : Tab Hart := []          -- package core × 8 + context
  gangs   : Tab Gang := []
  tasks   : List (Nat × Task) := [] -- live tasks by TASKID
  statuses : List HeldStatus := [] -- status stores not made yet, oldest first (R343)
  tiles   : Tab Nat := []           -- package core × 128 + row: 2 KiB
  badTile : List (Nat × Nat) := []  -- poisoned 8-byte words of tile rows (R424)
  streams : List (Nat × Stream) := []  -- core × 16 + sid; unlisted: FREE
  preempts : List (Nat × Preempting) := [] -- by core
  -- memory
  mem     : Memory := []            -- backing plaintext by physical address, under the domain of its granule
  domains : List (Nat × Domain) := [] -- granule: the domain it was last written under
  poison  : List Nat := []          -- poisoned backing granules
  dram    : Tab DramErr := []       -- granules with a DRAM error
  sectors : List (Nat × Sector) := [] -- cached copies by granule
  l1i     : List (Nat × (Domain × Nat)) := [] -- instruction bytes a core holds: core × 2^47 + granule (R53; log 10)
  scratch : Memory := []            -- cluster × 2^27 + window offset
  badScratch : List Nat := []       -- poisoned 8-byte words of scratchpads
  tlb     : List TlbEntry := []
  slots   : Tab KeySlot := []       -- package × 4096 + slot
  keys    : Nat := 1                -- keys drawn so far
  census  : Tab Word := []          -- per package (R385)
  freeq   : Tab Word := []
  -- Landings and engines
  far     : Tab FarCtx := []        -- Landing × 256 + context
  leaseq  : Tab (List Nat) := []    -- per Landing: harts waiting, oldest first (R364)
  granted : Tab Nat := []           -- hart: 1 + the context granted to its waiting FBIND
  banks   : List BankCmd := []      -- oldest first
  convs   : List (Nat × Conv) := [] -- by IMPID
  rounds  : Tab Round := []
  issuePtr : Tab Nat := []          -- per core × 8 + unit class: the context its sequencer looks at first (R352)
  -- fault service
  pending : List Pending := []      -- entries not completed, oldest first
  -- boundary
  port    : Port := {}
  stopped : Bool := false           -- R428
  -- the model's own fields
  clock   : Nat := 0                -- log 9
  fresh   : Nat := 0                -- log 5
  agenda  : List Instr := []        -- events and inputs to come (log 2)
  cur     : Nat := 0                -- the hart whose turn it is (log 2)
  arrays  : List ArrayEvent := []   -- what happens to the arrays next (log 11)
  plan    : Plan := {}              -- log 2
  resets  : Nat := 0                -- device resets so far (log 9)
  deriving DecidableEq, Repr

/-- The machine right after device reset, before the boot ROM runs: no hart, no queue, nothing listed (log 1, log 3). -/
def State.reset : State where
  slots := []
  keys := 1

end Sys2Proof.Machine
end

