-- ==== Sys2Proof/Machine/Exec.lean ====
section
/-! DEFINITION. How a step is computed: a state passed along, or a stop with the state at the stop. -/

namespace Sys2Proof.Machine

open Sys2Proof

/-- Why the work of an instruction does not complete now. -/
inductive Stop where
  /-- A trap of R401 at this instruction: code, DETAIL, TVAL. -/
  | trap (code detail : Nat) (value : Word)
  /-- A parked fault of R401: code, DETAIL, ADDR, VAL, PTE, and whether the access was a write or a fetch (R414). -/
  | park (code detail : Nat) (addr val pte : Word) (write fetch : Bool)
  /-- The hart parks on an entry already written (R308, R416). -/
  | parkOn (entry : Nat)
  /-- The instruction waits; it is tried again at the hart's next turn. -/
  | wait
  deriving DecidableEq, Repr

/-- A computation over the state that may stop. -/
abbrev Exec := EStateM Stop State

namespace Tab

/-- The entry of a key, if listed. -/
def find {α : Type} : List (Nat × α) → Nat → Option α
  | [], _ => none
  | (a, v) :: t, k => if a = k then some v else find t k

/-- The list with (k, v), keys rising, any other entry of k removed. -/
def set {α : Type} (t : List (Nat × α)) (k : Nat) (v : α) : List (Nat × α) := (Tab.erase t k).insert k v

end Tab

/-- Read a part of the state. -/
def ask {α : Type} (f : State → α) : Exec α := fun s => .ok (f s) s

/-- A trap at the executing instruction. -/
def trap {α : Type} (code detail : Nat) (value : Word) : Exec α := throw (.trap code detail value)

/-- Stop unless the condition holds. -/
def need (c : Bool) (e : Stop) : Exec Unit := if c then pure () else throw e

/-- Wait unless the condition holds. -/
def await (c : Bool) : Exec Unit := need c .wait

/-- The value of the free-value counter, advanced (log 5). -/
def nextFresh : Exec Nat := fun s => .ok s.fresh { s with fresh := s.fresh + 1 }

/-- A free value of w bits (log 5). -/
def freeBits (w : Nat) : Exec Nat := do
  let n ← nextFresh
  return Config.free n % 2 ^ w

/-- Map over a list in order. -/
def each {α β : Type} (l : List α) (f : α → Exec β) : Exec (List β) :=
  match l with
  | [] => pure []
  | a :: t => do
    let b ← f a
    let r ← each t f
    return b :: r

/-- Run over a list in order. -/
def forAll {α : Type} (l : List α) (f : α → Exec Unit) : Exec Unit :=
  match l with
  | [] => pure ()
  | a :: t => do
    f a
    forAll t f

/-- Catch a stop; the state at the stop is kept. -/
def caught {α : Type} (m : Exec α) : Exec (Except Stop α) := fun s =>
  match m s with
  | .ok a s' => .ok (.ok a) s'
  | .error e s' => .ok (.error e) s'

/-- Bits hi to lo of a number. -/
def bits (n hi lo : Nat) : Nat := n / 2 ^ lo % 2 ^ (hi + 1 - lo)

/-- The number with the w bits from lo replaced. -/
def setBits (n lo w v : Nat) : Nat :=
  n % 2 ^ lo + v % 2 ^ w * 2 ^ lo + n / 2 ^ (lo + w) * 2 ^ (lo + w)

/-- elem(reg, i, w) of R73. -/
def elemAt (r i w : Nat) : Nat := r / 2 ^ (i * w) % 2 ^ w

/-- A register with element i replaced (R73). -/
def elemSet (r i w v : Nat) : Nat := setBits r (i * w) w v

/-- Bit i of a mask. -/
def bitAt (m i : Nat) : Bool := m / 2 ^ i % 2 = 1

/-- A word from a number. -/
def word (n : Nat) : Word := BitVec.ofNat 64 n

end Sys2Proof.Machine
end

