-- ==== Sys2Proof/Machine/Fp.lean ====
section
/-! DEFINITION. Number formats, exact values and rounding (R84 to R104), as plain arithmetic on Nat and Int. An exact value
is a sign, a natural mantissa and a power of two; `jam` says that the magnitude lies strictly between the mantissa and
the next one, which is used only with at least 90 mantissa bits, more than any rounding or R100's 16 bits look at. -/

namespace Sys2Proof.Machine.Fp

/-! ### Bits and integers -/

/-- The value of the low n bits read as two's complement (R73). -/
def sext (a n : Nat) : Int := if n = 0 then 0 else
  let b := a % 2 ^ n
  if b < 2 ^ (n - 1) then (b : Int) else (b : Int) - (2 ^ n : Nat)

/-- An integer modulo 2^n, as a natural number. -/
def wrap (n : Nat) (i : Int) : Nat := (i % ((2 ^ n : Nat) : Int)).toNat

/-- The floor of a power of two times an integer. -/
def shiftInt (i : Int) (e : Int) : Int := if e ≥ 0 then i * (2 ^ e.toNat : Nat) else i / (2 ^ (-e).toNat : Nat)

/-- Newton steps for the integer square root; each step from above decreases until it is reached. -/
def isqrtAux : Nat → Nat → Nat → Nat
  | 0, _, x => x
  | f + 1, n, x => let y := (x + n / x) / 2
    if y < x then isqrtAux f n y else x

/-- The integer square root. -/
def isqrt (n : Nat) : Nat := if n = 0 then 0 else isqrtAux (Nat.log2 n + 3) n (2 ^ (Nat.log2 n / 2 + 1))

/-! ### Formats -/

/-- A floating-point format (R87, R88): exponent and significand bits, bias, greatest finite code, whether it has an
infinity, and the canonical NaN (0 for the block elements, which have none). -/
structure Spec where
  ebits : Nat
  mbits : Nat
  bias  : Nat
  maxCode : Nat
  hasInf : Bool
  nan   : Nat
  deriving DecidableEq, Repr

/-- The formats by FMT code 4 to 9, and the element formats of B6A, B6B and B4 at 12, 13 and 14 (R87, R88). -/
def spec : Nat → Spec
  | 4 => ⟨4, 3, 7, 0x7E, false, 0x7F⟩
  | 5 => ⟨5, 2, 15, 0x7B, true, 0x7E⟩
  | 6 => ⟨8, 7, 127, 0x7F7F, true, 0x7FC0⟩
  | 7 => ⟨5, 10, 15, 0x7BFF, true, 0x7E00⟩
  | 8 => ⟨8, 23, 127, 0x7F7FFFFF, true, 0x7FC00000⟩
  | 9 => ⟨11, 52, 1023, 0x7FEFFFFFFFFFFFFF, true, 0x7FF8000000000000⟩
  | 12 => ⟨3, 2, 3, 0x1F, false, 0⟩
  | 13 => ⟨2, 3, 1, 0x1F, false, 0⟩
  | _ => ⟨2, 1, 1, 0x7, false, 0⟩

/-- The bits of a format. -/
def Spec.width (f : Spec) : Nat := 1 + f.ebits + f.mbits

/-- The exponent of the smallest subnormal (R88). -/
def Spec.qmin (f : Spec) : Int := 1 - (f.bias : Int) - f.mbits

/-- The positive infinity of a format that has one. -/
def Spec.inf (f : Spec) : Nat := f.maxCode + 1

/-- An exact value (R73: a real, an infinity or a NaN). -/
inductive Val where
  | nan (signalling : Bool)
  | inf (neg : Bool)
  | num (neg : Bool) (man : Nat) (exp : Int) (jam : Bool)
  deriving DecidableEq, Repr

/-- The value of an encoding (R87, R88, R89). -/
def decodeSpec (f : Spec) (bits : Nat) : Val :=
  let b := bits % 2 ^ f.width
  let neg := b / 2 ^ (f.ebits + f.mbits) = 1
  let e := b / 2 ^ f.mbits % 2 ^ f.ebits
  let m := b % 2 ^ f.mbits
  let mag := b % 2 ^ (f.ebits + f.mbits)
  if f.hasInf && e = 2 ^ f.ebits - 1 then
    if m = 0 then .inf neg else .nan (m < 2 ^ (f.mbits - 1))
  else if f.nan ≠ 0 && mag = f.nan then .nan false
  else if e = 0 then .num neg m f.qmin false
  else .num neg (m + 2 ^ f.mbits) (f.qmin + e - 1) false

/-- The value of an element of FMT 4 to 9. -/
def decode (fmt bits : Nat) : Val := decodeSpec (spec fmt) bits

/-- An integer as an exact value. -/
def ofInt (i : Int) : Val := .num (i < 0) i.natAbs 0 false

/-! ### Comparisons of magnitudes and values -/

/-- man·2^exp compared: a < b. -/
def magLt (m1 : Nat) (e1 : Int) (m2 : Nat) (e2 : Int) : Bool :=
  if e1 ≥ e2 then m1 * 2 ^ (e1 - e2).toNat < m2 else m1 < m2 * 2 ^ (e2 - e1).toNat

/-- a < b for values that are not NaN; zeros are equal. -/
def Val.lt : Val → Val → Bool
  | .nan _, _ => false
  | _, .nan _ => false
  | .inf a, .inf b => a && !b
  | .inf a, .num .. => a
  | .num .., .inf b => !b
  | .num n1 m1 e1 _, .num n2 m2 e2 _ =>
    if m1 = 0 && m2 = 0 then false
    else if m1 = 0 then !n2
    else if m2 = 0 then n1
    else match n1, n2 with
      | false, false => magLt m1 e1 m2 e2
      | true, true => magLt m2 e2 m1 e1
      | true, false => true
      | false, true => false

/-- a = b for values that are not NaN; zeros are equal. -/
def Val.eq (a b : Val) : Bool :=
  match a, b with
  | .nan _, _ => false
  | _, .nan _ => false
  | a, b => !a.lt b && !b.lt a

def Val.isNan : Val → Bool | .nan _ => true | _ => false
def Val.isSig : Val → Bool | .nan s => s | _ => false
def Val.isZero : Val → Bool | .num _ m _ j => m = 0 && !j | _ => false
def Val.isInf : Val → Bool | .inf _ => true | _ => false
def Val.neg : Val → Bool | .nan _ => false | .inf n => n | .num n .. => n

/-- The value with its sign inverted. -/
def Val.negate : Val → Val
  | .nan s => .nan s
  | .inf n => .inf (!n)
  | .num n m e j => .num (!n) m e j

/-! ### Rounding (R98, R100) -/

/-- The flags of R105 as bits: NV, DZ, OF, UF, NX, SAT. -/
def NV : Nat := 1
def DZ : Nat := 2
def OF : Nat := 4
def UF : Nat := 8
def NX : Nat := 16
def SAT : Nat := 32

/-- One step of the state of R100. -/
def srStep (s : BitVec 32) : BitVec 32 :=
  let a := s ^^^ (s <<< 13)
  let b := a ^^^ (a >>> 17)
  b ^^^ (b <<< 5)

/-- man·2^exp (with jam) as an integer multiple of 2^q by mode rm with the 16 random bits r: the multiple, and whether
it is inexact. -/
def quantize (rm r : Nat) (neg : Bool) (man : Nat) (exp : Int) (jam : Bool) (q : Int) : Nat × Bool :=
  if exp ≥ q then (man * 2 ^ (exp - q).toNat, jam)
  else
    let d := (q - exp).toNat
    let n := man / 2 ^ d
    let rem := man % 2 ^ d
    let inexact := rem ≠ 0 || jam
    let up : Bool :=
      match rm with
      | 0 => 2 * rem > 2 ^ d || (2 * rem = 2 ^ d && (jam || n % 2 = 1))
      | 1 => false
      | 2 => neg && inexact
      | 3 => !neg && inexact
      | 4 => 2 * rem ≥ 2 ^ d
      | _ => rem * 2 ^ 16 / 2 ^ d + r ≥ 2 ^ 16
    (if up then n + 1 else n, inexact)

/-- A finite non-zero magnitude rounded into a format with an unbounded range above: the code without sign, inexact,
tiny (R98). A code above maxCode has overflowed. In mode 5 the test for tiny reuses the same random bits at its finer quantum,
which R98 and R100 leave open (log 21). -/
def roundMag (f : Spec) (rm r : Nat) (neg : Bool) (man : Nat) (exp : Int) (jam : Bool) : Nat × Bool × Bool :=
  let e : Int := Nat.log2 man + exp
  let qu := e - f.mbits
  let q := max qu f.qmin
  let (n, inexact) := quantize rm r neg man exp jam q
  let code := ((q - f.qmin).toNat) * 2 ^ f.mbits + n
  let tiny :=
    if qu ≥ f.qmin then false
    else
      let (nu, _) := quantize rm r neg man exp jam qu
      -- the unbounded rounding is below the smallest normal, 2^(mbits) units of qmin
      magLt nu qu (2 ^ f.mbits) f.qmin
  (code, inexact, tiny)

/-- The sign bit of a format, when set. -/
def signBit (f : Spec) (neg : Bool) : Nat := if neg then 2 ^ (f.ebits + f.mbits) else 0

/-- Overflow into a format with an infinity, by mode (R98). -/
def overflowCode (f : Spec) (rm : Nat) (neg : Bool) : Nat :=
  match rm with
  | 1 => f.maxCode
  | 2 => if neg then f.inf else f.maxCode
  | 3 => if neg then f.maxCode else f.inf
  | _ => f.inf

/-- round(r, fmt, rm) for FMT 5 to 9, with the 16 random bits of mode 5: the encoding and the flags (R73, R98). -/
def roundBits (fmt rm r : Nat) (v : Val) : Nat × Nat :=
  let f := spec fmt
  match v with
  | .nan _ => (f.nan, 0)
  | .inf n => (signBit f n + f.inf, 0)
  | .num n m e j =>
    if m = 0 then (signBit f n, 0)
    else
      let (code, inexact, tiny) := roundMag f rm r n m e j
      if code > f.maxCode then (signBit f n + overflowCode f rm n, OF + NX)
      else (signBit f n + code, (if inexact then NX else 0) + (if tiny && inexact then UF else 0))

/-- Conversion into E4M3 (R103, R104). -/
def roundE4M3 (rm r : Nat) (nosat : Bool) (v : Val) : Nat × Nat :=
  let f := spec 4
  match v with
  | .nan _ => (f.nan, 0)
  | .inf n => if nosat then (f.nan, NV) else (signBit f n + f.maxCode, SAT)
  | .num n m e j =>
    if m = 0 then (signBit f n, 0)
    else
      let (code, inexact, tiny) := roundMag f rm r n m e j
      if code > f.maxCode then (if nosat then (f.nan, NV) else (signBit f n + f.maxCode, SAT + NX))
      else (signBit f n + code, (if inexact then NX else 0) + (if tiny && inexact then UF else 0))

/-- Conversion of a value that is no NaN into a block element of FMT 12 to 14 (R103). -/
def roundElem (fmt rm r : Nat) (v : Val) : Nat × Nat :=
  let f := spec fmt
  match v with
  | .nan _ => (0, NV)
  | .inf n => (signBit f n + f.maxCode, SAT)
  | .num n m e j =>
    if m = 0 then (signBit f n, 0)
    else
      let (code, inexact, tiny) := roundMag f rm r n m e j
      if code > f.maxCode then (signBit f n + f.maxCode, SAT + NX)
      else (signBit f n + code, (if inexact then NX else 0) + (if tiny && inexact then UF else 0))

/-- The value rounded to an integer (R98 "Integers"), and whether it is inexact; not for NaN or infinity. -/
def toInt (rm r : Nat) (v : Val) : Int × Bool :=
  match v with
  | .num n m e j =>
    let (k, inexact) := quantize rm r n m e j 0
    (if n then -(k : Int) else (k : Int), inexact)
  | _ => (0, false)

/-- Conversion into an integer of w bits, signed or not (R103). -/
def roundInt (w : Nat) (unsigned : Bool) (rm r : Nat) (v : Val) : Nat × Nat :=
  let lo : Int := if unsigned then 0 else -((2 ^ (w - 1) : Nat) : Int)
  let hi : Int := if unsigned then (2 ^ w : Nat) - 1 else (2 ^ (w - 1) : Nat) - 1
  match v with
  | .nan _ => (0, NV)
  | .inf n => (wrap w (if n then lo else hi), NV)
  | .num .. =>
    let (k, inexact) := toInt rm r v
    if k < lo then (wrap w lo, NV)
    else if k > hi then (wrap w hi, NV)
    else (wrap w k, if inexact then NX else 0)

/-! ### Exact operations: the value before rounding, and NV or DZ -/

/-- NV for a signalling operand (R89). -/
def sig2 (a b : Val) : Nat := if a.isSig || b.isSig then NV else 0

/-- The exact sum of two finite values; an exact zero takes its sign by R90. -/
def addNum (rm : Nat) (n1 : Bool) (m1 : Nat) (e1 : Int) (n2 : Bool) (m2 : Nat) (e2 : Int) : Val :=
  let e := min e1 e2
  let a : Int := (if n1 then -1 else 1) * (m1 * 2 ^ (e1 - e).toNat : Nat)
  let b : Int := (if n2 then -1 else 1) * (m2 * 2 ^ (e2 - e).toNat : Nat)
  let s := a + b
  if s = 0 then
    if m1 = 0 && m2 = 0 && n1 = n2 then .num n1 0 e false else .num (rm = 2) 0 e false
  else .num (s < 0) s.natAbs e false

/-- a + b, the mode deciding the sign of an exact zero (R90, R125). -/
def add (rm : Nat) (a b : Val) : Val × Nat :=
  match a, b with
  | .nan _, _ => (.nan false, sig2 a b)
  | _, .nan _ => (.nan false, sig2 a b)
  | .inf x, .inf y => if x = y then (.inf x, 0) else (.nan false, NV)
  | .inf x, _ => (.inf x, 0)
  | _, .inf y => (.inf y, 0)
  | .num n1 m1 e1 _, .num n2 m2 e2 _ => (addNum rm n1 m1 e1 n2 m2 e2, 0)

/-- a − b; a NaN keeps its class. -/
def sub (rm : Nat) (a b : Val) : Val × Nat := add rm a b.negate

/-- a × b (R90, R125). -/
def mul (a b : Val) : Val × Nat :=
  match a, b with
  | .nan _, _ => (.nan false, sig2 a b)
  | _, .nan _ => (.nan false, sig2 a b)
  | .inf x, .inf y => (.inf (x != y), 0)
  | .inf x, .num y m _ _ => if m = 0 then (.nan false, NV) else (.inf (x != y), 0)
  | .num y m _ _, .inf x => if m = 0 then (.nan false, NV) else (.inf (x != y), 0)
  | .num n1 m1 e1 _, .num n2 m2 e2 _ => (.num (n1 != n2) (m1 * m2) (e1 + e2) false, 0)

/-- a / b (R90, R125). -/
def div (a b : Val) : Val × Nat :=
  match a, b with
  | .nan _, _ => (.nan false, sig2 a b)
  | _, .nan _ => (.nan false, sig2 a b)
  | .inf _, .inf _ => (.nan false, NV)
  | .inf x, .num y .. => (.inf (x != y), 0)
  | .num x .., .inf y => (.num (x != y) 0 0 false, 0)
  | .num n1 m1 e1 _, .num n2 m2 e2 _ =>
    if m2 = 0 then (if m1 = 0 then (.nan false, NV) else (.inf (n1 != n2), DZ))
    else if m1 = 0 then (.num (n1 != n2) 0 0 false, 0)
    else
      let k := Nat.log2 m2 + 100
      let t := m1 * 2 ^ k
      (.num (n1 != n2) (t / m2) (e1 - e2 - k) (t % m2 ≠ 0), 0)

/-- ±(a × b) ± c (R126): the product negated when np, the addend when nc. ∞ × 0 gives NaN with NV even for a quiet
NaN c. -/
def fma (rm : Nat) (np nc : Bool) (a b c : Val) : Val × Nat :=
  let (p, fp) := mul a b
  let p := if np then p.negate else p
  let c' := if nc then c.negate else c
  let (r, fa) := add rm p c'
  (r, fp ||| fa ||| (if c.isSig then NV else 0))

/-- √a (R127). -/
def sqrt (a : Val) : Val × Nat :=
  match a with
  | .nan s => (.nan false, if s then NV else 0)
  | .inf true => (.nan false, NV)
  | .inf false => (.inf false, 0)
  | .num n m e _ =>
    if m = 0 then (.num n 0 0 false, 0)
    else if n then (.nan false, NV)
    else
      let odd := e % 2 ≠ 0
      let m' := (if odd then 2 * m else m) * 2 ^ 200
      let e' := (if odd then e - 1 else e)
      let k := isqrt m'
      (.num false k (e' / 2 - 100) (k * k ≠ m'), 0)

/-- 1 / √a (R152). -/
def rsqrt (a : Val) : Val × Nat :=
  match a with
  | .nan s => (.nan false, if s then NV else 0)
  | .inf true => (.nan false, NV)
  | .inf false => (.num false 0 0 false, 0)
  | .num n m e _ =>
    if m = 0 then (.inf n, DZ)
    else if n then (.nan false, NV)
    else
      let odd := e % 2 ≠ 0
      let m' := if odd then 2 * m else m
      let e' := if odd then e - 1 else e
      let k := Nat.log2 m' + 100
      let t := 2 ^ (2 * k)
      let q := isqrt (t / m')
      (.num false q (-(e' / 2) - k) (q * q * m' ≠ t), 0)

/-! ### 2^x, correctly rounded for every input (R152) -/

/-- A lower bound of ln 2 in units of 2^−w, from 2·Σ 1/((2j+1)·3^(2j+1)); each of the n terms is floored. -/
def ln2Lo (w : Nat) : Nat → Nat → Nat
  | 0, acc => acc
  | n + 1, acc => ln2Lo w n (acc + 2 ^ (w + 1) / ((2 * n + 1) * 3 ^ (2 * n + 1)))

/-- Terms of the exponential series in units of 2^−w, each floored, the floor plus `up`. -/
def expSeries (w y up : Nat) : Nat → Nat → Nat → Nat → Nat
  | 0, _, _, acc => acc
  | n + 1, k, term, acc =>
    let t := term * y / (2 ^ w * (k + 1)) + up
    expSeries w y up n (k + 1) t (acc + t)

/-- 2^(k/2^t) is at least m/2^p, decided exactly. -/
def exp2Ge (k t m p : Nat) : Bool := m ^ (2 ^ t) ≤ 2 ^ (k + p * 2 ^ t)

/-- The floor of 2^(k/2^t)·2^96 for 0 < k < 2^t: interval bounds at growing precision, then exact comparison between
the bounds. -/
def exp2Floor (k t : Nat) : List Nat → Nat
  | [] => if exp2Ge k t (2 ^ 96 + 1) 96 then
      ((List.range 97).foldl (fun m i => if exp2Ge k t (m + 2 ^ (96 - i)) 96 then m + 2 ^ (96 - i) else m) (2 ^ 96))
    else 2 ^ 96
  | w :: ws =>
    let n := w / 3 + 4
    let l := ln2Lo w n 0
    let f := if t ≤ w then k * 2 ^ (w - t) else k / 2 ^ (t - w)
    let ylo := f * l / 2 ^ w
    let yhi := (f + 1) * (l + n + 1) / 2 ^ w + 1
    let lo := expSeries w ylo 0 n 0 (2 ^ w) (2 ^ w)
    let hi := expSeries w yhi 1 n 0 (2 ^ w) (2 ^ w) + 2
    let a := max (lo / 2 ^ (w - 96)) (2 ^ 96)
    let b := min (hi / 2 ^ (w - 96)) (2 ^ 97 - 1)
    if a = b then a else exp2Floor k t ws

/-- 2^a (R152). Far beyond every format's range the exponent is held at ±20,000, which rounds the same. -/
def exp2 (a : Val) : Val × Nat :=
  match a with
  | .nan s => (.nan false, if s then NV else 0)
  | .inf true => (.num false 0 0 false, 0)
  | .inf false => (.inf false, 0)
  | .num n m e _ =>
    if m = 0 then (.num false 1 0 false, 0)
    else if Nat.log2 m + e > 20 then (.num false (2 ^ 100) (if n then -20000 else 20000) true, 0)
    else
      let i : Int := if n then -(m : Int) else m
      if e ≥ 0 then (.num false 1 (max (-20000) (min 20000 (i * (2 ^ e.toNat : Nat)))) false, 0)
      else
        let t := (-e).toNat
        let fl := i / (2 ^ t : Nat)
        let k := (i % (2 ^ t : Nat)).toNat
        if k = 0 then (.num false 1 (max (-20000) (min 20000 fl)) false, 0)
        else (.num false (exp2Floor k t [200, 320, 640, 2600]) (max (-20000) (min 20000 fl) - 96) true, 0)

/-! ### Operations without rounding -/

/-- min and max (R125): −0 below +0; one NaN gives the other operand; two give the canonical NaN. The answer picks an
operand: false the first, true the second, none the NaN. -/
def pick (wantMax : Bool) (a b : Val) : Option Bool :=
  if a.isNan && b.isNan then none
  else if a.isNan then some true
  else if b.isNan then some false
  else
    let less := if a.isZero && b.isZero then a.neg && !b.neg else a.lt b
    let more := if a.isZero && b.isZero then b.neg && !a.neg else b.lt a
    if wantMax then some (!more && less) else some (!less && more)

/-- min or max of two encodings of FMT 6 to 9: the encoding and the flags. -/
def minMax (wantMax : Bool) (fmt a b : Nat) : Nat × Nat :=
  let va := decode fmt a
  let vb := decode fmt b
  match pick wantMax va vb with
  | none => ((spec fmt).nan, sig2 va vb)
  | some false => (a % 2 ^ (spec fmt).width, sig2 va vb)
  | some true => (b % 2 ^ (spec fmt).width, sig2 va vb)

/-- Sign transfer (R125, R152): the magnitude of a with the given sign. -/
def withSign (fmt a : Nat) (neg : Bool) : Nat × Nat :=
  let f := spec fmt
  match decode fmt a with
  | .nan s => (f.nan, if s then NV else 0)
  | _ => (a % 2 ^ (f.ebits + f.mbits) + signBit f neg, 0)

/-- The sign bit of an encoding. -/
def signOf (fmt a : Nat) : Bool := a / 2 ^ ((spec fmt).ebits + (spec fmt).mbits) % 2 = 1

/-- The class code of VFCLASS (R153). -/
def classOf (fmt bits : Nat) : Nat :=
  match decode fmt bits with
  | .nan s => if s then 8 else 9
  | .inf n => if n then 0 else 7
  | .num n m _ _ =>
    if m = 0 then (if n then 3 else 4)
    else if m ≥ 2 ^ (spec fmt).mbits then (if n then 1 else 6)
    else (if n then 2 else 5)

/-! ### Block records (R91 to R97) -/

/-- The bits of a block element (R85). -/
def elemBits : Nat → Nat
  | 11 => 8 | 12 => 6 | 13 => 6 | _ => 4

/-- The block size of BSIZE 0 to 2 (R91). -/
def blockSize (bsize : Nat) : Nat := 32 * 2 ^ bsize

/-- The byte size of a record of b elements (R92). -/
def recBytes (fmt b : Nat) : Nat := 4 + b * elemBits fmt / 8

/-- The fields of a header word (R91). -/
def hdrBsize (h : Nat) : Nat := h / 2 ^ 24 % 4
def hdrScale (h : Nat) : Nat := h % 2 ^ 16
def hdrZp (h : Nat) : Nat := h / 2 ^ 16 % 256
def hdrSfmt (h : Nat) : Nat := h / 2 ^ 26 % 2
def hdrScaleFmt (h : Nat) : Nat := if hdrSfmt h = 1 then 6 else 7

/-- The value of SCALE. -/
def scaleOf (h : Nat) : Val := decode (hdrScaleFmt h) (hdrScale h)

/-- Header checks of R97. -/
def hdrOk (fmt h : Nat) : Bool :=
  h / 2 ^ 27 = 0 && hdrBsize h ≠ 3 && !(scaleOf h).isInf && (fmt ≤ 11 || hdrZp h = 0)

/-- The code of element j of a record given as a little-endian number (R93). -/
def codeAt (fmt rec_ j : Nat) : Nat := rec_ / 2 ^ (32 + j * elemBits fmt) % 2 ^ elemBits fmt

/-- The integer code of BQ4 and BQ8. -/
def codeInt (fmt q : Nat) : Int := sext q (elemBits fmt)

/-- The value of a code under a header (R93): a zero q − z counts as positive. Under a SCALE that is a NaN it is a quiet NaN,
also where the SCALE is signalling, which R93 leaves open (log 21); VMMAQ reads the SCALE itself as an operand. -/
def codeValue (fmt h q : Nat) : Val :=
  match scaleOf h with
  | .nan _ => .nan false
  | s =>
    let x := if fmt ≤ 11 then ofInt (codeInt fmt q - sext (hdrZp h) 8) else decodeSpec (spec fmt) q
    (mul x s).1

end Sys2Proof.Machine.Fp
end

