-- ==== Sys2Proof/Machine/Phys.lean ====
section
/-! DEFINITION. Physical memory: coherent and backing values, cached sectors, domains and seals, poison and DRAM errors
(R229 to R232, R249, R251, R292, R293, R384, R391, R421, R422, R425). A granule is 32 bytes, named by its address / 32. -/

namespace Sys2Proof.Machine

open Sys2Proof

/-! ### Addresses (R43) -/

def paPkg (pa : Nat) : Nat := pa / 2 ^ 45 % 128
def paPool (pa : Nat) : Nat := pa / 2 ^ 44 % 2
def paStack (pa : Nat) : Nat := pa / 2 ^ 16 % 8

/-- The number of this package in the pod (R458). -/
def State.pkg (s : State) : Nat := s.port.podId.toNat

/-- The Landing that owns an address (R44). -/
def landingOf (pa : Nat) : Nat := paPkg pa * 8 + paStack pa

/-- A package is present in the pod: this one, or one of the pod table (R319, R381, R438; log 3). -/
def State.present (s : State) (pkg : Nat) : Bool := pkg = s.pkg || s.port.podTable.contains pkg

/-! ### The census entry of a frame (R384) -/

/-- The coherent value of a byte, or its backing value, without any check: for the device's own use of a seal. -/
def State.rawByte (s : State) (pa : Nat) : Nat :=
  match Tab.find s.sectors (pa / 32) with
  | some c => if bitAt c.valid (pa % 32) then elemAt c.data (pa % 32) 8 else (s.mem.read pa).toNat
  | none => (s.mem.read pa).toNat

/-- n such bytes, little-endian. -/
def State.rawBytes (s : State) (pa : Nat) : Nat → Nat
  | 0 => 0
  | n + 1 => s.rawByte pa + 256 * s.rawBytes (pa + 1) n

/-- The index of a frame's census entry. -/
def censusIndex (pa : Nat) : Nat := if paPool pa = 0 then pa / 2 ^ 16 % 2 ^ 23 else 2 ^ 23 + pa / 2 ^ 16 % 2 ^ 28

/-- The CENSUS register of the package that owns an address. -/
def State.censusOf (s : State) (pa : Nat) : Nat := (Tab.get (0 : Word) s.census (paPkg pa)).toNat

/-- The frame is covered by its package's census (R384). -/
def State.covered (s : State) (pa : Nat) : Bool :=
  let c := s.censusOf pa
  c % 2 = 1 && (paPool pa = 0 || (bits c 8 4 ≠ 0 && pa / 2 ^ 16 % 2 ^ 28 < 2 ^ bits c 8 4))

/-- The physical address of the census entry. -/
def State.censusPa (s : State) (pa : Nat) : Nat := bits (s.censusOf pa) 51 12 * 2 ^ 12 + 8 * censusIndex pa

/-- SEAL of the frame of an address; zero where no census covers it (log 14). -/
def State.sealOf (s : State) (pa : Nat) : Nat := if s.covered pa then s.rawBytes (s.censusPa pa + 4) 4 else 0

/-- The domain of a slot (package × 4096 + slot) at an address (R391). -/
def State.domainAt (s : State) (slot pa : Nat) : Domain :=
  { kslot := slot, key := (Tab.get ({} : KeySlot) s.slots slot).key, sealv := s.sealOf pa }

/-- Slot 0 of the package that owns an address: the domain of the device's own structures (R380). -/
def State.slot0 (s : State) (pa : Nat) : Domain := s.domainAt (paPkg pa * 4096) pa

/-! ### Error records, counters, retirement (R421, R422, R425, R429) -/

/-- A counter of R429 raised, at class × 4096 + instance, saturating at its width. A stack's instance is its Landing's number in
the pod, and a Landing's SRAMs are instance 384 + that number: each package counts what its own arrays do (R12). -/
def State.count (s : State) (cls inst width n : Nat) : State :=
  let k := cls * 4096 + inst
  { s with port := { s.port with
      counters := Tab.put 0 s.port.counters k (min (2 ^ width - 1) (Tab.get 0 s.port.counters k + n)) } }

/-- A frame joins its Landing's retirement list: retired, and whether the list was full (R422). -/
def State.retire (s : State) (pa : Nat) : State × Bool × Bool :=
  let st := landingOf pa
  let l := Tab.get [] s.port.retired st
  let f := pa / 2 ^ 16
  if l.contains f then (s, true, false)
  else if l.length ≥ 256 then (s, false, true)
  else ({ s with port := { s.port with retired := Tab.put [] s.port.retired st (l ++ [f]) } }, true, false)

/-- The error information of R425. -/
def errInfo (pa cls : Nat) (listFull retired lasting : Bool) : Word :=
  word (landingOf pa + (if cls = 5 then 0 else (Config.pseudoChannel pa).toNat * 2 ^ 10) + (if lasting then 2 ^ 16 else 0) +
    (if retired then 2 ^ 17 else 0) + (if listFull then 2 ^ 18 else 0))

/-- An error record (R425, R426) of a task: to the fault queue of the task, held until it is written (R413), or to the
package error log where no live task is concerned. -/
def State.record (s : State) (task : Nat) (asid : BitVec 16) (va pa cls : Nat) (listFull retired lasting : Bool) : State :=
  let e : Entry := { taskid := task, addr := word va, val := word pa, pc := 0, pte := errInfo pa cls listFull retired lasting,
                     elem := 0, hartid := 0, asid := asid, code := 0x20, detail := cls, kind := 8, src := 4 }
  match Tab.find s.tasks task with
  | some t => { s with fresh := s.fresh + 1, pending := s.pending ++
      [{ id := s.fresh, ring := t.fqbase, seq := none, entry := e, harts := [], stream := none, conv := none }] }
  | none => { s with port := { s.port with errLog := s.port.errLog ++ [e] } }

/-- Whom a memory access is for: the task and ASID that error records and sectors name (R292). -/
structure Who where
  task : Nat := 2 ^ 64
  asid : BitVec 16 := 0
  deriving DecidableEq, Repr

/-! ### Backing granules -/

/-- The mark of a granule last written through a RAW aperture: memory holds its ciphertext (R432; log 13). -/
def Domain.raw : Domain := { kslot := 2 ^ 32, key := 0, sealv := 0 }

/-- A block of a granule at the physical address encrypted or decrypted under a domain (R391). -/
def Domain.encrypt (d : Domain) (pa v : Nat) : Nat :=
  (Config.cipher d.kslot d.key d.sealv (pa / 16 % 2 ^ 12) (BitVec.ofNat 128 v)).toNat
def Domain.decrypt (d : Domain) (pa v : Nat) : Nat :=
  ((Config.cipher d.kslot d.key d.sealv (pa / 16 % 2 ^ 12)).symm (BitVec.ofNat 128 v)).toNat

/-- A granule's two blocks through a function of address and value. -/
def blocks (f : Nat → Nat → Nat) (g v : Nat) : Nat := f (g * 32) (v % 2 ^ 128) + 2 ^ 128 * f (g * 32 + 16) (v / 2 ^ 128)

/-- The plaintext a granule gives under a domain (R391): its own bytes when it was last written under that domain;
ciphertext of a RAW write decrypted; else free bytes. -/
def backingData (d : Domain) (g : Nat) : Exec Nat := do
  let o := Tab.find (← ask (·.domains)) g
  if o = some d then ask (fun s => s.mem.readN (g * 32) 32)
  else if o = some Domain.raw then ask (fun s => blocks d.decrypt g (s.mem.readN (g * 32) 32))
  else do
    let n ← nextFresh
    return (List.range 32).foldr (fun i acc => (Config.foreignByte n d.key (g * 32 + i)).toNat + 256 * acc) 0

/-- The DRAM read of a granule (R421): 0 when its data is good, 2 for a lasting uncorrectable error. Both lasting errors
retire the frame; the records go to the accessing task. -/
def dramRead (w : Who) (va g : Nat) : Exec Nat := do
  let pa := g * 32
  match Tab.get DramErr.none (← ask (·.dram)) g with
  | .none => return 0
  | .transient => do
    modify fun s => { s with dram := Tab.put .none s.dram g .none }.count 0 (landingOf pa) 32 1
    return 0
  | .correctable => do
    modify fun s =>
      let (s, r, f) := s.retire pa
      (s.count 1 (landingOf pa) 32 1).record w.task w.asid va pa 1 f r true
    return 0
  | .uncorrectable => do
    modify fun s =>
      let (s, r, f) := s.retire pa
      { (s.count 1 (landingOf pa) 32 1).record w.task w.asid va pa 2 f r true with
        poison := if s.poison.contains g then s.poison else g :: s.poison, dram := Tab.put .none s.dram g .none }
    return 2

/-- A backing granule with its bytes written under a domain. -/
def putBacking (d : Domain) (g data : Nat) : Exec Unit :=
  modify fun s => { s with mem := s.mem.writeN (g * 32) data 32, domains := Tab.set s.domains g d }

/-- Poison of a backing granule set or cleared (R293). -/
def setPoison (g : Nat) (p : Bool) : Exec Unit :=
  modify fun s => { s with poison := if p then (if s.poison.contains g then s.poison else g :: s.poison)
                             else s.poison.filter (· ≠ g) }

/-- The bytes of a mask taken from new, the others from old. -/
def overlay (old new mask : Nat) : Nat :=
  (List.range 32).foldr (fun i acc => (if bitAt mask i then elemAt new i 8 else elemAt old i 8) + 256 * acc) 0

def fullMask : Nat := 2 ^ 32 - 1

/-- A merge that writes poison (R292, R425): the record of class 3. Of a granule that was poisoned before, no error of the
array was found, so no frame is retired; the spec does not say what LASTING reads then (log 15). -/
def mergePoison (w : Who) (g : Nat) : Exec Unit := do
  let k ← nextFresh
  modify (·.record w.task w.asid 0 (g * 32) 3 false false (Config.free k % 2 = 1))

/-- Bytes written to a backing granule (R292): all 32 clear its poison (R293); fewer are merged, keeping it, and a lasting
error of the read poisons it; a merge that writes poison is recorded. -/
def writeBacking (w : Who) (d : Domain) (g data mask : Nat) : Exec Unit := do
  if mask = fullMask then
    putBacking d g data
    setPoison g false
    modify fun s => { s with dram := Tab.put .none s.dram g .none }
  else
    let old ← backingData d g
    match Tab.get DramErr.none (← ask (·.dram)) g with
    | .uncorrectable =>
      modify fun s =>
        let (s, r, f) := s.retire (g * 32)
        { (s.count 1 (landingOf (g * 32)) 32 1).record w.task w.asid 0 (g * 32) 3 f r true with
          dram := Tab.put .none s.dram g .none }
      setPoison g true
    | _ =>
      let _ ← dramRead w 0 g
      if ← ask (fun s => s.poison.contains g) then mergePoison w g
    putBacking d g (overlay old data mask)

/-! ### Cached sectors -/

/-- A dirty sector written back; it stays as a clean copy (R232, R249). A .wt or far store of part of a granule whose cached
sector is wholly valid sends the whole sector too, as R232's write-back does, which clears the granule's poison; R292 speaks of
merging the new bytes: the model's choice (log 11). -/
def writeBack (g : Nat) : Exec Unit := do
  match Tab.find (← ask (·.sectors)) g with
  | none => pure ()
  | some c =>
    if c.dirty then
      writeBacking { task := c.task, asid := c.asid } c.domain g c.data c.valid
      if c.poison then setPoison g true
      modify fun s => { s with sectors := Tab.set s.sectors g { c with dirty := false } }

/-- A double-bit error in the sector of a granule (R424): a clean one is discarded; a dirty one is written back as a
poisoned granule, with the record of class 4, whose LASTING bit the rules do not give (log 15). -/
def sectorError (g : Nat) : Exec Unit := do
  match Tab.find (← ask (·.sectors)) g with
  | none => pure ()
  | some c =>
    if c.dirty then
      putBacking c.domain g (← freeBits 256)
      setPoison g true
      let k ← nextFresh
      modify (·.record c.task c.asid 0 (g * 32) 4 false false (Config.free k % 2 = 1))
    modify fun s => { s with sectors := Tab.erase s.sectors g }

/-- A copy removed; dirty data is lost (R249 INVR). -/
def dropCopy (g : Nat) : Exec Unit := modify fun s => { s with sectors := Tab.erase s.sectors g }

/-- A cached copy set. -/
def setCopy (g : Nat) (c : Sector) : Exec Unit := modify fun s => { s with sectors := Tab.set s.sectors g c }

/-- The granules of a line. -/
def lineGranules (line : Nat) : List Nat := [line * 4, line * 4 + 1, line * 4 + 2, line * 4 + 3]

/-- Copies of a line under another domain are written back and removed before an access under d (R391). -/
def claimLine (d : Domain) (line : Nat) : Exec Unit :=
  forAll (lineGranules line) fun g => do
    match Tab.find (← ask (·.sectors)) g with
    | some c => if c.domain ≠ d then do writeBack g; dropCopy g
    | none => pure ()

/-- What a coherent read of a granule finds: its 32 bytes, and the class of its data error, or 0 (R293, R401). -/
structure GranuleRead where
  data : Nat
  err  : Nat

/-- The cached copy of a granule, or an empty one of a store or fill about to be made. -/
def copyOf (w : Who) (d : Domain) (g : Nat) : Exec Sector := do
  return ((Tab.find (← ask (·.sectors)) g).getD
    { data := 0, valid := 0, written := 0, dirty := false, poison := false, domain := d, task := w.task, asid := w.asid })

/-- A coherent read of the bytes of a granule that a mask names, under a domain. Bytes that are not valid are fetched, and
poison found there marks the copy (R292, R293). `keep`: what is fetched enters the caches (R231). -/
def readGranule (w : Who) (d : Domain) (keep : Bool) (va g want : Nat) : Exec GranuleRead := do
  claimLine d (g / 4)
  let c ← copyOf w d g
  if c.poison then return ⟨c.data, 1⟩
  else if want &&& c.valid = want then return ⟨c.data, 0⟩
  else
    let old ← backingData d g
    let e ← dramRead w va g
    let p ← ask (fun s => s.poison.contains g)
    let data := overlay old c.data c.valid
    if keep then setCopy g { c with data := data, valid := fullMask, poison := p }
    return ⟨data, if e = 2 then 2 else if p then 1 else 0⟩

/-- Bytes of a granule written coherently (R292, R293): they enter the cached copy; .wt sends the sector on to the backing
value at once (R249). -/
def writeGranule (w : Who) (d : Domain) (wt : Bool) (g data mask : Nat) : Exec Unit := do
  claimLine d (g / 4)
  let c ← copyOf w d g
  let written := c.written ||| mask
  setCopy g { c with data := overlay c.data data mask, valid := c.valid ||| mask, written := written, dirty := true,
                     poison := c.poison && written ≠ fullMask, task := w.task, asid := w.asid }
  if wt then writeBack g

/-- The pieces of n bytes at a physical address, by granule: granule, first byte in it, bytes. -/
def pieces (pa n : Nat) : List (Nat × Nat × Nat) :=
  (List.range ((pa + n + 31) / 32 - pa / 32)).map fun k =>
    let g := pa / 32 + k
    let lo := if k = 0 then pa % 32 else 0
    let hi := min 32 (pa + n - g * 32)
    (g, lo, hi - lo)

/-- The bytes and the error class of a coherent read of n bytes; the first byte's error decides. -/
def readPhys (w : Who) (d : Domain) (keep : Bool) (va pa n : Nat) : Exec (Nat × Nat) := do
  let ps ← each (pieces pa n) fun (g, lo, len) => do
    let r ← readGranule w d keep va g ((2 ^ len - 1) * 2 ^ lo)
    return (r.data / 2 ^ (8 * lo) % 2 ^ (8 * len), len, r.err)
  return (ps.foldr (fun (v, len, _) acc => v + 2 ^ (8 * len) * acc) 0,
          ps.foldl (fun e (_, _, x) => if e ≠ 0 then e else x) 0)

/-- What a view of memory and of the cached copies shows of a granule under a domain: its bytes, and the mask of those that were
written: under the domain, or as ciphertext through a RAW aperture (R437), or in a cached sector (R293). -/
def CodeView.granule (v : CodeView) (d : Domain) (g : Nat) : Nat × Nat :=
  let mem := v.mem.readN (g * 32) 32
  let o := Tab.find v.domains g
  let back : Nat × Nat := if o = some d then (mem, fullMask) else if o = some Domain.raw then (blocks d.decrypt g mem, fullMask) else (0, 0)
  match Tab.find v.sectors g with
  | none => back
  | some c => if c.domain ≠ d || c.poison then (0, 0) else (overlay back.1 c.data c.valid, back.2 ||| c.valid)

/-- A granule whose bytes are all there. -/
def CodeView.bytes (v : CodeView) (d : Domain) (g : Nat) : Option Nat :=
  let (x, mask) := v.granule d g
  if mask = fullMask then some x else none

/-- The parcel at a physical address, where its four bytes are there. -/
def CodeView.parcel (v : CodeView) (d : Domain) (pa : Nat) : Option Nat :=
  let (x, mask) := v.granule d (pa / 32)
  if mask / 2 ^ (pa % 32) % 16 = 15 then some (x / 2 ^ (8 * (pa % 32)) % 2 ^ 32) else none

/-- The view of the present state. -/
def State.view (s : State) : CodeView := { mem := s.mem, domains := s.domains, sectors := s.sectors }

/-- The coherent bytes of a granule under a domain, where they are good and written under it: what a fill brings. -/
def State.goodGranule (s : State) (d : Domain) (g : Nat) : Option Nat :=
  let whole := match Tab.find s.sectors g with | some c => c.valid = fullMask | none => false
  if !whole && (s.poison.contains g || Tab.get DramErr.none s.dram g ≠ .none) then none else s.view.bytes d g

/-- A view in which a granule's bytes have been copied to another place and domain by the device (R387, R390): as a sector of
those that were there. -/
def CodeView.copy (v : CodeView) (src dst : Nat) (ds dd : Domain) : CodeView :=
  let (x, mask) := v.granule ds src
  let c : Sector := { data := x, valid := mask, written := mask, dirty := false, poison := false, domain := dd, task := 0, asid := 0 }
  { v with domains := Tab.erase v.domains dst, sectors := if mask = 0 then Tab.erase v.sectors dst else Tab.set v.sectors dst c }

/-- What the gangs' fetches may rely on, after such a copy. -/
def copyViews (src dst : Nat) (ds dd : Domain) : Exec Unit :=
  modify fun s => { s with gangs := s.gangs.map fun (k, g) => (k, { g with code := g.code.copy src dst ds dd }) }

/-- A coherent write of the low n bytes of a number. -/
def writePhys (w : Who) (d : Domain) (wt : Bool) (pa n v : Nat) : Exec Unit :=
  forAll (pieces pa n) fun (g, lo, len) =>
    writeGranule w d wt g (v / 2 ^ (8 * (g * 32 + lo - pa)) % 2 ^ (8 * len) * 2 ^ (8 * lo))
      ((2 ^ len - 1) * 2 ^ lo)

/-- Stores performed at SYSTEM scope: the dirty sectors of tier 1 are written to the pool (R233). -/
def flushPool : Exec Unit := do
  let l ← ask fun s => (s.sectors.filter fun (g, c) => c.dirty && paPool (g * 32) = 1).map (·.1)
  forAll l writeBack

/-- Bytes of the device's own stored at SYSTEM scope: a dirty copy of theirs in tier 1 is written to the pool (R233). -/
def sendPool (pa n : Nat) : Exec Unit :=
  if paPool pa = 1 then forAll (pieces pa n) fun (g, _, _) => writeBack g else pure ()

/-- What SCOPE adds to a store, an atomic or a fence (R233). -/
def atScope (scope : Nat) : Exec Unit := if scope = 5 then flushPool else pure ()

/-- A coherent write that brings no line into a cache (R231): it changes the copy there is, or is merged at the home. -/
def writeHome (w : Who) (d : Domain) (pa n v : Nat) : Exec Unit :=
  forAll (pieces pa n) fun (g, lo, len) => do
    claimLine d (g / 4)
    let held := (Tab.find (← ask (·.sectors)) g).isSome
    let x := v / 2 ^ (8 * (g * 32 + lo - pa)) % 2 ^ (8 * len) * 2 ^ (8 * lo)
    let mask := (2 ^ len - 1) * 2 ^ lo
    if held then writeGranule w d false g x mask else writeBacking w d g x mask

/-- The device's own reads and writes under slot 0 of the owning package (R380, R412, R433): they bring no line into a
cache (R231). -/
def readOwn (pa n : Nat) : Exec Nat := do
  let d ← ask (fun s => s.slot0 pa)
  let (v, _) ← readPhys {} d false 0 pa n
  return v

def writeOwn (pa n v : Nat) : Exec Unit := do
  let d ← ask (fun s => s.slot0 pa)
  writeHome {} d pa n v

/-- Compare-and-swap of 8 bytes of the device's own, under the package domain: whether it took place. -/
def casOwn (pa old new : Nat) : Exec Bool := do
  if (← readOwn pa 8) = old then
    writeOwn pa 8 new
    return true
  else return false

/-! ### Cache maintenance at the Landing (R249) -/

/-- CLNR, INVR or CFLR of one line: its four sectors. -/
def maintLine (k : MaintKind) (line : Nat) : Exec Unit :=
  forAll (lineGranules line) fun g =>
    match k with
    | .clnr => writeBack g
    | .invr => dropCopy g
    | .cflr => do writeBack g; dropCopy g

/-! ### Bank-level accesses: backing values only (R232, R248, R423) -/

/-- n bytes of backing plaintext, and whether a granule they lie in is poisoned. -/
def bankRead (w : Who) (d : Domain) (pa n : Nat) : Exec (Nat × Bool) := do
  let ps ← each (pieces pa n) fun (g, lo, len) => do
    let v ← backingData d g
    let _ ← dramRead w 0 g
    let p ← ask (fun s => s.poison.contains g)
    return (v / 2 ^ (8 * lo) % 2 ^ (8 * len), len, p)
  return (ps.foldr (fun (v, len, _) acc => v + 2 ^ (8 * len) * acc) 0, ps.any (fun (_, _, p) => p))

/-- A bank-level write of the low n bytes; each granule is written whole in one action. `bad`: the bytes come from a
poisoned granule, so the granules written are poisoned (R423). -/
def bankWrite (w : Who) (d : Domain) (pa n v : Nat) (bad : Bool) : Exec Unit :=
  forAll (pieces pa n) fun (g, lo, len) => do
    writeBacking w d g (v / 2 ^ (8 * (g * 32 + lo - pa)) % 2 ^ (8 * len) * 2 ^ (8 * lo)) ((2 ^ len - 1) * 2 ^ lo)
    if bad then setPoison g true

/-! ### RAW accesses: ciphertext (R391, R432, R293) -/

/-- The ciphertext of a granule: what a RAW write left, its plaintext encrypted under its domain, or, never written, free
bytes. -/
def rawGranule (g : Nat) : Exec Nat := do
  let v ← ask (fun s => s.mem.readN (g * 32) 32)
  match Tab.find (← ask (·.domains)) g with
  | some d => return if d = Domain.raw then v else blocks d.encrypt g v
  | none => freeBits 256

/-- n bytes of ciphertext. -/
def rawRead (pa n : Nat) : Exec Nat := do
  let ps ← each (pieces pa n) fun (g, lo, len) => do
    let v ← rawGranule g
    let _ ← dramRead {} 0 g
    return (v / 2 ^ (8 * lo) % 2 ^ (8 * len), len)
  return ps.foldr (fun (v, len) acc => v + 2 ^ (8 * len) * acc) 0

/-- The low n bytes of a number written as ciphertext: a whole granule clears its poison, a part is merged as R292 gives. -/
def rawWrite (pa n v : Nat) : Exec Unit :=
  forAll (pieces pa n) fun (g, lo, len) => do
    if len ≠ 32 then
      let old ← rawGranule g
      putBacking Domain.raw g old
    writeBacking {} Domain.raw g (v / 2 ^ (8 * (g * 32 + lo - pa)) % 2 ^ (8 * len) * 2 ^ (8 * lo)) ((2 ^ len - 1) * 2 ^ lo)

end Sys2Proof.Machine
end

