-- ==== Sys2Proof/Machine/Ops.lean ====
section
/-! DEFINITION. The named operations over a hart's registers, the repeat, the fault queue, taking a trap (R405) and
returning from one (R409), and parking (R413 to R415). -/

namespace Sys2Proof

/-- The registers that an S-, I- or M-format instruction reads in RS1 and RS2. -/
def SForm.regs (f : SForm) : List Nat := [f.rs1.toNat, f.rs2.toNat]
def IForm.regs (f : IForm) : List Nat := [f.rs1.toNat]
def MForm.regs (f : MForm) : List Nat := [f.rs1.toNat]

end Sys2Proof

namespace Sys2Proof.Machine

open Sys2Proof

/-! ### Harts and gangs -/

/-- A hart of the state. -/
def State.hart (s : State) (k : Nat) : Hart := Tab.get {} s.harts k

/-- The state with a hart replaced. -/
def State.putHart (s : State) (k : Nat) (h : Hart) : State := { s with harts := Tab.put {} s.harts k h }

/-- The hart whose turn it is. -/
def State.me (s : State) : Hart := s.hart s.cur

def me : Exec Hart := fun s => .ok s.me s
def setMe (h : Hart) : Exec Unit := fun s => .ok () (s.putHart s.cur h)
def modMe (f : Hart → Hart) : Exec Unit := fun s => .ok () (s.putHart s.cur (f s.me))

/-- A gang, and the gang of a hart. -/
def State.gang (s : State) (k : Nat) : Gang := Tab.get {} s.gangs k
def State.putGang (s : State) (k : Nat) (g : Gang) : State := { s with gangs := Tab.put {} s.gangs k g }
def State.gangOf (s : State) (h : Hart) : Gang := s.gang h.gang
def myGang : Exec Gang := fun s => .ok (s.gangOf s.me) s

/-- Run a computation for another hart, then go on with the one before. -/
def asHart {α : Type} (k : Nat) (m : Exec α) : Exec α := fun s =>
  match m { s with cur := k } with
  | .ok a s' => .ok a { s' with cur := s.cur }
  | .error e s' => .error e { s' with cur := s.cur }

/-! ### Results owed by the queue (R108) -/

/-- The x register that a queued vector instruction writes when it completes (R108). -/
def pendingX (i : Instr) : Option Nat :=
  match i with
  | .vmpop f => some f.vd.toNat
  | .vmvx f => if f.fn.toNat = 2 then none else some f.vd.toNat
  | .tflags f => some f.vd.toNat
  | .fdone f => some f.vd.toNat
  | .flwait f => some f.vd.toNat
  | _ => none

/-- A queue entry will write register r. -/
def VEntry.owes (e : VEntry) (r : Nat) : Bool := !e.dead && pendingX e.instr = some r

/-! ### Scalar and guard registers (R23, R24) -/

/-- x(r); x0 reads zero. -/
def Hart.getX (h : Hart) (r : Nat) : Word := if r = 0 then 0 else Tab.get (0 : Word) h.x r

/-- x(r) written; a write of x0 is discarded. -/
def Hart.setX (h : Hart) (r : Nat) (v : Word) : Hart := if r = 0 then h else { h with x := Tab.put (0 : Word) h.x r v }

/-- g(r); g0 reads true. -/
def Hart.getG (h : Hart) (r : Nat) : Bool := r = 0 || h.g.getLsbD r

/-- g(r) written; a write of g0 is discarded. -/
def Hart.setG (h : Hart) (r : Nat) (b : Bool) : Hart :=
  if r = 0 then h else { h with g := if b then h.g ||| (1#8 <<< r) else h.g &&& ~~~(1#8 <<< r) }

def getX (r : Nat) : Exec Word := return (← me).getX r
/-- x(r) written by the scalar side: a queued instruction that would have written it no longer does (R108; log 21). -/
def Hart.setXNow (h : Hart) (r : Nat) (v : Word) : Hart :=
  { h.setX r v with viq := h.viq.map fun e => if r ≠ 0 && e.owes r then { e with dead := true } else e }

def setX (r : Nat) (v : Word) : Exec Unit := modMe (·.setXNow r v)
def setG (r : Nat) (b : Bool) : Exec Unit := modMe (·.setG r b)

/-- Whether an S-, I- or B-format instruction is guarded on (R57). -/
def Hart.guardOn (h : Hart) (g : BitVec 3) (gn : BitVec 1) : Bool := h.getG g.toNat != (gn = 1)

/-- S level (R373). -/
def Hart.isS (h : Hart) : Bool := h.tstat.lvl

/-! ### Places (R11, R32) -/

def coreOf (k : Nat) : Nat := k / 8
def ctxOf (k : Nat) : Nat := k % 8
def clusterOfCore (c : Nat) : Nat := c / 192
def clusterOf (k : Nat) : Nat := clusterOfCore (coreOf k)

/-- HARTID (R32). -/
def State.hartId (s : State) (k : Nat) : Nat :=
  s.pkg * 2 ^ 12 + clusterOf k * 2 ^ 11 + coreOf k % 192 * 2 ^ 3 + ctxOf k

/-- Whom the accesses of a hart are for (R292). -/
def State.who (s : State) (h : Hart) : Who := { task := (s.gangOf h).task, asid := h.asid }

/-! ### The repeat (R134, R135) -/

/-- The end of a pass: the count register lowered, and the next pass or what follows the body, at `next`. -/
def Hart.closePass (h : Hart) (next : Word) : Hart :=
  let c := h.getX h.rep.reg.toNat
  let c' := if c ≠ 0 then c - 1 else c
  let h := h.setX h.rep.reg.toNat c'
  if c' = 0 then { h with rep := {}, pc := next } else { h with rep := { h.rep with pos := 0 }, pc := h.rep.start }

/-- None of the registers waits for a queued vector instruction (R108). -/
def Hart.ready (h : Hart) (regs : List Nat) : Bool := regs.all fun r => r = 0 || h.viq.all fun e => !e.owes r

/-- The last entry of a queue that will write r is marked as the end of a pass (R134). -/
def markEnd (r : Nat) : List VEntry → List VEntry
  | [] => []
  | e :: t => if e.owes r && t.all (fun x => !x.owes r) then { e with ends := true } :: t else e :: markEnd r t

/-- The scalar side moves past n body instructions that end at address `next`. Where the count register is still owed by a
queued instruction of the body, the pass ends when that one completes (R134). Until then the PC is the address after the body
and the position B − 1, which a vector trap records as TPC and RPOS: R135 does not say, the model's choice (log 21). -/
def Hart.retire (h : Hart) (n : Nat) (next : Word) : Hart :=
  if h.rep.active then
    if h.rep.pos + n ≥ h.rep.len then
      if h.ready [h.rep.reg.toNat] then h.closePass next
      else { h with rep := { h.rep with pos := h.rep.len - 1 }, pc := next, viq := markEnd h.rep.reg.toNat h.viq }
    else { h with rep := { h.rep with pos := h.rep.pos + n }, pc := next }
  else { h with pc := next }

/-- The scalar side waits for the entry that ends its pass. -/
def Hart.passOpen (h : Hart) : Bool := h.rep.active && h.viq.any (·.ends)

/-- The scalar side moves past one instruction of `len` bytes; past address 2^64 it goes on at 0 (log 21). -/
def Hart.advance (h : Hart) (len : Nat) : Hart := h.retire 1 (h.pc + word len)

/-- A taken transfer ends the repeat; the count register keeps its value (R135). -/
def Hart.jump (h : Hart) (target : Word) : Hart := { h with pc := target, rep := {} }

/-! ### Encodings as trap values (R401) -/

/-- TVAL of an illegal instruction: its first parcel, and the high parcel of the V format. -/
def illegalValue (i : Instr) : Word :=
  match encode i, i.vForm with
  | lo :: hi :: _, some _ => word (lo.toNat + 2 ^ 32 * hi.toNat)
  | lo :: _, _ => word lo.toNat
  | [], _ => 0

/-- Illegal instruction found at decode (DETAIL 0). -/
def illegal {α : Type} (i : Instr) : Exec α := trap 0x01 0 (illegalValue i)

/-- Illegal instruction found at issue (DETAIL 1). -/
def illegalAtIssue {α : Type} (i : Instr) : Exec α := trap 0x01 1 (illegalValue i)

/-! ### The fault queue (R412 to R414) -/

def ringLog (ring : Word) : Nat := ring.toNat % 32
def ringPa (ring : Word) : Nat := bits ring.toNat 51 12 * 2 ^ 12
/-- Two FQBASE values name one ring: the ring is the one at BASE (R412). -/
def sameRing (a b : Word) : Bool := ringPa a = ringPa b
/-- NLOG from 4 to 16: the device writes entries. -/
def ringOk (ring : Word) : Bool := 4 ≤ ringLog ring && ringLog ring ≤ 16

/-- The 64 bytes of an entry as a little-endian number (R414). -/
def Entry.bytes (e : Entry) (seq : Nat) : Nat :=
  seq % 2 ^ 64 + 2 ^ 64 * (e.taskid % 2 ^ 64) + 2 ^ 128 * e.addr.toNat + 2 ^ 192 * e.val.toNat + 2 ^ 256 * e.pc.toNat +
  2 ^ 320 * e.pte.toNat + 2 ^ 384 * (e.elem % 2 ^ 32) + 2 ^ 416 * (e.hartid % 2 ^ 19) + 2 ^ 448 * e.asid.toNat +
  2 ^ 464 * (e.code % 256) + 2 ^ 472 * (e.detail % 256) + 2 ^ 480 * (e.kind % 256) + 2 ^ 488 * (e.src % 256)

/-- An MSI-X message to the host (R430). -/
def signalHost (vector : Nat) : Exec Unit :=
  modify fun s => { s with port := { s.port with msix := vector :: s.port.msix } }

/-- The notification of a ring: FQVEC of the lowest-numbered enabled context that shares it (R413, R433). -/
def notifyRing (ring : Word) : Exec Unit := do
  let qs ← ask (·.port.queues)
  match qs.find? (fun (_, q) => q.en && sameRing q.qfqbase ring) with
  | some (_, q) => signalHost q.fqvec.toNat
  | none => pure ()

/-- The held entries of a ring, in order. -/
def State.heldOf (s : State) (ring : Word) : List Pending := s.pending.filter fun p => p.ring = ring && p.seq = none

/-- WAITING of a ring follows the entries held for want of space (R412). -/
def setWaiting (ring : Word) : Exec Unit := do
  let n ← ask (fun s => (s.heldOf ring).length)
  writeOwn (ringPa ring + 16) 8 n

/-- The oldest held entry of a ring is written (R413): SEQ := TAIL, the entry, TAIL + 1 at SYSTEM scope, the notification. An
entry of code 0x20 is complete when written (R425). -/
def writeEntry (p : Pending) : Exec Unit := do
  let base := ringPa p.ring
  let tail ← readOwn (base + 8) 8
  let slot := base + 64 + 64 * (tail % 2 ^ ringLog p.ring)
  writeOwn slot 64 (p.entry.bytes tail)
  writeOwn (base + 8) 8 ((tail + 1) % 2 ^ 64)
  sendPool slot 64
  sendPool (base + 8) 8
  modify fun s =>
    let l := if p.entry.code = 0x20 then s.pending.filter (fun q => q.id ≠ p.id)
      else s.pending.map (fun q => if q.id = p.id then { q with seq := some tail } else q)
    { s with pending := l }
  notifyRing p.ring

/-- Whether a ring takes an entry now: a valid NLOG and TAIL − HEAD below 2^NLOG. -/
def ringSpace (ring : Word) : Exec Bool := do
  if ringOk ring then
    let head ← readOwn (ringPa ring) 8
    let tail ← readOwn (ringPa ring + 8) 8
    return (tail + 2 ^ 64 - head) % 2 ^ 64 ≠ 2 ^ ringLog ring
  else return false

/-- Entries of a ring are written in order while it has space; `fuel` bounds their number. -/
def drainRing (ring : Word) : Nat → Exec Unit
  | 0 => pure ()
  | n + 1 => do
    match (← ask (·.heldOf ring)) with
    | [] => pure ()
    | p :: _ =>
      if ← ringSpace ring then
        writeEntry p
        drainRing ring n

/-- An entry for a ring: written at once when the ring has space and holds none before it, else held in the device and
counted in WAITING (R413, R414). The answer is the entry's identifier. -/
def postEntry (ring : Word) (e : Entry) (harts : List Nat) (stream conv : Option Nat) : Exec Nat := do
  let id ← nextFresh
  let older ← ask (fun s => (s.heldOf ring).length)
  let p : Pending := { id := id, ring := ring, seq := none, entry := e, harts := harts, stream := stream, conv := conv }
  modify fun s => { s with pending := s.pending ++ [p] }
  drainRing ring (older + 1)
  let held ← ask (fun s => (s.heldOf ring).length)
  if ringOk ring && (older ≠ 0 || held ≠ 0) then setWaiting ring
  return id

/-! ### Parking and traps (R404, R405, R415) -/

/-- The point a stop is reported at: scalar, or the vector instruction at VCP with its address. -/
inductive Point where
  | scalar
  | vector (vcp : Word) (far : Bool)
  deriving DecidableEq, Repr

/-- The KIND byte of an entry (R414). -/
def kindByte (p : Point) (write fetch parked : Bool) : Nat :=
  (if write then 1 else 0) + (if fetch then 2 else 0) + (if parked then 0 else 8) +
  (match p with | .scalar => 0 | .vector _ far => 4 + (if far then 16 else 0))

/-- The fields of an entry for a fault of the hart whose turn it is. -/
def faultEntry (p : Point) (code detail : Nat) (addr val pte : Word) (write fetch parked : Bool) (src : Nat) :
    Exec Entry := do
  let h ← me
  let s ← get
  return { taskid := (s.gangOf h).task, addr := addr, val := val,
           pc := match p with | .scalar => h.pc | .vector vcp _ => vcp,
           pte := pte, elem := match p with | .scalar => 0 | .vector .. => h.vstart.toNat,
           hartid := s.hartId s.cur, asid := h.asid, code := code, detail := detail,
           kind := kindByte p write fetch parked, src := src }

/-- The hart parks on an entry already written (R308, R416). -/
def parkOn (id : Nat) : Exec Unit := do
  let k ← ask (·.cur)
  modify fun s => { s with pending := s.pending.map fun p => if p.id = id then { p with harts := p.harts ++ [k] } else p }
  modMe fun h => { h with run := .parked id }

/-- Two addresses of a hart lie on one page, of 512 MiB where its tables have such a leaf there (R375, R416). -/
def State.samePage (s : State) (h : Hart) (a b : Word) : Bool :=
  let entry (at_ : Nat) : Nat := s.rawBytes at_ 8
  let e1 := entry (bits h.ptbase.toNat 51 17 * 2 ^ 17 + 8 * bits a.toNat 55 42)
  let e2 := entry (bits e1 51 16 * 2 ^ 16 + 8 * bits a.toNat 41 29)
  let big := bitAt e1 0 && bitAt e2 0 && !bitAt e2 12
  a.toNat / 2 ^ (if big then 29 else 16) = b.toNat / 2 ^ (if big then 29 else 16)

/-- A pending entry of the hart served in the background that a fault joins: the same code on the same page (R416). -/
def State.backgroundOf (s : State) (k code : Nat) (addr : Word) : Option Pending :=
  s.pending.find? fun p => p.entry.src = 1 && p.entry.hartid = s.hartId k && p.entry.asid = (s.hart k).asid &&
    p.entry.code = code && s.samePage (s.hart k) p.entry.addr addr

/-- An instruction whose faults past its first element are served in the background (R223, R285, R416). -/
def trailing : Instr → Bool
  | .vldff _ => true
  | .vldx f => f.fn.toNat / 2 % 2 = 1
  | .clnext _ => true
  | _ => false

/-- The fault is of the source of a hart's background entries: of such an instruction, at the head of the queue (R416). -/
def Hart.trails (h : Hart) (p : Point) : Bool :=
  match p, h.viq with
  | .vector .., e :: _ => trailing e.instr
  | _, _ => false

/-- The hart parks with an entry of its own (R413, R415), or, where the fault is of the same source, on the pending
background entry of its code and page (R416). -/
def park (p : Point) (code detail : Nat) (addr val pte : Word) (write fetch : Bool) : Exec Unit := do
  let s ← get
  match if s.me.trails p then s.backgroundOf s.cur code addr else none with
  | some b => parkOn b.id
  | none =>
    let e ← faultEntry p code detail addr val pte write fetch true 0
    let id ← postEntry s.me.fqbase e [s.cur] none none
    modMe fun h => { h with run := .parked id }

/-- A fault of a parked kind past the first element (R285, R416): an entry that parks no hart, unless one is pending for
it; a fault of a trap kind is not entered. -/
def background (p : Point) (i : Nat) (e : Stop) : Exec Unit := do
  match e with
  | .park code detail addr val pte w f =>
    let s ← get
    if (s.backgroundOf s.cur code addr).isNone then
      let en ← faultEntry p code detail addr val pte w f false 1
      let _ ← postEntry s.me.fqbase { en with elem := i } [] none none
  | _ => pure ()

/-- The VL a queue entry runs with: the one it captured, or the one an earlier instruction trimmed (R218). -/
def VEntry.length (e : VEntry) (h : Hart) : Nat := e.vl.getD h.vvl

/-- Trap entry on the registers (R405): TPC is the scalar resume address, the repeat is recorded and ends, and for a
vector trap the queue is held with the scalar side's VL. -/
def Hart.enterTrap (h : Hart) (p : Point) (code detail : Nat) (value : Word) : Hart :=
  let k : Nat := match p with | .scalar => 0 | .vector .. => 1
  let t := { h.tstat with
    pl := h.tstat.lvl, inh := true, ract := h.rep.active, rreg := h.rep.reg,
    rb := BitVec.ofNat 5 (h.rep.len - 1), rpos := BitVec.ofNat 5 h.rep.pos,
    rback := if h.rep.active then BitVec.ofNat 7 ((h.pc - h.rep.start).toNat / 4) else 0 }
  let h := { h with tcause := BitVec.ofNat 17 (code + 256 * detail + 65536 * k), tval := value, tpc := h.pc, rep := {},
                    tstat := t, pc := h.tvec &&& ~~~3, members := [] }
  match p with
  | .scalar => h
  | .vector .. =>
    { h with held := h.viq, viq := [], heldVl := h.vl, heldVvl := h.vvl, heldPending := h.vlPending,
             tstat := { h.tstat with shn := BitVec.ofNat 7 h.viq.length }, vlPending := false,
             vl := match h.viq with | e :: _ => BitVec.ofNat 16 (e.length h) | [] => h.vl }

/-- TAKING A TRAP (R405): into the handler, or, with no handler or inside one, parked with code 0x18. -/
def takeTrap (p : Point) (code detail : Nat) (value : Word) : Exec Unit := do
  let h ← me
  if h.tvec.getLsbD 0 && !h.tstat.inh then setMe (h.enterTrap p code detail value)
  else do
    setMe { h with noRoom := false }
    park p 0x18 (code + if h.tstat.inh then 0x80 else 0) value h.pc 0 false false

/-- RETURNING FROM A TRAP on the registers (R409): the level, the repeat, the held entries and the PC. -/
def Hart.leaveTrap (h : Hart) : Hart :=
  let t := h.tstat
  let rep : Repeat :=
    if t.ract then { active := true, reg := t.rreg, len := t.rb.toNat + 1, pos := t.rpos.toNat,
                     start := h.tpc - word (4 * t.rback.toNat) }
    else {}
  let h' := { h with rep := rep, pc := h.tpc, tstat := { t with lvl := t.pl, inh := false, ract := false, shn := 0 } }
  if t.shn = 0 then h'
  else { h' with viq := h.held, held := [], vl := h.heldVl, vvl := h.heldVvl, vlPending := h.heldPending }

/-- The address VCP reads as (R31, R406): the held entry at the trap point, else the oldest queued entry, else the PC
(log 8). -/
def Hart.vcp (h : Hart) : Word :=
  match h.held, h.viq with
  | e :: _, _ => e.pc
  | [], e :: _ => e.pc
  | [], [] => h.pc

/-! ### How an instruction ends -/

/-- What a stop does at its point (R109, R404, R415). A scalar stop is taken when the earlier vector instructions have
completed; until then the instruction waits. -/
def settleStop (p : Point) (e : Stop) : Exec Unit := do
  let h ← me
  match e with
  | .wait => pure ()
  | .parkOn id => parkOn id
  | .trap code detail value => if p = .scalar && !h.viq.isEmpty then pure () else takeTrap p code detail value
  | .park code detail addr val pte w f =>
    if p = .scalar && !h.viq.isEmpty then pure () else park p code detail addr val pte w f

/-- The outcome of a computation at a point: always a next state. -/
def outcome (p : Point) (m : Exec Unit) (s : State) : Host.Outcome State Fault Refusal :=
  match m s with
  | .ok _ s' => .next s'
  | .error e s' =>
    match settleStop p e s' with
    | .ok _ s'' => .next s''
    | .error _ s'' => .next s''

/-- The outcome of a move of a unit or of the outside world: what cannot be done now leaves what was done. -/
def eventStep (m : Exec Unit) (s : State) : Host.Outcome State Fault Refusal :=
  match m s with
  | .ok _ s' => .next s'
  | .error _ s' => .next s'

/-- A hart of a gang changed, where it is: in its context, or saved with its suspended gang (R368). -/
def State.onHart (s : State) (k gang : Nat) (f : Hart → Hart) : State :=
  let h := s.hart k
  if h.run ≠ .free && h.gang = gang then s.putHart k (f h)
  else
    let g := s.gang gang
    if g.suspended then s.putGang gang { g with saved := g.saved.map fun x =>
      if g.core * 8 + x.ctx = k then { x with hart := f x.hart } else x }
    else s

/-- Where the scalar side goes after an instruction. -/
inductive Flow where
  | seq
  | jump (target : Word)
  | stay
  deriving DecidableEq, Repr

/-- A bank-level command, or an instruction whose additions are (R45, R248). -/
def isBankLevel : Instr → Bool
  | .yired _ => true
  | .ybop _ => true
  | .vcoll _ => true
  | _ => false

/-- A scalar instruction of `len` bytes: it waits for the registers it names (R108), runs when guarded on (R57, R58), and
the scalar side moves on. -/
def scalarWork (on : Bool) (regs : List Nat) (len : Nat) (body : Exec Flow) : Exec Unit := do
  if on then
    let h ← me
    await (h.ready regs)
    match ← body with
    | .seq => modMe (·.advance len)
    | .jump t => modMe (·.jump t)
    | .stay => pure ()
  else modMe (·.advance len)

/-- The outcome of a scalar instruction. -/
def scalarStep (on : Bool) (regs : List Nat) (len : Nat) (body : Exec Flow) (s : State) :
    Host.Outcome State Fault Refusal := outcome .scalar (scalarWork on regs len body) s


/-- Every earlier vector instruction has completed; inside a handler the held entries do not count (R406). -/
def vectorDone : Exec Unit := do await (← me).viq.isEmpty

end Sys2Proof.Machine
end

