-- ==== Sys2Proof/Machine/Flags.lean ====
section
/-! DEFINITION. Flags and arithmetic traps (R98 to R106): arithmetic with a running FLAGS and SRSEED, and the first enabled
condition that arises. -/

namespace Sys2Proof.Machine

open Sys2Proof

/-- What arithmetic carries: SRSEED, the flags raised, the enables of TSTAT as NV, DZ, OF bits, and the DETAIL of the
first enabled condition (R106). -/
structure FState where
  seed  : BitVec 32
  flags : Nat := 0
  en    : Nat := 0
  hit   : Option Nat := none
  deriving DecidableEq, Repr

/-- Arithmetic that may raise flags. -/
abbrev Fm := StateM FState

/-- The first enabled condition among NV, DZ and OF, as R401's DETAIL. -/
def enabledHit (en fl : Nat) : Option Nat :=
  if bitAt fl 0 && bitAt en 0 then some 0
  else if bitAt fl 1 && bitAt en 1 then some 1
  else if bitAt fl 2 && bitAt en 2 then some 2
  else none

/-- Flags raised (R105). -/
def raise (fl : Nat) : Fm Unit := modify fun c =>
  { c with flags := c.flags ||| fl, hit := match c.hit with | some d => some d | none => enabledHit c.en fl }

/-- The 16 random bits of a rounding: mode 5 steps SRSEED on every call (R100). -/
def randomBits (rm : Nat) : Fm Nat := do
  if rm = 5 then
    let s := Fp.srStep (← get).seed
    modify fun c => { c with seed := s }
    return s.toNat % 2 ^ 16
  else return 0

/-- round(r, fmt, rm) of a value with the flags of its operation (R73): one operation, one raise. -/
def roundF (fmt rm : Nat) (v : Fp.Val × Nat) : Fm Nat := do
  let r ← randomBits rm
  let (b, fl) := Fp.roundBits fmt rm r v.1
  raise (v.2 ||| fl)
  return b

/-- A conversion into FMT 0 to 9, unsigned for an integer destination when `uns` (R103, R104). -/
def convertF (fmt rm : Nat) (uns nosat : Bool) (v : Fp.Val) : Fm Nat := do
  let r ← randomBits rm
  let nv := if v.isSig then Fp.NV else 0
  let (b, fl) :=
    if fmtIsInt fmt then Fp.roundInt (fmtWidth fmt) uns rm r v
    else if fmt = 4 then Fp.roundE4M3 rm r nosat v
    else Fp.roundBits fmt rm r v
  raise (nv ||| fl)
  return b

/-- A value with flags of its own and no rounding. -/
def exactF (v : Nat × Nat) : Fm Nat := do
  raise v.2
  return v.1

/-- The enables of TSTAT as flag bits (R106). -/
def Tstat.enables (t : Tstat) : Nat := (if t.nve then 1 else 0) + (if t.dze then 2 else 0) + (if t.ofe then 4 else 0)

/-- The arithmetic state of a hart. -/
def Hart.fstate (h : Hart) : FState := { seed := h.srseed, en := h.tstat.enables }

/-- Flags and SRSEED of a hart after arithmetic. -/
def Hart.withF (h : Hart) (c : FState) : Hart :=
  { h with srseed := c.seed, flags := h.flags ||| BitVec.ofNat 6 c.flags }

/-- Scalar arithmetic (R106, R124): an enabled condition traps and nothing is written; else flags and SRSEED are kept. -/
def scalarF {α : Type} (m : Fm α) : Exec α := do
  let h ← me
  let (a, c) := m h.fstate
  match c.hit with
  | some d => trap 0x03 d 0
  | none => do
    setMe (h.withF c)
    return a

/-- SAT set by an integer instruction (R86, R111). -/
def setSat (b : Bool) : Exec Unit := if b then modMe fun h => { h with flags := h.flags ||| 0x20 } else pure ()

/-- An integer clamped to a signed or unsigned range of w bits: its bits, and whether the clamp changed it (R86). -/
def clampInt (w : Nat) (uns : Bool) (i : Int) : Nat × Bool :=
  let lo : Int := if uns then 0 else -((2 ^ (w - 1) : Nat) : Int)
  let hi : Int := if uns then (2 ^ w : Nat) - 1 else (2 ^ (w - 1) : Nat) - 1
  if i < lo then (Fp.wrap w lo, true) else if i > hi then (Fp.wrap w hi, true) else (Fp.wrap w i, false)

/-- A clamped integer as arithmetic: SAT when the clamp changed it. -/
def clampF (w : Nat) (uns : Bool) (i : Int) : Fm Nat := exactF ((clampInt w uns i).1, if (clampInt w uns i).2 then Fp.SAT else 0)

end Sys2Proof.Machine
end

