-- ==== Sys2Proof/Machine/Mem.lean ====
section
/-! DEFINITION. Virtual accesses: address checks, the scratchpad window, translation in the order of checks, the TLB,
copy-on-write, and reads and writes of checked accesses (R37 to R42, R267 to R269, R374 to R388, R249, R250, R293). -/

namespace Sys2Proof.Machine

open Sys2Proof

/-! ### Who accesses -/

/-- The context an access is made under: a hart's registers, its key, its place among the hart's numbered work, its gang's
bounds, its cluster and package. -/
structure Ctx where
  h    : Hart
  hart : Nat
  pos  : Nat
  splo : Nat
  sphi : Nat
  who  : Who
  keep : Bool := true      -- its accesses bring lines into the caches (R231)
  probe : Bool := false    -- it only looks ahead: accesses are noted, and their faults and waits are passed over (log 2)
  deriving Repr

/-- The context of a hart of the state. -/
def State.ctx (s : State) (k : Nat) : Ctx :=
  let h := s.hart k
  let g := s.gangOf h
  { h := h, hart := k, pos := h.entered, splo := g.splo.toNat, sphi := g.sphi.toNat, who := s.who h }

/-- The context of the hart whose turn it is. -/
def myCtx : Exec Ctx := fun s => .ok (s.ctx s.cur) s

/-- The kind of an access (R381 step 6); `discard` is INVR's, a write that never copies (R279). -/
inductive Kind where
  | read | write | fetch | discard
  deriving DecidableEq, Repr

/-- The access is a write. -/
def Kind.writes (k : Kind) : Bool := k = .write || k = .discard

/-! ### Addresses (R37, R38) -/

/-- Canonical over 56 bits: bits [63:56] equal bit 55. -/
def canonical (a : Nat) : Bool := a < 2 ^ 55 || (2 ^ 64 - 2 ^ 55 ≤ a && a < 2 ^ 64)

def windowBase : Nat := 0xFFF0000000000000
/-- The scratchpad window and the hole after it. -/
def inWindow (a : Nat) : Bool := windowBase ≤ a && a < windowBase + 0x6000000
def inScratchRegion (a : Nat) : Bool := windowBase ≤ a && a < windowBase + 2 ^ 32

/-- The place of a scratchpad byte: the cluster and the offset in the window. -/
def scratchKey (cluster a : Nat) : Nat := cluster * 2 ^ 27 + (a - windowBase)

/-- The value of an unbounded address modulo 2^64, as a trap value (R267). -/
def addrWord (a : Int) : Word := BitVec.ofInt 64 a

/-- R267: the bytes lie in 0 to 2^64 − 1 and are canonical. -/
def addrOk (a : Int) (n : Nat) : Bool :=
  0 ≤ a && a + n ≤ 2 ^ 64 && canonical a.toNat && canonical (a.toNat + n - 1) &&
  !(a.toNat < 2 ^ 55 && a.toNat + n > 2 ^ 55)

/-- A range of n bytes cut at 64 KiB boundaries: address and length of each part. -/
def cuts (a n : Nat) : List (Nat × Nat) :=
  (List.range ((a + n + 65535) / 65536 - a / 65536)).map fun k =>
    let lo := if k = 0 then a else (a / 65536 + k) * 65536
    let hi := min (a + n) ((a / 65536 + k + 1) * 65536)
    (lo, hi - lo)

/-! ### Census counts and the free-frame queue (R384, R386) -/

def readCount (pa : Nat) : Exec Nat := do readOwn (← ask (·.censusPa pa)) 4
def writeCount (pa v : Nat) : Exec Unit := do writeOwn (← ask (·.censusPa pa)) 4 v
def writeSeal (pa v : Nat) : Exec Unit := do writeOwn ((← ask (·.censusPa pa)) + 4) 4 v

/-- The physical address of a package's free-frame queue descriptor. -/
def State.freeqPa (s : State) (pkg : Nat) : Nat := bits (Tab.get (0 : Word) s.freeq pkg).toNat 51 6 * 64

/-- A frame is on its Landing's retirement list (R422). -/
def State.isRetired (s : State) (pa : Nat) : Bool := (Tab.get [] s.port.retired (landingOf pa)).contains (pa / 2 ^ 16)

/-- A frame whose count reached zero is added at the queue of its package (R386); a retired frame is dropped (R422). -/
def addFree (pa : Nat) : Exec Unit := do
  if ← ask (·.isRetired pa) then pure ()
  else
    let q ← ask (·.freeqPa (paPkg pa))
    let ring ← readOwn q 8
    let nlog ← readOwn (q + 8) 1
    let head ← readOwn (q + 0x10) 8
    let tail ← readOwn (q + 0x18) 8
    if (tail + 2 ^ 64 - head) % 2 ^ 64 = 2 ^ nlog then
      let lost ← readOwn (q + 0x20) 8
      writeOwn (q + 0x20) 8 ((lost + 1) % 2 ^ 64)
    else
      writeOwn (ring + 8 * (tail % 2 ^ nlog)) 8 (pa / 2 ^ 16 * 2 ^ 16)
      writeOwn (q + 0x18) 8 ((tail + 1) % 2 ^ 64)

/-- A frame taken from a package's queue, if it has one (R386). -/
def takeFree (pkg : Nat) : Exec (Option Nat) := do
  let q ← ask (·.freeqPa pkg)
  let ring ← readOwn q 8
  let nlog ← readOwn (q + 8) 1
  let head ← readOwn (q + 0x10) 8
  let tail ← readOwn (q + 0x18) 8
  if head = tail then return none
  else
    let f ← readOwn (ring + 8 * (head % 2 ^ nlog)) 8
    writeOwn (q + 0x10) 8 ((head + 1) % 2 ^ 64)
    return some f

/-- A count lowered by one; at zero the frame joins its queue. A count of zero stays (R388). -/
def dropCount (pa : Nat) : Exec Unit := do
  let c ← readCount pa
  if c = 0 then pure ()
  else
    writeCount pa (c - 1)
    if c = 1 then addFree pa

/-- n bytes of the package's own that a hart's instruction needs are good, or it takes the data error, of the class their read
gives or of a lost route (R400, R421, R428); `a` is the address it reports (log 15). -/
def checkOwn (c : Ctx) (a : Nat) (wr : Bool) (pa n : Nat) : Exec Unit := do
  let s ← get
  let e ← if s.port.lostPkgs.contains (paPkg pa) then pure 4 else (·.2) <$> readPhys c.who (s.slot0 pa) false a pa n
  need (e = 0) (.park 0x16 e (word a) 0 0 wr false)

/-- The descriptor of a package's free-frame queue, before a frame is taken or added for a hart. -/
def checkFreeq (c : Ctx) (a pkg : Nat) : Exec Unit := do checkOwn c a true (← ask (·.freeqPa pkg)) 40

/-- The census entry of a frame, before it is changed for a hart. -/
def checkCount (c : Ctx) (a pa : Nat) : Exec Unit := do checkOwn c a true (← ask (·.censusPa pa)) 8

/-! ### The TLB (R378, R398) -/

/-- The page number of an address: 64 KiB or 512 MiB, over 56 bits. -/
def pageOf (big : Bool) (va : Nat) : Nat := va % 2 ^ 56 / 2 ^ (if big then 29 else 16)

/-- An entry of an address space that translates an address. -/
def TlbEntry.covers (t : TlbEntry) (asid va : Nat) : Bool := t.asid.toNat = asid && t.page = pageOf t.big va

/-- An entry of a TLB that translates an address. -/
def TlbEntry.hits (t : TlbEntry) (holder : Nat) (asid : BitVec 16) (va : Nat) : Bool :=
  t.holder = holder && t.covers asid.toNat va

/-- The second-level TLB of a cluster as a holder. -/
def clusterTlb (cluster : Nat) : Nat := 384 + cluster

/-- Entries that a condition names are removed. -/
def tlbDrop (p : TlbEntry → Bool) : Exec Unit := modify fun s => { s with tlb := s.tlb.filter fun t => !p t }

/-- The cached lines of a Landing. -/
def State.linesOf (s : State) (landing : Nat) : List Nat :=
  ((s.sectors.map (·.1 / 4)).filter fun l => landingOf (l * 128) = landing).dedup

/-- A sector that no cache has room for (R1, R229): the lines that a package's Landings have beyond their M-caches of 128 MiB
are in its two L2s, of 96 MiB each, or nowhere. -/
def State.crowdedSector (s : State) : Option Nat :=
  let beyond (landing : Nat) : Nat := (s.linesOf landing).length - Config.mcacheLines
  let spare (pkg : Nat) : Nat := ((List.range 8).map fun i => beyond (pkg * 8 + i)).sum
  if s.sectors.length ≤ Config.l2Lines then none
  else (s.sectors.find? fun (g, _) => beyond (landingOf (g * 32)) ≠ 0 && Config.l2Lines < spare (paPkg (g * 32))).map (·.1)

/-- A capacity passed, and what leaves then (R1, R229): the oldest entry of a TLB of 1,024 or 32,768, a granule of an L1I of
64 KiB, a sector of the L2s and M-caches. Which one leaves is the model's choice (log 11). -/
def State.crowded (s : State) : Option ArrayEvent :=
  let cap (holder : Nat) : Nat := if holder < 384 then Config.coreTlb else Config.clusterTlb
  let full := s.tlb.reverse.find? fun t => cap t.holder < (s.tlb.filter (·.holder = t.holder)).length
  match full with
  | some t => some (.translation t)
  | none =>
    match s.l1i.find? fun (k, _) => Config.l1iGranules < (s.l1i.filter fun (j, _) => j / 2 ^ 47 = k / 2 ^ 47).length with
    | some (k, _) => some (.code k)
    | none => s.crowdedSector.map .sector

/-! ### Leaves (R377) -/

def leafSlot (l : Nat) : Nat := bits l 63 52
def leafFrame (l : Nat) : Nat := bits l 51 16
def leafGen (l : Nat) : Nat := bits l 11 8
def leafTier (l : Nat) : Nat := bits l 7 6
def leafBit (l i : Nat) : Bool := bitAt l i

/-- The physical address under a leaf (R375). -/
def leafPa (big : Bool) (l va : Nat) : Nat := leafFrame l * 2 ^ 16 + va % 2 ^ (if big then 29 else 16)

/-- Step 4 of R381: the form of a leaf, for the frame of the address. -/
def State.leafForm (s : State) (big : Bool) (l va : Nat) : Bool :=
  let pa := leafPa big l va
  bits l 15 13 = 0 && leafTier l ≠ 3 &&
  (leafTier l = 2 ||
    (!(big && leafFrame l % 2 ^ 13 ≠ 0) && (leafTier l = paPool pa) && (leafTier l = 1 || bits pa 43 39 = 0) &&
      s.present (paPkg pa) && s.covered pa))

/-- A domain is LIVE: slot (package × 4096 + slot) at its generation, or slot 0 at generation 0 (R381 step 7). -/
def State.domainLive (s : State) (slot gen : Nat) : Bool :=
  if slot % 4096 = 0 then gen = 0
  else
    let k := Tab.get ({} : KeySlot) s.slots slot
    k.state = .live && k.gen.toNat = gen

/-- The key slot of a leaf: of the package that owns the frame; of the hart's own for tier 2. -/
def State.leafKeySlot (s : State) (big : Bool) (l va : Nat) : Nat :=
  (if leafTier l = 2 then s.pkg else paPkg (leafPa big l va)) * 4096 + leafSlot l

/-- The fault of a step of R381, which parks the hart. -/
def xlatFault {α : Type} (code step va pte : Nat) (k : Kind) : Exec α :=
  throw (.park code step (word va) 0 (word pte) k.writes (k = .fetch))

/-- A walk's read of an entry: a coherent 8-byte load under the package domain, allocating nothing (R375). -/
def walkRead (c : Ctx) (va pa : Nat) (k : Kind) : Exec Nat := do
  if (← ask (·.port.lostPkgs)).contains (paPkg pa) then throw (.park 0x16 4 (word va) 0 0 k.writes (k = .fetch))
  let d ← ask (·.slot0 pa)
  let (v, e) ← readPhys c.who d false va pa 8
  if e ≠ 0 then throw (.park 0x16 5 (word va) 0 0 k.writes (k = .fetch)) else return v

/-- Where a leaf was found (R378). -/
inductive FoundIn where
  | core | cluster | walk
  deriving DecidableEq, Repr

/-- A leaf found: 512 MiB or not, the leaf, its address, the frame's SEAL, and where it was found. -/
structure Found where
  big   : Bool
  leaf  : Nat
  at_   : Nat
  sealv : Nat := 0
  src   : FoundIn := .walk

/-- The walk of R375 with checks 1 to 3 of R381. -/
def walk (c : Ctx) (va : Nat) (k : Kind) : Exec Found := do
  let a1 := bits c.h.ptbase.toNat 51 17 * 2 ^ 17 + 8 * bits va 55 42
  let e1 ← walkRead c va a1 k
  if !(bitAt e1 0 && bitAt e1 12 && bits e1 63 52 = 0 && bits e1 15 13 = 0 && bits e1 11 1 = 0) then
    xlatFault 0x10 1 va e1 k
  else
    let a2 := leafFrame e1 * 2 ^ 16 + 8 * bits va 41 29
    let e2 ← walkRead c va a2 k
    if !bitAt e2 0 || (bitAt e2 12 && !(bits e2 63 52 = 0 && bits e2 15 13 = 0 && bits e2 11 1 = 0)) then
      xlatFault 0x10 2 va e2 k
    else if !bitAt e2 12 then return { big := true, leaf := e2, at_ := a2 }
    else
      let a3 := leafFrame e2 * 2 ^ 16 + 8 * bits va 28 16
      let e3 ← walkRead c va a3 k
      if bitAt e3 0 && !bitAt e3 12 then
        return { big := false, leaf := e3, at_ := a3, sealv := ← ask (·.sealOf (leafPa false e3 va)) }
      else xlatFault 0x10 3 va e3 k

/-- Checks 4 to 7 of R381 on a leaf. -/
def checkLeaf (c : Ctx) (va : Nat) (k : Kind) (f : Found) : Exec Unit := do
  let s ← get
  let l := f.leaf
  if !s.leafForm f.big l va then xlatFault 0x10 4 va l k
  else if !(leafBit l 3 || c.h.isS) then xlatFault 0x10 5 va l k
  else if k = .fetch && !leafBit l 2 then xlatFault 0x10 6 va l k
  else if k.writes && !(if f.big || k = .discard then leafBit l 1 && !leafBit l 4 else leafBit l 1 || leafBit l 4) then
    xlatFault 0x11 6 va l k
  else if !s.domainLive (s.leafKeySlot f.big l va) (leafGen l) then xlatFault 0x12 7 va l k
  else if k = .write && !f.big && leafBit l 4 &&
      !s.domainLive (s.pkg * 4096 + c.h.keydom.toNat % 4096) (c.h.keydom.toNat / 4096) then xlatFault 0x12 7 va l k
  else pure ()

/-- Step 8 of R381: tier 2 is not backed. -/
def checkTier (va : Nat) (k : Kind) (f : Found) : Exec Unit :=
  if leafTier f.leaf = 2 then xlatFault 0x13 8 va f.leaf k else pure ()

/-- A found leaf as an entry of a TLB. -/
def State.tlbEntry (s : State) (c : Ctx) (va : Nat) (f : Found) (holder : Nat) : TlbEntry :=
  { holder := holder, asid := c.h.asid, big := f.big, page := pageOf f.big va, leaf := word f.leaf, leafPa := f.at_,
    sealv := f.sealv, key := s.leafKeySlot f.big f.leaf va }

/-- The leaf of a walk enters the TLBs of the core and the cluster; one of the cluster's, the core's (R378). -/
def tlbFill (c : Ctx) (va : Nat) (f : Found) : Exec Unit :=
  modify fun s =>
    let core := coreOf c.hart
    let second := clusterTlb (clusterOf c.hart)
    match f.src with
    | .core => s
    | .cluster => { s with tlb := s.tlbEntry c va f core :: s.tlb }
    | .walk => { s with tlb := s.tlbEntry c va f core :: s.tlbEntry c va f second ::
        (s.tlb.filter fun t => !(t.hits core c.h.asid va || t.hits second c.h.asid va)) }

/-- The leaf of an address: from the core's TLB, from the cluster's, or by a walk. -/
def findLeaf (c : Ctx) (va : Nat) (k : Kind) : Exec Found := do
  let l ← ask (·.tlb)
  match l.find? fun t => t.hits (coreOf c.hart) c.h.asid va with
  | some t => return ⟨t.big, t.leaf.toNat, t.leafPa, t.sealv, .core⟩
  | none =>
    match l.find? fun t => t.hits (clusterTlb (clusterOf c.hart)) c.h.asid va with
    | some t => return ⟨t.big, t.leaf.toNat, t.leafPa, t.sealv, .cluster⟩
    | none => walk c va k

/-- The domain a found leaf gives an address: under the SEAL found with a 64 KiB leaf, or that of the address's frame in a
512 MiB page (R378; log 14). -/
def State.foundDomain (s : State) (f : Found) (va : Nat) : Domain :=
  let d := s.domainAt (s.leafKeySlot f.big f.leaf va) (leafPa f.big f.leaf va)
  if f.big then d else { d with sealv := f.sealv }

/-! ### Invalidations (R379) -/

/-- The queued instructions that hold translations over several turns, by address space, address and place: a VCOLL of its
group's descriptor and buffer. -/
def State.vcollHolds (s : State) (p : BitVec 16 → Nat × Nat × Place → Bool) : Bool :=
  s.harts.any fun (_, h) => (h.viq ++ h.held).any fun e =>
    match e.coll with
    | some (key, serial) =>
      let r : Round := Tab.get {} s.rounds key
      r.serial = serial && (r.desc ++ r.buf).any (p h.asid)
    | none => false

/-- Work under way holds a translation of an address space that an invalidation names: a bank-level command until its CWORD
add, accepted maintenance, or a VCOLL (R379). -/
def State.xlatHeld (s : State) (asid : BitVec 16 → Bool) (p : BitVec 16 → Nat → Bool) : Bool :=
  s.banks.any (fun b => asid b.asid) ||
  s.harts.any (fun (_, h) => asid h.asid && !h.maint.isEmpty) ||
  s.gangs.any (fun (_, g) => g.saved.any fun x => asid x.hart.asid && !x.hart.maint.isEmpty) ||
  s.vcollHolds fun a part => p a part.1

/-- Bytes at physical addresses lie in a 64 KiB frame, in part at least. -/
def inFrame (frame pa n : Nat) : Bool := pa < frame + 2 ^ 16 && frame < pa + n

/-- The spans a bank-level command reads and writes. -/
def BankOp.spans : BankOp → List Span
  | .yired _ _ _ _ rows dst _ cword => rows.flatten ++ dst ++ cword.toList
  | .ybop _ _ _ _ d a b _ => d ++ a ++ b

/-- Work under way holds a translation to a frame, of whichever address space: a bank-level command, accepted maintenance, a
VCOLL (R379). What changes one leaf waits for it (R387, R390). -/
def State.frameHeld (s : State) (frame : Nat) : Bool :=
  let maint (h : Hart) : Bool := h.maint.any fun m => m.lines.any fun (l, n) => inFrame frame (l * 128) (n * 128)
  s.banks.any (fun b => b.op.spans.any fun x => inFrame frame x.pa x.bytes) ||
  s.harts.any (fun (_, h) => maint h) || s.gangs.any (fun (_, g) => g.saved.any fun x => maint x.hart) ||
  s.vcollHolds fun _ (_, n, p) => match p with | .phys pa _ => inFrame frame pa n | .scratch _ => false

/-- The 64 KiB copy of step 4 of R387: each granule read coherently under K and written under D; poison goes with it
(R423). -/
def copyFrame (c : Ctx) (va old new : Nat) (dk dd : Domain) : Exec Unit :=
  forAll (List.range 2048) fun i => do
    let r ← readGranule c.who dk true va (old / 32 + i) fullMask
    writeGranule c.who dd false (new / 32 + i) r.data fullMask
    if r.err ≠ 0 then
      writeBack (new / 32 + i)
      dropCopy (new / 32 + i)
      setPoison (new / 32 + i) true
    copyViews (old / 32 + i) (new / 32 + i) dk dd

/-- A frame given back to its queue, its count zero. -/
def releaseFrame (pa : Nat) : Exec Unit := do
  writeCount pa 0
  addFree pa

/-- The copy-on-write sequence (R387, R388) for a leaf found: the compare-and-swap fails where the entry has changed since
the leaf was read, and the replay then walks again. -/
def copyOnWrite (c : Ctx) (va : Nat) (f : Found) : Exec Unit := do
  let s ← get
  let l := f.leaf
  let old := leafFrame l * 2 ^ 16
  let own := s.pkg * 4096 + c.h.keydom.toNat % 4096
  let gen := c.h.keydom.toNat / 4096
  await (!s.frameHeld old)
  checkCount c va old
  let cnt ← readCount old
  let l1 := setBits (setBits l 4 1 0) 1 1 1
  let same := s.leafKeySlot false l va = own && leafGen l = gen
  if cnt = 1 && same then let _ ← casOwn f.at_ l l1
  else
    checkFreeq c va s.pkg
    if cnt = 1 then checkFreeq c va (paPkg old)
    match ← takeFree s.pkg with
    | none => xlatFault 0x14 10 va l .write
    | some n =>
      writeCount n 1
      let k ← nextFresh
      writeSeal n (Config.drbgSeal k).toNat
      let dk ← ask (·.foundDomain f va)
      let dd ← ask (fun s => s.domainAt own n)
      copyFrame c va old n dk dd
      if ← casOwn f.at_ l (setBits (setBits (setBits l1 16 36 (n / 2 ^ 16)) 52 12 (own % 4096)) 8 4 gen) then dropCount old
      else releaseFrame n
  tlbDrop fun t => t.leafPa = f.at_ || t.covers c.h.asid.toNat va

/-- Translation of one address (R381): the leaf's checks, held on MIG, copy-on-write, then the physical place. -/
def translate (c : Ctx) (va : Nat) (k : Kind) : Nat → Exec Place
  | 0 => throw .wait
  | n + 1 => do
    let f ← findLeaf c va k
    checkLeaf c va k f
    checkTier va k f
    tlbFill c va f
    if leafBit f.leaf 5 then
      tlbDrop fun t => t.covers c.h.asid.toNat va
      throw .wait
    else
      let s ← get
      let pa := leafPa f.big f.leaf va
      if s.port.lostPkgs.contains (paPkg pa) then throw (.park 0x16 4 (word va) 0 (word f.leaf) k.writes (k = .fetch))
      else if k = .write && !f.big && leafBit f.leaf 4 then do
        copyOnWrite c va f
        translate c va k n
      else return .phys pa (s.foundDomain f va)

/-! ### Checked accesses (R269) -/

/-- The byte k bytes after a place. -/
def Place.plus (k : Nat) : Place → Place
  | .scratch key => .scratch (key + k)
  | .phys pa d => .phys (pa + k) d

/-- A place as one number: a physical address, or 2^64 + a scratchpad place. -/
def Place.spot : Place → Nat
  | .scratch key => 2 ^ 64 + key
  | .phys pa _ => pa

/-- A byte belongs to an access. -/
def Access.holds (acc : Access) (spot : Nat) : Bool := acc.any fun (_, n, p) => p.spot ≤ spot && spot < p.spot + n

/-- The part of an access in the n bytes from a virtual address. -/
def Access.slice (acc : Access) (a n : Nat) : Access :=
  acc.filterMap fun (va, k, p) =>
    let lo := max va a
    let hi := min (va + k) (a + n)
    if lo < hi then some (lo, hi - lo, p.plus (lo - va)) else none

/-- The first byte of a range that lies in the scratchpad window or hole, outside the gang's bounds (R40). -/
def outOfBounds (c : Ctx) (a n : Nat) : Option Nat :=
  let lo := max a windowBase
  let hi := min (a + n) (windowBase + 2 ^ 32)
  let top := min c.sphi (windowBase + 0x6000000)
  if lo ≥ hi then none
  else if lo < c.splo || top ≤ lo then some lo
  else if top < hi then some top
  else none

/-- A part of an access placed: in the window, or translated. -/
def placePart (c : Ctx) (k : Kind) (p : Nat × Nat) : Exec (Nat × Nat × Place) := do
  if inWindow p.1 then return (p.1, p.2, .scratch (scratchKey (clusterOf c.hart) p.1))
  else return (p.1, p.2, ← translate c p.1 k 3)

/-- An access looked ahead at: its address and bytes are noted, and it is placed where it can be. -/
def noteAccess (c : Ctx) (a : Int) (n : Nat) (k : Kind) : Exec Access := do
  if addrOk a n then
    modify fun s => { s with plan := { s.plan with noted := (a.toNat, n) :: s.plan.noted } }
    match ← caught (each (cuts a.toNat n) (placePart c k)) with
    | .ok acc => return acc
    | .error _ => return []
  else return []

/-- Steps 1 to 4 of R269 on n bytes at an unbounded address, with an alignment. -/
def checkAccess (c : Ctx) (a : Int) (n al : Nat) (k : Kind) : Exec Access := do
  if c.probe then return (← noteAccess c a n k)
  need (addrOk a n) (.trap 0x04 0 (addrWord a))
  need (a % al = 0) (.trap 0x04 1 (addrWord a))
  match outOfBounds c a.toNat n with
  | some b => trap 0x05 0 (word b)
  | none => each (cuts a.toNat n) (placePart c k)

/-- A bank-level command before a fence still holds later accesses of a masked stack (R250): it is queued, or accepted, not
done, and touches a stack in the mask. -/
def StkFence.holdsStack (f : StkFence) (s : State) (h : Hart) (stack : Nat) : Bool :=
  f.mask.getLsbD stack &&
    ((h.viq ++ h.held).any (fun e => f.queued.contains e.seq) ||
      s.banks.any fun b => f.cmds.contains b.id && !b.raised && b.stackMask &&& f.mask ≠ 0)

/-- A fence before place `pos` of the hart's work holds near accesses of the stack that owns an address. -/
def State.fenceHeld (s : State) (h : Hart) (pos pa : Nat) : Bool :=
  paPkg pa = s.pkg && h.fences.any fun f => f.id ≤ pos && f.holdsStack s h (paStack pa)

/-- Near accesses wait for earlier maintenance of their lines (R249) and for the bank-level commands before an earlier
STKFENCE (R250). -/
def State.nearHeld (s : State) (c : Ctx) (pa n : Nat) : Bool :=
  !c.probe && (c.h.maint.any (fun m => m.id < c.pos && m.lines.any fun (l, k) => pa / 128 < l + k && l ≤ (pa + n - 1) / 128) ||
  s.fenceHeld c.h c.pos pa)

/-- A line of a maintenance operation is in a stack of the package that a mask names. -/
def Maint.touches (m : Maint) (pkg : Nat) (mask : BitVec 8) : Bool :=
  m.lines.any fun (l, k) => (List.range k).any fun i => paPkg ((l + i) * 128) = pkg && mask.getLsbD (paStack ((l + i) * 128))

/-- Far and bank-level work on an address waits for the maintenance before an earlier STKFENCE (R250, R280). -/
def State.farHeld (s : State) (c : Ctx) (pa : Nat) : Bool :=
  !c.probe && paPkg pa = s.pkg && c.h.fences.any fun f => f.id ≤ c.pos && f.mask.getLsbD (paStack pa) &&
    c.h.maint.any fun m => f.maints.contains m.id && m.touches s.pkg f.mask

/-- A poisoned word of a scratchpad in a range (R424). -/
def State.badScratchIn (s : State) (key n : Nat) : Option Nat :=
  s.badScratch.find? fun w => w * 8 < key + n && key < w * 8 + 8

/-- A scratchpad byte belongs to the strip buffer of a live stream (R307). -/
def State.bufferByte (s : State) (key : Nat) : Bool :=
  s.streams.any fun (k, x) => (x.kind = .stream || x.kind = .paged) &&
    scratchKey (clusterOfCore (k / 16)) x.buf ≤ key && key < scratchKey (clusterOfCore (k / 16)) x.buf + x.cap * (fmtWidth x.fmt / 8)

/-- A round has ended (R336), or every member that arrived has taken its abort (R337). -/
def Round.ended (r : Round) : Bool :=
  if r.aborted then r.parts.all (·.trapped) else r.parts.length = r.nmem && r.parts.all (·.read)

/-- A byte whose value is unspecified to a program: of the strip buffer of a live stream (R307), or of the buffer of a
collective during a round or until the hart's COLLWAIT (R252, R338). `colls`: the hart's latest VCOLLs. -/
def State.vague (s : State) (colls : List (Nat × Nat × Nat)) (spot : Nat) : Bool :=
  (2 ^ 64 ≤ spot && s.bufferByte (spot - 2 ^ 64)) ||
  s.rounds.any fun (k, r) => r.buf.holds spot && (!r.ended || colls.any fun (_, key, n) => key = k && n = r.serial)

/-- The n low bytes of a value at a place, those of vague bytes free (log 5). -/
def blur (colls : List (Nat × Nat × Nat)) (spot n v : Nat) : Exec Nat := do
  let s ← get
  if (List.range n).any fun i => s.vague colls (spot + i) then
    let bs ← each (List.range n) fun i => if s.vague colls (spot + i) then freeBits 8 else pure (elemAt v i 8)
    return bs.foldr (fun b acc => b + 256 * acc) 0
  else return v

/-- One part read as it lies: its bytes, or a data error (R269 step 5); `wr`: the read of an atomic. -/
def takePart (c : Ctx) (near wr : Bool) (p : Nat × Nat × Place) : Exec (Nat × Nat) := do
  match p with
  | (_, n, .scratch key) =>
    match ← ask fun s => if c.probe then none else s.badScratchIn key n with
    | some w => throw (.park 0x16 3 (word (windowBase + w * 8 % 2 ^ 27)) 0 0 wr false)
    | none => return (← ask (·.scratch.readN key n), n)
  | (va, n, .phys pa d) =>
    if near then await (!(← ask (·.nearHeld c pa n)))
    let (v, e) ← readPhys c.who d c.keep va pa n
    if e ≠ 0 && !c.probe then throw (.park 0x16 e (word va) 0 0 wr false) else return (v, n)

/-- One part read by a program. -/
def readPart (c : Ctx) (near wr : Bool) (p : Nat × Nat × Place) : Exec (Nat × Nat) := do
  let (v, n) ← takePart c near wr p
  return (← blur c.h.colls p.2.2.spot n v, n)

/-- The bytes of a checked read as a little-endian number. -/
def readAccess (c : Ctx) (near wr : Bool) (acc : Access) : Exec Nat := do
  let ps ← each acc (readPart c near wr)
  return ps.foldr (fun (v, n) r => v + 2 ^ (8 * n) * r) 0

/-- Harts asleep in WAITA on a line wake (R362); a line is named by its physical address / 128, or 2^60 + a scratchpad
place / 128. -/
def wakeLine (line : Nat) : Exec Unit :=
  modify fun s => { s with harts := s.harts.map fun (k, h) =>
    match h.run with
    | .asleep l _ => if l = line then (k, { h with run := .woken }) else (k, h)
    | _ => (k, h) }

def wakeRange (lo hi : Nat) : Exec Unit :=
  forAll (List.range (hi / 128 + 1 - lo / 128)) fun i => wakeLine (lo / 128 + i)

/-- Scratchpad words written whole lose their poison (R424). -/
def clearScratch (key n : Nat) : Exec Unit :=
  modify fun s => { s with badScratch := s.badScratch.filter fun w => !(key ≤ w * 8 && w * 8 + 8 ≤ key + n) }

/-- The low bytes of a number stored at one part. -/
def putPart (c : Ctx) (near wt : Bool) (v : Nat) (p : Nat × Nat × Place) : Exec Unit := do
  match p with
  | (_, n, .scratch key) =>
    modify fun s => { s with scratch := s.scratch.writeN key v n }
    clearScratch key n
    wakeRange (2 ^ 67 + key) (2 ^ 67 + key + n - 1)
  | (_, n, .phys pa d) =>
    if near then await (!(← ask (·.nearHeld c pa n)))
    if c.keep then writePhys c.who d wt pa n v else writeHome c.who d pa n v
    wakeRange pa (pa + n - 1)

/-- One part written by a program, its bytes those of a number stored from address a. -/
def writePart (c : Ctx) (near wt : Bool) (a v : Nat) (p : Nat × Nat × Place) : Exec Unit := do
  let x ← blur c.h.colls p.2.2.spot p.2.1 (v / 2 ^ (8 * (p.1 - a)))
  putPart c near wt x p

/-- The bytes of a checked access as they lie, and bytes stored there, by the device (R336). -/
def takeAccess (c : Ctx) (acc : Access) : Exec Nat := do
  let ps ← each acc (takePart c false true)
  return ps.foldr (fun (v, n) r => v + 2 ^ (8 * n) * r) 0

def putAccess (c : Ctx) (v : Nat) (acc : Access) : Exec Unit :=
  match acc with
  | [] => pure ()
  | (a, _) :: _ => forAll acc fun p => putPart c false false (v / 2 ^ (8 * (p.1 - a))) p

/-- Bytes written at the banks (R45, R248): backing values, past every cached copy. -/
def bankPut (c : Ctx) (v : Nat) (acc : Access) : Exec Unit :=
  match acc with
  | [] => pure ()
  | (a, _) :: _ => forAll acc fun p => match p with
    | (va, n, .scratch key) => do
      modify fun s => { s with scratch := s.scratch.writeN key (v / 2 ^ (8 * (va - a))) n }
      clearScratch key n
    | (va, n, .phys pa d) => bankWrite c.who d pa n (v / 2 ^ (8 * (va - a))) false

/-- A checked write of a little-endian number. Every part is held, or none is written. -/
def writeAccess (c : Ctx) (near wt : Bool) (v : Nat) (acc : Access) : Exec Unit := do
  match acc with
  | [] => pure ()
  | (a, _) :: _ =>
    forAll acc fun p => do
      match p with
      | (_, n, .phys pa _) => if near then await (!(← ask (·.nearHeld c pa n)))
      | _ => pure ()
    forAll acc (writePart c near wt a v)

/-- mem(a, n) as a value, with an alignment (R73). -/
def load (c : Ctx) (a : Int) (n al : Nat) : Exec Nat := do
  readAccess c true false (← checkAccess c a n al .read)

/-- mem(a, n) := v. -/
def store (c : Ctx) (a : Int) (n al : Nat) (wt : Bool) (v : Nat) : Exec Unit := do
  writeAccess c true wt v (← checkAccess c a n al .write)

/-- mem(a, n) := f (mem(a, n)) in one indivisible action (R241); the old value. -/
def atomic (c : Ctx) (a : Int) (n al : Nat) (f : Nat → Option Nat) : Exec Nat := do
  let acc ← checkAccess c a n al .write
  let old ← readAccess c true true acc
  match f old with
  | some v => writeAccess c true false v acc
  | none => pure ()
  return old

/-- A far store's sectors that it fills only in part are merged by their Landing at once (R292). -/
def mergeFar (l : List Access) : Exec Unit := do
  let ps := l.flatten.flatMap fun (_, n, p) => match p with | .phys pa _ => pieces pa n | .scratch _ => []
  forAll ((ps.map (·.1)).dedup) fun g => do
    let mask := (ps.filter (·.1 = g)).foldl (fun m (_, lo, len) => m ||| (2 ^ len - 1) * 2 ^ lo) 0
    if mask ≠ fullMask then writeBack g

/-- An access to a scratchpad address at a scope above CLUSTER sets NARROW (R228). -/
def narrow (a : Int) (scope : Nat) : Exec Unit :=
  if scope ≥ 3 && 0 ≤ a && inWindow a.toNat then modMe fun h => { h with tstat := { h.tstat with narrow := true } }
  else pure ()

/-! ### The arrays (R232, R378, R424, R428, R429) -/

/-- A double-bit error of an SRAM, counted at its core or, as 384 + n, its Landing (R429). -/
def uncorrected (inst : Nat) : Exec Unit := modify (·.count 3 inst 16 1)

/-- A poisoned word listed once. -/
def addBad {α : Type} [DecidableEq α] (l : List α) (x : α) : List α := if l.contains x then l else x :: l

/-- What happens to an array: a sector written back first and a translation or an instruction granule leave; an error has
its fate of R424 and is counted, and mapped-out lanes and TSVs are counted (R429). -/
def arrayStep : ArrayEvent → Exec Unit
  | .sector g => do writeBack g; dropCopy g
  | .translation t => tlbDrop (· = t)
  | .code key => modify fun s => { s with l1i := Tab.erase s.l1i key }
  | .corrected inst => modify (·.count 2 inst 32 1)
  | .badSector g inst => do sectorError g; uncorrected inst
  | .badReg k reg w => do
    modify fun s => s.putHart k { s.hart k with badv := addBad (s.hart k).badv (reg, w) }
    uncorrected (coreOf k)
  | .badHandle k n => do
    modify fun s => s.putHart k { s.hart k with badh := addBad (s.hart k).badh n }
    uncorrected (coreOf k)
  | .badFar ctx reg w => do
    modify fun s =>
      let c : FarCtx := Tab.get {} s.far ctx
      { s with far := Tab.put {} s.far ctx { c with bady := addBad c.bady (reg, w) } }
    uncorrected (384 + ctx / 256)
  | .badTile core row w => do
    modify fun s => { s with badTile := addBad s.badTile (core * 128 + row, w) }
    uncorrected core
  | .badScratch w => do
    modify fun s => { s with badScratch := addBad s.badScratch w }
    uncorrected (w * 8 / 2 ^ 27 * 192 + w * 8 % 2 ^ 27 / 0x80000)
  | .badControl k => do
    uncorrected (coreOf k)
    if (← ask (·.hart k)).run ≠ .free then asHart k (park .scalar 0x16 6 0 0 0 false false)
  | .lanes link n => modify (·.count 6 link 8 n)
  | .tsvs stack n => modify (·.count 7 stack 8 n)

/-! ### Instruction fetch (R42, R51, R53, R132, R377) -/

/-- The place of a granule in the L1I of a core. -/
def l1iKey (core g : Nat) : Nat := core * 2 ^ 47 + g

/-- The parcel at a physical address among the bytes of its granule. -/
def parcelOf (pa v : Nat) : Nat := v / 2 ^ (8 * (pa % 32)) % 2 ^ 32

/-- The parcel a core's L1I holds (R53, R229), under the domain it was fetched under (R391). -/
def State.heldParcel (s : State) (core : Nat) (d : Domain) (pa : Nat) : Option Nat :=
  match Tab.find s.l1i (l1iKey core (pa / 32)) with
  | some (o, v) => if o = d then some (parcelOf pa v) else none
  | none => none

/-- A line filled into a core's L1I: of each granule its good bytes, or nothing (log 10). -/
def State.fillLine (s : State) (core : Nat) (d : Domain) (line : Nat) : State :=
  { s with l1i := (lineGranules line).foldl (fun l g => match s.goodGranule d g with
      | some v => Tab.set l (l1iKey core g) (d, v)
      | none => Tab.erase l (l1iKey core g)) s.l1i }

/-- Placing a gang invalidates its core's L1I (R53). -/
def State.dropL1i (s : State) (core : Nat) : State := { s with l1i := s.l1i.filter fun (k, _) => k / 2 ^ 47 ≠ core }

/-- The parcel the L1I gives: the one it holds while memory holds the same; where memory differs, the held one or, the
line having left the L1I, none: a free choice (R53; log 10). -/
def l1iHit (core : Nat) (d : Domain) (pa : Nat) : Exec (Option Nat) := do
  let s ← get
  match s.heldParcel core d pa with
  | none => return none
  | some v =>
    if (s.goodGranule d (pa / 32)).map (parcelOf pa) = some v then return some v
    else if (← freeBits 1) = 1 then return some v
    else return none

/-- What a fetch gives of the bytes it finds: themselves when they were visible as the gang was placed; R53 gives none
written since (free; log 10). -/
def placedParcel (h : Hart) (d : Domain) (pa v : Nat) : Exec Nat := do
  let s ← get
  if (s.gangOf h).code.parcel d pa = some v then return v else freeBits 32

/-- One parcel at an address: a fetch fails on a non-canonical address, in the scratchpad window or hole, or by R381. -/
def fetchParcel (c : Ctx) (a : Nat) : Exec (BitVec 32) := do
  need (canonical a) (.trap 0x04 0 (word a))
  need (!inScratchRegion a) (.trap 0x04 2 (word a))
  match ← translate c a .fetch 3 with
  | .phys pa d =>
    match ← l1iHit (coreOf c.hart) d pa with
    | some v => return BitVec.ofNat 32 (← placedParcel c.h d pa v)
    | none =>
      let (v, e) ← readPhys c.who d false a pa 4
      need (e = 0) (.park 0x16 e (word a) 0 0 false true)
      modify (·.fillLine (coreOf c.hart) d (pa / 128))
      return BitVec.ofNat 32 (← placedParcel c.h d pa v)
  | .scratch _ => trap 0x04 2 (word a)

/-- The parcels of the instruction at an address (R49, R51). Two points are the model's choice (log 21): every parcel is
fetched before R50's place of a V-format instruction is checked, so a fault on its high parcel comes before illegal
instruction; and an address past 2^64 − 4 goes on at 0. -/
def fetchParcels (c : Ctx) (a : Nat) : Exec (List (BitVec 32)) := do
  let p ← fetchParcel c a
  let n := opParcels (opcodeOf p).toNat
  let rest ← each (List.range (n - 1)) fun i => fetchParcel c ((a + 4 * (i + 1)) % 2 ^ 64)
  return p :: rest

/-- The checks of a transfer's target (R50, R132, R42). -/
def checkTarget (i : Instr) (t : Int) : Exec Word := do
  need (t % 4 = 0) (.trap 0x01 0 (illegalValue i))
  need (0 ≤ t && t < 2 ^ 64 && canonical t.toNat) (.trap 0x04 0 (addrWord t))
  need (!inScratchRegion t.toNat) (.trap 0x04 2 (addrWord t))
  return addrWord t

end Sys2Proof.Machine
end

