-- ==== Sys2Proof/Machine/Scalar.lean ====
section
/-! DEFINITION. Scalar integer arithmetic and guards (R111 to R123). -/

namespace Sys2Proof

/-- The sign-extended IMM10 (R54). -/
def IForm.simm (f : IForm) : Word := f.imm.signExtend 64

/-- Whether FN names a .w form (R112). -/
def SForm.isW (f : SForm) : Bool := f.fn.toNat ≥ 16

end Sys2Proof

namespace Sys2Proof.Machine

open Sys2Proof

/-! ### Shared computations -/

/-- The low 32 bits sign-extended: what every .w form writes (R112). -/
def sext32 (r : Word) : Word := (r.setWidth 32).signExtend 64

/-- The signed value of an operand of 64 or, for .w, 32 bits. -/
def signedOf (w : Bool) (a : Word) : Int := if w then (a.setWidth 32).toInt else a.toInt

/-- The unsigned value of an operand. -/
def unsignedOf (w : Bool) (a : Word) : Nat := if w then (a.setWidth 32).toNat else a.toNat

/-- An integer result written: modulo 2^64, or its low 32 bits sign-extended. -/
def writeInt (w : Bool) (r : Int) : Word := if w then sext32 (BitVec.ofInt 64 r) else BitVec.ofInt 64 r

def widthOf (w : Bool) : Nat := if w then 32 else 64

/-- ALU functions 0 to 15 (R111, R112): the result, and whether a clamp changed it. -/
def aluResult (fn : Nat) (w : Bool) (a b : Word) : Word × Bool :=
  let sa := signedOf w a
  let sb := signedOf w b
  let ua : Int := unsignedOf w a
  let ub : Int := unsignedOf w b
  let sh := b.toNat % widthOf w
  let plain (r : Int) := (writeInt w r, false)
  let sat (uns : Bool) (r : Int) :=
    let (v, c) := clampInt (widthOf w) uns r
    (writeInt w v, c)
  match fn with
  | 0 => plain (sa + sb)
  | 1 => plain (sa - sb)
  | 2 => (if w then sext32 (a &&& b) else a &&& b, false)
  | 3 => (if w then sext32 (a ||| b) else a ||| b, false)
  | 4 => (if w then sext32 (a ^^^ b) else a ^^^ b, false)
  | 5 => plain (ua * (2 ^ sh : Nat))
  | 6 => plain (ua / (2 ^ sh : Nat))
  | 7 => plain (sa / (2 ^ sh : Nat))
  | 8 => plain (min sa sb)
  | 9 => plain (max sa sb)
  | 10 => plain (min ua ub)
  | 11 => plain (max ua ub)
  | 12 => sat false (sa + sb)
  | 13 => sat false (sa - sb)
  | 14 => sat true (ua + ub)
  | _ => sat true (ua - ub)

/-- MUL functions (R111, R112): mulh.w and the others return bits [63:32] of the 64-bit product. -/
def mulResult (fn : Nat) (w : Bool) (a b : Word) : Word :=
  let sa := signedOf w a
  let sb := signedOf w b
  let ua : Int := unsignedOf w a
  let ub : Int := unsignedOf w b
  let high (p : Int) := writeInt w (p / (2 ^ widthOf w : Nat))
  match fn with
  | 0 => writeInt w (sa * sb)
  | 1 => high (sa * sb)
  | 2 => high (ua * ub)
  | _ => high (sa * ub)

/-- DIV functions (R113): quotient toward zero; all ones and the dividend for a zero divisor. -/
def divResult (fn : Nat) (w : Bool) (a b : Word) : Word :=
  let signed := fn = 0 || fn = 2
  let x : Int := if signed then signedOf w a else unsignedOf w a
  let y : Int := if signed then signedOf w b else unsignedOf w b
  let n := widthOf w
  let (q, r) : Int × Int :=
    if y = 0 then ((2 ^ n : Nat) - 1, x)
    else if signed && x = -((2 ^ (n - 1) : Nat) : Int) && y = -1 then (x, 0)
    else (Int.tdiv x y, x - Int.tdiv x y * y)
  writeInt w (if fn = 0 || fn = 1 then q else r)

/-- Leading zeros of an n-bit number. -/
def leadingZeros (n a : Nat) : Nat := if a = 0 then n else n - 1 - Nat.log2 a

/-- Trailing zeros of an n-bit number, by looking at each bit. -/
def trailingZeros (a : Nat) : Nat → Nat → Nat
  | 0, k => k
  | n + 1, k => if a % 2 = 1 then k else trailingZeros (a / 2) n (k + 1)

/-- The count of ones among n bits. -/
def onesCount (a : Nat) : Nat → Nat
  | 0 => 0
  | n + 1 => a % 2 + onesCount (a / 2) n

/-- The low n bits in reverse order. -/
def reverseBits (a : Nat) : Nat → Nat
  | 0 => 0
  | n + 1 => a % 2 * 2 ^ n + reverseBits (a / 2) n

/-- BITC functions (R111). -/
def bitcResult (fn : Nat) (w : Bool) (a : Word) : Word :=
  let n := widthOf w
  let u := unsignedOf w a
  writeInt w (match fn with
    | 0 => leadingZeros n u
    | 1 => trailingZeros u n 0
    | 2 => onesCount u n
    | _ => reverseBits u n)

/-- An S-format instruction of four bytes: guarded, with the registers it reads. -/
def sStep (f : SForm) (body : Exec Flow) (s : State) : Host.Outcome State Fault Refusal :=
  scalarStep (s.me.guardOn f.g f.gn) f.regs 4 body s

/-- An I-format instruction of four bytes. -/
def iStep (f : IForm) (body : Exec Flow) (s : State) : Host.Outcome State Fault Refusal :=
  scalarStep (s.me.guardOn f.g f.gn) f.regs 4 body s

/-! ### Integer arithmetic -/

/-- ALU (R111, R112). -/
def execAlu (f : SForm) (s : State) : Host.Outcome State Fault Refusal :=
  sStep f (do
    let (r, clamped) := aluResult (f.fn.toNat % 16) f.isW (← getX f.rs1.toNat) (← getX f.rs2.toNat)
    setSat clamped
    setX f.rd.toNat r
    return .seq) s

/-- MUL (R111, R112). -/
def execMul (f : SForm) (s : State) : Host.Outcome State Fault Refusal :=
  sStep f (do
    setX f.rd.toNat (mulResult (f.fn.toNat % 16) f.isW (← getX f.rs1.toNat) (← getX f.rs2.toNat))
    return .seq) s

/-- DIV (R113). -/
def execDiv (f : SForm) (s : State) : Host.Outcome State Fault Refusal :=
  sStep f (do
    setX f.rd.toNat (divResult (f.fn.toNat % 16) f.isW (← getX f.rs1.toNat) (← getX f.rs2.toNat))
    return .seq) s

/-- ADDI (R114). -/
def execAddi (f : IForm) (s : State) : Host.Outcome State Fault Refusal :=
  iStep f (do
    setX f.rd.toNat ((← getX f.rs1.toNat) + f.simm)
    return .seq) s

/-- ANDI (R114). -/
def execAndi (f : IForm) (s : State) : Host.Outcome State Fault Refusal :=
  iStep f (do
    setX f.rd.toNat ((← getX f.rs1.toNat) &&& f.simm)
    return .seq) s

/-- ORI (R114). -/
def execOri (f : IForm) (s : State) : Host.Outcome State Fault Refusal :=
  iStep f (do
    setX f.rd.toNat ((← getX f.rs1.toNat) ||| f.simm)
    return .seq) s

/-- XORI (R114). -/
def execXori (f : IForm) (s : State) : Host.Outcome State Fault Refusal :=
  iStep f (do
    setX f.rd.toNat ((← getX f.rs1.toNat) ^^^ f.simm)
    return .seq) s

/-- SHI's result (R115): KIND is IMM10[7:6], W is IMM10[8], SH is IMM10[5:0]. -/
def shiResult (imm : Nat) (a : Word) : Word :=
  let w := imm / 256 % 2 = 1
  let sh := imm % 64
  match imm / 64 % 4 with
  | 0 => writeInt w ((unsignedOf w a : Int) * (2 ^ sh : Nat))
  | 1 => writeInt w ((unsignedOf w a : Int) / (2 ^ sh : Nat))
  | _ => writeInt w (signedOf w a / (2 ^ sh : Nat))

/-- SHI (R115). -/
def execShi (f : IForm) (s : State) : Host.Outcome State Fault Refusal :=
  iStep f (do
    setX f.rd.toNat (shiResult f.imm.toNat (← getX f.rs1.toNat))
    return .seq) s

/-- LIT32 (R116): two parcels; U is IMM10[0]. -/
def execLit32 (f : IForm) (l : BitVec 32) (s : State) : Host.Outcome State Fault Refusal :=
  scalarStep (s.me.guardOn f.g f.gn) f.regs 8 (do
    setX f.rd.toNat ((← getX f.rs1.toNat) + (if f.imm.getLsbD 0 then l.setWidth 64 else l.signExtend 64))
    return .seq) s

/-- LIT64 (R116): three parcels. -/
def execLit64 (f : IForm) (l : BitVec 64) (s : State) : Host.Outcome State Fault Refusal :=
  scalarStep (s.me.guardOn f.g f.gn) f.regs 12 (do
    setX f.rd.toNat ((← getX f.rs1.toNat) + l)
    return .seq) s

/-- LEA's unbounded address (R117): PCR is IMM10[9], D is IMM10[8:0]. -/
def leaAddress (imm : Nat) (base pc : Word) : Int :=
  if imm < 512 then (base.toNat : Int) + Fp.sext imm 9 * 8
  else ((pc.toNat - pc.toNat % 64 : Nat) : Int) + Fp.sext imm 9 * 64

/-- LEA (R117): an address fault outside 64 bits or not canonical. -/
def execLea (f : IForm) (s : State) : Host.Outcome State Fault Refusal :=
  iStep f (do
    let a := leaAddress f.imm.toNat (← getX f.rs1.toNat) (← me).pc
    need (addrOk a 1) (.trap 0x04 0 (addrWord a))
    setX f.rd.toNat (addrWord a)
    return .seq) s

/-- BITC (R111). -/
def execBitc (f : SForm) (s : State) : Host.Outcome State Fault Refusal :=
  sStep f (do
    setX f.rd.toNat (bitcResult (f.fn.toNat % 16) f.isW (← getX f.rs1.toNat))
    return .seq) s

/-! ### Guards -/

/-- CMP's conditions (R119). -/
def cmpResult (fn : Nat) (w : Bool) (a b : Word) : Bool :=
  match fn with
  | 0 => unsignedOf w a = unsignedOf w b
  | 1 => unsignedOf w a ≠ unsignedOf w b
  | 2 => signedOf w a < signedOf w b
  | 3 => signedOf w a ≥ signedOf w b
  | 4 => unsignedOf w a < unsignedOf w b
  | 5 => unsignedOf w a ≥ unsignedOf w b
  | 6 => unsignedOf w (a &&& b) = 0
  | _ => unsignedOf w (a &&& b) ≠ 0

/-- CMP (R119). -/
def execCmp (f : SForm) (s : State) : Host.Outcome State Fault Refusal :=
  scalarStep (s.me.guardOn f.g f.gn) [f.rs1.toNat, f.rs2.toNat] 4 (do
    setG (f.rd.toNat % 8) (cmpResult (f.fn.toNat % 16) f.isW (← getX f.rs1.toNat) (← getX f.rs2.toNat))
    return .seq) s

/-- CMPI's conditions (R120). -/
def cmpiResult (imm cond : Nat) (a : Word) : Bool :=
  let u := imm ≥ 512
  let k : Int := if u then (imm % 512 : Nat) else Fp.sext imm 9
  match cond with
  | 0 => a = BitVec.ofInt 64 k
  | 1 => a ≠ BitVec.ofInt 64 k
  | 2 => if u then (a.toNat : Int) < k else a.toInt < k
  | _ => if u then (a.toNat : Int) ≥ k else a.toInt ≥ k

/-- CMPI (R120): the guard in RD[10:8], COND in RD[12:11]. -/
def execCmpi (f : IForm) (s : State) : Host.Outcome State Fault Refusal :=
  scalarStep (s.me.guardOn f.g f.gn) [f.rs1.toNat] 4 (do
    setG (f.rd.toNat % 8) (cmpiResult f.imm.toNat (f.rd.toNat / 8) (← getX f.rs1.toNat))
    return .seq) s

/-- GLOG's two-guard functions (R121). -/
def glogResult (fn : Nat) (p q : Bool) : Bool :=
  match fn with
  | 0 => p && q
  | 1 => p || q
  | 2 => p != q
  | 3 => p && !q
  | 4 => p || !q
  | _ => !(p != q)

/-- All guards as a number, bit 0 always one (R121 gpack). -/
def Hart.packG (h : Hart) : Nat := h.g.toNat / 2 * 2 + 1

/-- GLOG (R121). -/
def execGlog (f : SForm) (s : State) : Host.Outcome State Fault Refusal :=
  scalarStep (s.me.guardOn f.g f.gn) (if f.fn.toNat = 6 || f.fn.toNat = 8 then [f.rs1.toNat] else [])
    4 (do
    let h ← me
    match f.fn.toNat with
    | 6 => setG (f.rd.toNat % 8) (h.getX f.rs1.toNat ≠ 0)
    | 7 => setX f.rd.toNat (word h.packG)
    | 8 => setMe { h with g := BitVec.ofNat 8 (h.getX f.rs1.toNat).toNat &&& 0xFE }
    | n => setG (f.rd.toNat % 8) (glogResult n (h.getG (f.rs1.toNat % 8)) (h.getG (f.rs2.toNat % 8)))
    return .seq) s

/-- SEL (R122): the guard of FN[2:0], inverted by FN[3]. -/
def execSel (f : SForm) (s : State) : Host.Outcome State Fault Refusal :=
  sStep f (do
    let h ← me
    setX f.rd.toNat
      (if h.getG (f.fn.toNat % 8) != (f.fn.toNat / 8 % 2 = 1) then h.getX f.rs1.toNat else h.getX f.rs2.toNat)
    return .seq) s

end Sys2Proof.Machine
end

