-- ==== Sys2Proof/Machine/Control.lean ====
section
/-! DEFINITION. Control flow: transfers, the repeat, NOP (R131 to R135). -/

namespace Sys2Proof.Machine

open Sys2Proof

/-- The target of a relative transfer (R55, R131): the instruction's address plus an offset in parcels, unbounded. -/
def relTarget (pc : Word) (off : Int) : Int := (pc.toNat : Int) + off * 4

/-- BR (R131): taken when guarded on. -/
def execBr (f : BForm) (s : State) : Host.Outcome State Fault Refusal :=
  scalarStep (s.me.guardOn f.g f.gn) [] 4 (do
    return .jump (← checkTarget (.br f) (relTarget (← me).pc f.off.toInt))) s

/-- CBR's conditions on a signed value (R131). -/
def cbrTaken (cond : Nat) (a : Word) : Bool :=
  match cond with
  | 0 => a = 0
  | 1 => a ≠ 0
  | 2 => a.toInt < 0
  | 3 => a.toInt ≥ 0
  | 4 => a.toInt > 0
  | _ => a.toInt ≤ 0

/-- CBR (R131). -/
def execCbr (f : IForm) (s : State) : Host.Outcome State Fault Refusal :=
  scalarStep (s.me.guardOn f.g f.gn) [f.rs1.toNat] 4 (do
    if cbrTaken (f.rd.toNat % 8) (← getX f.rs1.toNat) then
      return .jump (← checkTarget (.cbr f) (relTarget (← me).pc f.imm.toInt))
    else return .seq) s

/-- JAL (R131): always taken; the target is checked before RD is written (R132). -/
def execJal (f : JForm) (s : State) : Host.Outcome State Fault Refusal :=
  scalarStep true [] 4 (do
    let pc := (← me).pc
    let t ← checkTarget (.jal f) (relTarget pc f.off.toInt)
    setX f.rd.toNat (pc + 4)
    return .jump t) s

/-- JALR (R131): x(RS1) is read before RD is written. -/
def execJalr (f : IForm) (s : State) : Host.Outcome State Fault Refusal :=
  iStep f (do
    let pc := (← me).pc
    let t ← checkTarget (.jalr f) (relTarget (← getX f.rs1.toNat) f.imm.toInt)
    setX f.rd.toNat (pc + 4)
    return .jump t) s

/-- NOP (R133). -/
def execNop (f : IForm) (s : State) : Host.Outcome State Fault Refusal := iStep f (return .seq) s

/-- The address after n body instructions, from the opcode byte of each one's first parcel (R134, R135); past address 2^64 it
goes on at 0 (log 21). -/
def afterBody (c : Ctx) (a : Nat) : Nat → Exec Nat
  | 0 => return a
  | n + 1 => do
    let p ← fetchParcel c a
    afterBody c ((a + 4 * opParcels (opcodeOf p).toNat) % 2 ^ 64) n

/-- REP (R134, R135): with a zero count the body is skipped; inside an active body it is illegal. One that is
guarded off there counts as a body instruction like any other, which R135 leaves open (log 21). -/
def execRep (f : IForm) (s : State) : Host.Outcome State Fault Refusal :=
  iStep f (do
    let h ← me
    if h.rep.active then illegal (.rep f)
    else if h.getX f.rs1.toNat = 0 then do
      let e ← afterBody (← myCtx) ((h.pc + 4).toNat) (f.imm.toNat + 1)
      return .jump (word e)
    else do
      setMe { h with rep := { active := true, reg := f.rs1, len := f.imm.toNat + 1, pos := 0, start := h.pc + 4 },
                     pc := h.pc + 4 }
      return .stay) s

end Sys2Proof.Machine
end

