-- ==== Sys2Proof/Machine/Operands.lean ====
section
/-! DEFINITION. Vector operands: the context an instruction issues in, register groups near and far, masks, element loops
(R17 to R20, R29, R94, R139 to R145, R321). -/

namespace Sys2Proof.Machine

open Sys2Proof

/-! ### Sizes (R17, R20, R94) -/

/-- The register count 8 × 2^c. -/
def Hart.nregs (h : Hart) : Nat := 8 * 2 ^ h.vcfg.toNat

/-- The register size in bytes, L × 4 KiB / (8 × 2^c). -/
def Hart.regBytes (h : Hart) : Nat := h.count.toNat * 4096 / h.nregs

/-- MASKLEN. -/
def Hart.maskLen (h : Hart) : Nat := h.regBytes / 20 * 32

/-- The longest vector of a format for this hart (R17, R94). -/
def Hart.vlmax (h : Hart) (fmt : Nat) : Nat := vlmaxOf fmt h.regBytes

/-- The far vector length of an element width (R28). -/
def farLen (w : Nat) : Nat := 256 * 64 / w

/-- The bytes of a far register. -/
def yBytes : Nat := 2048

/-! ### The context of an issuing instruction -/

/-- What an issuing vector instruction runs under: its queue entry and fields, VL, VSTART, the governing mask (all ones
for VM = 0), the rounding mode with DYN replaced, and the far context of its slot. -/
structure VCtx where
  e     : VEntry
  f     : VForm
  vl    : Nat
  start : Nat
  mask  : Nat
  rm    : Nat
  bytes : Nat            -- register size where the instruction executes
  nregs : Nat
  far   : Option Nat

/-- Illegal instruction at issue unless the condition holds (R65: by state). -/
def VCtx.need (c : VCtx) (b : Bool) : Exec Unit := if b then pure () else illegalAtIssue c.e.instr

/-- The far context key of a bound slot. -/
def Fstk.key (k : Fstk) : Nat := (k.pkg.toNat * 8 + k.stack.toNat) * 256 + k.fctx.toNat

/-- The hart's slot register. -/
def Hart.slot (h : Hart) (n : Nat) : Fstk := Tab.get {} h.fstk n

/-- The value of a mask register; m0 reads as ones (R20). FORK halves the caller's MASKLEN and keeps its VL, which can then pass
MASKLEN, against R139: mask bits past MASKLEN, m0's too, then read as zero, and writes there are dropped, by the model's choice
(log 21). -/
def Hart.getM (h : Hart) (r : Nat) : Nat :=
  if r = 0 then 2 ^ h.maskLen - 1 else Tab.get 0 h.m r % 2 ^ h.maskLen

def Hart.setM (h : Hart) (r v : Nat) : Hart := if r = 0 then h else { h with m := Tab.put 0 h.m r (v % 2 ^ h.maskLen) }

/-- The governing mask of VM over a vector length: VM = 0 is unmasked, also past MASKLEN (R20). -/
def Hart.governing (h : Hart) (vm vl : Nat) : Nat := if vm = 0 then 2 ^ max h.maskLen vl - 1 else h.getM vm

/-- A mask without the elements performed ahead (R238). -/
def without (mask early : Nat) : Nat := if early = 0 then mask else mask ^^^ (mask &&& early)

/-- A YIRED not done will write a y register of a context (R321, R325). -/
def State.yBusy (s : State) (key reg : Nat) : Bool :=
  s.banks.any fun b => b.ctx = key && !b.raised && match b.op with | .yired _ _ _ _ _ _ (some r) _ => r = reg | _ => false

/-- The context of the entry at the head: an unbound slot, a lost route and DYN 6 or 7 under RM = 6 stop here (R29, R99,
R102, R439). -/
def issueCtx (e : VEntry) (f : VForm) : Exec VCtx := do
  let h ← me
  let far := f.p = 1
  let rm := if f.rm.toNat = 6 then e.dyn.toNat else f.rm.toNat
  if f.rm.toNat = 6 && (e.dyn.toNat ≥ 6) then illegalAtIssue e.instr
  else if far && !(h.slot f.slot.toNat).bound then illegalAtIssue e.instr
  else if far && rm = 5 && f.rm.toNat = 6 then illegalAtIssue e.instr
  else
    if far && ((h.slot f.slot.toNat).lost || (← ask (·.port.lostPkgs)).contains (h.slot f.slot.toNat).pkg.toNat) then
      throw (.park 0x16 4 0 0 0 false false)
    return { e := e, f := f, vl := e.length h, start := h.vstart.toNat, mask := without (h.governing f.vm.toNat (e.length h)) e.early, rm := rm,
             bytes := if far then yBytes else h.regBytes, nregs := if far then 8 else h.nregs,
             far := if far then some (h.slot f.slot.toNat).key else none }

/-- VL within the reference count N of a format (R140), and far also within the far vector length (R29). It is checked
also where VSTART ≥ VL, of which R144 says that nothing is raised (log 21). -/
def VCtx.checkVl (c : VCtx) (fmt : Nat) : Exec Unit := do
  let h ← me
  c.need (c.vl ≤ h.vlmax fmt && (c.far.isNone || c.vl ≤ farLen (fmtWidth fmt)))

/-- The reference count N of a format where the instruction executes. -/
def VCtx.refN (c : VCtx) (fmt : Nat) : Nat := vlmaxOf fmt c.bytes

/-- The registers of an operand of width w against a reference count N (R141). -/
def VCtx.group (c : VCtx) (n w : Nat) : Nat := groupSize n w c.bytes

/-- A group of g registers from r: at most 8, aligned, below the register count (R19, R141). -/
def VCtx.checkGroup (c : VCtx) (r g : Nat) : Exec Unit := c.need (g ≤ 8 && r % g = 0 && r + g ≤ c.nregs)

/-- Element i is active (R139). -/
def VCtx.active (c : VCtx) (i : Nat) : Bool := c.start ≤ i && i < c.vl && bitAt c.mask i

/-- A unit from VSTART on, before the one at which a pre-emption halts the instruction (R367). -/
def VCtx.reaches (c : VCtx) (i : Nat) : Bool := c.start ≤ i && c.e.until_.all (i < ·)

/-- The elements from VSTART to VL − 1. -/
def VCtx.range (c : VCtx) : List Nat := (List.range (min c.vl (c.e.until_.getD c.vl) - c.start)).map (· + c.start)

/-- The active elements, rising. -/
def VCtx.actives (c : VCtx) : List Nat := c.range.filter (bitAt c.mask)

/-! ### Register groups as numbers -/

/-- The far context of the state. -/
def State.farCtx (s : State) (k : Nat) : FarCtx := Tab.get {} s.far k
def State.putFar (s : State) (k : Nat) (c : FarCtx) : State := { s with far := Tab.put {} s.far k c }

/-- Registers r to r + g − 1 concatenated, the lowest first. -/
def groupVal (t : Tab Nat) (bytes r : Nat) : Nat → Nat
  | 0 => 0
  | g + 1 => Tab.get 0 t r % 2 ^ (8 * bytes) + 2 ^ (8 * bytes) * groupVal t bytes (r + 1) g

/-- The table with registers r to r + g − 1 set from a concatenation. -/
def setGroup (t : Tab Nat) (bytes r v : Nat) : Nat → Tab Nat
  | 0 => t
  | g + 1 => setGroup (Tab.put 0 t r (v % 2 ^ (8 * bytes))) bytes (r + 1) (v / 2 ^ (8 * bytes)) g

/-- A group read where the instruction executes. -/
def VCtx.read (c : VCtx) (r g : Nat) : Exec Nat := do
  match c.far with
  | none => return groupVal (← me).v c.bytes r g
  | some k => return groupVal (← ask (·.farCtx k)).y c.bytes r g

/-- Whether the 8-byte word at a place of a group was written whole: every element of width w over it (R424). -/
def wordWritten (w : Nat) (written : List Nat) (word : Nat) : Bool :=
  if w ≥ 64 then written.contains (word * 64 / w)
  else (List.range (64 / w)).all fun j => written.contains (word * (64 / w) + j)

/-- A group written where the instruction executes; words written whole lose their poison. -/
def VCtx.write (c : VCtx) (r g v w : Nat) (written : List Nat) : Exec Unit := do
  let clear (l : List (Nat × Nat)) := l.filter fun (reg, wd) =>
    !(r ≤ reg && reg < r + g && wordWritten w written ((reg - r) * (c.bytes / 8) + wd))
  match c.far with
  | none => modMe fun h => { h with v := setGroup h.v c.bytes r v g, badv := clear h.badv }
  | some k => modify fun s =>
      let x := s.farCtx k
      s.putFar k { x with y := setGroup x.y c.bytes r v g, bady := clear x.bady, marks := clear x.marks }

/-- A poisoned word under element i of a group: the class of its data error (R423, R424). An element of a y register that a
YIRED will write is read once that is done (R321, R325). -/
def VCtx.poisonAt (c : VCtx) (r w i : Nat) : Exec (Option Nat) := do
  let b := i * w / 8
  let hit (l : List (Nat × Nat)) := l.any fun (reg, wd) =>
    reg = r + b / c.bytes && wd * 8 ≤ b % c.bytes + (w / 8 - 1) && b % c.bytes < wd * 8 + 8
  match c.far with
  | none => return if hit (← me).badv then some 3 else none
  | some k =>
    await (!(← ask (·.yBusy k (r + b / c.bytes))))
    let x ← ask (·.farCtx k)
    return if hit x.marks then some 1 else if hit x.bady then some 3 else none

/-- What an element reads of registers: (register, width, element) of each group. -/
abbrev Reads := Nat → List (Nat × Nat × Nat)

/-- Each group (register, width) read at the element's own index. -/
def sameIndex (srcs : List (Nat × Nat)) : Reads := fun i => srcs.map fun (r, w) => (r, w, i)

/-- The first element of a list that reads a poisoned word, and the class of its data error. -/
def VCtx.firstPoison (c : VCtx) (reads : Reads) : List Nat → Exec (Option (Nat × Nat))
  | [] => return none
  | i :: t => do
    let cs ← each (reads i) fun (r, w, j) => c.poisonAt r w j
    match cs.findSome? id with
    | some cl => return some (i, cl)
    | none => c.firstPoison reads t

/-! ### Element loops (R106, R139, R144) -/

/-- VSTART written. -/
def setVstart (i : Nat) : Exec Unit := modMe fun h => { h with vstart := BitVec.ofNat 16 i }

/-- What a run of elements leaves: the destination, the arithmetic state, the elements done, and the trapping element. -/
structure LoopState where
  dst  : Nat
  fs   : FState
  done : List Nat
  stop : Option (Nat × Nat)

/-- The elements of a list in order: each takes the old destination element to the new one; the first enabled condition
stops the loop with nothing of its element kept (R106). -/
def runElems (wd : Nat) (op : Nat → Nat → Fm Nat) : List Nat → LoopState → LoopState
  | [], l => l
  | i :: t, l =>
    let (v, fs) := op i (elemAt l.dst i wd) l.fs
    match fs.hit with
    | some d => { l with stop := some (i, d) }
    | none => runElems wd op t { l with dst := elemSet l.dst i wd v, fs := fs, done := i :: l.done }

/-- How a run of elements ends: at its trapping element, at the element that reads a poisoned word, or complete. -/
def endRun (l : LoopState) (bad : Option (Nat × Nat)) : Exec Unit := do
  modMe (·.withF l.fs)
  match l.stop, bad with
  | some (i, d), _ => do
    setVstart i
    trap 0x03 d 0
  | none, some (i, cl) => do
    setVstart i
    throw (.park 0x16 cl 0 0 0 false false)
  | none, none => pure ()

/-- The elements before the first one that reads a poisoned word. -/
def before (els : List Nat) (bad : Option (Nat × Nat)) : List Nat :=
  match bad with | some (i, _) => els.takeWhile (· ≠ i) | none => els

/-- Elements of a list processed in order into a destination group (R106, R139): flags and SRSEED kept; a data error of a
source word, or an enabled condition, stops at its element. -/
def VCtx.over (c : VCtx) (els : List Nat) (rd gd wd : Nat) (reads : Reads) (op : Nat → Nat → Fm Nat) : Exec Unit := do
  let bad ← c.firstPoison reads els
  let l := runElems wd op (before els bad) { dst := ← c.read rd gd, fs := (← me).fstate, done := [], stop := none }
  c.write rd gd l.dst wd l.done
  endRun l bad

/-- An element-wise instruction (R139): the active elements, each source read at the element's own index. -/
def VCtx.elementwise (c : VCtx) (rd gd wd : Nat) (srcs : List (Nat × Nat)) (op : Nat → Nat → Fm Nat) : Exec Unit :=
  c.over c.actives rd gd wd (sameIndex srcs) op

/-- The second operand at element i: the scalar's low w bits, or the element of the group's value (R142). -/
def VCtx.second (c : VCtx) (src i w : Nat) : Nat := if c.f.xs = 1 then c.e.x3.toNat % 2 ^ w else elemAt src i w

/-- The second source as a group for poison checks: none for a scalar. -/
def VCtx.secondSrc (c : VCtx) (w : Nat) : List (Nat × Nat) := if c.f.xs = 1 then [] else [(c.f.vs2.toNat, w)]

/-- The checks that element-wise instructions of one width share: VL, and single registers below the count. -/
def VCtx.checkEw (c : VCtx) (fmt : Nat) (regs : List Nat) : Exec Unit := do
  c.checkVl fmt
  c.need (regs.all (· < c.nregs))

/-- Two-operand element-wise of one width. -/
def VCtx.binary (c : VCtx) (w : Nat) (op : Nat → Nat → Nat → Fm Nat) : Exec Unit := do
  let a ← c.read c.f.vs1.toNat 1
  let b ← if c.f.xs = 1 then pure 0 else c.read c.f.vs2.toNat 1
  c.elementwise c.f.vd.toNat 1 w ((c.f.vs1.toNat, w) :: c.secondSrc w)
    fun i old => op (elemAt a i w) (c.second b i w) old

/-- The x register of VD written, unless a later scalar instruction has written it since (R108; log 21). -/
def VCtx.putX (c : VCtx) (v : Word) : Exec Unit := if c.e.dead then pure () else modMe (·.setX c.f.vd.toNat v)

/-- The registers of a two-operand instruction. -/
def VCtx.regs2 (c : VCtx) : List Nat :=
  [c.f.vd.toNat, c.f.vs1.toNat] ++ (if c.f.xs = 1 then [] else [c.f.vs2.toNat])

/-- An instruction that restarts needs VSTART = 0 (R144), also where VSTART ≥ VL (log 21). -/
def VCtx.needStart0 (c : VCtx) : Exec Unit := c.need (c.start = 0)

end Sys2Proof.Machine
end

