-- ==== Sys2Proof/Machine/Queue.lean ====
section
/-! DEFINITION. The vector instruction queue: entering it, issuing its head, tokens, completion, and the VL that trimming
instructions leave (R63, R107, R144, R218, R254, R315, R352, R404, R406). -/

namespace Sys2Proof.Machine

open Sys2Proof

/-- The instructions that set VL as they execute (R218, R286, R308). -/
def trims : Instr → Bool
  | .clnext _ => true
  | .clsplit f => f.fn = 1
  | .vldff _ => true
  | .vldx f => f.fn.toNat / 2 % 2 = 1
  | .vldh _ => true
  | .vls _ => true
  | _ => false

/-- The opcode of a V-format instruction. -/
def vOpcode (i : Instr) : Nat := match i.vForm with | some (op, _) => op.toNat | none => 0

/-- The place of a token FIFO from unit a to unit b. -/
def fifo (a b : Nat) : Nat := 8 * a + b

/-- The FIFO an instruction pops from and the one it pushes to (R315). -/
def popFifo (i : Instr) (f : VForm) : Nat := fifo f.popu.toNat (f.unit (vOpcode i)).code
def pushFifo (i : Instr) (f : VForm) : Nat := fifo (f.unit (vOpcode i)).code f.pshu.toNat

/-- A token arrives in a FIFO: its reservation becomes a token. -/
def Hart.pushToken (h : Hart) (k : Nat) : Hart :=
  { h with resv := Tab.put 0 h.resv k (Tab.get 0 h.resv k - 1), tokens := Tab.put 0 h.tokens k (Tab.get 0 h.tokens k + 1) }

/-- What an instruction captures at VIQ entry (R107, R99, R296). -/
def Hart.capture (h : Hart) (i : Instr) (f : VForm) : VEntry where
  seq := h.entered
  pc := h.pc
  instr := i
  xd := h.getX (f.vd.toNat % 32)
  x1 := h.getX (f.vs1.toNat % 32)
  x2 := h.getX (f.vs2.toNat % 32)
  x3 := h.getX (f.vs3.toNat % 32)
  vl := if h.vlPending then none else some h.vl.toNat
  dyn := h.dyn
  handle := Tab.get {} h.h (f.vs1.toNat % 16)
  convoy := if h.members.isEmpty then none else some h.convoy

/-- Free entries of the VIQ: 64, less those held for the trap point (R1, R406). -/
def Hart.viqRoom (h : Hart) : Nat := Config.viqDepth - h.held.length - h.viq.length

/-- What an instruction does at VIQ entry besides being queued: it may change its entry. -/
abbrev EntryHook := VEntry → Exec VEntry

def noHook : EntryHook := fun e => pure e

/-- The fields of a V-format instruction that name x registers it reads at VIQ entry (R61, R107): VD, VS1, VS2, VS3. -/
structure XReads where
  vd  : Bool := false
  vs1 : Bool := false
  vs2 : Bool := false
  vs3 : Bool := false
  deriving DecidableEq, Repr

/-- Which fields those are, beside VS3 where XS = 1. -/
def xReads : Instr → XReads
  | .setvl _ => { vs1 := true }
  | .setvlw _ => { vs1 := true, vs2 := true, vs3 := true }
  | .vld _ => { vs1 := true }
  | .vldff _ => { vs1 := true }
  | .vldx _ => { vs1 := true }
  | .vst _ => { vs1 := true }
  | .vstx _ => { vs1 := true }
  | .vstxa _ => { vs1 := true }
  | .vldh _ => { vs2 := true, vs3 := true }
  | .vsth _ => { vs2 := true, vs3 := true }
  | .flstream _ => { vd := true, vs1 := true, vs2 := true, vs3 := true }
  | .flpaged _ => { vd := true, vs1 := true }
  | .flcopy _ => { vd := true, vs1 := true, vs2 := true }
  | .flwait _ => { vs1 := true }
  | .vmmax _ => { vd := true }
  | .tld _ => { vd := true, vs1 := true, vs2 := true }
  | .tst _ => { vd := true, vs1 := true, vs2 := true }
  | .tmov _ => { vs2 := true }
  | .tzero _ => { vs2 := true }
  | .yired _ => { vs1 := true }
  | .ybop f => { vd := true, vs1 := true, vs2 := f.fn ≠ 5, vs3 := true }
  | .fbind _ => { vs1 := true }
  | .clset _ => { vs1 := true }
  | .clsave _ => { vs1 := true }
  | .clrest _ => { vs1 := true }
  | .clrun _ => { vs1 := true, vs2 := true }
  | .impose _ => { vs2 := true }
  | .vblkhdr f => { vs3 := f.xs = 1 }
  | .vslide _ => { vs3 := true }
  | .vsplat _ => { vs3 := true }
  | .vmvx f => { vs1 := f.fn.toNat = 2, vs3 := true }
  | .vtopk _ => { vs3 := true }
  | _ => {}

/-- The x registers a V-format instruction reads at VIQ entry. -/
def xFieldsOf (i : Instr) (f : VForm) : List Nat :=
  let r := xReads i
  (if r.vd then [f.vd.toNat % 32] else []) ++ (if r.vs1 then [f.vs1.toNat % 32] else []) ++
  (if r.vs2 then [f.vs2.toNat % 32] else []) ++ (if r.vs3 || f.xs = 1 then [f.vs3.toNat % 32] else [])

/-- A V-format instruction in the queue, the scalar side past it. -/
def Hart.enqueue (h : Hart) (i : Instr) (e : VEntry) : Hart :=
  ({ h with viq := h.viq ++ [e], entered := h.entered + 1, vlPending := h.vlPending || trims i, members := h.members.tail } :
    Hart).advance 8

/-- A handler's instruction that finds no free entry is illegal, whatever entry is freed before the trap is taken (R109,
R406). -/
def findRoom (i : Instr) : Exec Unit := do
  let h ← me
  if h.tstat.inh && (h.noRoom || h.viqRoom = 0) then do
    modMe fun h => { h with noRoom := true }
    illegal i
  else await (h.viqRoom ≠ 0)

/-- An instruction enters the VIQ and leaves the scalar side (R107), when the registers it reads are there and an entry is
free (R108). The answer is whether it is the head. -/
def enterQueue (i : Instr) (f : VForm) (hook : EntryHook) : Exec Bool := do
  let h ← me
  await (h.ready (xFieldsOf i f))
  findRoom i
  let e ← hook (h.capture i f)
  modMe (·.enqueue i e)
  return h.viq.isEmpty

/-- The head entry replaced. -/
def setHead (e : VEntry) : Exec Unit := modMe fun h => { h with viq := e :: h.viq.tail }

/-- Token conditions of the head, and its pop and reservation, once (R315). -/
def takeTokens (e : VEntry) (f : VForm) : Exec VEntry := do
  let h ← me
  let pk := popFifo e.instr f
  let qk := pushFifo e.instr f
  let needPop := f.tpop = 1 && !e.popped
  let needRes := f.tpsh = 1 && !e.reserved
  await (!needPop || Tab.get 0 h.tokens pk > 0)
  await (!needRes || Tab.get 0 h.tokens qk + Tab.get 0 h.resv qk < Config.tokenDepth)
  let e' := { e with popped := e.popped || needPop, reserved := e.reserved || needRes }
  modMe fun h => { h with
    tokens := if needPop then Tab.put 0 h.tokens pk (Tab.get 0 h.tokens pk - 1) else h.tokens
    resv := if needRes then Tab.put 0 h.resv qk (Tab.get 0 h.resv qk + 1) else h.resv }
  setHead e'
  return e'

/-- When an instruction's token is pushed: at completion, or when the job or command it started is done (R254). -/
inductive Retire where
  | now
  | later
  deriving DecidableEq, Repr

/-- The VL a trimming instruction leaves (R218): later entries use it, and the scalar side once no later queued
instruction trims. -/
def trimVl (n : Nat) : Exec Unit := modMe fun h =>
  let h := { h with vvl := n }
  if h.vlPending && !(h.viq.tail.any fun e => trims e.instr) then { h with vl := BitVec.ofNat 16 n, vlPending := false } else h

/-- Completion of the head: it leaves the queue, VSTART := 0 (R144), its token is pushed, and a pass that waited for its
count ends (R134). -/
def completeHead (e : VEntry) (f : VForm) (r : Retire) : Exec Unit := modMe fun h =>
  let ends := h.rep.active && (h.viq.head?.map (·.ends)).getD false
  let h := { h with viq := h.viq.tail, vstart := 0 }
  let h := if f.tpsh = 1 && r = .now then h.pushToken (pushFifo e.instr f) else h
  if ends then h.closePass h.pc else h

/-- The context of a queue entry's accesses: its own place among the hart's work. -/
def VEntry.ctx (e : VEntry) : Exec Ctx := fun s => .ok { s.ctx s.cur with pos := e.seq, probe := e.probe } s

/-- The meaning of a vector instruction at issue. -/
abbrev Body := VEntry → VForm → Exec Retire

/-- Every element of an entry has been performed ahead, and it trims no VL (R238; log 2). -/
def VEntry.doneAhead (e : VEntry) : Bool :=
  e.early ≠ 0 && e.vl.any (fun n => e.early = 2 ^ n - 1) && !trims e.instr

/-- The head of the VIQ issues and, unless it stops, completes (R352). -/
def issueHead (body : Body) : Exec Unit := do
  match (← me).viq with
  | [] => pure ()
  | e :: _ =>
    match e.instr.vForm with
    | none => pure ()
    | some (_, f) =>
      let e ← takeTokens e f
      let r ← if e.doneAhead then pure .now else body e f
      completeHead e f r
      if e.flush then flushPool

/-- The point of a stop of a queue entry. -/
def VEntry.point (e : VEntry) : Point :=
  .vector e.pc (match e.instr.vForm with | some (_, f) => f.p = 1 | none => false)

/-- The unit class of a queue entry. -/
def VEntry.unit (e : VEntry) : Nat := match e.instr.vForm with | some (op, f) => (f.unit op.toNat).code | none => 7

/-- The unit classes that the head of a queue wants: its own, and with it those of its convoy (R352). -/
def Hart.headUnits (h : Hart) : List Nat :=
  match h.viq with
  | [] => []
  | e :: t => e.unit :: (t.filter fun x => e.convoy.isSome && x.convoy = e.convoy).map (·.unit)

/-- Members of the convoy at the head are still to enter, and the next one can: the convoy issues as a whole, with them
(R352). -/
def Hart.filling (h : Hart) : Bool :=
  match h.members, h.viq with
  | (m, v) :: _, e :: _ => e.convoy = some h.convoy && h.viqRoom ≠ 0 && h.ready (xFieldsOf m v)
  | _, _ => false

/-- The heads of other harts of a hart's core that a unit class may serve instead (R352). -/
def State.rivals (s : State) (k unit : Nat) : Bool :=
  s.harts.any fun (j, h) => j ≠ k && coreOf j = coreOf k && h.headUnits.contains unit

/-- The queue of a hart does not issue yet, by the plan (log 2). -/
def State.late (s : State) (k : Nat) : Bool := s.plan.late.any fun (j, t) => j = k && s.clock < t

/-- The pointer of a unit class moves past a hart (R352). -/
def passPointer (k unit : Nat) : Exec Unit :=
  modify fun s => { s with issuePtr := Tab.put 0 s.issuePtr (coreOf k * 8 + unit) ((ctxOf k + 1) % 8) }

/-- A vector or engine instruction: it enters the VIQ, and issues at once when nothing is queued before it, no other hart's
head wants its unit class, and the plan does not delay it. -/
def vectorStep (i : Instr) (f : VForm) (hook : EntryHook) (body : Body) (s : State) : Host.Outcome State Fault Refusal :=
  match enterQueue i f hook s with
  | .ok alone s' =>
    let unit := (f.unit (vOpcode i)).code
    if alone && !s'.rivals s'.cur unit && !s'.late s'.cur && !s'.me.filling then
      outcome (.vector s.me.pc (f.p = 1)) (do issueHead body; passPointer s'.cur unit) s'
    else .next s'
  | .error e s' => outcome .scalar (throw e) s'

/-- A body that retires at completion. -/
def bodyNow (m : VCtx → Exec Unit) : Body := fun e f => do
  let c ← issueCtx e f
  m c
  return .now

/-- An instruction of the vector chapters with its context, which restarts or resumes by its own rule. -/
def plainStep (i : Instr) (f : VForm) (m : VCtx → Exec Unit) (s : State) : Host.Outcome State Fault Refusal :=
  vectorStep i f noHook (bodyNow m) s

end Sys2Proof.Machine
end

