-- ==== Sys2Proof/Machine/Life.lean ====
section
/-! DEFINITION. The lives of streams, leases, harts, gangs and tasks: what ends with each, the gang barrier, completing a
fault entry, and the context the Yarder's own accesses use (R303, R305, R313, R320, R331, R343, R355 to R361, R417 to R419,
R436). -/

namespace Sys2Proof.Machine

open Sys2Proof

/-! ### The device's accesses for a task -/

/-- A context under given translation registers, at a hart's place, without scratchpad bounds; its accesses, no program's,
bring no line into a cache (R231). -/
def taskCtx (hart : Nat) (id : Nat) (asid : BitVec 16) (ptbase : Word) (keydom : BitVec 16) (slevel : Bool) : Ctx where
  h := { asid := asid, ptbase := ptbase, keydom := keydom, tstat := { lvl := slevel } }
  hart := hart
  pos := 0
  splo := 0
  sphi := 0
  who := { task := id, asid := asid }
  keep := false

/-- The place of a queue's Yarder: a hart of its cluster (R340). -/
def yarderHart (q : Nat) : Nat := q / 32 * 192 * 8

/-- The context of a task's status store and watermark reads (R343). -/
def Task.ctx (t : Task) (id : Nat) : Ctx := taskCtx (yarderHart t.queue) id t.record.asid t.ptbase t.keydom t.slevel

/-- The status store of R343, with REL at SYSTEM scope (R233): made, or dropped on a fault; the answer is false where a page move
or a copy holds it. -/
def statusStore (t : Task) (id code : Nat) : Exec Bool := do
  if t.record.status = 0 then return true
  else
    match ← caught (store (t.ctx id) t.record.status.toNat 8 8 false code) with
    | .error .wait => return false
    | _ => do
      flushPool
      return true

/-- The message of an ended or refused task (R433). -/
def signalStatus (q : Nat) : Exec Unit := do signalHost (Tab.get ({} : Queue) (← ask (·.port.queues)) q).stvec.toNat

/-- The status store and then the message; a held store is kept, and its message with it (R343). -/
def finishTask (t : Task) (id code : Nat) : Exec Unit := do
  if ← statusStore t id code then signalStatus t.queue
  else modify fun s => { s with statuses := s.statuses ++ [{ task := t, id := id, code := code }] }

/-- The status stores held for a queue are tried again. -/
def flushStatuses (q : Nat) : Exec Unit := do
  let l ← ask (·.statuses)
  modify fun s => { s with statuses := s.statuses.filter (·.task.queue ≠ q) }
  forAll (l.filter (·.task.queue = q)) fun x => finishTask x.task x.id x.code

/-! ### Streams -/

/-- The streams a hart owns, by key. -/
def State.streamsOf (s : State) (k : Nat) : List (Nat × Stream) := s.streams.filter fun (_, x) => x.owner = k

/-- Rows consumed in full, counted from the PROG the stream began with (R310). -/
def Stream.rowsDone (x : Stream) : Nat := x.consumed / x.rowElems

/-- A paged stream has rows consumed that PROG does not count yet (R310). -/
def Stream.owesProg (x : Stream) : Bool := x.kind = .paged && x.rowsDone ≠ x.progDone

/-- A pending PROG of a paged stream written (R310). -/
def storeProg (key : Nat) : Exec Unit := do
  match Tab.find (← ask (·.streams)) key with
  | some x =>
    if x.owesProg then
      let c ← ask (·.ctx x.owner)
      let acc ← checkAccess c x.progAddr 8 8 .write
      writeAccess c false false ((x.prog0 + x.rowsDone) % 2 ^ 64) acc
      modify fun s => { s with streams := Tab.set s.streams key { x with progDone := x.rowsDone } }
  | none => pure ()

/-- A stream freed (R313); a token its job still owes is pushed, since the job is over (R254). -/
def freeStream (key : Nat) : Exec Unit := modify fun s =>
  match Tab.find s.streams key with
  | some x =>
    let s := { s with streams := Tab.erase s.streams key }
    match x.token with
    | some t => s.putHart x.owner ((s.hart x.owner).pushToken t)
    | none => s
  | none => s

/-- An entry of a job, whose accesses a hart's registers translate (R303, R416): it joins a pending one of the same job, code and
page. -/
def postJobEntry (h : Hart) (ring : Word) (e : Entry) (stream conv : Option Nat) : Exec Nat := do
  let s ← get
  match s.pending.find? (fun p => p.stream = stream && p.conv = conv && p.entry.src = e.src && p.entry.code = e.code &&
      s.samePage h p.entry.addr e.addr) with
  | some p => return p.id
  | none => postEntry ring e [] stream conv

/-- What a failure of a stream's access does (R303): an entry of a parked kind, or a failure kept for the instruction that
needs the element. -/
def streamFault (key : Nat) (x : Stream) (e : Stop) : Exec Unit := do
  let stop ← match e with
    | .park code detail addr val pte w f => do
      let en ← asHart x.owner (faultEntry (.vector x.pc false) code detail addr val pte w f false (2 + 8 * (key % 16)))
      let h ← ask (·.hart x.owner)
      pure (JobStop.entry (← postJobEntry h h.fqbase { en with elem := x.fetched } (some x.job) none))
    | .trap code detail value => pure (JobStop.failure code detail value)
    | _ => pure x.stop
  modify fun s => match Tab.find s.streams key with
    | some y => { s with streams := Tab.set s.streams key { y with stop := stop } }
    | none => s

/-- A pending PROG written by the job; its failure is the job's. -/
def tryProg (key : Nat) : Exec Unit := do
  match Tab.find (← ask (·.streams)) key with
  | none => pure ()
  | some x =>
    match ← caught (storeProg key) with
    | .ok _ => pure ()
    | .error e => streamFault key x e

/-- A pending PROG is written, and waited for while its page is served (R313). -/
def settleProg (key : Nat) : Exec Unit := do
  tryProg key
  match Tab.find (← ask (·.streams)) key with
  | none => pure ()
  | some x => await (!x.owesProg || match x.stop with | .failure .. => true | _ => false)

/-- FLSTOP's effect (R313): a pending PROG is written, and the stream is freed. -/
def stopStream (key : Nat) : Exec Unit := do
  settleProg key
  freeStream key

/-- The streams of a hart that ends are stopped as FLSTOP does (R355, R361). -/
def stopStreams (hart : Nat) : Exec Unit := do
  forAll (← ask (·.streamsOf hart)) fun (k, _) => stopStream k

/-- The copies of a hart have finished: performed whole, or stopped for good (R355). -/
def State.copiesDone (s : State) (hart : Nat) : Bool :=
  (s.streamsOf hart).all fun (_, x) =>
    match x.kind, x.stop with
    | .stream, _ => true
    | .paged, _ => true
    | _, .failure .. => true
    | _, _ => x.fetched ≥ x.avl

/-! ### Leases -/

/-- No far context. -/
def noCtx : Nat := 2 ^ 32

/-- A far context returned to its Landing (R320): its y registers are lost, and commands still under way through it count
in no context. -/
def freeLease (key : Nat) : Exec Unit := modify fun s =>
  { s.putFar key {} with banks := s.banks.map fun b => if b.ctx = key then { b with ctx := noCtx } else b }

/-- Every bank-level command through a context is done, its completion word written (R320). -/
def State.slotQuiet (s : State) (key : Nat) : Bool := s.banks.all fun b => b.ctx ≠ key

/-- The keys of a hart's leases. -/
def Hart.leases (h : Hart) : List Nat := (h.fstk.filter fun (_, f) => f.bound && !f.lost).map fun (_, f) => f.key

/-- Every lease of a hart returned, and its requests withdrawn. -/
def returnLeases (hart : Nat) : Exec Unit := do
  forAll (← ask (fun s => (s.hart hart).leases)) freeLease
  modify fun s =>
    let g := Tab.get 0 s.granted hart
    let s := if g ≠ 0 then s.putFar (g - 1) {} else s
    { s.putHart hart { s.hart hart with fstk := [] } with
      granted := Tab.erase s.granted hart, leaseq := (s.leaseq.map fun (k, l) => (k, l.filter (· ≠ hart))).filter (·.2 ≠ []) }

/-! ### The gang barrier (R358, R359) -/

/-- Phases complete while ARRIVED = EXPECT > 0; `n` bounds them. The answer counts them. -/
def Gbar.settle (g : Gbar) : Nat → Gbar × Nat
  | 0 => (g, 0)
  | n + 1 =>
    if g.arrived = g.expect && g.expect ≠ 0 then
      let r := Gbar.settle { g with phase := g.phase + 1, expect := g.next, arrived := g.early, early := 0 } n
      (r.1, r.2 + 1)
    else (g, 0)

/-- A member of the completed phase goes on after its GSYNC; a hart waiting early becomes a waiting member, and every hart
of the gang belongs to the new phase. -/
def Hart.release (h : Hart) : Hart :=
  match h.run with
  | .barrier true => { h.advance 4 with run := .running, member := true }
  | .barrier false => { h with run := .barrier true, member := true }
  | _ => { h with member := true }

/-- The harts of a gang released as often as phases completed. -/
def releaseGang (s : State) (gang : Nat) : Nat → State
  | 0 => s
  | n + 1 => releaseGang { s with harts := s.harts.map fun (k, h) => if h.gang = gang then (k, h.release) else (k, h) } gang n

/-- A barrier event of R359 on a gang. -/
def barrierEvent (gang : Nat) (f : Gbar → Gbar) : Exec Unit := modify fun s =>
  let g := s.gang gang
  let r := (f g.gbar).settle 16
  releaseGang (s.putGang gang { g with gbar := r.1 }) gang r.2

/-- JOIN or HALT of a hart that is not waiting (R359). -/
def leaveBarrier (gang : Nat) (member : Bool) : Exec Unit :=
  barrierEvent gang fun g => if member then { g with expect := g.expect - 1, next := g.next - 1 } else { g with next := g.next - 1 }

/-! ### Harts -/

/-- The tokens that a hart's conversions and commands under way owe its FIFOs are owed no more: the FIFOs are discarded
(R315). -/
def dropTokens (hart : Nat) : Exec Unit := modify fun s =>
  let gang := (s.hart hart).gang
  { s with
    convs := s.convs.map fun (i, c) => (i, if c.hart = hart && c.asHart.gang = gang then { c with token := none } else c)
    banks := s.banks.map fun b => if b.hart = hart && b.gang = gang then { b with token := none } else b }

/-- The context of a hart is free again; accepted maintenance takes effect (R279). -/
def clearHart (hart : Nat) : Exec Unit := do
  dropTokens hart
  let h ← ask (·.hart hart)
  forAll h.maint fun m => forAll m.lines fun (l, n) => forAll (List.range n) fun i => maintLine m.kind (l + i)
  modify fun s => { s.putHart hart {} with
    preempts := s.preempts.map fun (c, p) => (c, { p with waiters := p.waiters.filter (· ≠ hart) }) }

/-- The children of a hart not yet joined (R355). -/
def State.children (s : State) (k : Nat) : List Nat := (s.harts.filter fun (_, h) => h.parent = some k).map (·.1)

/-- The harts of a gang. -/
def State.gangHarts (s : State) (gang : Nat) : List Nat :=
  (s.harts.filter fun (_, h) => h.gang = gang && h.run ≠ .free).map (·.1)

/-! ### Tasks -/

/-- A conversion's token pushed to its hart. -/
def State.convToken (s : State) (c : Conv) : State :=
  match c.token with
  | some t => s.onHart c.hart c.asHart.gang (·.pushToken t)
  | none => s

/-- A conversion freed (R330). -/
def freeConv (id : Nat) : Exec Unit := modify fun s =>
  match Tab.find s.convs id with
  | some c => { s.convToken c with convs := Tab.erase s.convs id }
  | none => s

/-- The last things of a task's end (R343): its jobs, rounds and entries are gone, WAITING of their rings follows (R412), the
status store, the message. -/
def closeTask (id code : Nat) : Exec Unit := do
  match Tab.find (← ask (·.tasks)) id with
  | none => pure ()
  | some t =>
    let dropped ← ask fun s => s.pending.filter fun p => p.entry.taskid = id
    modify fun s => { s with
      convs := s.convs.filter (fun (_, c) => c.task ≠ id), pending := s.pending.filter (fun p => p.entry.taskid ≠ id)
      rounds := s.rounds.filter (fun (_, r) => r.task ≠ id), tasks := Tab.erase s.tasks id }
    forAll ((dropped.filter fun p => p.seq.isNone && ringOk p.ring).map (·.ring)).dedup setWaiting
    finishTask t id code

/-- A task ended by software, the host, or a failed save: its harts stop, its gangs go, its record leaves its queue
(R343, R418, R436). -/
def endTask (id code : Nat) : Exec Unit := do
  match Tab.find (← ask (·.tasks)) id with
  | none => pure ()
  | some t =>
    let gs ← ask (fun s => (s.gangs.filter fun (_, g) => g.task = id).map (·.1))
    forAll gs fun g => do
      forAll (← ask (·.gangHarts g)) fun k => do
        modify fun s => { s with streams := s.streams.filter fun (_, x) => x.owner ≠ k }
        returnLeases k
        clearHart k
      forAll (← ask (fun s => (s.gang g).saved)) fun x => do
        forAll x.hart.leases freeLease
        forAll x.hart.maint fun m => forAll m.lines fun (l, n) => forAll (List.range n) fun i => maintLine m.kind (l + i)
      modify fun s => s.putGang g {}
    modify fun s => { s with port := { s.port with queues := s.port.queues.map fun (q, x) =>
      if q = t.queue && (x.head.map (·.task)) = some id then (q, { x with head := none }) else (q, x) } }
    closeTask id code

/-- A gang whose last hart has halted (R361): it goes, and with the last gang of its task the task ends with code 1. -/
def endGang (gang : Nat) : Exec Unit := do
  let g ← ask (·.gang gang)
  modify fun s => s.putGang gang {}
  match Tab.find (← ask (·.tasks)) g.task with
  | none => pure ()
  | some t =>
    modify fun s => { s with tasks := Tab.set s.tasks g.task { t with left := t.left - 1 } }
    if t.left ≤ 1 then closeTask g.task 1

/-! ### Completing an entry (R417 to R419) -/

/-- Whether a completion code is allowed for an entry (R418). -/
def completionAllowed (e : Entry) (code : Nat) : Bool :=
  match code with
  | 0 => !(e.code = 0x16 && (e.detail = 3 || e.detail = 6))
  | 1 => e.code = 0x15
  | 2 => true
  | 3 => 0x10 ≤ e.code && e.code ≤ 0x16 && e.kind / 8 % 2 = 0 && !(e.code = 0x16 && e.detail = 6)
  | 4 => e.code = 0x17
  | _ => false

/-- A hart waiting on an entry is due to restart (R419). -/
def Hart.due (h : Hart) (id code at_ : Nat) (value : Word) (e : Entry) : Hart :=
  if h.run = .parked id then { h with run := .restart code value e, dueAt := at_ } else h

/-- A stream whose pause the completion of an entry ends. -/
def Stream.resume (x : Stream) (id : Nat) : Stream := if x.stop = .entry id then { x with stop := .none } else x

/-- An entry completed: no longer pending, its harts due to restart, running or suspended, and its job resumed; ABORT of
anything but an unsorted index ends the task (R418). -/
def completeEntry (p : Pending) (code : Nat) (value : Word) : Exec Unit := do
  if code = 2 && p.entry.code ≠ 0x15 then endTask p.entry.taskid 3
  else modify fun s => { s with
    fresh := s.fresh + 1
    pending := s.pending.filter (·.id ≠ p.id)
    harts := s.harts.map (fun (k, h) => (k, h.due p.id code s.fresh value p.entry))
    gangs := s.gangs.map (fun (k, g) => (k, { g with
      saved := g.saved.map (fun x => { x with
        hart := x.hart.due p.id code s.fresh value p.entry, streams := x.streams.map (fun (k, y) => (k, y.resume p.id)) }) }))
    streams := s.streams.map (fun (k, x) => (k, x.resume p.id))
    convs := s.convs.map (fun (k, x) => (k, if x.stop = .entry p.id then { x with stop := .none } else x)) }

/-- FQDONE and FQCOMP: 0 done, 1 no such entry, 2 a code not allowed (R417). -/
def completeSeq (ring : Word) (seq : Nat) (code : Nat) (value : Word) : Exec Nat := do
  match (← ask (·.pending)).find? (fun p => sameRing p.ring ring && p.seq = some seq) with
  | none => return 1
  | some p =>
    if completionAllowed p.entry code then do
      completeEntry p code value
      return 0
    else return 2

end Sys2Proof.Machine
end

