-- ==== Sys2Proof/Machine/Ahead.lean ====
section
/-! DEFINITION. The next vector instruction of a program, as far as the registers decide which it is: what VCP reads as with
nothing queued (R31; log 8). The program is run ahead on a copy of the state that no step keeps. -/

namespace Sys2Proof.Machine

open Sys2Proof

/-- An instruction of registers and guards alone: its meaning, the registers and guards it takes its result from, and the
guards it writes. It transfers, or it writes x(RD) or those guards. -/
structure Plain where
  run   : State → Host.Outcome State Fault Refusal
  xs    : List Nat
  gs    : List Nat := []
  goes  : Bool := false
  sets  : List Nat := []

def allGuards : List Nat := [1, 2, 3, 4, 5, 6, 7]

/-- The instructions of registers and guards alone, with their transfers (R111 to R122, R131 to R134). -/
def plainOf : Instr → Option Plain
  | .alu f => some { run := execAlu f, xs := f.regs, gs := [f.g.toNat] }
  | .mul f => some { run := execMul f, xs := f.regs, gs := [f.g.toNat] }
  | .div f => some { run := execDiv f, xs := f.regs, gs := [f.g.toNat] }
  | .addi f => some { run := execAddi f, xs := f.regs, gs := [f.g.toNat] }
  | .andi f => some { run := execAndi f, xs := f.regs, gs := [f.g.toNat] }
  | .ori f => some { run := execOri f, xs := f.regs, gs := [f.g.toNat] }
  | .xori f => some { run := execXori f, xs := f.regs, gs := [f.g.toNat] }
  | .shi f => some { run := execShi f, xs := f.regs, gs := [f.g.toNat] }
  | .lit32 f l => some { run := execLit32 f l, xs := f.regs, gs := [f.g.toNat] }
  | .lit64 f l => some { run := execLit64 f l, xs := f.regs, gs := [f.g.toNat] }
  | .lea f => some { run := execLea f, xs := f.regs, gs := [f.g.toNat] }
  | .bitc f => some { run := execBitc f, xs := f.regs, gs := [f.g.toNat] }
  | .sel f => some { run := execSel f, xs := f.regs, gs := [f.g.toNat, f.fn.toNat % 8] }
  | .nop f => some { run := execNop f, xs := f.regs, gs := [f.g.toNat] }
  | .cmp f => some { run := execCmp f, xs := f.regs, gs := [f.g.toNat], sets := [f.rd.toNat % 8] }
  | .cmpi f => some { run := execCmpi f, xs := f.regs, gs := [f.g.toNat], sets := [f.rd.toNat % 8] }
  | .glog f => some { run := execGlog f, xs := f.regs, gs := allGuards,
                      sets := if f.fn = 7 then [] else if f.fn = 8 then allGuards else [f.rd.toNat % 8] }
  | .br f => some { run := execBr f, xs := [], gs := [f.g.toNat], goes := true }
  | .cbr f => some { run := execCbr f, xs := f.regs, gs := [f.g.toNat], goes := true }
  | .jal f => some { run := execJal f, xs := [], goes := true }
  | .jalr f => some { run := execJalr f, xs := f.regs, gs := [f.g.toNat], goes := true }
  | .rep f => some { run := execRep f, xs := f.regs, gs := [f.g.toNat], goes := true }
  | _ => none

/-- How far the program has been run ahead: the copy of the state, and the x registers and guards whose values depend on what
is not looked at: loads, special registers, other harts. -/
structure Outlook where
  s  : State
  xs : List Nat
  gs : List Nat

/-- What the program shows next: a vector instruction at an address, the next instruction, or nothing more. -/
inductive Ahead where
  | vector (a : Nat)
  | goes (l : Outlook)
  | unknown

/-- The scalar side of the copy past an instruction: not where that ends a pass whose count is not known. -/
def Outlook.past (l : Outlook) (n len : Nat) : Ahead :=
  let h := l.s.me
  if h.rep.active && l.xs.contains h.rep.reg.toNat && h.rep.len ≤ h.rep.pos + n then .unknown
  else .goes { l with s := l.s.putHart l.s.cur (h.retire n (h.pc + word len)) }

/-- An instruction that ends or turns the stream otherwise: JOIN, HALT, TRAP, TRET. -/
def turns : Instr → Bool
  | .join _ | .halt _ | .trap _ | .tret _ => true
  | _ => false

/-- A scalar instruction of the copy: executed where all it takes its result from is known; else its results are not
known, nor what follows a transfer. One that would trap shows nothing more. -/
def Outlook.scalar (l : Outlook) (i : Instr) (rd len : Nat) : Ahead :=
  let known (p : Plain) : Bool := p.xs.all (fun r => r = 0 || !l.xs.contains r) && p.gs.all fun g => g = 0 || !l.gs.contains g
  let count : Bool := l.s.me.rep.active && l.xs.contains l.s.me.rep.reg.toNat && l.s.me.rep.len ≤ l.s.me.rep.pos + 1
  match plainOf i with
  | none => if turns i then .unknown else ({ l with xs := rd :: l.xs, gs := allGuards ++ l.gs } : Outlook).past 1 len
  | some p =>
    if known p then
      match p.run l.s with
      | .next t =>
        if t.me.run = .running && t.me.tstat = l.s.me.tstat && !count then
          .goes { s := t, xs := if p.sets = [] && !p.goes then l.xs.filter (· ≠ rd) else l.xs, gs := l.gs.filter fun g => !p.sets.contains g }
        else .unknown
      | _ => .unknown
    else if p.goes then .unknown
    else ({ l with xs := if p.sets = [] then rd :: l.xs else l.xs, gs := p.sets ++ l.gs } : Outlook).past 1 len

/-- The instruction at the copy's PC looked at. -/
def lookAhead (l : Outlook) : Ahead :=
  match fetchParcels (l.s.ctx l.s.cur) l.s.me.pc.toNat l.s with
  | .error .. => .unknown
  | .ok ps s =>
    let l := { l with s := s }
    let p := ps.headD 0
    let op := (opcodeOf p).toNat
    if opIsV op then .vector s.me.pc.toNat
    else
      match decodeParcels ps with
      | .ok (.convoyHeader f, _) =>
        let n := f.n.toNat + 2
        if f.guard ≠ 0 && l.gs.contains f.guard.toNat then .unknown
        else if s.me.getG f.guard.toNat then .vector ((s.me.pc.toNat + 4) % 2 ^ 64)
        else l.past (n + 1) (4 + 8 * n)
      | .ok (i, _) => l.scalar i (SForm.ofParcel p).rd.toNat (4 * opParcels op)
      | .error _ => .unknown

/-- The first vector instruction that the copy comes to within a number of instructions; and the counter of free values then,
but for those of the latest instruction, of at most six. -/
def lookOn : Nat → Outlook → Option Nat × Nat
  | 0, l => (none, l.s.fresh)
  | n + 1, l =>
    match lookAhead l with
    | .vector a => (some a, l.s.fresh)
    | .goes l => lookOn n l
    | .unknown => (none, l.s.fresh)

/-- The instructions it looks at (log 8). -/
def lookFuel : Nat := 4096

/-- The first vector instruction of the hart whose turn it is, from its PC on, were it running. -/
def firstVector (l : Ahead) : Exec (Option Nat) := fun s =>
  match l with
  | .goes l =>
    let r := lookOn lookFuel { l with s := l.s.putHart l.s.cur { l.s.me with run := .running } }
    .ok r.1 { s with fresh := r.2 + 6 }
  | _ => .ok none s

/-- The next vector instruction after the one at the PC, which writes register rd. -/
def nextVector (rd : Nat) : Exec (Option Nat) := do
  firstVector (({ s := ← get, xs := [rd], gs := [] } : Outlook).past 1 4)

/-- VCP: the oldest uncompleted entry; else the next vector instruction, given; where the registers do not decide which that
is, the entry PC before any vector instruction, then a free value (log 8). -/
def vcpWith (next : Exec (Option Nat)) : Exec Word := do
  let h ← me
  match h.held, h.viq with
  | e :: _, _ => return e.pc
  | [], e :: _ => return e.pc
  | [], [] =>
    match ← next with
    | some a => return word a
    | none => if h.entered = 0 then return h.vcp0 else return word (← freeBits 64)

/-- VCP for an SRD into rd. -/
def readVcp (rd : Nat) : Exec Word := vcpWith (nextVector rd)

/-- VCP of a halted hart (R366). -/
def haltedVcp : Exec Word := do vcpWith (firstVector (.goes { s := ← get, xs := [], gs := [] }))

end Sys2Proof.Machine
end

