-- ==== Sys2Proof/Machine/System.lean ====
section
/-! DEFINITION. Special registers, traps and their return, host calls, fault completion, illegal encodings and fetch
faults (R31 to R36, R51, R72, R401 to R420). -/

namespace Sys2Proof.Machine

open Sys2Proof

/-- S level, or illegal instruction (R373). -/
def sOnly (i : Instr) : Exec Unit := do
  if !(← me).isS then illegal i

/-! ### Registers as words -/

def b1 (b : Bool) : Nat := if b then 1 else 0

/-- TSTAT (R403). -/
def Tstat.toNat (t : Tstat) : Nat :=
  b1 t.nve + 2 * b1 t.dze + 4 * b1 t.ofe + 8 * b1 t.narrow + 16 * b1 t.inh + 32 * b1 t.pl + 64 * b1 t.lvl +
  256 * b1 t.ract + 2 ^ 9 * t.rreg.toNat + 2 ^ 14 * t.rb.toNat + 2 ^ 19 * t.rpos.toNat + 2 ^ 24 * t.rback.toNat +
  2 ^ 32 * t.shn.toNat

/-- TSTAT written: SHN, LVL and INH keep their values (R403, R411). -/
def Tstat.write (t : Tstat) (v : Nat) : Tstat :=
  { t with nve := bitAt v 0, dze := bitAt v 1, ofe := bitAt v 2, narrow := bitAt v 3, pl := bitAt v 5, ract := bitAt v 8,
           rreg := BitVec.ofNat 5 (v / 2 ^ 9), rb := BitVec.ofNat 5 (v / 2 ^ 14), rpos := BitVec.ofNat 5 (v / 2 ^ 19),
           rback := BitVec.ofNat 7 (v / 2 ^ 24) }

/-- FSTKn (R30). -/
def Fstk.toNat (f : Fstk) : Nat := b1 f.bound + 2 ^ 8 * f.fctx.toNat + 2 ^ 16 * f.stack.toNat + 2 ^ 19 * f.pkg.toNat

/-- GBAR (R358). -/
def Gbar.toNat (g : Gbar) : Nat :=
  g.expect.toNat + 2 ^ 4 * g.next.toNat + 2 ^ 8 * g.arrived.toNat + 2 ^ 12 * g.early.toNat + 2 ^ 16 * g.phase.toNat

/-- GLANES for a narrowing (R34). -/
def glanes (count : BitVec 6) (gshift : BitVec 2) : Nat := max 1 (count.toNat / 2 ^ gshift.toNat)

/-- CYC of a core (R36; log 9). -/
def State.cyc (s : State) (core : Nat) : Word := word s.clock + Config.cycOffset s.resets core

/-! ### Reading and writing by number (R31, R411) -/

/-- The vector-synchronising numbers (R31). -/
def srSync (n : Nat) : Bool := n ≤ 0x008 || n = 0x034 || n = 0x060

/-- A word of the fault queue's header, for the hart (R412). -/
def ringWord (pa : Nat) : Exec Word := do
  checkOwn (← myCtx) pa false pa 8
  return word (← readOwn pa 8)

/-- The value of a listed special register, for an SRD into rd. -/
def readSr (n rd : Nat) : Exec Word := do
  let h ← me
  let s ← get
  match n with
  | 0x000 => return h.vl.setWidth 64
  | 0x001 => return h.vcfg.setWidth 64
  | 0x002 => return h.vstart.setWidth 64
  | 0x003 => readVcp rd
  | 0x004 => return word ((s.gangOf h).gshift.toNat + 2 ^ 8 * glanes h.count (s.gangOf h).gshift)
  | 0x005 => return word (h.count.toNat + 2 ^ 8 * h.first.toNat)
  | 0x006 => return h.flags.setWidth 64
  | 0x007 => return word (h.dyn.toNat + 8 * b1 h.nohint)
  | 0x008 => return h.srseed.setWidth 64
  | 0x018 => return word (s.gangOf h).gbar.toNat
  | 0x020 => return word (s.hartId s.cur)
  | 0x021 => return (s.gangOf h).gangid.setWidth 64
  | 0x022 => return word (s.gangOf h).task
  | 0x023 => return s.cyc (coreOf s.cur)
  | 0x030 => return h.tvec
  | 0x031 => return h.tcause.setWidth 64
  | 0x032 => return h.tpc
  | 0x033 => return h.tval
  | 0x034 => return word h.tstat.toNat
  | 0x050 => return (s.gangOf h).splo
  | 0x051 => return (s.gangOf h).sphi
  | 0x060 => return h.ufcount
  | 0x100 => return h.asid.setWidth 64
  | 0x101 => return h.ptbase
  | 0x102 => return h.fqbase
  | 0x103 => ringWord (ringPa h.fqbase)
  | 0x104 => ringWord (ringPa h.fqbase + 8)
  | 0x105 => return h.keydom.setWidth 64
  | 0x106 => return Tab.get (0 : Word) s.census s.pkg
  | 0x107 => return Tab.get (0 : Word) s.freeq s.pkg
  | n =>
    if 0x010 ≤ n && n ≤ 0x017 then return word (h.slot (n - 0x010)).toNat
    else return Tab.get (0 : Word) h.cg (n % 4)

/-- FQHEAD written: the ring's HEAD word, with REL at SYSTEM scope, and then whatever the space admits (R412, R413). -/
def writeFqHead (v : Word) : Exec Unit := do
  let ring := (← me).fqbase
  writeOwn (ringPa ring) 8 v.toNat
  flushPool
  drainRing ring (← ask (fun s => (s.heldOf ring).length))
  if ringOk ring then setWaiting ring

/-- FQBASE written: entries of the hart that an FQBASE without a valid NLOG held are for the new ring (R414); those held for want
of space stay with their ring (R413). -/
def writeFqBase (v : Word) : Exec Unit := do
  let old := (← me).fqbase
  let valid := ringOk old
  let new := v &&& 0x000FFFFFFFFFF01F
  let id ← ask (fun s => s.hartId s.cur)
  modMe fun h => { h with fqbase := new }
  modify fun s => { s with pending := s.pending.map fun p =>
    if !valid && p.ring = old && p.seq = none && p.entry.hartid = id && p.entry.code ≠ 0x20 then { p with ring := new } else p }
  if ringOk new then do
    drainRing new (← ask (fun s => (s.heldOf new).length))
    if (← ask (fun s => (s.heldOf new).length)) ≠ 0 then setWaiting new

/-- A listed special register written by its access codes (R7, R411): read-only ones are unchanged. -/
def writeSr (n : Nat) (v : Word) : Exec Unit := do
  match n with
  | 0x002 => modMe fun h => { h with vstart := v.setWidth 16 }
  | 0x006 => modMe fun h => { h with flags := v.setWidth 6 }
  | 0x007 => modMe fun h => { h with dyn := v.setWidth 3, nohint := v.getLsbD 3 }
  | 0x008 => modMe fun h => { h with srseed := if v.setWidth 32 = (0 : BitVec 32) then 1 else v.setWidth 32 }
  | 0x030 => modMe fun h => { h with tvec := v &&& ~~~2 }
  | 0x031 => modMe fun h => { h with tcause := v.setWidth 17 }
  | 0x032 => modMe fun h => { h with tpc := v }
  | 0x033 => modMe fun h => { h with tval := v }
  | 0x034 => modMe fun h => { h with tstat := h.tstat.write v.toNat }
  | 0x060 => modMe fun h => { h with ufcount := v }
  | 0x100 => modMe fun h => { h with asid := v.setWidth 16 }
  | 0x101 => modMe fun h => { h with ptbase := v &&& 0x000FFFFFFFFE0000 }
  | 0x102 => writeFqBase v
  | 0x103 => writeFqHead v
  | 0x105 => modMe fun h => { h with keydom := v.setWidth 16 }
  | n => if 0x040 ≤ n && n ≤ 0x043 then modMe fun h => { h with cg := Tab.put (0 : Word) h.cg (n % 4) (v &&& ~~~0x3F) }
         else pure ()

/-- The checks and waits of SRD and SWR (R31, R374): an S-level number; the vector side for a synchronising number, and for
a write of ASID or PTBASE. -/
def srAccess (i : Instr) (n : Nat) (write : Bool) : Exec Unit := do
  if 0x100 ≤ n then sOnly i
  if srSync n || (write && (n = 0x100 || n = 0x101)) then vectorDone

/-- SRD (R411). -/
def execSrd (f : SrForm) (s : State) : Host.Outcome State Fault Refusal :=
  scalarStep true [] 4 (do
    srAccess (.srd f) f.num.toNat false
    setX f.rd.toNat (← readSr f.num.toNat f.rd.toNat)
    return .seq) s

/-- SWR (R411). -/
def execSwr (f : SrForm) (s : State) : Host.Outcome State Fault Refusal :=
  scalarStep true [f.rd.toNat] 4 (do
    srAccess (.swr f) f.num.toNat true
    writeSr f.num.toNat (← getX f.rd.toNat)
    return .seq) s

/-- The effect of an SWR on a listed number, by the hart whose turn it is (R411). -/
def execSpecialRegisterWrite (num : BitVec 12) (value : Word) (s : State) : Host.Outcome State Fault Refusal :=
  outcome .scalar (do
    if Wf.sregListed num.toNat then
      srAccess (.swr { num := num, rd := 0 }) num.toNat true
      writeSr num.toNat value
    else pure ()) s

/-- The effect of an SWR of FQHEAD, by the hart whose turn it is (R412). -/
def execFqhead (value : Word) (s : State) : Host.Outcome State Fault Refusal :=
  outcome .scalar (do
    sOnly (.swr { num := 0x103, rd := 0 })
    writeFqHead value) s

/-! ### Traps -/

/-- TRAP (R408): the trap 0x09 with n and x(RS1); TPC is the instruction after it, where the repeat has moved too. An
unhandled TRAP parks at itself (R405, R418). -/
def execTrap (f : IForm) (s : State) : Host.Outcome State Fault Refusal :=
  iStep f (do
    vectorDone
    let v ← getX f.rs1.toNat
    let h ← me
    if h.tvec.getLsbD 0 && !h.tstat.inh then
      setMe ((h.advance 4).enterTrap .scalar 0x09 (f.imm.toNat % 256) v)
    else
      park .scalar 0x18 (0x09 + if h.tstat.inh then 0x80 else 0) v (h.advance 4).pc 0 false false
    return .stay) s

/-- TRET's checks of the saved state (R409). -/
def tretChecks (i : Instr) : Exec Unit := do
  let h ← me
  let t := h.tstat
  need (t.inh && !(t.pl && !t.lvl)) (.trap 0x01 0 (illegalValue i))
  let _ ← checkTarget i h.tpc.toNat
  need (!(t.ract && (t.rreg = 0 || t.rb < t.rpos))) (.trap 0x01 0 (illegalValue i))

/-- TRET (R409). -/
def execTret (f : IForm) (s : State) : Host.Outcome State Fault Refusal :=
  iStep f (do
    tretChecks (.tret f)
    vectorDone
    modMe (·.leaveTrap)
    return .stay) s

/-- HCALL (R410): a FENCE ALL at SYSTEM scope, and the hart parks with code 0x17. -/
def execHcall (f : IForm) (s : State) : Host.Outcome State Fault Refusal :=
  iStep f (do
    vectorDone
    flushPool
    modMe fun h => { h with callRd := f.rd }
    throw (.park 0x17 0 (word f.imm.toNat) (← getX f.rs1.toNat) 0 false false)) s

/-- FQDONE (R417), a FENCE ALL at SYSTEM scope first. -/
def execFqdone (f : SForm) (s : State) : Host.Outcome State Fault Refusal :=
  sStep f (do
    sOnly (.fqdone f)
    vectorDone
    flushPool
    let r ← completeSeq (← me).fqbase (← getX f.rs1.toNat).toNat f.fn.toNat (← getX f.rs2.toNat)
    if (← me).run = .free then return .stay
    setX f.rd.toNat (word r)
    return .seq) s

/-! ### Encodings and fetches without an instruction -/

/-- ILLEGAL_INSTRUCTION (R71, R72): the trap 0x01 at decode. -/
def execIllegalInstruction (parcels : BitVec 64) (s : State) : Host.Outcome State Fault Refusal :=
  outcome .scalar (trap 0x01 0 parcels) s

/-- FETCH_FAULT (R51): the fetch at the PC is made, and its failure taken against the instruction's first parcel. -/
def execFetchFault (s : State) : Host.Outcome State Fault Refusal :=
  outcome .scalar (do
    let _ ← fetchParcels (← myCtx) (← me).pc.toNat) s

end Sys2Proof.Machine
end

