-- ==== Sys2Proof/Machine/Isolation.lean ====
section
/-! DEFINITION. Keys, the census, migration and changing translations (R389 to R399), and the copy-on-write sequence as a
move of its own (R387). -/

namespace Sys2Proof.Machine

open Sys2Proof

/-- A key slot of this package. -/
def State.keySlot (s : State) (n : Nat) : KeySlot := Tab.get ({} : KeySlot) s.slots (s.pkg * 4096 + n)
def State.putSlot (s : State) (n : Nat) (k : KeySlot) : State :=
  { s with slots := Tab.put ({} : KeySlot) s.slots (s.pkg * 4096 + n) k }

/-! ### Key domains -/

/-- A slot made LIVE with fresh keys (R394): the KEYDOM word of it. -/
def startSlot (n gen : Nat) : Exec Word := do
  modify fun s => { s.putSlot n { state := .live, gen := BitVec.ofNat 4 gen, key := s.keys } with keys := s.keys + 1 }
  return word (n + 2 ^ 12 * gen)

/-- KDNEW (R394): the lowest-numbered FREE slot. -/
def execKdnew (f : SForm) (s : State) : Host.Outcome State Fault Refusal :=
  sStep f (do
    sOnly (.kdnew f)
    let s ← get
    match (List.range 4096).find? (fun n => n ≠ 0 && (s.keySlot n).state = .free) with
    | some n => setX f.rd.toNat (← startSlot n ((s.keySlot n).gen.toNat + 1))
    | none => setX f.rd.toNat (-1)
    return .seq) s

/-- KDNEW.RECYCLE (R394): a SPENT slot, at generation 1. -/
def execKdnewRecycle (f : SForm) (s : State) : Host.Outcome State Fault Refusal :=
  sStep f (do
    sOnly (.kdnewRecycle f)
    let n := (← getX f.rs1.toNat).toNat
    if n ≥ 4096 then illegal (.kdnewRecycle f)
    let s ← get
    if (s.keySlot n).state = .spent then setX f.rd.toNat (← startSlot n 1) else setX f.rd.toNat (-1)
    return .seq) s

/-- The end of a domain (R393). -/
def endSlot (n : Nat) : Exec Unit := modify fun s =>
  let k := s.keySlot n
  let key := s.pkg * 4096 + n
  { s.putSlot n { state := if k.gen = 15 then .spent else .free, gen := k.gen, key := 0 } with
    tlb := s.tlb.filter (fun t => t.key ≠ key), sectors := s.sectors.filter (fun (_, c) => c.domain.kslot ≠ key) }

/-- A hart moves a page of a domain (R390). -/
def State.movesUnder (s : State) (key : Nat) (h : Hart) : Bool :=
  h.move.any fun m => s.leafKeySlot false m.leaf m.va = key

/-- Work already checked under a key is under way (R393 step 2): a bank-level command, a VCOLL, a page move. -/
def State.keyHeld (s : State) (key : Nat) : Bool :=
  s.banks.any (fun b => b.op.spans.any fun x => x.domain.kslot = key) ||
  s.vcollHolds (fun _ (_, _, p) => match p with | .phys _ d => d.kslot = key | .scratch _ => false) ||
  s.harts.any (fun (_, h) => s.movesUnder key h) || s.gangs.any fun (_, g) => g.saved.any fun x => s.movesUnder key x.hart

/-- Steps 2 to 4 of R393, once what is under way has drained. -/
def finishEnd (n : Nat) : Exec Unit := do
  await (!(← ask fun s => s.keyHeld (s.pkg * 4096 + n)))
  endSlot n

/-- KDEND (R393): its step 1, and steps 2 to 4 when the work under the domain has drained. -/
def execKdend (f : SForm) (s : State) : Host.Outcome State Fault Refusal :=
  sStep f (do
    let v := (← getX f.rs1.toNat).toNat
    let n := v % 4096
    if (← me).ending.isNone then
      sOnly (.kdend f)
      if v ≥ 2 ^ 16 then illegal (.kdend f)
      let k ← ask (·.keySlot n)
      if n = 0 then setX f.rd.toNat 2
      else if k.state ≠ .live || k.gen.toNat ≠ v / 4096 then setX f.rd.toNat 1
      else
        vectorDone
        modify (·.putSlot n { k with state := .ending })
        modMe fun h => { h with ending := some f }
        finishEnd n
        modMe fun h => { h with ending := none }
        setX f.rd.toNat 0
    else
      finishEnd n
      modMe fun h => { h with ending := none }
      setX f.rd.toNat 0
    return .seq) s

/-! ### The census (R389) -/

/-- The frame a census instruction names: in the pod and covered, or an address fault; its entry, whose data error is the
hart's. -/
def censusFrame (i : Instr) (r : Nat) : Exec Nat := do
  sOnly i
  let v ← getX r
  let s ← get
  need (v.toNat < 2 ^ 52 && s.present (paPkg v.toNat) && s.covered v.toNat) (.trap 0x04 0 v)
  checkCount (← myCtx) v.toNat v.toNat
  return v.toNat

/-- PGREF (R389). -/
def execPgref (f : SForm) (s : State) : Host.Outcome State Fault Refusal :=
  sStep f (do
    let pa ← censusFrame (.pgref f) f.rs1.toNat
    let c ← readCount pa
    if c = 2 ^ 32 - 1 then setX f.rd.toNat (-1)
    else
      writeCount pa (c + 1)
      setX f.rd.toNat (word (c + 1))
    return .seq) s

/-- A free frame taken with a seal (R389): the SEAL, or all ones when COUNT was not 0. -/
def takeFrame (rd pa sl : Nat) : Exec Unit := do
  if (← readCount pa) = 0 then
    writeCount pa 1
    writeSeal pa sl
    setX rd (word sl)
  else setX rd (-1)

/-- PGREF.NEW (R389): a seal from the DRBG. -/
def execPgrefNew (f : SForm) (s : State) : Host.Outcome State Fault Refusal :=
  sStep f (do
    let pa ← censusFrame (.pgrefNew f) f.rs1.toNat
    takeFrame f.rd.toNat pa (Config.drbgSeal (← nextFresh)).toNat
    return .seq) s

/-- PGREF.SEAL (R389): the seal of x(RS2). -/
def execPgrefSeal (f : SForm) (s : State) : Host.Outcome State Fault Refusal :=
  sStep f (do
    let pa ← censusFrame (.pgrefSeal f) f.rs1.toNat
    takeFrame f.rd.toNat pa ((← getX f.rs2.toNat).toNat % 2 ^ 32)
    return .seq) s

/-- PGUNREF (R389). -/
def execPgunref (f : SForm) (s : State) : Host.Outcome State Fault Refusal :=
  sStep f (do
    let pa ← censusFrame (.pgunref f) f.rs1.toNat
    let c ← readCount pa
    if c = 0 then setX f.rd.toNat (-1)
    else
      if c = 1 then checkFreeq (← myCtx) pa (paPkg pa)
      dropCount pa
      setX f.rd.toNat (word (c - 1))
    return .seq) s

/-! ### Invalidation (R398) -/

/-- TLBINV: its operands checked, the vector side and whatever holds the translations done (R379), then the entries go.
`space`: the address spaces it names, of the one in the register; `page`: an address it names in them. -/
def tlbinvBody (i : Instr) (asidReg : Option Nat) (space : Nat → BitVec 16 → Bool) (page : Nat → Bool)
    (p : Nat → TlbEntry → Bool) : Exec Flow := do
  sOnly i
  let v := (← getX (asidReg.getD 0)).toNat
  if v ≥ 2 ^ 16 then illegal i
  vectorDone
  await (!(← ask (·.xlatHeld (space v) fun a va => space v a && page va)))
  tlbDrop (p v)
  return .seq

/-- TLBINV.PAGE (R398). -/
def execTlbinvPage (f : SForm) (s : State) : Host.Outcome State Fault Refusal :=
  sStep f (do
    let va := (← getX f.rs2.toNat).toNat
    tlbinvBody (.tlbinvPage f) (some f.rs1.toNat) (fun v a => a.toNat = v) (fun x => pageOf true x = pageOf true va)
      (fun v t => t.covers v va)) s

/-- TLBINV.ASID (R398). -/
def execTlbinvAsid (f : SForm) (s : State) : Host.Outcome State Fault Refusal :=
  sStep f (tlbinvBody (.tlbinvAsid f) (some f.rs1.toNat) (fun v a => a.toNat = v) (fun _ => true) (fun v t => t.asid.toNat = v)) s

/-- TLBINV.ALL (R398). -/
def execTlbinvAll (f : SForm) (s : State) : Host.Outcome State Fault Refusal :=
  sStep f (tlbinvBody (.tlbinvAll f) none (fun _ _ => true) (fun _ => true) (fun _ _ => true)) s

/-- Entries tagged ASID whose page lies in the region of a level that contains an address (R397): 4 TiB, 512 MiB, 64 KiB. -/
def regionLog (level : Nat) : Nat := match level with | 1 => 42 | 2 => 29 | _ => 16

def TlbEntry.inRegion (t : TlbEntry) (asid level mapva : Nat) : Bool :=
  t.asid.toNat = asid && (level ≠ 3 || !t.big) &&
  t.page * 2 ^ (if t.big then 29 else 16) / 2 ^ regionLog level = mapva % 2 ^ 56 / 2 ^ regionLog level

/-- The place of the entry PTSET changes (R397): checked as a write that never copies. -/
def ptsetPlace (c : Ctx) (va : Nat) : Exec Access := do
  need (va % 8 = 0) (.trap 0x04 1 (word va))
  need (addrOk va 8 && !inScratchRegion va) (.trap 0x04 0 (word va))
  return [(va, 8, ← translate c va .discard 3)]

/-- PTSET (R396, R397). -/
def execPtset (f : SForm) (s : State) : Host.Outcome State Fault Refusal :=
  scalarStep (s.me.guardOn f.g f.gn) (f.rd.toNat :: f.regs) 4 (do
    sOnly (.ptset f)
    let c ← myCtx
    let a := (← getX f.rs1.toNat).toNat
    let b ← load c a 32 32
    let level := bits b (8 * 0x1A + 7) (8 * 0x1A)
    let asid := bits b (8 * 0x18 + 15) (8 * 0x18)
    let mapva := bits b 191 128
    need (1 ≤ level && level ≤ 3 && b / 2 ^ (8 * 0x1B) = 0) (.trap 0x02 0 (word a))
    let acc ← ptsetPlace c (b % 2 ^ 64)
    vectorDone
    let old ← readAccess c true true acc
    if old = (← getX f.rd.toNat).toNat then
      await (!(← ask (·.xlatHeld (fun a => a.toNat = asid) fun a x =>
        a.toNat = asid && x % 2 ^ 56 / 2 ^ regionLog level = mapva % 2 ^ 56 / 2 ^ regionLog level)))
      writeAccess c true false (bits b 127 64) acc
      tlbDrop fun t => t.inRegion asid level mapva
    setX f.rd.toNat (word old)
    return .seq) s

/-! ### Migration (R390) -/

/-- One granule's ciphertext copied between frames: bytes, the domain they are under, and poison (R423); the read finds
DRAM errors as any other (R421). -/
def moveGranule (w : Who) (src dst : Nat) : Exec Unit := do
  let _ ← dramRead w 0 src
  modify fun s =>
    let dom := match Tab.find s.domains src with | some d => Tab.set s.domains dst d | none => Tab.erase s.domains dst
    let p := s.poison.filter (· ≠ dst)
    { s with mem := s.mem.writeN (dst * 32) (s.mem.readN (src * 32) 32) 32, domains := dom,
             poison := if s.poison.contains src then dst :: p else p, dram := Tab.put .none s.dram dst .none }

/-- Step 3 of R390: the leaf takes MIG by compare-and-swap, and its translations go. From here on accesses are held. -/
def beginMove (c : Ctx) (form : SForm) (va dst : Nat) (f : Found) : Exec Bool := do
  let held := setBits f.leaf 5 1 1
  if ← casOwn f.at_ f.leaf held then
    tlbDrop fun t => t.leafPa = f.at_ || t.covers c.h.asid.toNat va
    modMe fun h => { h with move := some ⟨form, va, held, f.at_, leafFrame f.leaf * 2 ^ 16, dst⟩ }
    return true
  else return false

/-- Steps 4 to 8 of R390, once the accesses under the old translation have drained (R379): the result code. -/
def finishMove (w : Who) (m : Move) : Exec Nat := do
  await (!(← ask (·.frameHeld m.src)))
  forAll (List.range 512) fun i => maintLine .cflr (m.src / 128 + i)
  let sl ← ask (·.sealOf m.src)
  let d ← ask fun s => { s.domainAt (s.leafKeySlot false m.leaf m.va) m.src with sealv := sl }
  forAll (List.range 2048) fun i => do
    moveGranule w (m.src / 32 + i) (m.dst / 32 + i)
    copyViews (m.src / 32 + i) (m.dst / 32 + i) d d
  writeCount m.dst 1
  writeSeal m.dst sl
  writeCount m.src 0
  let new := setBits (setBits (setBits m.leaf 16 36 (m.dst / 2 ^ 16)) 6 2 (paPool m.dst)) 5 1 0
  if ← casOwn m.at_ m.leaf new then
    addFree m.src
    return 0
  else
    writeCount m.dst 0
    writeCount m.src 1
    return 3

/-- MIGR's result (R390): the leaf, the counts, then the move, which shows its step 3 to other harts where the plan says so
(log 2). -/
def migrBody (c : Ctx) (form : SForm) (va dst : Nat) : Exec Nat := do
  match c.h.move with
  | some m => finishMove c.who m
  | none =>
    match ← caught (walk c va .read) with
    | .error (.park 0x10 ..) => return 1
    | .error e => throw e
    | .ok f =>
      let s ← get
      let src := leafFrame f.leaf * 2 ^ 16
      if f.big || leafTier f.leaf = 2 || leafBit f.leaf 5 || !s.leafForm false f.leaf va then return 1
      else if !(dst < 2 ^ 52 && s.covered dst && paPkg dst = paPkg src) then return 4
      checkCount c va src
      if (← readCount src) ≠ 1 then return 2
      checkCount c va dst
      if (← readCount dst) ≠ 0 then return 4
      checkFreeq c va (paPkg src)
      if ← beginMove c form va dst f then do
        let s ← get
        if s.plan.hold.contains s.cur then do
          modify fun s => { s with plan := { s.plan with hold := s.plan.hold.filter (· ≠ s.cur) } }
          throw .wait
        match (← me).move with
        | some m => finishMove c.who m
        | none => return 3
      else return 3

/-- MIGR (R390). -/
def execMigr (f : SForm) (s : State) : Host.Outcome State Fault Refusal :=
  sStep f (do
    sOnly (.migr f)
    let va ← getX f.rs1.toNat
    need (canonical va.toNat && !inScratchRegion va.toNat) (.trap 0x04 0 va)
    vectorDone
    let dst := (← getX f.rs2.toNat).toNat / 2 ^ 16 * 2 ^ 16
    let r ← migrBody (← myCtx) f va.toNat dst
    modMe fun h => { h with move := none }
    setX f.rd.toNat (word r)
    return .seq) s

/-! ### Instructions past the point at which the device completes them (R399) -/

/-- The MIGR or KDEND that a hart has past that point, completed: the instruction, and its result. -/
def goOn (w : Who) (h : Hart) : Exec (Option (SForm × Nat)) := do
  match h.move, h.ending with
  | some m, _ => do
    let r ← finishMove w m
    return some (m.form, r)
  | none, some f => do
    finishEnd ((h.getX f.rs1.toNat).toNat % 4096)
    return some (f, 0)
  | none, none => return none

/-- Its result in the hart, whose scalar side moves past it. -/
def Hart.settled (h : Hart) (f : SForm) (r : Nat) : Hart :=
  (({ h with move := none, ending := none } : Hart).setXNow f.rd.toNat (word r)).advance 4

/-! ### Copy-on-write as a move of its own (R387) -/

/-- COPY_ON_WRITE: a hart's write to a copy-on-write page makes the copy and rewrites the leaf; the write itself is replayed
by its instruction. -/
def execCopyOnWrite (hart : Nat) (va : Word) (s : State) : Host.Outcome State Fault Refusal :=
  outcome .scalar (do
    let _ ← caught (do
      let c ← ask (·.ctx hart)
      need (canonical va.toNat && !inScratchRegion va.toNat) .wait
      let f ← findLeaf c va.toNat .write
      checkLeaf c va.toNat .write f
      checkTier va.toNat .write f
      if leafBit f.leaf 4 && !f.big && !leafBit f.leaf 5 then copyOnWrite c va.toNat f)) s

end Sys2Proof.Machine
end

