-- ==== Sys2Proof/Machine/Descriptor.lean ====
section
/-! DEFINITION. Handle descriptors: their 64 bytes, HSET's check, element addresses (R294, R295, R297, R299). -/

namespace Sys2Proof.Machine

open Sys2Proof

/-- The descriptor held in 64 bytes (R294), given as a little-endian number. -/
def Handle.ofBytes (n : Nat) : Handle where
  base := word n
  oldBase := word (n / 2 ^ 64)
  ext0 := BitVec.ofNat 32 (n / 2 ^ 128)
  ext1 := BitVec.ofNat 32 (n / 2 ^ 160)
  ext2 := BitVec.ofNat 32 (n / 2 ^ 192)
  ext3 := BitVec.ofNat 32 (n / 2 ^ 224)
  goff0 := BitVec.ofNat 32 (n / 2 ^ 256)
  goff1 := BitVec.ofNat 32 (n / 2 ^ 288)
  goff2 := BitVec.ofNat 32 (n / 2 ^ 320)
  goff3 := BitVec.ofNat 32 (n / 2 ^ 352)
  pitch1 := BitVec.ofNat 32 (n / 2 ^ 384)
  pitch2 := BitVec.ofNat 32 (n / 2 ^ 416)
  padv := BitVec.ofNat 32 (n / 2 ^ 448)
  tag := BitVec.ofNat 4 (n / 2 ^ 480)
  oldTag := BitVec.ofNat 4 (n / 2 ^ 484)
  fmt := BitVec.ofNat 4 (n / 2 ^ 488)
  rank1 := BitVec.ofNat 2 (n / 2 ^ 492)
  pad := BitVec.ofNat 2 (n / 2 ^ 494)
  impid := BitVec.ofNat 16 (n / 2 ^ 496)

/-- The 64 bytes of a descriptor (R294). -/
def Handle.bytes (h : Handle) : Nat :=
  h.base.toNat + 2 ^ 64 * h.oldBase.toNat + 2 ^ 128 * h.ext0.toNat + 2 ^ 160 * h.ext1.toNat + 2 ^ 192 * h.ext2.toNat +
  2 ^ 224 * h.ext3.toNat + 2 ^ 256 * h.goff0.toNat + 2 ^ 288 * h.goff1.toNat + 2 ^ 320 * h.goff2.toNat +
  2 ^ 352 * h.goff3.toNat + 2 ^ 384 * h.pitch1.toNat + 2 ^ 416 * h.pitch2.toNat + 2 ^ 448 * h.padv.toNat +
  2 ^ 480 * h.tag.toNat + 2 ^ 484 * h.oldTag.toNat + 2 ^ 488 * h.fmt.toNat + 2 ^ 492 * h.rank1.toNat +
  2 ^ 494 * h.pad.toNat + 2 ^ 496 * h.impid.toNat

/-- RANK. -/
def Handle.rank (h : Handle) : Nat := h.rank1.toNat + 1

/-- EXT of dimension d as the rank makes it: 1 at or above RANK (R294). -/
def Handle.ext (h : Handle) (d : Nat) : Nat :=
  if d ≥ h.rank then 1 else (match d with | 0 => h.ext0 | 1 => h.ext1 | 2 => h.ext2 | _ => h.ext3).toNat

/-- GOFF of dimension d: 0 at or above RANK. -/
def Handle.goff (h : Handle) (d : Nat) : Nat :=
  if d ≥ h.rank then 0 else (match d with | 0 => h.goff0 | 1 => h.goff1 | 2 => h.goff2 | _ => h.goff3).toNat

/-- A tag whose layout uses PITCH1, and PITCH2 (R294): ROW and COL both, KVB the first. -/
def tagUses1 (t : Nat) : Bool := t ≤ 1 || t = 5
def tagUses2 (t : Nat) : Bool := t ≤ 1

/-- A power of two from 16 to 1,024. -/
def blockTokensOk (n : Nat) : Bool := [16, 32, 64, 128, 256, 512, 1024].contains n

/-- The reserved EXT, GOFF and PITCH fields are zero, a pitch that a tag of the list uses being no reserved field. -/
def Handle.reservedZero (h : Handle) (tags : List Nat) : Bool :=
  (h.rank > 1 || (h.ext1 = 0 && h.goff1 = 0)) && (h.rank > 2 || (h.ext2 = 0 && h.goff2 = 0)) &&
  (h.rank > 3 || (h.ext3 = 0 && h.goff3 = 0)) &&
  (tags.any tagUses1 || h.pitch1 = 0) && (tags.any tagUses2 || h.pitch2 = 0)

/-- HSET's check of a descriptor (R297). -/
def Handle.ok (h : Handle) : Bool :=
  let busy := h.impid ≠ 0
  h.impid.toNat < 4096 && h.tag.toNat ≤ 5 && h.oldTag.toNat ≤ 5 && h.pad.toNat ≤ 1 && h.fmt.toNat ≠ 15 &&
  (fmtIsBlock h.fmt.toNat == (h.tag = 4)) &&
  h.reservedZero (h.tag.toNat :: if busy then [h.oldTag.toNat] else []) &&
  h.base.toNat % 64 = 0 && (if busy then h.oldBase.toNat % 64 = 0 else h.oldBase = 0 && h.oldTag = 0) &&
  (h.tag ≠ 4 || h.ext0.toNat % 128 = 0) &&
  (h.tag ≠ 5 || (h.rank ≤ 3 && blockTokensOk h.pitch1.toNat))

end Sys2Proof.Machine
end

