-- ==== Sys2Proof/Machine/ScalarMem.lean ====
section
/-! DEFINITION. Scalar memory: loads, stores, atomics, fences, prefetch, cache maintenance, STKFENCE, HSET and HGET
(R267 to R281, R296, R297). -/

namespace Sys2Proof

/-- The sign-extended IMM6 of the M format. -/
def MForm.simm (f : MForm) : Int := f.imm.toInt

/-- RS2 and SZ of AMO and CAS (R273). -/
def MForm.rs2 (f : MForm) : Nat := f.imm.toNat / 2
def MForm.size (f : MForm) : Nat := 4 * (1 + f.imm.toNat % 2)

/-- The registers CAS reads. -/
def MForm.regs3 (f : MForm) : List Nat := [f.rd.toNat, f.rs1.toNat, f.rs2]

end Sys2Proof

namespace Sys2Proof.Machine

open Sys2Proof

/-- An unguarded M-format instruction. -/
def mStep (regs : List Nat) (body : Exec Unit) (s : State) : Host.Outcome State Fault Refusal :=
  scalarStep true regs 4 (do body; return .seq) s

/-- The address of LD and ST (R272). -/
def scalarAddr (base : Word) (imm : Int) (scale : Nat) : Int := (base.toNat : Int) + imm * scale

/-- The alignment ACQ or REL asks for (R268). -/
def ordAlign (ord n : Nat) : Nat := if ord = 0 then 1 else n

/-- A loaded value extended: sign-extended for W 0 to 3, zero-extended for 4 to 6 (R272). -/
def loadExt (w v : Nat) : Word :=
  let n := 2 ^ (w % 4)
  if w < 4 then BitVec.ofInt 64 (Fp.sext v (8 * n)) else word v

/-- LD (R272). -/
def execLd (f : MForm) (s : State) : Host.Outcome State Fault Refusal :=
  mStep f.regs (do
    let n := 2 ^ (f.w.toNat % 4)
    let a := scalarAddr (← getX f.rs1.toNat) f.simm n
    let v ← load (← myCtx) a n (ordAlign f.ord.toNat n)
    narrow a f.scope.toNat
    setX f.rd.toNat (loadExt f.w.toNat v)) s

/-- ST (R272). -/
def execSt (f : MForm) (s : State) : Host.Outcome State Fault Refusal :=
  mStep [f.rd.toNat, f.rs1.toNat] (do
    let n := 2 ^ f.w.toNat
    let a := scalarAddr (← getX f.rs1.toNat) f.simm n
    store (← myCtx) a n (ordAlign f.ord.toNat n) false ((← getX f.rd.toNat).toNat % 2 ^ (8 * n))
    narrow a f.scope.toNat
    atScope f.scope.toNat) s

/-- The operations of AMO on n-byte values (R273). -/
def amoResult (opk n old b : Nat) : Nat :=
  let sgn (v : Nat) := Fp.sext v (8 * n)
  match opk with
  | 0 => b
  | 1 => (old + b) % 2 ^ (8 * n)
  | 2 => old &&& b
  | 3 => old ||| b
  | 4 => if sgn old < sgn b then b else old
  | 5 => if sgn b < sgn old then b else old
  | 6 => max old b
  | _ => min old b

/-- AMO (R273): the operands are read before RD is written. -/
def execAmo (f : MForm) (s : State) : Host.Outcome State Fault Refusal :=
  mStep [f.rs1.toNat, f.rs2] (do
    let n := f.size
    let a : Int := (← getX f.rs1.toNat).toNat
    let b := (← getX f.rs2).toNat % 2 ^ (8 * n)
    let old ← atomic (← myCtx) a n n fun old => some (amoResult f.w.toNat n old b)
    narrow a f.scope.toNat
    atScope f.scope.toNat
    setX f.rd.toNat (BitVec.ofInt 64 (Fp.sext old (8 * n)))) s

/-- CAS (R274): it is checked as a write. -/
def execCas (f : MForm) (s : State) : Host.Outcome State Fault Refusal :=
  mStep f.regs3 (do
    let n := f.size
    let a : Int := (← getX f.rs1.toNat).toNat
    let b := (← getX f.rs2).toNat % 2 ^ (8 * n)
    let expected := (← getX f.rd.toNat).toNat % 2 ^ (8 * n)
    let old ← atomic (← myCtx) a n n fun old => if old = expected then some b else none
    narrow a f.scope.toNat
    atScope f.scope.toNat
    setX f.rd.toNat (BitVec.ofInt 64 (Fp.sext old (8 * n)))) s

/-- The last entry of a queue is marked: a FENCE of kind V→V follows it, at SYSTEM scope or not. -/
def markFence (system : Bool) : List VEntry → List VEntry
  | [] => []
  | [e] => [{ e with fence := true, flush := e.flush || system }]
  | e :: t => e :: markFence system t

/-- FENCE (R240, R276): kinds V→S and ALL wait until every earlier vector instruction has completed. V→V leaves its mark
behind the queued ones: nothing later is performed ahead of it. At SYSTEM scope the stores of tier 1 reach the pool (R233): at
once, or, behind a mark, when what is queued before it has completed. -/
def execFence (f : MForm) (s : State) : Host.Outcome State Fault Refusal :=
  mStep [] (do
    let h ← me
    if f.w.toNat = 1 || f.w.toNat = 3 then vectorDone
    if f.w.toNat = 2 && !h.viq.isEmpty then modMe fun h => { h with viq := markFence (f.scope.toNat = 5) h.viq }
    else atScope f.scope.toNat) s

/-- The line of a prefetch brought into the caches. -/
def fetchLine (c : Ctx) (va : Nat) : Exec Unit := do
  if inScratchRegion va then pure ()
  else match ← translate c va .read 3 with
    | .phys pa d => forAll (lineGranules (pa / 128)) fun g => do
        if !(← ask (·.poison.contains g)) then let _ ← readGranule c.who d true va g fullMask
    | .scratch _ => pure ()

/-- PFETCH (R277): a check that fails, a held page and tier 2 make it do nothing. -/
def execPfetch (f : MForm) (s : State) : Host.Outcome State Fault Refusal :=
  mStep [f.rs1.toNat] (do
    let a := scalarAddr (← getX f.rs1.toNat) f.simm 128
    if addrOk a 1 then
      let _ ← caught (fetchLine (← myCtx) a.toNat)) s

/-! ### Cache maintenance and STKFENCE -/

/-- One page of a maintenance range checked (R279): its physical lines, or none for scratchpad bytes and tier 2. -/
def maintPage (c : Ctx) (k : Kind) (p : Nat × Nat) : Exec (List (Nat × Nat)) := do
  if inWindow p.1 then return []
  else
    let f ← findLeaf c p.1 k
    checkLeaf c p.1 k f
    if leafTier f.leaf = 2 then return []
    else
      tlbFill c p.1 f
      if leafBit f.leaf 5 then
        tlbDrop fun t => t.covers c.h.asid.toNat p.1
        throw .wait
      else
        let pa := leafPa f.big f.leaf p.1
        if (← ask (·.port.lostPkgs)).contains (paPkg pa) then
          throw (.park 0x16 4 (word p.1) 0 (word f.leaf) k.writes false)
        else return [(pa / 128, (pa + p.2 - 1) / 128 + 1 - pa / 128)]

/-- The checks of a maintenance range (R267, R279): one access of n bytes, 16 MiB at most, then page by page. -/
def maintRange (c : Ctx) (k : Kind) (b n : Nat) : Exec (List (Nat × Nat)) := do
  need (addrOk b n && n ≤ 2 ^ 24) (.trap 0x04 0 (word b))
  match outOfBounds c b n with
  | some x => trap 0x05 0 (word x)
  | none => return (← each (cuts b n) (maintPage c k)).flatten

/-- A maintenance operation accepted: the queue of 16 has room (R279). -/
def acceptMaint (mk : MaintKind) (lines : List (Nat × Nat)) : Exec Unit := do
  await ((← me).maint.length < Config.maintDepth)
  modMe fun h =>
    let m : Maint := { id := h.entered, kind := mk, lines := lines, after := h.viq.map (·.seq) }
    { h with maint := h.maint ++ [m], entered := h.entered + 1 }

/-- CLNR, INVR and CFLR: an empty range does nothing (R279). -/
def maintBody (mk : MaintKind) (k : Kind) (f : SForm) : Exec Flow := do
  let b := (← getX f.rs1.toNat).toNat
  let n := (← getX f.rs2.toNat).toNat
  if n ≠ 0 then acceptMaint mk (← maintRange (← myCtx) k b n)
  return .seq

/-- CLNR (R249, R278, R279). -/
def execClnr (f : SForm) (s : State) : Host.Outcome State Fault Refusal :=
  sStep f (maintBody .clnr .read f) s

/-- INVR (R249, R278, R279). -/
def execInvr (f : SForm) (s : State) : Host.Outcome State Fault Refusal :=
  sStep f (maintBody .invr .discard f) s

/-- CFLR (R249, R278, R279). -/
def execCflr (f : SForm) (s : State) : Host.Outcome State Fault Refusal :=
  sStep f (maintBody .cflr .read f) s

/-- A maintenance operation that has taken effect: the hart no longer holds it, nor do its fences wait for it. -/
def Hart.dropMaint (h : Hart) (id : Nat) : Hart :=
  { h with maint := h.maint.filter (·.id ≠ id), fences := h.fences.map fun x => { x with maints := x.maints.filter (· ≠ id) } }

/-- The saved harts of a context, with their gangs (R368). -/
def State.savedAt (s : State) (k : Nat) : List Hart :=
  s.gangs.flatMap fun (_, g) => g.saved.filterMap fun x => if g.core * 8 + x.ctx = k then some x.hart else none

/-- A STKFENCE record that still holds something back. -/
def StkFence.live (f : StkFence) (s : State) (h : Hart) : Bool :=
  !f.maints.isEmpty || s.banks.any (fun b => f.cmds.contains b.id) ||
  (h.viq ++ h.held).any fun e => f.queued.contains e.seq

/-- STKFENCE (R250, R280): its place in both streams is recorded. MASK is IMM10[7:0]; a zero mask has no effect. -/
def execStkfence (f : IForm) (s : State) : Host.Outcome State Fault Refusal :=
  iStep f (do
    let s ← get
    let mask := BitVec.ofNat 8 f.imm.toNat
    if mask ≠ 0 then modMe fun h =>
      let x : StkFence := { id := h.entered, mask := mask, maints := h.maint.map (·.id),
                            cmds := (s.banks.filter fun b => b.hart = s.cur && b.gang = h.gang).map (·.id),
                            queued := ((h.viq ++ h.held).filter fun e => isBankLevel e.instr).map (·.seq) }
      { h with fences := h.fences.filter (·.live s h) ++ [x] }
    return .seq) s

/-! ### Handle registers -/

/-- HSET (R296, R297): a failing check raises the reserved-code trap with the descriptor's address. -/
def execHset (f : MForm) (s : State) : Host.Outcome State Fault Refusal :=
  mStep [f.rs1.toNat] (do
    let a := scalarAddr (← getX f.rs1.toNat) f.simm 64
    let d := Handle.ofBytes (← load (← myCtx) a 64 64)
    need d.ok (.trap 0x02 0 (addrWord a))
    narrow a f.scope.toNat
    modMe fun h => { h with h := Tab.put {} h.h f.rd.toNat d, badh := h.badh.filter (· ≠ f.rd.toNat) }) s

/-- HGET (R296): the register as it stands; a poisoned one is a data error (R424). -/
def execHget (f : MForm) (s : State) : Host.Outcome State Fault Refusal :=
  mStep [f.rs1.toNat] (do
    let h ← me
    need (!h.badh.contains f.rd.toNat) (.park 0x16 3 0 0 0 false false)
    let a := scalarAddr (h.getX f.rs1.toNat) f.simm 64
    store (← myCtx) a 64 64 false (Tab.get ({} : Handle) h.h f.rd.toNat).bytes
    narrow a f.scope.toNat
    atScope f.scope.toNat) s

end Sys2Proof.Machine
end

