-- ==== Sys2Proof/Machine/Sync.lean ====
section
/-! DEFINITION. Harts among harts: fork, join, the barrier, yield, halt, waiting on memory, watermarks, LAUNCH and PREEMPT
(R317, R318, R345, R354 to R363, R370). -/

namespace Sys2Proof.Machine

open Sys2Proof

/-- Illegal inside a handler (R406). -/
def notInHandler (i : Instr) : Exec Unit := do
  if (← me).tstat.inh then illegal i

/-! ### Fork and join -/

/-- The lowest free context of a core. -/
def State.freeContext (s : State) (core : Nat) : Option Nat :=
  (List.range 8).find? fun c => (s.hart (core * 8 + c)).run = .free

/-- The child FORK creates (R354): a copy of the caller with the child's values. -/
def Hart.child (h : Hart) (parent rd : Nat) (target : Word) (seed : BitVec 32) : Hart :=
  let half := h.count.toNat / 2
  ({ run := .running, gang := h.gang, x := h.x, g := h.g, pc := target, h := h.h, badh := h.badh, vcfg := h.vcfg,
     gshift := h.gshift, first := h.first + BitVec.ofNat 5 half, count := BitVec.ofNat 6 half, flags := h.flags,
     nohint := h.nohint, dyn := h.dyn, srseed := seed, tvec := h.tvec, tstat := h.tstat, cg := h.cg, asid := h.asid,
     ptbase := h.ptbase, fqbase := h.fqbase, keydom := h.keydom, member := false, parent := some parent,
     tflags := h.tflags } : Hart).setX rd (word (ctxOf parent))

/-- FORK (R354). -/
def execFork (f : IForm) (s : State) : Host.Outcome State Fault Refusal :=
  iStep f (do
    notInHandler (.fork f)
    let h ← me
    let t ← checkTarget (.fork f) (h.pc.toNat + f.imm.toInt * 4)
    vectorDone
    let s ← get
    match s.freeContext (coreOf s.cur) with
    | none => setX f.rd.toNat (-1)
    | some c =>
      if h.count = 4 then setX f.rd.toNat (-1)
      else
        let s1 := Fp.srStep h.srseed
        let k := coreOf s.cur * 8 + c
        modify fun s => s.putHart k (h.child s.cur f.rd.toNat t (Fp.srStep s1))
        let half := BitVec.ofNat 6 (h.count.toNat / 2)
        setMe { h with count := half, srseed := s1, v := [], m := [], badv := [] }
        setX f.rd.toNat (word c)
        barrierEvent h.gang fun g => { g with next := g.next + 1 }
    return .seq) s

/-- A hart forked by the Yarder, or with children not yet joined, is illegal to JOIN; a forked child to HALT (R357, R361). -/
def endable (i : Instr) (forked : Bool) : Exec Unit := do
  let s ← get
  notInHandler i
  if s.me.parent.isSome != forked || !(s.children s.cur).isEmpty then illegal i

/-- What JOIN and HALT wait for, and their ends of streams and leases (R355, R361). -/
def endJobs : Exec Unit := do
  vectorDone
  let s ← get
  await (s.copiesDone s.cur && s.me.leases.all s.slotQuiet)
  stopStreams s.cur
  returnLeases s.cur

/-- JOIN (R355). -/
def execJoin (f : IForm) (s : State) : Host.Outcome State Fault Refusal :=
  iStep f (do
    endable (.join f) true
    endJobs
    let h ← me
    let v := (h.getX f.rs1.toNat).setWidth 32
    dropTokens (← ask (·.cur))
    setMe { h with run := .joined v, v := [], m := [], badv := [], tokens := [], resv := [] }
    leaveBarrier h.gang h.member
    return .stay) s

/-- A hart is an ancestor of another, within eight generations. -/
def State.isAncestor (s : State) (a : Nat) : Nat → Nat → Bool
  | 0, _ => false
  | n + 1, k => match (s.hart k).parent with
    | some p => p = a || s.isAncestor a n p
    | none => false

/-- The harts of a core that hold lanes of a group. -/
def State.laneHolders (s : State) (core first count : Nat) : List Nat :=
  ((List.range 8).map (core * 8 + ·)).filter fun k =>
    let h := s.hart k
    h.run ≠ .free && first < h.first.toNat + h.count.toNat && h.first.toNat < first + count

/-- JOINL (R356). -/
def execJoinl (f : IForm) (s : State) : Host.Outcome State Fault Refusal :=
  iStep f (do
    notInHandler (.joinl f)
    vectorDone
    let s ← get
    let h := s.me
    let n := h.count.toNat
    let buddy := h.first.toNat + n
    let holders := s.laneHolders (coreOf s.cur) buddy n
    let lanes := holders.foldl (fun a k => a + (s.hart k).count.toNat) 0
    if n = 32 || h.first.toNat % (2 * n) ≠ 0 || lanes ≠ n || !(holders.all fun k => s.isAncestor s.cur 8 k) then
      setX f.rd.toNat (-1)
    else
      match holders with
      | [k] =>
        match (s.hart k).run with
        | .joined v =>
          let c := s.hart k
          clearHart k
          setMe { h with count := BitVec.ofNat 6 (2 * n), v := [], m := [], badv := [], tflags := h.tflags ||| c.tflags,
                         flags := h.flags ||| c.flags,
                         ufcount := word (min (h.ufcount.toNat + c.ufcount.toNat) (2 ^ 64 - 1)) }
          setX f.rd.toNat (v.setWidth 64)
        | _ => throw .wait
      | _ => throw .wait
    return .seq) s

/-! ### The barrier, yield, halt -/

/-- GSYNC (R359): the hart waits; its PC moves on when its phase completes. -/
def execGsync (f : IForm) (s : State) : Host.Outcome State Fault Refusal :=
  iStep f (do
    vectorDone
    let h ← me
    setMe { h with run := .barrier h.member }
    barrierEvent h.gang fun g =>
      if h.member then { g with arrived := g.arrived + 1 } else { g with early := g.early + 1 }
    return .stay) s

/-- The turn of a hart at its core's sequencers given up: a pointer at it moves past it (R352, R360). -/
def State.giveTurn (s : State) (k : Nat) : State :=
  { s with issuePtr := (List.range 8).foldl (fun t u =>
      let j := coreOf k * 8 + u
      if Tab.get 0 t j = ctxOf k then Tab.put 0 t j ((ctxOf k + 1) % 8) else t) s.issuePtr }

/-- YIELD (R360): the turn is given up, and nothing is fetched for n clocks. -/
def execYield (f : IForm) (s : State) : Host.Outcome State Fault Refusal :=
  iStep f (do
    modify fun s => s.giveTurn s.cur
    let t ← ask (·.clock)
    if f.imm ≠ 0 then modMe fun h => { h with run := .yielding (t + f.imm.toNat) }
    return .seq) s

/-- HALT (R361): what the hart waits for is performed at SYSTEM scope (R233), and it leaves its barrier, context and lanes. -/
def execHalt (f : IForm) (s : State) : Host.Outcome State Fault Refusal :=
  iStep f (do
    endable (.halt f) false
    endJobs
    let s ← get
    await (s.banks.all fun b => b.hart ≠ s.cur || b.gang ≠ s.me.gang)
    flushPool
    let h := s.me
    clearHart s.cur
    leaveBarrier h.gang h.member
    if (← ask (·.gangHarts h.gang)).isEmpty then endGang h.gang
    return .stay) s

/-! ### Waiting on memory -/

/-- The line of a checked access: its physical address / 128, or a scratchpad place far above every address. -/
def accessLine (acc : Access) : Nat :=
  match acc with
  | (_, _, .phys pa _) :: _ => pa / 128
  | (_, _, .scratch key) :: _ => (2 ^ 67 + key) / 128
  | [] => 0

/-- WAITA (R362): the word differs, the hart was woken, or it sleeps. -/
def execWaita (f : SForm) (s : State) : Host.Outcome State Fault Refusal :=
  sStep f (do
    let n := 4 * (1 + f.fn.toNat / 8)
    let a : Int := (← getX f.rs1.toNat).toNat
    let c ← myCtx
    let acc ← checkAccess c a n n .read
    let v ← readAccess c true false acc
    narrow a (f.fn.toNat % 8)
    let h ← me
    if h.run = .woken || v ≠ (h.getX f.rs2.toNat).toNat % 2 ^ (8 * n) then
      setMe { h with run := .running }
      setX f.rd.toNat (word v)
      return .seq
    else
      setMe { h with run := .asleep (accessLine acc) ((← ask (·.clock)) + 2 ^ 20) }
      return .stay) s

/-- WMPUB (R255, R317). -/
def execWmpub (f : SForm) (s : State) : Host.Outcome State Fault Refusal :=
  sStep f (do
    vectorDone
    let a : Int := (← getX f.rs1.toNat).toNat
    let v := (← getX f.rs2.toNat).toNat
    let _ ← atomic (← myCtx) a 8 8 fun old => some (max old v)
    narrow a f.fn.toNat
    atScope f.fn.toNat
    return .seq) s

/-- WMWAIT (R255, R318): it reads again until the bound is passed. -/
def wmwaitBody (f : SForm) : Exec Flow := do
  let a : Int := (← getX f.rs1.toNat).toNat
  let v ← load (← myCtx) a 8 8
  narrow a f.fn.toNat
  await ((← getX f.rs2.toNat).toNat ≤ v)
  setX f.rd.toNat (word v)
  return .seq

def execWmwait (f : SForm) (s : State) : Host.Outcome State Fault Refusal := sStep f (wmwaitBody f) s

/-! ### LAUNCH (R345) -/

/-- Records of a ring: 2^NLOG. -/
def ringRecords (qring : Word) : Nat := 2 ^ (qring.toNat % 32)

/-- The physical address of the slot of record t. -/
def slotPa (qring : Word) (t : Nat) : Nat := bits qring.toNat 51 7 * 2 ^ 7 + 128 * (t % ringRecords qring)

/-- A queue changed. -/
def modQueue (q : Nat) (f : Queue → Queue) : Exec Unit := modify fun s =>
  { s with port := { s.port with queues := Tab.put {} s.port.queues q (f (Tab.get {} s.port.queues q)) } }

/-- LAUNCH (R345). -/
def execLaunch (f : SForm) (s : State) : Host.Outcome State Fault Refusal :=
  sStep f (do
    vectorDone
    let h ← me
    let q := (h.getX f.rs2.toNat).toNat % 64
    let rec0 ← load (← myCtx) (h.getX f.rs1.toNat).toNat 128 128
    let x ← ask (fun s => Tab.get ({} : Queue) s.port.queues q)
    need x.devlaunch (.trap 0x07 0 (word q))
    if x.qtail.toNat - x.qhead.toNat ≥ ringRecords x.qring then setX f.rd.toNat (-1)
    else
      let rec1 := if h.isS then rec0
        else setBits (setBits rec0 (8 * 0x24) 16 h.asid.toNat) (8 * 0x28) 64 h.keydom.toNat
      atScope (f.fn.toNat % 8)
      writeOwn (slotPa x.qring x.qtail.toNat) 128 rec1
      modQueue q fun x => { x with qtail := x.qtail + 1 }
      setX f.rd.toNat (word (q + 64 * x.qtail.toNat))
    return .seq) s

/-! ### PREEMPT (R370) -/

/-- The gangs a core holds. -/
def State.gangsOn (s : State) (core : Nat) : List Nat :=
  (s.gangs.filter fun (_, g) => g.core = core && !g.suspended && g ≠ {}).map (·.1)

/-- A request for a core, merged with one under way (R365). -/
def requestPreempt (core : Nat) (spill : Bool) (waiter : List Nat) : Exec Unit := modify fun s =>
  let p := (Tab.find s.preempts core).getD {}
  { s with preempts := Tab.set s.preempts core { p with spill := p.spill || spill, waiters := p.waiters ++ waiter } }

/-- PREEMPT (R370): a waiting one completes when its count has come. -/
def execPreempt (f : SForm) (s : State) : Host.Outcome State Fault Refusal :=
  sStep f (do
    sOnly (.preempt f)
    let h ← me
    match h.answer with
    | some n =>
      setMe { h with answer := none }
      setX f.rd.toNat (word n)
      return .seq
    | none =>
      let s ← get
      let core := (h.getX f.rs1.toNat).toNat
      need (core ≤ 383) (.trap 0x06 0 (h.getX f.rs1.toNat))
      let spill := f.fn.toNat % 2 = 1
      let n := (s.gangsOn core).length
      if n = 0 then
        setX f.rd.toNat 0
        return .seq
      else if core = coreOf s.cur then
        requestPreempt core spill []
        setX f.rd.toNat (word n)
        return .seq
      else
        match Tab.find s.preempts core with
        | some p =>
          match p.halted with
          | some k =>
            setX f.rd.toNat (word k)
            return .seq
          | none =>
            if !p.waiters.contains s.cur then requestPreempt core spill [s.cur]
            return .stay
        | none =>
          requestPreempt core spill [s.cur]
          return .stay) s

end Sys2Proof.Machine
end

