-- ==== Sys2Proof/Machine/VecInt.lean ====
section
/-! DEFINITION. Vector integer arithmetic (R146 to R151). -/

namespace Sys2Proof.Machine

open Sys2Proof

/-- VINT's functions on w-bit encodings (R146). -/
def intOp (fn w a b : Nat) : Nat :=
  let sa := Fp.sext a w
  let sb := Fp.sext b w
  let s := b % w
  match fn with
  | 0 => Fp.wrap w (sa + sb)
  | 1 => Fp.wrap w (sa - sb)
  | 2 => Fp.wrap w (sb - sa)
  | 3 => a &&& b
  | 4 => a ||| b
  | 5 => a ^^^ b
  | 6 => a * 2 ^ s % 2 ^ w
  | 7 => a / 2 ^ s
  | 8 => Fp.wrap w (sa / (2 ^ s : Nat))
  | 9 => Fp.wrap w (min sa sb)
  | 10 => Fp.wrap w (max sa sb)
  | 11 => min a b
  | 12 => max a b
  | 13 => Fp.wrap w ((sa + sb) / 2)
  | _ => (a + b) / 2

/-- VINT (R146). -/
def vintBody (c : VCtx) : Exec Unit := do
  let w := fmtWidth c.f.fmt.toNat
  c.checkEw c.f.fmt.toNat c.regs2
  c.binary w fun a b _ => pure (intOp c.f.fn.toNat w a b)

/-- VMUL's functions with the old element (R147). -/
def mulOp (fn w a b old : Nat) : Nat :=
  let sa := Fp.sext a w
  let sb := Fp.sext b w
  match fn with
  | 0 => Fp.wrap w (sa * sb)
  | 1 => Fp.wrap w (sa * sb / (2 ^ w : Nat))
  | 2 => a * b / 2 ^ w
  | 3 => Fp.wrap w (sa * b / (2 ^ w : Nat))
  | 4 => Fp.wrap w (old + sa * sb)
  | _ => Fp.wrap w (old - sa * sb)

/-- Element-wise instructions whose old destination element is an operand. -/
def VCtx.binaryAcc (c : VCtx) (w : Nat) (op : Nat → Nat → Nat → Fm Nat) : Exec Unit := do
  let a ← c.read c.f.vs1.toNat 1
  let b ← if c.f.xs = 1 then pure 0 else c.read c.f.vs2.toNat 1
  c.elementwise c.f.vd.toNat 1 w ((c.f.vs1.toNat, w) :: (c.f.vd.toNat, w) :: c.secondSrc w)
    fun i old => op (elemAt a i w) (c.second b i w) old

/-- VMUL (R147). -/
def vmulBody (c : VCtx) : Exec Unit := do
  let w := fmtWidth c.f.fmt.toNat
  c.checkEw c.f.fmt.toNat c.regs2
  let run := if c.f.fn.toNat ≥ 4 then c.binaryAcc w else c.binary w
  run fun a b old => pure (mulOp c.f.fn.toNat w a b old)

/-- A number divided by 2^s and rounded to an integer by a mode (R98), stepping SRSEED in mode 5. -/
def roundShiftF (rm : Nat) (i : Int) (s : Nat) : Fm Int := do
  let r ← randomBits rm
  return (Fp.toInt rm r (.num (i < 0) i.natAbs (-(s : Int)) false)).1

/-- VSAT's functions (R148). -/
def satF (fn w rm a b : Nat) : Fm Nat := do
  let sa := Fp.sext a w
  let sb := Fp.sext b w
  let s := b % w
  match fn with
  | 0 => clampF w false (sa + sb)
  | 1 => clampF w false (sa - sb)
  | 2 => clampF w true ((a : Int) + b)
  | 3 => clampF w true ((a : Int) - b)
  | 4 => clampF w false (sa * (2 ^ s : Nat))
  | 5 => clampF w true ((a : Int) * (2 ^ s : Nat))
  | 6 => clampF w false (← roundShiftF rm sa s)
  | 7 => clampF w true (← roundShiftF rm a s)
  | _ => clampF w false (← roundShiftF rm (sa * sb) (w - 1))

/-- VSAT (R148). -/
def vsatBody (c : VCtx) : Exec Unit := do
  let w := fmtWidth c.f.fmt.toNat
  c.checkEw c.f.fmt.toNat c.regs2
  c.binary w fun a b _ => satF c.f.fn.toNat w c.rm a b

/-- VMULW's product by its signs (R149). -/
def wideProduct (kind w a b : Nat) : Int :=
  match kind with
  | 0 => Fp.sext a w * Fp.sext b w
  | 1 => a * b
  | _ => Fp.sext a w * b

/-- VMULW (R149): a destination group of width 2w. -/
def vmulwBody (c : VCtx) : Exec Unit := do
  let w := fmtWidth c.f.fmt.toNat
  let fn := c.f.fn.toNat
  c.checkEw c.f.fmt.toNat (c.regs2.drop 1)
  c.checkGroup c.f.vd.toNat 2
  let a ← c.read c.f.vs1.toNat 1
  let b ← if c.f.xs = 1 then pure 0 else c.read c.f.vs2.toNat 1
  let acc := if fn ≥ 3 then [(c.f.vd.toNat, 2 * w)] else []
  c.elementwise c.f.vd.toNat 2 (2 * w) ((c.f.vs1.toNat, w) :: acc ++ c.secondSrc w) fun i old =>
    pure (Fp.wrap (2 * w) (wideProduct (fn % 3) w (elemAt a i w) (c.second b i w) + if fn ≥ 3 then (old : Int) else 0))

/-- VADDW's sum (R149): FN 4 and 5 take a wide first operand. -/
def wideSum (fn w : Nat) (a b : Nat) : Int :=
  match fn with
  | 0 => Fp.sext a w + Fp.sext b w
  | 1 => a + b
  | 2 => Fp.sext a w - Fp.sext b w
  | 3 => (a : Int) - b
  | 4 => a + Fp.sext b w
  | _ => a + b

/-- VADDW (R149). -/
def vaddwBody (c : VCtx) : Exec Unit := do
  let w := fmtWidth c.f.fmt.toNat
  let fn := c.f.fn.toNat
  c.checkEw c.f.fmt.toNat (c.regs2.drop 2)
  c.checkGroup c.f.vd.toNat 2
  let wa := if fn ≥ 4 then 2 * w else w
  let ga := if fn ≥ 4 then 2 else 1
  c.checkGroup c.f.vs1.toNat ga
  let a ← c.read c.f.vs1.toNat ga
  let b ← if c.f.xs = 1 then pure 0 else c.read c.f.vs2.toNat 1
  c.elementwise c.f.vd.toNat 2 (2 * w) ((c.f.vs1.toNat, wa) :: c.secondSrc w) fun i _ =>
    pure (Fp.wrap (2 * w) (wideSum fn w (elemAt a i wa) (c.second b i w)))

/-- VNARROW's functions of a 2w-bit element (R150). -/
def narrowF (fn w rm a b : Nat) : Fm Nat := do
  let sa := Fp.sext a (2 * w)
  let s := b % (2 * w)
  match fn with
  | 0 => return a % 2 ^ w
  | 1 => clampF w false sa
  | 2 => clampF w true a
  | 3 => clampF w true sa
  | 4 => clampF w false (← roundShiftF rm sa s)
  | _ => clampF w true (← roundShiftF rm a s)

/-- VNARROW (R150): a source group of width 2w. -/
def vnarrowBody (c : VCtx) : Exec Unit := do
  let w := fmtWidth c.f.fmt.toNat
  let two := c.f.fn.toNat ≥ 4
  c.checkEw c.f.fmt.toNat (c.f.vd.toNat :: if two && c.f.xs = 0 then [c.f.vs2.toNat] else [])
  c.checkGroup c.f.vs1.toNat 2
  let a ← c.read c.f.vs1.toNat 2
  let b ← if two && c.f.xs = 0 then c.read c.f.vs2.toNat 1 else pure 0
  c.elementwise c.f.vd.toNat 1 w ((c.f.vs1.toNat, 2 * w) :: if two then c.secondSrc w else []) fun i _ =>
    narrowF c.f.fn.toNat w c.rm (elemAt a i (2 * w)) (c.second b i w)

/-- VABSD's functions (R151). -/
def absdOp (fn w a b old : Nat) : Nat :=
  let d (x y : Int) : Nat := (x - y).natAbs
  match fn with
  | 0 => d (Fp.sext a w) (Fp.sext b w)
  | 1 => d a b
  | 2 => (old + d (Fp.sext a w) (Fp.sext b w)) % 2 ^ w
  | 3 => (old + d a b) % 2 ^ w
  | _ => (Fp.sext a w).natAbs % 2 ^ w

/-- VABSD (R151). -/
def vabsdBody (c : VCtx) : Exec Unit := do
  let w := fmtWidth c.f.fmt.toNat
  let fn := c.f.fn.toNat
  let one := fn = 4
  c.checkEw c.f.fmt.toNat (if one then c.regs2.take 2 else c.regs2)
  let a ← c.read c.f.vs1.toNat 1
  let b ← if one || c.f.xs = 1 then pure 0 else c.read c.f.vs2.toNat 1
  let acc := if fn = 2 || fn = 3 then [(c.f.vd.toNat, w)] else []
  c.elementwise c.f.vd.toNat 1 w ((c.f.vs1.toNat, w) :: acc ++ if one then [] else c.secondSrc w) fun i old =>
    pure (absdOp fn w (elemAt a i w) (c.second b i w) old)

/-- Bytes of an element reversed. -/
def byteSwap : Nat → Nat → Nat
  | 0, _ => 0
  | n + 1, a => a % 256 * 256 ^ n + byteSwap n (a / 256)

/-- VBITC's functions (R151). -/
def vbitcOp (fn w a : Nat) : Nat :=
  match fn with
  | 0 => leadingZeros w a
  | 1 => trailingZeros a w 0
  | 2 => onesCount a w
  | 3 => reverseBits a w
  | _ => byteSwap (w / 8) a

/-- One-operand element-wise of one width. -/
def VCtx.unary (c : VCtx) (w : Nat) (op : Nat → Fm Nat) : Exec Unit := do
  let a ← c.read c.f.vs1.toNat 1
  c.elementwise c.f.vd.toNat 1 w [(c.f.vs1.toNat, w)] fun i _ => op (elemAt a i w)

/-- VBITC (R151). -/
def vbitcBody (c : VCtx) : Exec Unit := do
  let w := fmtWidth c.f.fmt.toNat
  c.checkEw c.f.fmt.toNat (c.regs2.take 2)
  c.unary w fun a => pure (vbitcOp c.f.fn.toNat w a)

/-- VINT (R146). -/
def execVint (f : VForm) (s : State) : Host.Outcome State Fault Refusal := plainStep (.vint f) f vintBody s
/-- VMUL (R147). -/
def execVmul (f : VForm) (s : State) : Host.Outcome State Fault Refusal := plainStep (.vmul f) f vmulBody s
/-- VSAT (R148). -/
def execVsat (f : VForm) (s : State) : Host.Outcome State Fault Refusal := plainStep (.vsat f) f vsatBody s
/-- VMULW (R149). -/
def execVmulw (f : VForm) (s : State) : Host.Outcome State Fault Refusal := plainStep (.vmulw f) f vmulwBody s
/-- VADDW (R149). -/
def execVaddw (f : VForm) (s : State) : Host.Outcome State Fault Refusal := plainStep (.vaddw f) f vaddwBody s
/-- VNARROW (R150). -/
def execVnarrow (f : VForm) (s : State) : Host.Outcome State Fault Refusal := plainStep (.vnarrow f) f vnarrowBody s
/-- VABSD (R151). -/
def execVabsd (f : VForm) (s : State) : Host.Outcome State Fault Refusal := plainStep (.vabsd f) f vabsdBody s
/-- VBITC (R151). -/
def execVbitc (f : VForm) (s : State) : Host.Outcome State Fault Refusal := plainStep (.vbitc f) f vbitcBody s

end Sys2Proof.Machine
end

