-- ==== Sys2Proof/Machine/VecFp.lean ====
section
/-! DEFINITION. Vector floating point (R152, R153). -/

namespace Sys2Proof.Machine

open Sys2Proof

/-- VFALU's functions on encodings (R152). -/
def vfaluF (fn fmt rm a b : Nat) : Fm Nat :=
  let x := Fp.decode fmt a
  let y := Fp.decode fmt b
  match fn with
  | 0 => roundF fmt rm (Fp.add rm x y)
  | 1 => roundF fmt rm (Fp.sub rm x y)
  | 2 => roundF fmt rm (Fp.mul x y)
  | 3 => roundF fmt rm (Fp.sub rm y x)
  | 4 => exactF (Fp.minMax false fmt a b)
  | 5 => exactF (Fp.minMax true fmt a b)
  | 6 => exactF (Fp.withSign fmt a (Fp.signOf fmt b))
  | 7 => exactF (Fp.withSign fmt a (!Fp.signOf fmt b))
  | _ => exactF (Fp.withSign fmt a (Fp.signOf fmt a != Fp.signOf fmt b))

/-- VFALU (R152). -/
def vfaluBody (c : VCtx) : Exec Unit := do
  let fmt := c.f.fmt.toNat
  c.checkEw fmt c.regs2
  c.binary (fmtWidth fmt) fun a b _ => vfaluF c.f.fn.toNat fmt c.rm a b

/-- The wide format of fmaddw (R152). -/
def wideFmt (fmt : Nat) : Nat := if fmt = 8 then 9 else 8

/-- VFMA (R152): product and addend signs as the scalar forms, or the widening form into a group. -/
def vfmaBody (c : VCtx) : Exec Unit := do
  let fmt := c.f.fmt.toNat
  let w := fmtWidth fmt
  let fn := c.f.fn.toNat
  if fn = 4 then
    c.checkEw fmt (c.regs2.drop 1)
    c.checkGroup c.f.vd.toNat 2
    let a ← c.read c.f.vs1.toNat 1
    let b ← if c.f.xs = 1 then pure 0 else c.read c.f.vs2.toNat 1
    c.elementwise c.f.vd.toNat 2 (2 * w) ((c.f.vs1.toNat, w) :: (c.f.vd.toNat, 2 * w) :: c.secondSrc w) fun i old =>
      roundF (wideFmt fmt) c.rm (Fp.fma c.rm false false (Fp.decode fmt (elemAt a i w)) (Fp.decode fmt (c.second b i w))
        (Fp.decode (wideFmt fmt) old))
  else
    c.checkEw fmt c.regs2
    c.binaryAcc w fun a b old =>
      roundF fmt c.rm (Fp.fma c.rm (fn = 2 || fn = 3) (fn = 1 || fn = 2) (Fp.decode fmt a) (Fp.decode fmt b)
        (Fp.decode fmt old))

/-- One, exactly. -/
def oneVal : Fp.Val := .num false 1 0 false

/-- VFDIV (R152). -/
def vfdivBody (c : VCtx) : Exec Unit := do
  let fmt := c.f.fmt.toNat
  let w := fmtWidth fmt
  if c.f.fn.toNat = 2 then
    c.checkEw fmt (c.regs2.take 2)
    c.unary w fun a => roundF fmt c.rm (Fp.div oneVal (Fp.decode fmt a))
  else
    c.checkEw fmt c.regs2
    c.binary w fun a b _ =>
      let x := Fp.decode fmt a
      let y := Fp.decode fmt b
      roundF fmt c.rm (if c.f.fn.toNat = 0 then Fp.div x y else Fp.div y x)

/-- VFSQRT (R152). -/
def vfsqrtBody (c : VCtx) : Exec Unit := do
  let fmt := c.f.fmt.toNat
  c.checkEw fmt (c.regs2.take 2)
  c.unary (fmtWidth fmt) fun a =>
    let x := Fp.decode fmt a
    roundF fmt c.rm (if c.f.fn.toNat = 0 then Fp.sqrt x else Fp.rsqrt x)

/-- 2^(a − b), the difference exact (R152). -/
def exp2sub (rm : Nat) (a b : Fp.Val) : Fp.Val × Nat :=
  let (d, f) := Fp.sub rm a b
  let (r, g) := Fp.exp2 d
  (r, f ||| g)

/-- VFEXP2 (R152). -/
def vfexp2Body (c : VCtx) : Exec Unit := do
  let fmt := c.f.fmt.toNat
  let w := fmtWidth fmt
  if c.f.fn.toNat = 0 then
    c.checkEw fmt (c.regs2.take 2)
    c.unary w fun a => roundF fmt c.rm (Fp.exp2 (Fp.decode fmt a))
  else
    c.checkEw fmt c.regs2
    c.binary w fun a b _ => roundF fmt c.rm (exp2sub c.rm (Fp.decode fmt a) (Fp.decode fmt b))

/-- VFCLASS (R153). -/
def vfclassBody (c : VCtx) : Exec Unit := do
  let fmt := c.f.fmt.toNat
  c.checkEw fmt (c.regs2.take 2)
  c.unary (fmtWidth fmt) fun a => pure (Fp.classOf fmt a)

/-- VFALU (R152). -/
def execVfalu (f : VForm) (s : State) : Host.Outcome State Fault Refusal := plainStep (.vfalu f) f vfaluBody s
/-- VFMA (R152). -/
def execVfma (f : VForm) (s : State) : Host.Outcome State Fault Refusal := plainStep (.vfma f) f vfmaBody s
/-- VFDIV (R152). -/
def execVfdiv (f : VForm) (s : State) : Host.Outcome State Fault Refusal := plainStep (.vfdiv f) f vfdivBody s
/-- VFSQRT (R152). -/
def execVfsqrt (f : VForm) (s : State) : Host.Outcome State Fault Refusal := plainStep (.vfsqrt f) f vfsqrtBody s
/-- VFEXP2 (R152). -/
def execVfexp2 (f : VForm) (s : State) : Host.Outcome State Fault Refusal := plainStep (.vfexp2 f) f vfexp2Body s
/-- VFCLASS (R153). -/
def execVfclass (f : VForm) (s : State) : Host.Outcome State Fault Refusal := plainStep (.vfclass f) f vfclassBody s

end Sys2Proof.Machine
end

