-- ==== Sys2Proof/Machine/VecMask.lean ====
section
/-! DEFINITION. Compares, masks and selection (R154 to R157). -/

namespace Sys2Proof.Machine

open Sys2Proof

/-- VCMP's conditions on encodings (R154), with the flags of a floating comparison. -/
def vcmpF (fn fmt a b : Nat) : Fm Bool :=
  if fmtIsInt fmt then
    let w := fmtWidth fmt
    let x := Fp.sext a w
    let y := Fp.sext b w
    pure (match fn with
      | 0 => a = b
      | 1 => a ≠ b
      | 2 => x < y
      | 3 => x ≤ y
      | 4 => y < x
      | 5 => y ≤ x
      | 6 => a < b
      | 7 => a ≤ b
      | 8 => b < a
      | _ => b ≤ a)
  else do
    let x := Fp.decode fmt a
    let y := Fp.decode fmt b
    let nan := x.isNan || y.isNan
    raise (if nan && (x.isSig || y.isSig || (2 ≤ fn && fn ≤ 5)) then Fp.NV else 0)
    return match fn with
      | 0 => !nan && x.eq y
      | 1 => nan || !x.eq y
      | 2 => !nan && x.lt y
      | 3 => !nan && (x.lt y || x.eq y)
      | 4 => !nan && y.lt x
      | 5 => !nan && (y.lt x || x.eq y)
      | _ => nan

/-- A mask register written (R20). -/
def setMask (r v : Nat) : Exec Unit := modMe (·.setM r v)

/-- VCMP (R154). -/
def vcmpBody (c : VCtx) : Exec Unit := do
  let fmt := c.f.fmt.toNat
  let w := fmtWidth fmt
  c.checkEw fmt (c.regs2.drop 1)
  let a ← c.read c.f.vs1.toNat 1
  let b ← if c.f.xs = 1 then pure 0 else c.read c.f.vs2.toNat 1
  let bad ← c.firstPoison (sameIndex ((c.f.vs1.toNat, w) :: c.secondSrc w)) c.actives
  let h ← me
  let l := runElems 1 (fun i _ => do return if ← vcmpF c.f.fn.toNat fmt (elemAt a i w) (c.second b i w) then 1 else 0)
    (before c.actives bad) { dst := h.getM c.f.vd.toNat, fs := h.fstate, done := [], stop := none }
  setMask c.f.vd.toNat l.dst
  endRun l bad

/-- The lowest and the highest set bit below n. -/
def lowestBit (m n : Nat) : Option Nat := (List.range n).find? (bitAt m)
def highestBit (m n : Nat) : Option Nat := (List.range n).reverse.find? (bitAt m)

/-- Bit i of VMLOG's result (R155). -/
def vmlogBit (fn vl a b i : Nat) : Bool :=
  let p := bitAt a i
  let q := bitAt b i
  let f := (lowestBit a vl).getD vl
  match fn with
  | 0 => p && q
  | 1 => p || q
  | 2 => p != q
  | 3 => p && !q
  | 4 => p || !q
  | 5 => p == q
  | 6 => !(p && q)
  | 7 => !(p || q)
  | 8 => true
  | 9 => false
  | 10 => i < f
  | 11 => i ≤ f
  | 12 => i = f
  | 13 => match highestBit a vl with | some h => h < i | none => true
  | _ => match highestBit a vl with | some h => f ≤ i && i ≤ h | none => false

/-- The mask with bits 0 to n − 1 set by a function. -/
def maskOf (p : Nat → Bool) (old : Nat) : Nat → Nat
  | 0 => old
  | n + 1 => elemSet (maskOf p old n) n 1 (if p n then 1 else 0)

/-- VMLOG (R155). -/
def vmlogBody (c : VCtx) : Exec Unit := do
  c.needStart0
  let h ← me
  let a := h.getM c.f.vs1.toNat
  let b := h.getM c.f.vs2.toNat
  setMask c.f.vd.toNat (maskOf (vmlogBit c.f.fn.toNat c.vl a b) (h.getM c.f.vd.toNat) c.vl)

/-- VMPOP (R156). -/
def vmpopBody (c : VCtx) : Exec Unit := do
  c.needStart0
  let h ← me
  let m := h.getM c.f.vs1.toNat &&& c.mask
  c.putX (match c.f.fn.toNat with
    | 0 => word (onesCount m c.vl)
    | 1 => match lowestBit m c.vl with | some i => word i | none => -1
    | _ => match highestBit m c.vl with | some i => word i | none => -1)

/-- VSEL (R157): VM is a selector, so every element from VSTART is active. -/
def vselBody (c : VCtx) : Exec Unit := do
  let w := fmtWidth c.f.fmt.toNat
  c.checkEw c.f.fmt.toNat c.regs2
  let a ← c.read c.f.vs1.toNat 1
  let b ← if c.f.xs = 1 then pure 0 else c.read c.f.vs2.toNat 1
  c.over c.range c.f.vd.toNat 1 w
    (fun i => if bitAt c.mask i then [(c.f.vs1.toNat, w, i)] else sameIndex (c.secondSrc w) i)
    fun i _ => pure (if bitAt c.mask i then elemAt a i w else c.second b i w)

/-- VCMP (R154). -/
def execVcmp (f : VForm) (s : State) : Host.Outcome State Fault Refusal := plainStep (.vcmp f) f vcmpBody s
/-- VMLOG (R155). -/
def execVmlog (f : VForm) (s : State) : Host.Outcome State Fault Refusal := plainStep (.vmlog f) f vmlogBody s
/-- VMPOP (R156). -/
def execVmpop (f : VForm) (s : State) : Host.Outcome State Fault Refusal := plainStep (.vmpop f) f vmpopBody s
/-- VSEL (R157). -/
def execVsel (f : VForm) (s : State) : Host.Outcome State Fault Refusal := plainStep (.vsel f) f vselBody s

end Sys2Proof.Machine
end

