-- ==== Sys2Proof/Machine/Records.lean ====
section
/-! DEFINITION. Block records in vector registers: the walk that finds them, header checks, whole-record masks, and the
conversions and header instructions that use them (R91 to R97, R103, R158 to R160). -/

namespace Sys2Proof.Machine

open Sys2Proof

/-- A record located in a register (R94): its number, its first element, its elements, its place, size and header. -/
structure Rec where
  k     : Nat
  first : Nat
  b     : Nat
  off   : Nat
  size  : Nat
  hdr   : Nat
  deriving DecidableEq, Repr

/-- n bytes of a register from a byte offset. -/
def bytesAt (reg off n : Nat) : Nat := reg / 2 ^ (8 * off) % 2 ^ (8 * n)

/-- The records of a register that cover elements 0 to vl − 1 (R94), and the record at which the walk ended early: its
number and first element (R97). `fuel` bounds the records. -/
def walkRecs (fmt bytes vl reg : Nat) : Nat → Nat → Nat → Nat → List Rec × Option (Nat × Nat)
  | 0, _, _, _ => ([], none)
  | fuel + 1, k, first, off =>
    if vl ≤ first then ([], none)
    else
      let hdr := bytesAt reg off 4
      let b := Fp.blockSize (Fp.hdrBsize hdr)
      let size := Fp.recBytes fmt b
      if bytes < off + 4 || Fp.hdrBsize hdr = 3 || bytes < off + size then ([], some (k, first))
      else
        let r := walkRecs fmt bytes vl reg fuel (k + 1) (first + b) (off + size)
        ({ k := k, first := first, b := b, off := off, size := size, hdr := hdr } :: r.1, r.2)

/-- The walk of one register for a vector length. -/
def walkReg (fmt bytes vl reg : Nat) : List Rec × Option (Nat × Nat) := walkRecs fmt bytes vl reg (vl / 32 + 1) 0 0 0

/-- The reserved-code trap (R97): VSTART at the record's first element, TVAL its number. -/
def reservedTrap {α : Type} (k first : Nat) : Exec α := do
  setVstart first
  trap 0x02 0 (word k)

/-- The elements of a record below VL. -/
def VCtx.elsOf (c : VCtx) (first b : Nat) : List Nat := (List.range (min b (c.vl - first))).map (· + first)

/-- How the governing mask lies over a record's elements below VL (R95). -/
inductive Cover where
  | on | off | split
  deriving DecidableEq, Repr

def VCtx.cover (c : VCtx) (first b : Nat) : Cover :=
  let els := c.elsOf first b
  if els.all (bitAt c.mask) then .on else if els.any (bitAt c.mask) then .split else .off

/-- Whether a record's elements are on; a mask that splits it traps (R95, R97). -/
def VCtx.recordOn (c : VCtx) (k first b : Nat) : Exec Bool := do
  match c.cover first b with
  | .on => return true
  | .off => return false
  | .split => reservedTrap k first

/-- Poisoned words in bytes of a near register: the data error of reading them at an element (R424). -/
def checkBytes (r off n el : Nat) : Exec Unit := do
  if (← me).badv.any (fun (reg, wd) => reg = r && wd * 8 < off + n && off < wd * 8 + 8) then
    setVstart el
    throw (.park 0x16 3 0 0 0 false false)

/-- Bytes of a near register written; words written whole lose their poison. -/
def putBytes (bytes r off n v : Nat) : Exec Unit := modMe fun h =>
  { h with v := Tab.put 0 h.v r (setBits (Tab.get 0 h.v r % 2 ^ (8 * bytes)) (8 * off) (8 * n) v)
           badv := h.badv.filter fun (reg, wd) => !(reg = r && off ≤ wd * 8 && wd * 8 + 8 ≤ off + n) }

/-- The items of a list before the one at which a pre-emption halts the instruction, given the first element of each; VSTART
stands there then, and the answer says so (R144, R367). -/
def VCtx.haltBefore {α : Type} (c : VCtx) (first : α → Nat) (l : List α) : Exec (List α × Bool) := do
  match l.find? fun r => c.e.until_.any (· ≤ first r) with
  | none => return (l, false)
  | some r => do
    setVstart (first r)
    return (l.takeWhile fun q => first q < first r, true)

/-- The records of an operand from VSTART in order, each given to a function, then the trap of the record where the walk
ended early (R97). Records wholly below VSTART are only walked over; none at all when VSTART ≥ VL. -/
def VCtx.records (c : VCtx) (fmt reg : Nat) (f : Rec → Exec Unit) : Exec Unit := do
  if c.start < c.vl then
    let w := walkReg fmt c.bytes c.vl reg
    let (l, halted) ← c.haltBefore (·.first) (w.1.filter fun r => c.start < r.first + r.b)
    forAll l f
    match w.2 with
    | some (k, first) =>
      if halted then pure ()
      else if c.e.until_.any (· ≤ first) then setVstart first
      else reservedTrap k first
    | none => pure ()

/-! ### VCVT (R158) -/

/-- The element conversion of VCVT between FMT 0 to 9: integer signs US and UD, NOSAT and ISAT. -/
def cvtF (d s rm : Nat) (us ud nosat isat : Bool) (a : Nat) : Fm Nat := do
  let i : Int := if us then a else Fp.sext a (fmtWidth s)
  if fmtIsInt s && fmtIsInt d then
    if isat && fmtWidth d < fmtWidth s then clampF (fmtWidth d) ud i else return Fp.wrap (fmtWidth d) i
  else if fmtIsInt s then convertF d rm false nosat (Fp.ofInt i)
  else if s = d then
    match Fp.decode s a with
    | .nan sg => exactF ((Fp.spec s).nan, if sg then Fp.NV else 0)
    | _ => return a
  else convertF d rm ud nosat (Fp.decode s a)

/-- VCVT's bits US, UD, NOSAT, ISAT. -/
def cvtBit (f : VForm) (i : Nat) : Bool := f.vs3.getLsbD i

/-- One record of a block source converted (R158): checked whole, then its active elements in order. An enabled condition
stops it with VSTART at its element (R106), where R144 names the record's first element (log 21). -/
def VCtx.cvtRecord (c : VCtx) (d s reg rd gd : Nat) (r : Rec) : Exec Unit := do
  checkBytes c.f.vs1.toNat r.off 4 r.first
  if !Fp.hdrOk s r.hdr then reservedTrap r.k r.first
  if ← c.recordOn r.k r.first r.b then
    checkBytes c.f.vs1.toNat r.off r.size r.first
    let rec_ := bytesAt reg r.off r.size
    c.over ((c.elsOf r.first r.b).filter (c.start ≤ ·)) rd gd (fmtWidth d) (fun _ => []) fun i _ =>
      convertF d c.rm (cvtBit c.f 1) (cvtBit c.f 2) (Fp.codeValue s r.hdr (Fp.codeAt s rec_ (i - r.first)))

/-- VCVT (R158). -/
def vcvtBody (c : VCtx) : Exec Unit := do
  let d := c.f.fmt.toNat
  let s := c.f.fn.toNat
  let ref := Wf.vcvtRef d s
  let n := c.refN ref
  let gd := c.group n (fmtWidth d)
  c.checkVl ref
  c.checkGroup c.f.vd.toNat gd
  if fmtIsBlock s then
    c.checkGroup c.f.vs1.toNat 1
    let reg ← c.read c.f.vs1.toNat 1
    c.records s reg (c.cvtRecord d s reg c.f.vd.toNat gd)
  else
    let gs := c.group n (fmtWidth s)
    c.checkGroup c.f.vs1.toNat gs
    let a ← c.read c.f.vs1.toNat gs
    c.elementwise c.f.vd.toNat gd (fmtWidth d) [(c.f.vs1.toNat, fmtWidth s)] fun i _ =>
      cvtF d s c.rm (cvtBit c.f 0) (cvtBit c.f 1) (cvtBit c.f 2) (cvtBit c.f 3)
        (elemAt a i (fmtWidth s))

/-! ### VQUANT (R159) -/

/-- M of a format (R159): the code magnitude the scale maps the largest element to. -/
def quantM : Nat → Fp.Val
  | 10 => .num false 7 0 false
  | 11 => .num false 127 0 false
  | 12 => .num false 28 0 false
  | 13 => .num false 15 (-1) false
  | _ => .num false 6 0 false

/-- The larger and the smaller of two finite values. -/
def maxVal (a b : Fp.Val) : Fp.Val := if a.lt b then b else a
def minVal (a b : Fp.Val) : Fp.Val := if b.lt a then b else a

/-- The magnitude of a value. -/
def absVal : Fp.Val → Fp.Val
  | .num _ m e j => .num false m e j
  | v => v

def zeroVal : Fp.Val := .num false 0 0 false

/-- The lowest code of BQ4 or BQ8, and the span of the codes. -/
def qminOf (fmt : Nat) : Int := if fmt = 10 then -8 else -128
def spanOf (fmt : Nat) : Nat := if fmt = 10 then 15 else 255

/-- SCALE and ZP chosen for the elements of a record without a NaN (R159): the scale's encoding and z. `free` is z when no
finite element is non-zero (log 15). -/
def chooseScale (fmt sfmt : Nat) (asym : Bool) (free : Nat) (xs : List Fp.Val) : Nat × Int :=
  let fin := xs.filter fun v => !v.isInf
  let top := fin.foldl (fun a v => maxVal a (absVal v)) zeroVal
  let lo := fin.foldl minVal zeroVal
  let hi := fin.foldl maxVal zeroVal
  let up (n d : Fp.Val) : Nat := (Fp.roundBits sfmt 3 0 (Fp.div n d).1).1
  let s := if asym then up (Fp.sub 0 hi lo).1 (Fp.ofInt (spanOf fmt)) else up top (quantM fmt)
  let sv := Fp.decode sfmt s
  let z : Int :=
    if !asym then 0
    else if sv.isZero then qminOf fmt + (free % (spanOf fmt + 1) : Nat)
    else max (-128) (min 127 (qminOf fmt + (Fp.toInt 0 0 (Fp.div (absVal lo) sv).1).1))
  let s' := if sv.isZero then (Fp.roundBits sfmt 0 0 oneVal).1 else if sv.isInf then (Fp.spec sfmt).maxCode else s
  (s', z)

/-- A code of an element under a scale (R103): int block elements add z after rounding. -/
def quantF (fmt rm : Nat) (s : Fp.Val) (z : Int) (x : Fp.Val) : Fm Nat := do
  let r ← randomBits rm
  let v := (Fp.div x s).1
  if fmt ≤ 11 then
    let w := Fp.elemBits fmt
    match v with
    | .inf n => exactF ((clampInt w false (if n then qminOf fmt else spanOf fmt)).1, Fp.SAT)
    | _ =>
      let (k, inexact) := Fp.toInt rm r v
      let (q, cl) := clampInt w false (k + z)
      exactF (q, if cl then Fp.SAT + Fp.NX else if inexact then Fp.NX else 0)
  else exactF (Fp.roundElem fmt rm r v)

/-- The codes of a record's elements in order. -/
def quantAll (fmt rm : Nat) (s : Fp.Val) (z : Int) : List Fp.Val → Fm (List Nat)
  | [] => pure []
  | x :: t => do
    let q ← quantF fmt rm s z x
    return q :: (← quantAll fmt rm s z t)

/-- A header word (R91). -/
def headerOf (scale : Nat) (z : Int) (bsize sfmt : Nat) : Nat :=
  scale + 2 ^ 16 * Fp.wrap 8 z + 2 ^ 24 * bsize + 2 ^ 26 * sfmt

/-- A record from its header, the codes of its elements below VL, and the code of the others (R95). -/
def buildRecord (fmt hdr b tail : Nat) (codes : List Nat) : Nat :=
  hdr + 2 ^ 32 * ((codes ++ List.replicate (b - codes.length) tail).foldr (fun q acc => q + 2 ^ Fp.elemBits fmt * acc) 0)

/-- A record quantised (R159). -/
def quantRecord (fmt sfmt bsize rm : Nat) (asym : Bool) (free : Nat) (xs : List Fp.Val) : Fm Nat := do
  let b := Fp.blockSize bsize
  let sf := if sfmt = 1 then 6 else 7
  if xs.any Fp.Val.isNan then
    raise Fp.NV
    return buildRecord fmt (headerOf (Fp.spec sf).nan 0 bsize sfmt) b 0 []
  else
    let (s, z) := chooseScale fmt sf asym free xs
    let codes ← quantAll fmt rm (Fp.decode sf s) z xs
    return buildRecord fmt (headerOf s z bsize sfmt) b (if fmt ≤ 11 then Fp.wrap (Fp.elemBits fmt) z else 0) codes

/-- VQUANT (R159), record by record. -/
def vquantBody (c : VCtx) : Exec Unit := do
  let fmt := c.f.fmt.toNat
  let src := Wf.vquantSrc c.f
  let w := fmtWidth src
  let gs := c.group (c.refN fmt) w
  let bsize := c.f.vs3.toNat % 4
  let b := Fp.blockSize bsize
  let size := Fp.recBytes fmt b
  c.checkVl fmt
  c.checkGroup c.f.vd.toNat 1
  c.checkGroup c.f.vs1.toNat gs
  let a ← c.read c.f.vs1.toNat gs
  if c.start < c.vl then
    let (l, _) ← c.haltBefore (· * b) ((List.range ((c.vl + b - 1) / b)).filter fun k => c.start < (k + 1) * b)
    forAll l fun k => do
      if c.bytes < (k + 1) * size then reservedTrap k (k * b)
      if ← c.recordOn k (k * b) b then
        let els := c.elsOf (k * b) b
        match ← c.firstPoison (sameIndex [(c.f.vs1.toNat, w)]) els with
        | some (_, cl) => do
          setVstart (k * b)
          throw (.park 0x16 cl 0 0 0 false false)
        | none => pure ()
        let free ← nextFresh
        let h ← me
        let (v, fs) := quantRecord fmt (c.f.fn.toNat / 4 % 2) bsize c.rm (8 ≤ c.f.fn.toNat) (Config.free free)
          (els.map fun i => Fp.decode src (elemAt a i w)) h.fstate
        match fs.hit with
        | some d => do
          setVstart (k * b)
          trap 0x03 d 0
        | none => do
          setMe (h.withF fs)
          putBytes c.bytes c.f.vd.toNat (k * size) size v

/-! ### VBLKHDR (R160) -/

/-- VBLKHDR get: headers into an INT32 group; restarted, so a record that cannot be located traps with VSTART = 0. -/
def VCtx.getHeaders (c : VCtx) (fmt : Nat) : Exec Unit := do
  c.needStart0
  let g := c.group (c.refN fmt) 32
  c.checkGroup c.f.vd.toNat g
  let reg ← c.read c.f.vs1.toNat 1
  let w := walkReg fmt c.bytes c.vl reg
  forAll w.1 fun r => checkBytes c.f.vs1.toNat r.off 4 0
  match w.2 with
  | some (k, _) => reservedTrap k 0
  | none =>
    let old ← c.read c.f.vd.toNat g
    c.write c.f.vd.toNat g (w.1.foldl (fun v r => elemSet v r.k 32 r.hdr) old) 32 (w.1.map (·.k))

/-- VBLKHDR set: each selected record's header replaced, its BSIZE kept. -/
def VCtx.setHeaders (c : VCtx) (fmt : Nat) : Exec Unit := do
  let g := c.group (c.refN fmt) 32
  c.checkGroup c.f.vs2.toNat g
  let hs ← c.read c.f.vs2.toNat g
  let reg ← c.read c.f.vd.toNat 1
  c.records fmt reg fun r => do
    checkBytes c.f.vd.toNat r.off 4 r.first
    if ← c.recordOn r.k r.first r.b then
      match ← c.poisonAt c.f.vs2.toNat 32 r.k with
      | some cl => do
        setVstart r.first
        throw (.park 0x16 cl 0 0 0 false false)
      | none => pure ()
      let hdr := setBits (elemAt hs r.k 32) 24 2 (Fp.hdrBsize r.hdr)
      if Fp.hdrOk fmt hdr then putBytes c.bytes c.f.vd.toNat r.off 4 hdr else reservedTrap r.k r.first

/-- The code of a zero under a header: q = z, or +0; a z outside the codes of the format leaves it free (log 15). -/
def zeroCode (fmt hdr : Nat) : Exec Nat := do
  let z := Fp.sext (Fp.hdrZp hdr) 8
  if fmt > 11 then return 0
  else if qminOf fmt ≤ z && z ≤ qminOf fmt + spanOf fmt then return Fp.wrap (Fp.elemBits fmt) z
  else freeBits (Fp.elemBits fmt)

/-- VBLKHDR init: records of zeros under one header. -/
def VCtx.initRecords (c : VCtx) (fmt : Nat) : Exec Unit := do
  let hdr := c.e.x3.toNat % 2 ^ 32
  if c.start < c.vl then
    if Fp.hdrOk fmt hdr then
      let b := Fp.blockSize (Fp.hdrBsize hdr)
      let size := Fp.recBytes fmt b
      let q ← zeroCode fmt hdr
      let (l, _) ← c.haltBefore (· * b) ((List.range ((c.vl + b - 1) / b)).filter fun k => c.start < (k + 1) * b)
      forAll l fun k =>
        if c.bytes < (k + 1) * size then reservedTrap k (k * b)
        else putBytes c.bytes c.f.vd.toNat (k * size) size (buildRecord fmt hdr b q [])
    else reservedTrap 0 0

/-- VBLKHDR (R160). -/
def vblkhdrBody (c : VCtx) : Exec Unit := do
  let fmt := c.f.fmt.toNat
  c.checkVl fmt
  match c.f.fn.toNat with
  | 0 => do
    c.checkGroup c.f.vs1.toNat 1
    c.getHeaders fmt
  | 1 => do
    c.checkGroup c.f.vd.toNat 1
    c.setHeaders fmt
  | _ => do
    c.checkGroup c.f.vd.toNat 1
    c.initRecords fmt

/-- VCVT (R158). -/
def execVcvt (f : VForm) (s : State) : Host.Outcome State Fault Refusal := plainStep (.vcvt f) f vcvtBody s
/-- VQUANT (R159). -/
def execVquant (f : VForm) (s : State) : Host.Outcome State Fault Refusal := plainStep (.vquant f) f vquantBody s
/-- VBLKHDR (R160). -/
def execVblkhdr (f : VForm) (s : State) : Host.Outcome State Fault Refusal := plainStep (.vblkhdr f) f vblkhdrBody s

end Sys2Proof.Machine
end

