-- ==== Sys2Proof/Machine/VecMove.lean ====
section
/-! DEFINITION. Moving elements: permutes, slides, compress and expand, splats, moves and counts (R161 to R165). -/

namespace Sys2Proof.Machine

open Sys2Proof

/-- A register group copied element by element by a source index (R161 to R163): none gives a zero. -/
def VCtx.gather (c : VCtx) (els : List Nat) (w : Nat) (extra : Reads) (pick : Nat → Option Nat) : Exec Unit := do
  let a ← c.read c.f.vs1.toNat 1
  c.over els c.f.vd.toNat 1 w
    (fun i => extra i ++ match pick i with | some j => [(c.f.vs1.toNat, w, j)] | none => [])
    fun i _ => pure (match pick i with | some j => elemAt a j w | none => 0)

/-! ### VPERM (R161) -/

/-- Destination records of a block VPERM from number k, first element and offset; `fuel` bounds them. -/
def VCtx.permRecords (c : VCtx) (fmt idx reg : Nat) (src : List Rec × Option (Nat × Nat)) :
    Nat → Nat → Nat → Nat → Exec Unit
  | 0, _, _, _ => pure ()
  | fuel + 1, k, first, off => do
    if c.vl ≤ first then pure ()
    else if c.e.until_.any (· ≤ first) then setVstart first
    else
      match ← c.poisonAt c.f.vs2.toNat 16 k with
      | some cl => do
        setVstart first
        throw (.park 0x16 cl 0 0 0 false false)
      | none => pure ()
      let i := elemAt idx k 16
      let r? := src.1[i]?
      if r?.isNone && src.2.isSome then reservedTrap i first
      let r : Rec := r?.getD { k := k, first := 0, b := 32, off := 0, size := rec32 fmt, hdr := 0 }
      if c.start < first + r.b then
        if c.bytes < off + r.size then reservedTrap k first
        if ← c.recordOn k first r.b then
          if r?.isSome then checkBytes c.f.vs1.toNat r.off r.size first
          putBytes c.bytes c.f.vd.toNat off r.size (if r?.isSome then bytesAt reg r.off r.size else 0)
      c.permRecords fmt idx reg src fuel (k + 1) (first + r.b) (off + r.size)

/-- VPERM (R161). -/
def vpermBody (c : VCtx) : Exec Unit := do
  let fmt := c.f.fmt.toNat
  c.checkEw fmt (c.regs2.take 2)
  if fmtIsBlock fmt then
    let g := c.group (c.refN fmt) 16
    c.checkGroup c.f.vs2.toNat g
    if c.start < c.vl then
      let idx ← c.read c.f.vs2.toNat g
      let reg ← c.read c.f.vs1.toNat 1
      c.permRecords fmt idx reg (walkReg fmt c.bytes c.vl reg) (c.vl / 32 + 1) 0 0 0
  else
    let w := fmtWidth fmt
    c.need (c.f.vs2.toNat < c.nregs)
    let b ← c.read c.f.vs2.toNat 1
    c.gather c.actives w (sameIndex [(c.f.vs2.toNat, w)]) fun i => if elemAt b i w < c.vl then some (elemAt b i w) else none

/-! ### VPERMB (R162) -/

/-- The table lookup of byte j: which table, and the byte in it; none gives a zero. -/
def permByte (vl t j : Nat) : Option (Bool × Nat) :=
  let k := j / 64 * 64 + t % 64
  if t / 128 % 2 = 1 || vl ≤ k then none else some (t / 64 % 2 = 1, k)

/-- VPERMB (R162). -/
def vpermbBody (c : VCtx) : Exec Unit := do
  let r1 := c.f.vs1.toNat
  let r2 := c.f.vs2.toNat
  let r3 := c.f.vs3.toNat
  c.checkEw 0 [c.f.vd.toNat, r1, r2, r3]
  let a ← c.read r1 1
  let b ← c.read r2 1
  let d ← c.read r3 1
  let ix (j : Nat) : Nat := if c.f.fn = 1 then j % 64 else j
  c.over c.actives c.f.vd.toNat 1 8
    (fun j => (r2, 8, ix j) :: match permByte c.vl (elemAt b (ix j) 8) j with
      | some (second, k) => [(if second then r3 else r1, 8, k)]
      | none => [])
    fun j _ => pure (match permByte c.vl (elemAt b (ix j) 8) j with
      | some (second, k) => elemAt (if second then d else a) k 8
      | none => 0)

/-! ### VSLIDE (R163) -/

/-- What VSLIDE writes to element i: an element of the source, the scalar, or zero. -/
inductive Slid where
  | elem (j : Nat)
  | scalar
  | zero

/-- The source of element i. -/
def slideOf (fn vl s i : Nat) : Slid :=
  match fn with
  | 0 => .elem (i - s)
  | 1 => if i + s < vl then .elem (i + s) else .zero
  | 2 => if i = 0 then .scalar else .elem (i - 1)
  | 3 => if i + 1 < vl then .elem (i + 1) else .scalar
  | _ => .elem ((i + s) % vl)

/-- VSLIDE (R163): `lift` leaves the elements below s. -/
def vslideBody (c : VCtx) : Exec Unit := do
  let w := fmtWidth c.f.fmt.toNat
  let fn := c.f.fn.toNat
  let s := c.e.x3.toNat
  c.checkEw c.f.fmt.toNat (c.regs2.take 2)
  let a ← c.read c.f.vs1.toNat 1
  c.over (if fn = 0 then c.actives.filter (s ≤ ·) else c.actives) c.f.vd.toNat 1 w
    (fun i => match slideOf fn c.vl s i with | .elem j => [(c.f.vs1.toNat, w, j)] | _ => [])
    fun i _ => pure (match slideOf fn c.vl s i with | .elem j => elemAt a j w | .scalar => s % 2 ^ w | .zero => 0)

/-! ### VCOMPRESS and VEXPAND (R164) -/

/-- p(i): the set bits of a mask below i. -/
def rankIn (m i : Nat) : Nat := onesCount m i

/-- VCOMPRESS (R164): VM selects; the zero fill comes last. -/
def vcompressBody (c : VCtx) : Exec Unit := do
  let w := fmtWidth c.f.fmt.toNat
  let rd := c.f.vd.toNat
  c.checkEw c.f.fmt.toNat (c.regs2.take 2)
  let a ← c.read c.f.vs1.toNat 1
  let els := c.range.filter (bitAt c.mask)
  let bad ← c.firstPoison (sameIndex [(c.f.vs1.toNat, w)]) els
  let ok := before els bad
  let v ← c.read rd 1
  c.write rd 1 (ok.foldl (fun v i => elemSet v (rankIn c.mask i) w (elemAt a i w)) v) w (ok.map (rankIn c.mask))
  endRun { dst := 0, fs := (← me).fstate, done := [], stop := none } bad
  if c.f.fn = 1 && c.start < c.vl && c.e.until_.isNone then
    let n := rankIn c.mask c.vl
    let z := (List.range (c.vl - n)).map (· + n)
    let v ← c.read rd 1
    c.write rd 1 (z.foldl (fun v i => elemSet v i w 0) v) w z

/-- VEXPAND (R164): VM selects. -/
def vexpandBody (c : VCtx) : Exec Unit := do
  c.checkEw c.f.fmt.toNat (c.regs2.take 2)
  c.gather (c.range.filter fun i => bitAt c.mask i || c.f.fn = 1) (fmtWidth c.f.fmt.toNat) (fun _ => [])
    fun i => if bitAt c.mask i then some (rankIn c.mask i) else none

/-! ### VSPLAT, VMVX, VMVV, VIOTA (R165) -/

/-- VSPLAT. -/
def vsplatBody (c : VCtx) : Exec Unit := do
  let w := fmtWidth c.f.fmt.toNat
  let s := c.e.x3.toNat
  c.checkEw c.f.fmt.toNat (if c.f.fn = 0 then [c.f.vd.toNat] else c.regs2.take 2)
  if c.f.fn = 0 then
    c.over c.actives c.f.vd.toNat 1 w (fun _ => []) fun _ _ => pure (s % 2 ^ w)
  else c.gather c.actives w (fun _ => []) fun _ => if s < c.vl then some s else none

/-- VMVX: one element and an x register, whatever VL, VSTART and masks. -/
def vmvxBody (c : VCtx) : Exec Unit := do
  let fmt := c.f.fmt.toNat
  let w := fmtWidth fmt
  let s := c.e.x3.toNat
  if c.f.fn.toNat = 2 then
    c.need (c.f.vd.toNat < c.nregs)
    if s < c.refN fmt then
      let v ← c.read c.f.vd.toNat 1
      c.write c.f.vd.toNat 1 (elemSet v s w c.e.x1.toNat) w [s]
  else
    c.need (c.f.vs1.toNat < c.nregs)
    if s < c.refN fmt then
      match ← c.poisonAt c.f.vs1.toNat w s with
      | some cl => throw (.park 0x16 cl 0 0 0 false false)
      | none => pure ()
      let v := elemAt (← c.read c.f.vs1.toNat 1) s w
      c.putX (if c.f.fn = 0 && fmtIsInt fmt then BitVec.ofInt 64 (Fp.sext v w) else word v)
    else c.putX 0

/-- VMVV copy: elements, or whole records unchecked. -/
def VCtx.copyReg (c : VCtx) : Exec Unit := do
  let fmt := c.f.fmt.toNat
  c.checkEw fmt (c.regs2.take 2)
  if fmtIsBlock fmt then
    let reg ← c.read c.f.vs1.toNat 1
    c.records fmt reg fun r => do
      checkBytes c.f.vs1.toNat r.off 4 r.first
      if ← c.recordOn r.k r.first r.b then
        checkBytes c.f.vs1.toNat r.off r.size r.first
        putBytes c.bytes c.f.vd.toNat r.off r.size (bytesAt reg r.off r.size)
  else c.gather c.actives (fmtWidth fmt) (fun _ => []) some

/-- VMVV raw: the register's bytes, near or far. -/
def VCtx.copyRaw (c : VCtx) : Exec Unit := do
  c.need ((c.regs2.take 2).all (· < c.nregs))
  let n := c.bytes / 8
  match ← c.firstPoison (sameIndex [(c.f.vs1.toNat, 64)]) (List.range n) with
  | some (_, cl) => throw (.park 0x16 cl 0 0 0 false false)
  | none => c.write c.f.vd.toNat 1 (← c.read c.f.vs1.toNat 1) 64 (List.range n)

/-- VMVV. -/
def vmvvBody (c : VCtx) : Exec Unit := if c.f.fn = 0 then c.copyReg else c.copyRaw

/-- VIOTA's value at element i, before its width (R165). -/
def iotaAt (fn vl m i : Nat) : Nat :=
  match fn with
  | 0 => onesCount m i
  | 1 => i
  | _ => onesCount m vl - onesCount m (i + 1)

/-- VIOTA. -/
def viotaBody (c : VCtx) : Exec Unit := do
  let w := fmtWidth c.f.fmt.toNat
  c.checkEw c.f.fmt.toNat [c.f.vd.toNat]
  let m := (← me).getM c.f.vs1.toNat &&& c.mask
  c.over c.actives c.f.vd.toNat 1 w (fun _ => []) fun i _ => pure (iotaAt c.f.fn.toNat c.vl m i % 2 ^ w)

/-- VPERM (R161). -/
def execVperm (f : VForm) (s : State) : Host.Outcome State Fault Refusal := plainStep (.vperm f) f vpermBody s
/-- VPERMB (R162). -/
def execVpermb (f : VForm) (s : State) : Host.Outcome State Fault Refusal := plainStep (.vpermb f) f vpermbBody s
/-- VSLIDE (R163). -/
def execVslide (f : VForm) (s : State) : Host.Outcome State Fault Refusal := plainStep (.vslide f) f vslideBody s
/-- VCOMPRESS (R164). -/
def execVcompress (f : VForm) (s : State) : Host.Outcome State Fault Refusal := plainStep (.vcompress f) f vcompressBody s
/-- VEXPAND (R164). -/
def execVexpand (f : VForm) (s : State) : Host.Outcome State Fault Refusal := plainStep (.vexpand f) f vexpandBody s
/-- VSPLAT (R165). -/
def execVsplat (f : VForm) (s : State) : Host.Outcome State Fault Refusal := plainStep (.vsplat f) f vsplatBody s
/-- VMVX (R165). -/
def execVmvx (f : VForm) (s : State) : Host.Outcome State Fault Refusal := plainStep (.vmvx f) f vmvxBody s
/-- VMVV (R165). -/
def execVmvv (f : VForm) (s : State) : Host.Outcome State Fault Refusal := plainStep (.vmvv f) f vmvvBody s
/-- VIOTA (R165). -/
def execViota (f : VForm) (s : State) : Host.Outcome State Fault Refusal := plainStep (.viota f) f viotaBody s

end Sys2Proof.Machine
end

