-- ==== Sys2Proof/Machine/VecReduce.lean ====
section
/-! DEFINITION. Reductions, scans, recurrences and selection of the greatest (R166 to R169). -/

namespace Sys2Proof.Machine

open Sys2Proof

/-- The functions of R166 on encodings with the random bits of mode 5: the result and its flags. -/
def redOp (fn fmt rm r a b : Nat) : Nat × Nat :=
  let w := fmtWidth fmt
  if fmtIsInt fmt then
    let x := Fp.sext a w
    let y := Fp.sext b w
    (match fn with
      | 0 => (a + b) % 2 ^ w
      | 1 => Fp.wrap w (max x y)
      | 2 => Fp.wrap w (min x y)
      | 3 => max a b
      | 4 => min a b
      | 5 => a &&& b
      | 6 => a ||| b
      | _ => a ^^^ b, 0)
  else
    match fn with
    | 0 =>
      let v := Fp.add rm (Fp.decode fmt a) (Fp.decode fmt b)
      let q := Fp.roundBits fmt rm r v.1
      (q.1, v.2 ||| q.2)
    | 1 => Fp.minMax true fmt a b
    | _ => Fp.minMax false fmt a b

/-- One combination, drawing for a floating-point sum in mode 5. -/
def redF (fn fmt rm a b : Nat) : Fm Nat := do
  let r ← if fmtIsInt fmt || fn ≠ 0 then pure 0 else randomBits rm
  exactF (redOp fn fmt rm r a b)

/-- The identity of a function (R166). -/
def redIdentity (fn fmt : Nat) : Nat :=
  let w := fmtWidth fmt
  let f := Fp.spec fmt
  if fmtIsInt fmt then
    match fn with
    | 1 => 2 ^ (w - 1)
    | 2 => 2 ^ (w - 1) - 1
    | 4 => 2 ^ w - 1
    | 5 => 2 ^ w - 1
    | _ => 0
  else
    match fn with
    | 0 => Fp.signBit f true
    | 1 => Fp.signBit f true + f.inf
    | _ => f.inf

/-- One level of the tree: neighbours combined, left to right. -/
def pairUp (op : Nat → Nat → Fm Nat) : List Nat → Fm (List Nat)
  | a :: b :: t => do
    let v ← op a b
    return v :: (← pairUp op t)
  | l => pure l

/-- The tree over a power of two of leaves; `depth` levels. -/
def treeUp (op : Nat → Nat → Fm Nat) : Nat → List Nat → Fm Nat
  | 0, l => pure (l.headD 0)
  | d + 1, l => do treeUp op d (← pairUp op l)

/-- The levels of the tree of n leaves. -/
def treeDepth (n : Nat) : Nat := if n ≤ 1 then 0 else Nat.log2 (n - 1) + 1

/-- The start value of a reduction: vs2[0], or the scalar. -/
def VCtx.startValue (c : VCtx) (w : Nat) : Exec Nat := do
  if c.f.xs = 1 then return c.e.x3.toNat % 2 ^ w
  else
    match ← c.poisonAt c.f.vs2.toNat w 0 with
    | some cl => throw (.park 0x16 cl 0 0 0 false false)
    | none => return elemAt (← c.read c.f.vs2.toNat 1) 0 w

/-- Element 0 of vd written. -/
def VCtx.putFirst (c : VCtx) (w v : Nat) : Exec Unit := do
  c.write c.f.vd.toNat 1 (elemSet (← c.read c.f.vd.toNat 1) 0 w v) w [0]

/-- Arithmetic of a restarted instruction: an enabled condition traps at element 0 with nothing kept (R144, R166). -/
def restartedF {α : Type} (m : Fm α) : Exec α := do
  let h ← me
  let (a, fs) := m h.fstate
  match fs.hit with
  | some d => do
    setVstart 0
    trap 0x03 d 0
  | none => do
    setMe (h.withF fs)
    return a

/-- A poisoned word among the elements of a restarted instruction: its stop leaves no trace. -/
def VCtx.restartedPoison (c : VCtx) (r w : Nat) (els : List Nat) : Exec Unit := do
  match ← c.firstPoison (sameIndex [(r, w)]) els with
  | some (_, cl) => throw (.park 0x16 cl 0 0 0 false false)
  | none => pure ()

/-- VRED (R166). A start value that no operation takes in is written bit for bit, as the pseudocode has it, also where it is a
NaN that is not canonical, of which R89 speaks; so in VREDO, VSCAN and VRECUR (log 21). -/
def vredBody (c : VCtx) : Exec Unit := do
  let fmt := c.f.fmt.toNat
  let fn := c.f.fn.toNat
  let w := fmtWidth fmt
  c.checkEw fmt c.regs2
  c.needStart0
  let s ← c.startValue w
  if c.vl = 0 then c.putFirst w s
  else
    c.restartedPoison c.f.vs1.toNat w c.actives
    let a ← c.read c.f.vs1.toNat 1
    let d := treeDepth c.vl
    let leaves := (List.range (2 ^ d)).map fun j => if c.active j then elemAt a j w else redIdentity fn fmt
    let v ← restartedF (do redF fn fmt c.rm s (← treeUp (redF fn fmt c.rm) d leaves))
    c.putFirst w v

/-- Elements in order with a carry: each gives what is written at it and the next carry; the first enabled condition stops
the run with nothing of its element kept. -/
def runCarry (wd : Nat) (op : Nat → Nat → Fm (Nat × Nat)) : List Nat → Nat → LoopState → Nat × LoopState
  | [], k, l => (k, l)
  | i :: t, k, l =>
    let ((v, k'), fs) := op i k l.fs
    match fs.hit with
    | some d => (k, { l with stop := some (i, d) })
    | none => runCarry wd op t k' { l with dst := elemSet l.dst i wd v, fs := fs, done := i :: l.done }

/-- The accumulator that a resumed VREDO left in element 0 of vd (R144), read as any source. -/
def VCtx.accumulator (c : VCtx) (w : Nat) : Exec Nat := do
  match ← c.poisonAt c.f.vd.toNat w 0 with
  | some cl => throw (.park 0x16 cl 0 0 0 false false)
  | none => return elemAt (← c.read c.f.vd.toNat 1) 0 w

/-- VREDO (R166): the accumulator goes to element 0 at every stop after the first element. -/
def vredoBody (c : VCtx) : Exec Unit := do
  let fmt := c.f.fmt.toNat
  let fn := c.f.fn.toNat
  let w := fmtWidth fmt
  c.checkEw fmt c.regs2
  if c.start < c.vl || c.vl = 0 then
    let s ← if c.start = 0 then c.startValue w else c.accumulator w
    let a ← c.read c.f.vs1.toNat 1
    let bad ← c.firstPoison (sameIndex [(c.f.vs1.toNat, w)]) c.actives
    let (acc, l) := runCarry w (fun i k => do
      let v ← redF fn fmt c.rm k (elemAt a i w)
      return (v, v)) (before c.actives bad) s { dst := 0, fs := (← me).fstate, done := [], stop := none }
    let at0 := (match l.stop with | some (i, _) => i = 0 | none => false) || (bad.map (·.1) = some 0)
    if !at0 then c.putFirst w acc
    endRun l bad

/-- A carry instruction writing every element from VSTART. -/
def VCtx.carry (c : VCtx) (w k : Nat) (reads : Reads) (op : Nat → Nat → Fm (Nat × Nat)) : Exec Unit := do
  let bad ← c.firstPoison reads c.range
  let (_, l) := runCarry w op (before c.range bad) k
    { dst := ← c.read c.f.vd.toNat 1, fs := (← me).fstate, done := [], stop := none }
  c.write c.f.vd.toNat 1 l.dst w l.done
  endRun l bad

/-- VSCAN (R167). On resumption of the exclusive form the combination of the element before VSTART is done again with the
random bits SRSEED still holds: that element is below VSTART, so it steps nothing and raises nothing (R139; log 15). -/
def vscanBody (c : VCtx) : Exec Unit := do
  let fmt := c.f.fmt.toNat
  let fn := c.f.fn.toNat % 8
  let ex := c.f.fn.toNat ≥ 8
  let w := fmtWidth fmt
  let p := c.start - 1
  c.checkEw fmt c.regs2
  if c.start < c.vl then
    let a ← c.read c.f.vs1.toNat 1
    let old := elemAt (← c.read c.f.vd.toNat 1) p w
    let k ← if c.start = 0 then c.startValue w
      else if ex && bitAt c.mask p then
        pure (redOp fn fmt c.rm ((← me).srseed.toNat % 2 ^ 16) old (elemAt a p w)).1
      else pure old
    c.carry w k (fun i => if bitAt c.mask i then [(c.f.vs1.toNat, w, i)] else []) fun i k => do
      let k' ← if bitAt c.mask i then redF fn fmt c.rm k (elemAt a i w) else pure k
      return (if ex then k else k', k')

/-- The step of VRECUR (R168): a · k + b, fused. -/
def recurF (fmt rm a k b : Nat) : Fm Nat :=
  if fmtIsInt fmt then pure ((a * k + b) % 2 ^ fmtWidth fmt)
  else roundF fmt rm (Fp.fma rm false false (Fp.decode fmt a) (Fp.decode fmt k) (Fp.decode fmt b))

/-- VRECUR (R168). -/
def vrecurBody (c : VCtx) : Exec Unit := do
  let fmt := c.f.fmt.toNat
  let w := fmtWidth fmt
  c.checkEw fmt (c.regs2 ++ [c.f.vs3.toNat])
  if c.start < c.vl then
    let a ← c.read c.f.vs1.toNat 1
    let b ← c.read c.f.vs2.toNat 1
    let k ← if c.start ≠ 0 then pure (elemAt (← c.read c.f.vd.toNat 1) (c.start - 1) w)
      else
        match ← c.poisonAt c.f.vs3.toNat w 0 with
        | some cl => throw (.park 0x16 cl 0 0 0 false false)
        | none => pure (elemAt (← c.read c.f.vs3.toNat 1) 0 w)
    c.carry w k (fun i => if bitAt c.mask i then sameIndex [(c.f.vs1.toNat, w), (c.f.vs2.toNat, w)] i else []) fun i k => do
      let k' ← if bitAt c.mask i then recurF fmt c.rm (elemAt a i w) k (elemAt b i w) else pure k
      return (k', k')

/-- A score below another (R169): NaN below every number, zeros equal. -/
def scoreLt (fmt : Nat) (unsigned : Bool) (a b : Nat) : Bool :=
  if fmtIsInt fmt then
    if unsigned then a < b else Fp.sext a (fmtWidth fmt) < Fp.sext b (fmtWidth fmt)
  else
    let x := Fp.decode fmt a
    let y := Fp.decode fmt b
    if x.isNan then !y.isNan else if y.isNan then false else x.lt y

/-- A (score, index) placed after every entry not below it. -/
def placeScore (lt : Nat → Nat → Bool) (x : Nat × Nat) : List (Nat × Nat) → List (Nat × Nat)
  | [] => [x]
  | y :: t => if lt y.1 x.1 then x :: y :: t else y :: placeScore lt x t

/-- The active elements by (−score, index). -/
def ranked (lt : Nat → Nat → Bool) (l : List (Nat × Nat)) : List (Nat × Nat) := l.foldl (fun r x => placeScore lt x r) []

/-- VTOPK (R169). -/
def vtopkBody (c : VCtx) : Exec Unit := do
  let fmt := c.f.fmt.toNat
  let w := fmtWidth fmt
  let g := c.group (c.refN fmt) 32
  c.checkEw fmt [c.f.vs1.toNat]
  c.checkGroup c.f.vd.toNat g
  c.needStart0
  c.restartedPoison c.f.vs1.toNat w c.actives
  let a ← c.read c.f.vs1.toNat 1
  let xs := c.actives.map fun i => (elemAt a i w, i)
  restartedF (raise (if !fmtIsInt fmt && xs.any (fun x => (Fp.decode fmt x.1).isSig) then Fp.NV else 0))
  let top := (ranked (scoreLt fmt (c.f.fn = 1)) xs).take c.e.x3.toNat
  let old ← c.read c.f.vd.toNat g
  c.write c.f.vd.toNat g ((top.zipIdx).foldl (fun v (x, k) => elemSet v k 32 x.2) old) 32 (List.range top.length)

/-- VRED (R166). -/
def execVred (f : VForm) (s : State) : Host.Outcome State Fault Refusal := plainStep (.vred f) f vredBody s
/-- VREDO (R166). -/
def execVredo (f : VForm) (s : State) : Host.Outcome State Fault Refusal := plainStep (.vredo f) f vredoBody s
/-- VSCAN (R167). -/
def execVscan (f : VForm) (s : State) : Host.Outcome State Fault Refusal := plainStep (.vscan f) f vscanBody s
/-- VRECUR (R168). -/
def execVrecur (f : VForm) (s : State) : Host.Outcome State Fault Refusal := plainStep (.vrecur f) f vrecurBody s
/-- VTOPK (R169). -/
def execVtopk (f : VForm) (s : State) : Host.Outcome State Fault Refusal := plainStep (.vtopk f) f vtopkBody s

end Sys2Proof.Machine
end

