-- ==== Sys2Proof/Machine/VecControl.lean ====
section
/-! DEFINITION. Vector length and configuration: SETVL, SETVLW, VCFG (R22, R136 to R138, R35). -/

namespace Sys2Proof.Machine

open Sys2Proof

/-- The length SETVL grants for a format and an application length (R136). -/
def Hart.grantedVl (h : Hart) (fmt avl : Nat) : Nat :=
  let m := h.vlmax fmt
  min avl (min m (m * glanes h.count h.gshift / h.count.toNat))

/-- VIQ entry of SETVL and SETVLW: the gang's grant reaches the hart (R35), and xd and VL are written; an earlier entry that would have written xd no longer does (log 21). -/
def setvlHook (f : VForm) : EntryHook := fun e => do
  let g ← myGang
  modMe fun h => { h with gshift := g.gshift }
  let vl := (← me).grantedVl f.fmt.toNat e.x1.toNat
  modMe fun h => { h.setXNow f.vd.toNat (word vl) with vl := BitVec.ofNat 16 vl, vlPending := false }
  return { e with vl := some vl }

/-- SETVL's turn in the queue: its VSTART := 0 is the completion's. -/
def setvlBody : Body := fun _ _ => return .now

/-- SETVLW's turn (R137): it waits until the watermark passes lo + vl. -/
def setvlwBody : Body := fun e f => do
  setVstart 0
  let a : Int := e.x2.toNat
  let v ← load (← e.ctx) a 8 8
  narrow a f.rm.toNat
  await (e.x3.toNat + e.vl.getD 0 ≤ v)
  return .now

/-- VIQ entry of VCFG: illegal in a handler (R406). It enters after every earlier vector instruction, so that its effect is
made at once (R22): what follows it in program order, a SETVL's entry among it, sees the new configuration (R138, R21). -/
def vcfgHook (f : VForm) : EntryHook := fun e => do
  notInHandler (.vcfg f)
  vectorDone
  modMe fun h => { h with vl := 0, vlPending := false, vcfg := f.fn.setWidth 2, v := [], m := [], badv := [] }
  return e

/-- VCFG's turn in the queue: its VSTART := 0 is the completion's. -/
def vcfgBody : Body := fun _ _ => return .now

/-- SETVL (R136). -/
def execSetvl (f : VForm) (s : State) : Host.Outcome State Fault Refusal :=
  vectorStep (.setvl f) f (setvlHook f) setvlBody s
/-- SETVLW (R137). -/
def execSetvlw (f : VForm) (s : State) : Host.Outcome State Fault Refusal :=
  vectorStep (.setvlw f) f (setvlHook f) setvlwBody s
/-- VCFG (R138). -/
def execVcfg (f : VForm) (s : State) : Host.Outcome State Fault Refusal :=
  vectorStep (.vcfg f) f (vcfgHook f) vcfgBody s

end Sys2Proof.Machine
end

