-- ==== Sys2Proof/Machine/VecMem.lean ====
section
/-! DEFINITION. Vector loads and stores: the checks of every element before any is performed, block records in memory,
fault-only-first, gathers, scatters and scatter-adds (R96, R97, R267 to R271, R282 to R291). -/

namespace Sys2Proof.Machine

open Sys2Proof

/-! ### Elements checked, then performed (R269, R270) -/

/-- Where a run of elements stops: the lowest element that meets a failure, and the failure. -/
abbrev Cut := Option (Nat × Stop)

/-- A function over a list in order up to its first failure, reported at that item's element. A wait is no failure: nothing
of the instruction is performed then. -/
def phase {α β : Type} (ix : α → Nat) (f : α → Exec β) : List α → Exec (List (α × β) × Cut)
  | [] => return ([], none)
  | a :: t => do
    match ← caught (f a) with
    | .error .wait => throw .wait
    | .error e => return ([], some (ix a, e))
    | .ok b =>
      let r ← phase ix f t
      return ((a, b) :: r.1, r.2)

/-- The stop of a cut is taken at its element. -/
def takeCut : Cut → Exec Unit
  | none => pure ()
  | some (i, e) => do
    setVstart i
    throw e

/-- Accesses wait for maintenance and STKFENCE before anything is performed (R249, R250). -/
def awaitNear (c : Ctx) (near : Bool) (acc : Access) : Exec Unit :=
  forAll acc fun p => match p with
    | (_, n, .phys pa _) => do await (!(← ask fun s => if near then s.nearHeld c pa n else s.farHeld c pa))
    | _ => pure ()

/-- An access at a scope above CLUSTER in the scratchpad window sets NARROW (R228). -/
def narrowAcc (scope : Nat) : Access → Exec Unit
  | (a, _, _) :: _ => narrow a scope
  | [] => pure ()

/-- Where the value of an element comes from: memory, or given without an access (R299). -/
inductive Source where
  | value (v : Nat)
  | mem (acc : Access)

/-- The instruction executes near. -/
def VCtx.isNear (c : VCtx) : Bool := c.far.isNone

/-- Elements of a load: every one is checked, then read in order; the values, and where the run stops. -/
def VCtx.fetch (c : VCtx) (scope : Nat) (els : List Nat) (place : Nat → Exec Source) : Exec (List (Nat × Nat) × Cut) := do
  let x ← c.e.ctx
  let (oks, cut) ← phase id place els
  forAll oks fun o => match o.2 with | .mem a => awaitNear x c.isNear a | .value _ => pure ()
  let (vals, cut2) ← phase (fun o : Nat × Source => o.1) (fun o => match o.2 with
    | .value v => pure v
    | .mem a => do
      let v ← readAccess x c.isNear false a
      narrowAcc scope a
      return v) oks
  return (vals.map fun (o, v) => (o.1, v), cut2.or cut)

/-- Loaded elements written to a register. -/
def VCtx.putEls (c : VCtx) (r w : Nat) (vals : List (Nat × Nat)) : Exec Unit := do
  let old ← c.read r 1
  c.write r 1 (vals.foldl (fun v (i, x) => elemSet v i w x) old) w (vals.map (·.1))

/-- Poison of the registers an element reads is its data error (R424). -/
def VCtx.cleanAt (c : VCtx) (srcs : List (Nat × Nat × Nat)) : Exec Unit :=
  forAll srcs fun (r, w, i) => do
    match ← c.poisonAt r w i with
    | some cl => throw (.park 0x16 cl 0 0 0 false false)
    | none => pure ()

/-- Elements to store, checked: element, value, access. -/
abbrev Stores := List (Nat × Nat × Access)

/-- What follows an instruction's stores: a far one's partial granules are merged (R292), and those at SYSTEM scope reach
the pool (R233). -/
def settleStores (near : Bool) (scope : Nat) (l : List Access) : Exec Unit := do
  if !near then mergeFar l
  atScope scope

/-- Stores performed in increasing element order. -/
def performOrdered (x : Ctx) (near wt : Bool) (scope : Nat) (l : Stores) : Exec Unit := do
  forAll l fun (_, v, a) => do
    writeAccess x near wt v a
    narrowAcc scope a
  settleStores near scope (l.map (·.2.2))

/-- The bytes of an access with their values: address, place, byte. -/
def accessBytes (v : Nat) (acc : Access) : List (Nat × Place × Nat) :=
  match acc with
  | [] => []
  | (a0, _) :: _ => acc.flatMap fun (a, n, p) => (List.range n).map fun k =>
      (a + k, (match p with | .scratch key => .scratch (key + k) | .phys pa d => .phys (pa + k) d),
        v / 2 ^ (8 * (a + k - a0)) % 256)

/-- Which element survives at a byte that several elements of an unordered scatter write (R288): a free choice (log 5). -/
def survivorAt (n spot : Nat) (l : Stores) : Option Nat :=
  l.foldl (fun o (i, v, acc) =>
    if (accessBytes v acc).any (fun (_, p, _) => p.spot = spot) then
      match o with
      | some j => if Config.scatterKeepsFirst n j i then some j else some i
      | none => some i
    else o) none

/-- The mask of a granule's bytes lo to lo + n − 1 for which a condition on their physical addresses holds. -/
def bytesWhere (keep : Nat → Bool) (g lo n : Nat) : Nat :=
  (List.range n).foldl (fun m k => if keep (g * 32 + lo + k) then m ||| 2 ^ (lo + k) else m) 0

/-- The bytes of one part that a condition on their spots names, written by a program in one action for each granule (R292). -/
def writeWhere (c : Ctx) (near wt : Bool) (a v : Nat) (keep : Nat → Bool) (p : Nat × Nat × Place) : Exec Unit :=
  match p with
  | (b, n, .scratch key) => do
    forAll ((List.range n).filter fun k => keep (2 ^ 64 + key + k)) fun k => writePart c near wt a v (b + k, 1, .scratch (key + k))
    clearScratch key n
  | (b, n, .phys pa d) => do
    let x ← blur c.h.colls pa n (v / 2 ^ (8 * (b - a)))
    if near then await (!(← ask (·.nearHeld c pa n)))
    forAll (pieces pa n) fun (g, lo, len) => do
      let mask := bytesWhere keep g lo len
      if mask ≠ 0 then writeGranule c.who d wt g (bytesAt x (g * 32 + lo - pa) len * 2 ^ (8 * lo)) mask
    wakeRange pa (pa + n - 1)

/-- Stores performed with the survivor's byte at each byte. -/
def performUnordered (x : Ctx) (near wt : Bool) (scope : Nat) (l : Stores) : Exec Unit := do
  let n ← nextFresh
  forAll l fun (i, v, acc) => do
    match acc with
    | [] => pure ()
    | (a, _) :: _ => forAll acc (writeWhere x near wt a v fun spot => survivorAt n spot l = some i)
    narrowAcc scope acc
  settleStores near scope (l.map (·.2.2))

/-- Elements of a store: every one is checked, then performed. -/
def VCtx.storeEls (c : VCtx) (scope : Nat) (wt ordered : Bool) (els : List Nat) (place : Nat → Exec (Option Access))
    (value : Nat → Nat) : Exec Cut := do
  let x ← c.e.ctx
  let (oks, cut) ← phase id place els
  let l : Stores := oks.filterMap fun (i, a) => a.map fun a => (i, value i, a)
  forAll l fun (_, _, a) => awaitNear x c.isNear a
  if ordered then performOrdered x c.isNear wt scope l else performUnordered x c.isNear wt scope l
  return cut

/-! ### Addresses (R283) -/

/-- SCOPE of a vector memory instruction. -/
def VCtx.scope (c : VCtx) : Nat := c.f.rm.toNat

/-- The base captured at VIQ entry. -/
def VCtx.base (c : VCtx) : Int := c.e.x1.toNat

/-- Indexed address of item i. -/
def VCtx.indexAt (c : VCtx) (idx unit i : Nat) : Int :=
  let w := Wf.iwOf c.f
  let ix : Int := if c.f.fn.toNat % 2 = 1 then elemAt idx i w else Fp.sext (elemAt idx i w) w
  c.base + ix * (if c.f.vs3.toNat % 2 = 1 then unit else 1 : Nat)

/-- The registers of the index operand: a group near, one y register far (R282, R290). -/
def VCtx.indexGroup (c : VCtx) : Nat := if c.isNear then c.group (c.refN c.f.fmt.toNat) (Wf.iwOf c.f) else 1

/-- The checks of an indexed instruction. -/
def VCtx.checkIndex (c : VCtx) : Exec Unit := do
  c.checkGroup c.f.vs2.toNat c.indexGroup
  c.need (c.isNear || c.vl ≤ farLen (Wf.iwOf c.f))

/-! ### Block records in memory (R96, R97, R271) -/

/-- The header of a record in memory. -/
def readHeader (x : Ctx) (a : Int) : Exec Nat := do
  let acc ← checkAccess x a 4 4 .read
  awaitNear x true acc
  readAccess x true false acc

/-- The bytes of a record in memory, checked and read. -/
def VCtx.readRecord (c : VCtx) (x : Ctx) (a : Int) (size : Nat) : Exec Nat := do
  let acc ← checkAccess x a size 4 .read
  awaitNear x true acc
  let v ← readAccess x true false acc
  narrowAcc c.scope acc
  return v

/-- One located record of a block load: its bytes when its elements are selected. A fault of its bytes is reported before
its being ill-formed; of a masked-off record only the header is checked, and of a strided or indexed one nothing (R97, R269,
R287). -/
def VCtx.loadRecord (c : VCtx) (x : Ctx) (fmt : Nat) (contig : Bool) (a : Int) (r : Rec) : Exec (Option Nat) := do
  if r.first + r.b ≤ c.start || (!contig && c.cover r.first r.b = .off) then return none
  else
    let v ← if c.cover r.first r.b = .off then pure 0 else c.readRecord x a r.size
    if c.bytes < r.off + r.size then trap 0x02 0 (word r.k)
    let on ← c.recordOn r.k r.first r.b
    if !Fp.hdrOk fmt r.hdr then trap 0x02 0 (addrWord a)
    return if on then some v else none

/-- How a record of a strided or indexed block load is found, before memory is read. -/
inductive Passing where
  | last                           -- no element from here on is active
  | over (b size : Nat)            -- it is passed over, by its size in vd
  | read                           -- its header in memory is read
  deriving DecidableEq, Repr

/-- A strided or indexed record that is masked off or wholly below VSTART is neither read nor checked (R97), and raises nothing
(R287): it is passed over by the size that the BSIZE in vd at its place gives. Where vd shows no record there and a later
element is active, the record in memory gives the size (log 15). -/
def VCtx.passed (c : VCtx) (fmt first off old : Nat) : Passing :=
  let hb := Fp.hdrBsize (bytesAt old off 4)
  let b := Fp.blockSize hb
  if c.actives.all (· < first) then .last
  else if hb ≠ 3 && off + 4 ≤ c.bytes && (first + b ≤ c.start || c.cover first b = .off) then .over b (Fp.recBytes fmt b)
  else .read

/-- The records of a block load from number k: the place, size and bytes of those to write, and where the load stops. -/
def VCtx.scanRecords (c : VCtx) (x : Ctx) (fmt : Nat) (contig : Bool) (at_ : Nat → Nat → Int) (extra : Reads)
    (old : Nat) :
    Nat → Nat → Nat → Nat → Exec (List (Nat × Nat × Nat) × Cut)
  | 0, _, _, _ => return ([], none)
  | fuel + 1, k, first, off => do
    if c.vl ≤ first then return ([], none)
    else if c.e.until_.any (· ≤ first) then do
      setVstart first
      return ([], none)
    else
      match if contig then .read else c.passed fmt first off old with
      | .last => return ([], none)
      | .over b size => c.scanRecords x fmt contig at_ extra old fuel (k + 1) (first + b) (off + size)
      | .read =>
        let a := at_ k off
        match ← caught (do c.cleanAt (extra k); readHeader x a) with
        | .error .wait => throw .wait
        | .error e => return ([], some (first, e))
        | .ok hdr =>
          if Fp.hdrBsize hdr = 3 then return ([], some (first, .trap 0x02 0 (addrWord a)))
          else
            let b := Fp.blockSize (Fp.hdrBsize hdr)
            let size := Fp.recBytes fmt b
            match ← caught (c.loadRecord x fmt contig a ⟨k, first, b, off, size, hdr⟩) with
            | .error .wait => throw .wait
            | .error e => return ([], some (first, e))
            | .ok v =>
              let r ← c.scanRecords x fmt contig at_ extra old fuel (k + 1) (first + b) (off + size)
              return (match v with | some v => (off, size, v) :: r.1 | none => r.1, r.2)

/-- A block load: records read, then written to vd. -/
def VCtx.loadBlock (c : VCtx) (contig : Bool) (at_ : Nat → Nat → Int) (extra : Reads) : Exec Cut := do
  let fmt := c.f.fmt.toNat
  if c.start < c.vl then
    let x ← c.e.ctx
    let old ← c.read c.f.vd.toNat 1
    let (l, cut) ← c.scanRecords x fmt contig at_ extra old (c.vl / 32 + 1) 0 0 0
    forAll l fun (off, size, v) => putBytes c.bytes c.f.vd.toNat off size v
    return cut
  else return none

/-- A record of a register about to be stored at an address, if it is to be: a fault of its bytes is reported before a mask
that splits it (R97). -/
def VCtx.storeRecord (c : VCtx) (x : Ctx) (addr : Exec (Option Int)) (q : Rec) : Exec (Option Access) := do
  let r := c.f.vd.toNat
  checkBytes r q.off 4 q.first
  if c.cover q.first q.b = .off then return none
  else match ← addr with
    | none => do
      let _ ← c.recordOn q.k q.first q.b
      return none
    | some a =>
      let acc ← checkAccess x a q.size 4 .write
      let _ ← c.recordOn q.k q.first q.b
      checkBytes r q.off q.size q.first
      return some acc

/-- The record at which the walk of a stored register ended (R97): where its size is known and some element of it is on,
a fault of its bytes in memory is reported; else the reserved-code trap. -/
def VCtx.storeEnd (c : VCtx) (x : Ctx) (reg : Nat) (addr : Nat → Nat → Exec (Option Int)) (w : List Rec × Option (Nat × Nat)) :
    Exec Cut := do
  match w.2 with
  | none => return none
  | some (k, first) =>
   if c.e.until_.any (· ≤ first) then do
    setVstart first
    return none
   else
    let off := match w.1.getLast? with | some q => q.off + q.size | none => 0
    let hb := Fp.hdrBsize (bytesAt reg off 4)
    let b := Fp.blockSize hb
    if off + 4 ≤ c.bytes && hb ≠ 3 && c.cover first b ≠ .off then
      match ← caught (do
        match ← addr k first with
        | some a => let _ ← checkAccess x a (Fp.recBytes c.f.fmt.toNat b) 4 .write
        | none => pure ()) with
      | .error .wait => throw .wait
      | .error e => return some (first, e)
      | .ok _ => return some (first, .trap 0x02 0 (word k))
    else return some (first, .trap 0x02 0 (word k))

/-- The records of a register stored, each whole and unchecked, at addresses given by number and first element (R284). -/
def VCtx.storeRecords (c : VCtx) (wt ordered : Bool) (addr : Ctx → Rec → Exec (Option Int)) : Exec Cut := do
  let x ← c.e.ctx
  let reg ← c.read c.f.vd.toNat 1
  let w := walkReg c.f.fmt.toNat c.bytes c.vl reg
  let (qs, halted) ← c.haltBefore (·.first) (w.1.filter fun q => c.start < q.first + q.b)
  let (oks, cut) ← phase (·.first) (fun q : Rec => c.storeRecord x (addr x q) q) qs
  let off := match w.1.getLast? with | some q => q.off + q.size | none => 0
  let last ← if cut.isSome || halted then pure none else c.storeEnd x reg (fun k first => addr x ⟨k, first, 0, off, 0, 0⟩) w
  let l : Stores := oks.filterMap fun (q, a) => a.map fun a => (q.first, bytesAt reg q.off q.size, a)
  forAll l fun (_, _, a) => awaitNear x true a
  if ordered then performOrdered x true wt c.scope l else performUnordered x true wt c.scope l
  return cut.or last

/-- A block store: records found by BSIZE in the source. -/
def VCtx.storeBlock (c : VCtx) (wt ordered : Bool) (at_ : Nat → Nat → Int) (extra : Reads) : Exec Cut := do
  if c.start < c.vl then
    c.storeRecords wt ordered fun _ q => do
      c.cleanAt (extra q.k)
      return some (at_ q.k q.off)
  else return none

/-! ### The loads (R284 to R287) -/

/-- Element or record loads at addresses given by the item's number and unit. -/
def VCtx.loadAll (c : VCtx) (contig : Bool) (at_ : Nat → Nat → Int) (extra : Reads) : Exec Cut := do
  let fmt := c.f.fmt.toNat
  c.checkVl fmt
  c.checkGroup c.f.vd.toNat 1
  if fmtIsBlock fmt then c.loadBlock contig at_ extra
  else
    let x ← c.e.ctx
    let w := fmtWidth fmt
    let (vals, cut) ← c.fetch c.scope c.actives fun i => do
      c.cleanAt (extra i)
      return .mem (← checkAccess x (at_ i (i * (w / 8))) (w / 8) (w / 8) .read)
    c.putEls c.f.vd.toNat w vals
    return cut

/-- Addresses of VLD, VLDFF and VST: item i, whose packed place is `off` bytes from the base. -/
def VCtx.linear (c : VCtx) (i off : Nat) : Int :=
  if c.f.xs = 1 then c.base + i * c.e.x3.toInt else c.base + off

/-- How a fault-only-first load ends (R285): VL trimmed at a failure past VSTART, which is served in the background. A
pre-emption does not halt one that fails before the element it would halt at. -/
def VCtx.endFirst (c : VCtx) (cut : Cut) : Exec Unit := do
  match cut with
  | none => trimVl c.vl
  | some (i, e) =>
    if c.e.until_.isSome then throw .wait
    let reserved := match e with | .trap code _ _ => code = 0x02 | _ => false
    if i ≤ c.start || reserved then takeCut cut
    else
      background (.vector c.e.pc false) i e
      trimVl i

/-- VLD (R284). -/
def vldBody (c : VCtx) : Exec Unit := do takeCut (← c.loadAll (c.f.xs = 0) c.linear fun _ => [])

/-- VLDFF (R285). -/
def vldffBody (c : VCtx) : Exec Unit := do c.endFirst (← c.loadAll (c.f.xs = 0) c.linear fun _ => [])

/-- The index operand read, and its words' data errors. -/
def VCtx.indices (c : VCtx) : Exec (Nat × Reads) := do
  c.checkIndex
  return (← c.read c.f.vs2.toNat c.indexGroup, fun i => [(c.f.vs2.toNat, Wf.iwOf c.f, i)])

/-- VLDX (R287). -/
def vldxBody (c : VCtx) : Exec Unit := do
  let (idx, extra) ← c.indices
  let cut ← c.loadAll false (fun i _ => c.indexAt idx (fmtWidth c.f.fmt.toNat / 8) i) extra
  if c.f.fn.toNat / 2 % 2 = 1 then c.endFirst cut else takeCut cut

/-! ### The stores (R284, R288, R289) -/

/-- Element or record stores. -/
def VCtx.storeAll (c : VCtx) (wt ordered : Bool) (at_ : Nat → Nat → Int) (extra : Reads) : Exec Unit := do
  let fmt := c.f.fmt.toNat
  c.checkVl fmt
  c.checkGroup c.f.vd.toNat 1
  if fmtIsBlock fmt then takeCut (← c.storeBlock wt ordered at_ extra)
  else
    let x ← c.e.ctx
    let w := fmtWidth fmt
    let v ← c.read c.f.vd.toNat 1
    takeCut (← c.storeEls c.scope wt ordered c.actives (fun i => do
      let acc ← checkAccess x (at_ i (i * (w / 8))) (w / 8) (w / 8) .write
      c.cleanAt ((c.f.vd.toNat, w, i) :: extra i)
      return some acc) fun i => elemAt v i w)

/-- VST (R284): the highest element wins at a common byte. -/
def vstBody (c : VCtx) : Exec Unit := c.storeAll (c.f.fn = 1) true c.linear fun _ => []

/-- VSTX (R288). -/
def vstxBody (c : VCtx) : Exec Unit := do
  let (idx, extra) ← c.indices
  c.storeAll (c.f.vs3.toNat / 2 % 2 = 1) (c.f.fn.toNat / 2 % 2 = 1)
    (fun i _ => c.indexAt idx (fmtWidth c.f.fmt.toNat / 8) i) extra

/-- VSTXA (R289): one indivisible addition per active element. -/
def vstxaBody (c : VCtx) : Exec Unit := do
  let fmt := c.f.fmt.toNat
  let w := fmtWidth fmt
  c.checkVl fmt
  c.checkGroup c.f.vd.toNat 1
  let (idx, extra) ← c.indices
  let x ← c.e.ctx
  let v ← c.read c.f.vd.toNat 1
  let (oks, cut) ← phase id (fun i => do
    let acc ← checkAccess x (c.indexAt idx (w / 8) i) (w / 8) (w / 8) .write
    c.cleanAt ((c.f.vd.toNat, w, i) :: extra i)
    return acc) c.actives
  forAll oks fun (_, a) => awaitNear x c.isNear a
  let (_, cut2) ← phase (fun o : Nat × Access => o.1) (fun (i, a) => do
    let old ← readAccess x c.isNear true a
    writeAccess x c.isNear false ((old + elemAt v i w) % 2 ^ w) a
    narrowAcc c.scope a) oks
  settleStores c.isNear c.scope (oks.map (·.2))
  takeCut (cut2.or cut)

/-- VLD (R284). -/
def execVld (f : VForm) (s : State) : Host.Outcome State Fault Refusal := plainStep (.vld f) f vldBody s
/-- VLDFF (R285). -/
def execVldff (f : VForm) (s : State) : Host.Outcome State Fault Refusal := plainStep (.vldff f) f vldffBody s
/-- VLDX (R287). -/
def execVldx (f : VForm) (s : State) : Host.Outcome State Fault Refusal := plainStep (.vldx f) f vldxBody s
/-- VST (R284). -/
def execVst (f : VForm) (s : State) : Host.Outcome State Fault Refusal := plainStep (.vst f) f vstBody s
/-- VSTX (R288). -/
def execVstx (f : VForm) (s : State) : Host.Outcome State Fault Refusal := plainStep (.vstx f) f vstxBody s
/-- VSTXA (R289). -/
def execVstxa (f : VForm) (s : State) : Host.Outcome State Fault Refusal := plainStep (.vstxa f) f vstxaBody s

end Sys2Proof.Machine
end

