-- ==== Sys2Proof/Machine/VecHandle.lean ====
section
/-! DEFINITION. Loads and stores through handles: coordinates, clipping, element addresses in each layout, and redirection
to the old or new storage of a conversion (R256, R295, R298 to R301, R328, R332). -/

namespace Sys2Proof.Machine

open Sys2Proof

/-- ⌈a / b⌉. -/
def ceilDiv (a b : Nat) : Nat := (a + b - 1) / b

/-- A local element: its four coordinates. -/
structure Loc where
  l0 : Nat
  l1 : Nat
  l2 : Nat
  l3 : Nat
  deriving DecidableEq, Repr

/-- The address of a local element under a tag other than KVB, its element bytes (or, for Q128, its record's) given (R295). -/
def Handle.addr (h : Handle) (tag base e rb : Nat) (l : Loc) : Nat :=
  let outer (a b : Nat) := base + a * e + b * h.pitch1.toNat + l.l2 * h.pitch2.toNat + l.l3 * h.pitch2.toNat * h.ext 2
  let tiled (t : Nat) :=
    let q0 := ceilDiv (h.ext 0) t
    base + e * (t ^ 2 * (ceilDiv (h.ext 1) t * q0 * (l.l3 * h.ext 2 + l.l2) + l.l1 / t * q0 + l.l0 / t) +
      t * (l.l1 % t) + l.l0 % t)
  match tag with
  | 0 => outer l.l0 l.l1
  | 1 => outer l.l1 l.l0
  | 2 => tiled 128
  | 3 => tiled 32
  | _ => base + rb * (128 * (h.ext 0 / 128 * (ceilDiv (h.ext 1) 128 * (l.l3 * h.ext 2 + l.l2) + l.l1 / 128) + l.l0 / 128) +
      l.l1 % 128)

/-- The tile of a local element (R328). -/
def Handle.tileOf (h : Handle) (l : Loc) : Nat :=
  ((l.l3 * h.ext 2 + l.l2) * ceilDiv (h.ext 1) 128 + l.l1 / 128) * ceilDiv (h.ext 0) 128 + l.l0 / 128

/-- TAG and BASE an inside element is addressed with (R300): the old ones while its tile is not NEW. -/
def State.layoutOf (s : State) (h : Handle) (l : Loc) : Nat × Nat :=
  match Tab.find s.convs h.impid.toNat with
  | some c => if h.impid ≠ 0 && c.ndone ≤ h.tileOf l then (h.oldTag.toNat, h.oldBase.toNat) else (h.tag.toNat, h.base.toNat)
  | none => (h.tag.toNat, h.base.toNat)

/-- The tile of an inside element is CONVERTING (R256, R328). -/
def State.converting (s : State) (h : Handle) (l : Loc) : Bool :=
  match Tab.find s.convs h.impid.toNat with
  | some c => h.impid ≠ 0 && c.ndone = h.tileOf l && c.got ≠ []
  | none => false

/-- The address of an inside element (R295), once its tile is not CONVERTING (R300): KVB reads the block table, whose zero entry leaves the element outside. -/
def elementAddr (x : Ctx) (near : Bool) (h : Handle) (e rb : Nat) (l : Loc) : Exec (Option Int) := do
  await (!(← ask (·.converting h l)))
  let (tag, base) ← ask (·.layoutOf h l)
  if tag = 5 then
    let bt := h.pitch1.toNat
    let acc ← checkAccess x (base + 8 * (l.l1 / bt) : Nat) 8 8 .read
    awaitNear x near acc
    let blk ← readAccess x near false acc
    if blk = 0 then return none else return some (blk + e * ((l.l2 * bt + l.l1 % bt) * h.ext 0 + l.l0) : Nat)
  else return some (h.addr tag base e rb l : Nat)

/-- The coordinates c0 to c3 captured from two x registers (R298). -/
def coordOf (xa xb : Word) (d : Nat) : Nat :=
  match d with
  | 0 => xa.toNat % 2 ^ 32
  | 1 => xa.toNat / 2 ^ 32
  | 2 => xb.toNat % 2 ^ 32
  | _ => xb.toNat / 2 ^ 32

/-- The global coordinate of element i along dimension d (R299). -/
def VCtx.coord (c : VCtx) (i d : Nat) : Nat := coordOf c.e.x2 c.e.x3 d + if d = c.f.fn.toNat % 4 then i else 0

/-- Element i is inside the extents (R299). -/
def VCtx.inside (c : VCtx) (i : Nat) : Bool :=
  let h := c.e.handle
  (List.range 4).all fun d => c.coord i d < 2 ^ 32 && h.goff d ≤ c.coord i d && c.coord i d < h.goff d + h.ext d

/-- The local place of element i. -/
def VCtx.locOf (c : VCtx) (i : Nat) : Loc :=
  let at_ (d : Nat) := c.coord i d - c.e.handle.goff d
  ⟨at_ 0, at_ 1, at_ 2, at_ 3⟩

/-- The VL that VLDH leaves: one past the highest inside element (R299). -/
def VCtx.insideVl (c : VCtx) : Nat :=
  match ((List.range c.vl).reverse).find? c.inside with
  | some i => i + 1
  | none => 0

/-- The checks of R301 and R332 on the captured descriptor; TVAL is the h register's number (R401). -/
def VCtx.checkHandle (c : VCtx) : Exec Unit := do
  let h := c.e.handle
  let n := c.f.vs1.toNat
  let s ← get
  if s.me.badh.contains n then throw (.park 0x16 3 0 0 0 false false)
  if c.start < c.vl && (h.fmt ≠ c.f.fmt || (h.tag = 4 && (c.f.fn.toNat % 4 ≠ 0 || coordOf c.e.x2 c.e.x3 0 % 128 ≠ 0)) ||
      (h.impid ≠ 0 && (Tab.find s.convs h.impid.toNat).isNone)) then
    setVstart 0
    trap 0x02 0 (word n)

/-- The element bytes of an access through the handle, and the record bytes of Q128. -/
def VCtx.elBytes (c : VCtx) : Nat := fmtWidth c.f.fmt.toNat / 8
def VCtx.recordBytes (c : VCtx) : Nat := Fp.recBytes c.f.fmt.toNat 128

/-- The pad of an outside element (R299). -/
def VCtx.padValue (c : VCtx) : Nat := if c.e.handle.pad = 1 then c.e.handle.padv.toNat % 2 ^ fmtWidth c.f.fmt.toNat else 0

/-- The address of element i, when it is to be accessed. -/
def VCtx.handleAddr (c : VCtx) (x : Ctx) (i : Nat) : Exec (Option Int) :=
  if c.inside i then elementAddr x true c.e.handle c.elBytes c.recordBytes (c.locOf i) else return none

/-- The numbers of the 128-element records from VSTART. -/
def VCtx.records128 (c : VCtx) : List Nat := (List.range (ceilDiv c.vl 128)).filter fun k => c.start < (k + 1) * 128

/-- VLDH of Q128 records: each is read whole and checked, or written as the pad record (R299). -/
def VCtx.loadQ128 (c : VCtx) : Exec Cut := do
  let x ← c.e.ctx
  let rb := c.recordBytes
  let fits (k : Nat) : Exec Unit := Sys2Proof.Machine.need ((k + 1) * rb ≤ c.bytes) (.trap 0x02 0 (word k))
  let (ks, _) ← c.haltBefore (· * 128) c.records128
  let (oks, cut) ← phase (· * 128) (fun k => do
    if c.cover (k * 128) 128 = .off then fits k; return none
    else match ← c.handleAddr x (k * 128) with
      | none => do
        fits k
        let _ ← c.recordOn k (k * 128) 128
        return some 0x02000000
      | some a => do
        let v ← c.readRecord x a rb
        fits k
        let _ ← c.recordOn k (k * 128) 128
        if Fp.hdrOk c.f.fmt.toNat (v % 2 ^ 32) then return some v else trap 0x02 0 (addrWord a)) ks
  forAll oks fun (k, v) => match v with
    | some v => putBytes c.bytes c.f.vd.toNat (k * rb) rb v
    | none => pure ()
  return cut

/-- VLDH (R298 to R301). -/
def vldhBody (c : VCtx) : Exec Unit := do
  let fmt := c.f.fmt.toNat
  c.checkVl fmt
  c.checkGroup c.f.vd.toNat 1
  c.checkHandle
  if fmtIsBlock fmt then takeCut (← c.loadQ128)
  else
    let x ← c.e.ctx
    let (vals, cut) ← c.fetch c.scope c.actives fun i => do
      match ← c.handleAddr x i with
      | none => return .value c.padValue
      | some a => return .mem (← checkAccess x a c.elBytes c.elBytes .read)
    c.putEls c.f.vd.toNat (fmtWidth fmt) vals
    takeCut cut
  trimVl c.insideVl

/-- VSTH of Q128 records: those of the source register, each written whole at its first element's record. -/
def VCtx.storeQ128 (c : VCtx) (wt : Bool) : Exec Cut :=
  c.storeRecords wt true fun x q => c.handleAddr x q.first

/-- The tiles whose old storage a handle store reaches, noted in their conversion (R256, R266). -/
def VCtx.noteStored (c : VCtx) : Exec Unit := modify fun s =>
  let h := c.e.handle
  let tiles := (((c.actives.filter c.inside).map fun i => h.tileOf (c.locOf i)).dedup)
  { s with convs := s.convs.map fun (id, v) =>
      if h.impid ≠ 0 && h.impid.toNat = id then (id, { v with stored := (v.stored ++ tiles.filter (v.ndone ≤ ·)).dedup }) else (id, v) }

/-- VSTH (R298 to R301). -/
def vsthBody (c : VCtx) : Exec Unit := do
  let fmt := c.f.fmt.toNat
  let wt := c.f.fn.toNat / 4 % 2 = 1
  c.checkVl fmt
  c.checkGroup c.f.vd.toNat 1
  c.checkHandle
  if fmtIsBlock fmt then
    if c.start < c.vl then takeCut (← c.storeQ128 wt)
  else
    let x ← c.e.ctx
    let w := fmtWidth fmt
    let v ← c.read c.f.vd.toNat 1
    c.noteStored
    takeCut (← c.storeEls c.scope wt true c.actives (fun i => do
      match ← c.handleAddr x i with
      | none => return none
      | some a => do
        let acc ← checkAccess x a c.elBytes c.elBytes .write
        c.cleanAt [(c.f.vd.toNat, w, i)]
        return some acc) fun i => elemAt v i w)

/-- VLDH (R298). -/
def execVldh (f : VForm) (s : State) : Host.Outcome State Fault Refusal := plainStep (.vldh f) f vldhBody s
/-- VSTH (R298). -/
def execVsth (f : VForm) (s : State) : Host.Outcome State Fault Refusal := plainStep (.vsth f) f vsthBody s

end Sys2Proof.Machine
end

