-- ==== Sys2Proof/Machine/Matrix.lean ====
section
/-! DEFINITION. The tile window and the matrix instructions: tile flags, VMMA, VMMAX, VMMAQ, and the moves of accumulators
(R26, R172 to R191). -/

namespace Sys2Proof.Machine

open Sys2Proof

/-! ### Tile flags (R176 to R179) -/

/-- The tile flags NV, OF, UF, SAT of the flags of R105. -/
def packTile (fl : Nat) : BitVec 4 :=
  BitVec.ofNat 4 (fl % 2 + 2 * (fl / 4 % 2) + 4 * (fl / 8 % 2) + 8 * (fl / 32 % 2))

/-- The tile flags in the layout of R176. -/
def tileFlagWord (t : BitVec 4) : Word :=
  word (t.toNat % 2 + 4 * (t.toNat / 2 % 2) + 8 * (t.toNat / 4 % 2) + 32 * (t.toNat / 8))

/-- Arithmetic at the tile: its conditions go to the tile flags, and nothing traps (R177). -/
def tileF {α : Type} (m : Fm α) : Exec α := do
  let h ← me
  let (a, fs) := m { seed := h.srseed }
  setMe { h with srseed := fs.seed, tflags := h.tflags ||| packTile fs.flags }
  return a

/-! ### The window (R26, R172) -/

/-- The key of a row of a core's tile store. -/
def tileKey (core row : Nat) : Nat := core * 128 + row

/-- The element number, in w-bit elements, of element 0 of a window column. -/
def Hart.tileBase (h : Hart) (tcol w : Nat) : Nat := 512 * (h.first.toNat + tcol) / w

/-- A row of the hart's tile store. -/
def tileRow (m : Nat) : Exec Nat := do ask fun s => Tab.get 0 s.tiles (tileKey (coreOf s.cur) m)

/-- Columns of a window row replaced by a function of column and old value, w bits each; words written whole lose their
poison. -/
def tileUpdate (m tcol w : Nat) (cols : List Nat) (op : Nat → Nat → Fm Nat) : Exec Unit := do
  let h ← me
  let b := h.tileBase tcol w
  let k := tileKey (coreOf (← ask (·.cur))) m
  let old ← tileRow m
  let new ← tileF (cols.foldlM (fun r n => do return elemSet r (b + n) w (← op n (elemAt r (b + n) w))) old)
  modify fun s => { s with
    tiles := Tab.put 0 s.tiles k new
    badTile := s.badTile.filter fun (key, wd) =>
      !(key = k && 8 * (h.first.toNat + tcol) ≤ wd && wordWritten w cols (wd - 8 * (h.first.toNat + tcol))) }

/-- A poisoned word under columns of a window row. -/
def tileBad (m tcol w : Nat) (cols : List Nat) : Exec Bool := do
  let s ← get
  let b := s.me.tileBase tcol w
  let k := tileKey (coreOf s.cur) m
  return s.badTile.any fun (key, wd) => key = k && cols.any fun n => (b + n) * w / 64 = wd

/-- The data error of a poisoned register or tile word, at a unit (R424). -/
def dataErrorAt {α : Type} (unit cl : Nat) : Exec α := do
  setVstart unit
  throw (.park 0x16 cl 0 0 0 false false)

/-- Tile rows of a unit read free of poison. -/
def checkTile (unit : Nat) (rows : List Nat) (tcol w : Nat) (cols : List Nat) : Exec Unit :=
  forAll rows fun m => do if ← tileBad m tcol w cols then dataErrorAt unit 3

/-- Register elements of a unit free of poison. -/
def VCtx.checkRegs (c : VCtx) (unit r w : Nat) (els : List Nat) : Exec Unit := do
  match ← c.firstPoison (sameIndex [(r, w)]) els with
  | some (_, cl) => dataErrorAt unit cl
  | none => pure ()

/-- A window column that exists, and a row of `bytes` bytes inside the window (R26). -/
def VCtx.checkWindow (c : VCtx) (bytes : Nat) : Exec Unit := do
  let l := (← me).count.toNat
  let t := c.f.vs3.toNat
  c.need (t < l && bytes ≤ 64 * (l - t))

/-- G. -/
def groupingOf (f : VForm) : Nat := f.g.toNat + 1

/-- The columns selected by the mask. -/
def VCtx.columns (c : VCtx) : List Nat := (List.range c.vl).filter (bitAt c.mask)

/-- The columns of slice s (R180). -/
def VCtx.slice (c : VCtx) (s : Nat) : List Nat := c.columns.filter fun n => n / 128 = s

/-- The passes from VSTART in order (R175, R180): each gives the k-step and the slice. -/
def VCtx.passes (c : VCtx) (f : Nat → Nat → Nat → Exec Unit) : Exec Unit :=
  let p := ceilDiv c.vl 128
  forAll ((List.range (groupingOf c.f * p)).filter c.reaches) fun i => f i (i / p) (i % p)

/-- There is a pass to run. -/
def VCtx.hasPass (c : VCtx) : Bool := c.start < groupingOf c.f * ceilDiv c.vl 128

/-! ### VMMA and VMMAX (R181, R182) -/

/-- The format of VMMA's B operand (R181). -/
def mmaB (fmt fn : Nat) : Nat := if fn = 1 then (if fmt = 4 then 5 else if fmt = 5 then 4 else fmt) else fmt

/-- An accumulator after one step: INT32 saturating, or FP32 with one rounding. -/
def mmaStep (fmt fn a b acc : Nat) : Fm Nat :=
  if fmt = 0 then
    let x : Int := if fn % 2 = 1 then a else Fp.sext a 8
    let y : Int := if fn / 2 % 2 = 1 then b else Fp.sext b 8
    clampF 32 false (Fp.sext acc 32 + x * y)
  else roundF 8 0 (Fp.fma 0 false false (Fp.decode fmt a) (Fp.decode (mmaB fmt fn) b) (Fp.decode 8 acc))

/-- The checks that VMMA and VMMAX share (R186). -/
def VCtx.checkMma (c : VCtx) : Exec Unit := do
  let fb := mmaB c.f.fmt.toNat c.f.fn.toNat
  c.need (c.f.vs2.toNat + groupingOf c.f ≤ c.nregs && c.vl ≤ (← me).vlmax fb)
  c.checkWindow (4 * c.vl)

/-- The passes of VMMA and VMMAX with the A operand given by row and k-step. -/
def VCtx.mmaPasses (c : VCtx) (a : Nat → Nat → Exec Nat) (checkA : Nat → Nat → Exec Unit) : Exec Unit :=
  c.passes fun unit k s => do
    let fmt := c.f.fmt.toNat
    let wb := fmtWidth (mmaB fmt c.f.fn.toNat)
    let cols := c.slice s
    checkA unit k
    c.checkRegs unit (c.f.vs2.toNat + k) wb cols
    checkTile unit (List.range 128) c.f.vs3.toNat 32 cols
    let b ← c.read (c.f.vs2.toNat + k) 1
    forAll (List.range 128) fun m => do
      let x ← a m k
      tileUpdate m c.f.vs3.toNat 32 cols fun n acc => mmaStep fmt c.f.fn.toNat x (elemAt b n wb) acc

/-- VMMA (R181). -/
def vmmaBody (c : VCtx) : Exec Unit := do
  let fmt := c.f.fmt.toNat
  let w := fmtWidth fmt
  c.checkMma
  c.need (c.f.vs1.toNat + groupingOf c.f ≤ c.nregs && 128 ≤ (← me).vlmax fmt)
  c.mmaPasses (fun m k => do return elemAt (← c.read (c.f.vs1.toNat + k) 1) m w)
    (fun unit k => c.checkRegs unit (c.f.vs1.toNat + k) w (List.range 128))

/-- The bytes of a gathered row: range, alignment, the gang's bounds, then the read (R182). -/
def gatherRow (x : Ctx) (a : Int) (n al : Nat) : Exec Access := do
  need (addrOk a n) (.trap 0x04 0 (addrWord a))
  need (a % al = 0) (.trap 0x04 1 (addrWord a))
  need (max windowBase x.splo ≤ a.toNat && a.toNat + n ≤ min x.sphi (windowBase + 0x6000000)) (.trap 0x05 0 (addrWord a))
  return [(a.toNat, n, .scratch (scratchKey (clusterOf x.hart) a.toNat))]

/-- VMMAX (R182): every row is checked before any pass. R182 lists no data error: every row's address is checked before any row is
read, so that a fault of a higher row goes before a poisoned word of a lower one, by the model's choice (log 21). -/
def vmmaxBody (c : VCtx) : Exec Unit := do
  let w := fmtWidth c.f.fmt.toNat
  let n := groupingOf c.f * (w / 8)
  let r := c.f.vs1.toNat
  c.checkMma
  c.need (r < c.nregs && 128 ≤ (← me).vlmax 2)
  if c.hasPass then
    let x ← c.e.ctx
    c.checkRegs 0 r 32 (List.range 128)
    let idx ← c.read r 1
    let (accs, cut) ← phase (fun _ : Nat => 0) (fun m => gatherRow x (c.e.xd.toNat + elemAt idx m 32 : Nat) n (w / 8))
      (List.range 128)
    takeCut cut
    let (rows, cut) ← phase (fun _ : Nat × Access => 0) (fun q => readAccess x true false q.2) accs
    takeCut cut
    let vals := rows.map (·.2)
    c.mmaPasses (fun m k => pure (elemAt (vals.getD m 0) k w)) (fun _ _ => pure ())

/-! ### VMMAQ (R183) -/

/-- The format of VMMAQ's B operand. -/
def mmaqB (fn : Nat) : Nat := match fn % 4 with | 0 => 6 | 1 => 7 | 2 => 4 | _ => 5

/-- The sum of a list of values, exact, with the flags of its steps; the empty sum is +0. -/
def sumVals : List (Fp.Val × Nat) → Fp.Val × Nat
  | [] => (zeroVal, 0)
  | p :: t => t.foldl (fun a q => let r := Fp.add 0 a.1 q.1; (r.1, a.2 ||| q.2 ||| r.2)) p

/-- d of R183 for a record and a column of B. -/
def mmaqDot (fmt hdr : Nat) (codes : List Nat) (bs : List Fp.Val) : Fp.Val × Nat :=
  let q (k : Nat) : Fp.Val := if fmt ≤ 11 then Fp.ofInt (Fp.codeInt fmt k) else Fp.decodeSpec (Fp.spec fmt) k
  let dot := sumVals (List.zipWith (fun k b => Fp.mul (q k) b) codes bs)
  if fmt ≤ 11 then
    let s := sumVals (bs.map fun b => (b, 0))
    let z := Fp.mul (Fp.ofInt (Fp.sext (Fp.hdrZp hdr) 8)) s.1
    let r := Fp.sub 0 dot.1 z.1
    (r.1, dot.2 ||| s.2 ||| z.2 ||| r.2)
  else dot

/-- An accumulator after one block. -/
def mmaqStep (fmt hdr : Nat) (codes : List Nat) (bs : List Fp.Val) (acc : Nat) : Fm Nat := do
  let d := mmaqDot fmt hdr codes bs
  let p := Fp.mul (Fp.scaleOf hdr) d.1
  let t ← roundF 8 0 (p.1, d.2 ||| p.2)
  roundF 8 0 (Fp.add 0 (Fp.decode 8 acc) (Fp.decode 8 t))

/-- Every header of the A operand checked, lowest register and then lowest record first. -/
def VCtx.checkMmaq (c : VCtx) (bsize size : Nat) : Exec Unit :=
  forAll (List.range (groupingOf c.f)) fun g => do
    let reg ← c.read (c.f.vs1.toNat + g) 1
    forAll (List.range 128) fun m => do
      checkBytes (c.f.vs1.toNat + g) (m * size) 4 0
      let hdr := bytesAt reg (m * size) 4
      if !Fp.hdrOk c.f.fmt.toNat hdr || Fp.hdrBsize hdr ≠ bsize then
        setVstart 0
        trap 0x02 0 (word (g * 128 + m))

/-- VMMAQ (R183). -/
def vmmaqBody (c : VCtx) : Exec Unit := do
  let fmt := c.f.fmt.toNat
  let fb := mmaqB c.f.fn.toNat
  let wb := fmtWidth fb
  let bsize := c.f.fn.toNat / 4
  let b := Fp.blockSize bsize
  let size := Fp.recBytes fmt b
  let g := groupingOf c.f
  let mx := (← me).vlmax fb
  c.need (c.f.vs1.toNat + g ≤ c.nregs && c.f.vs2.toNat + g ≤ c.nregs && c.vl ≤ mx && 128 * size ≤ c.bytes && b * c.vl ≤ mx)
  c.checkWindow (4 * c.vl)
  if c.hasPass then
    c.checkMmaq bsize size
    c.passes fun unit k s => do
      let cols := c.slice s
      checkBytes (c.f.vs1.toNat + k) 0 (128 * size) unit
      c.checkRegs unit (c.f.vs2.toNat + k) wb (cols.flatMap fun n => (List.range b).map fun j => j * c.vl + n)
      checkTile unit (List.range 128) c.f.vs3.toNat 32 cols
      let a ← c.read (c.f.vs1.toNat + k) 1
      let bv ← c.read (c.f.vs2.toNat + k) 1
      forAll (List.range 128) fun m => do
        let rec_ := bytesAt a (m * size) size
        let codes := (List.range b).map (Fp.codeAt fmt rec_)
        tileUpdate m c.f.vs3.toNat 32 cols fun n acc =>
          mmaqStep fmt (rec_ % 2 ^ 32) codes ((List.range b).map fun j => Fp.decode fb (elemAt bv (j * c.vl + n) wb)) acc

/-! ### Moving accumulators (R174, R187 to R190) -/

/-- ROW0 and NROWS of a row word (R174). -/
def rowFirst (x : Word) : Nat := x.toNat % 128
def rowCount (x : Word) : Nat := x.toNat / 256 % 256

/-- The rows of the row word exist (R174). -/
def VCtx.checkRows (c : VCtx) : Exec Unit := c.need (rowFirst c.e.x2 + rowCount c.e.x2 ≤ 128)

/-- The rows from VSTART. -/
def VCtx.rowsLeft (c : VCtx) : List Nat := (List.range (rowCount c.e.x2)).filter c.reaches

/-- Into the tile with CVT (R188). -/
def intoTile (fmt rm a : Nat) : Fm Nat :=
  if fmtIsInt fmt then do
    let _ ← randomBits rm
    clampF 32 false (Fp.sext a (fmtWidth fmt))
  else convertF 8 rm false false (Fp.decode fmt a)

/-- Out of the tile with CVT (R188). -/
def outOfTile (fmt rm acc : Nat) : Fm Nat :=
  if fmtIsInt fmt then do
    let _ ← randomBits rm
    clampF (fmtWidth fmt) false (Fp.sext acc 32)
  else convertF fmt rm false false (Fp.decode 8 acc)

/-- Width of a tile element of TLD, TST and TMOV. -/
def tileW (fmt : Nat) (cvt : Bool) : Nat := if cvt then 32 else fmtWidth fmt

/-- The rounding mode in FN[3:1] of TLD and TST, DYN taken at entry (R187, R99). -/
def VCtx.tileRm (c : VCtx) : Nat := if c.f.fn.toNat / 2 = 6 then c.e.dyn.toNat else c.f.fn.toNat / 2

/-- The checks of TLD and TST, and the addresses of a row's elements. -/
def VCtx.checkTmem (c : VCtx) : Exec Unit := do
  let fmt := c.f.fmt.toNat
  c.need (!(c.f.fn.toNat / 2 = 6 && c.e.dyn.toNat ≥ 6))
  c.checkVl fmt
  c.checkRows
  c.checkWindow (c.vl * tileW fmt (c.f.fn.toNat % 2 = 1) / 8)

/-- The checked accesses of a row's selected elements. The row is the element (R187): its address, and its bytes up to the
last selected element, pass each step of R269 before the next step; a row with no selected element is not checked. -/
def VCtx.rowAccess (c : VCtx) (x : Ctx) (r : Nat) (k : Kind) : Exec (List (Nat × Access)) := do
  let e := fmtWidth c.f.fmt.toNat / 8
  let a : Int := c.base + r * c.e.xd.toInt
  match c.columns.getLast? with
  | none => return []
  | some last =>
    Machine.need (addrOk a ((last + 1) * e)) (.trap 0x04 0 (addrWord a))
    Machine.need (a % e = 0) (.trap 0x04 1 (addrWord a))
    match c.columns.findSome? fun n => outOfBounds x (a.toNat + n * e) e with
    | some b => trap 0x05 0 (word b)
    | none => each c.columns fun n => do return (n, ← checkAccess x (a + (n * e : Nat)) e e k)

/-- TLD (R187). -/
def tldBody (c : VCtx) : Exec Unit := do
  let fmt := c.f.fmt.toNat
  let cvt := c.f.fn.toNat % 2 = 1
  c.checkTmem
  let x ← c.e.ctx
  let (oks, cut) ← phase id (fun r => c.rowAccess x r .read) (if c.vl = 0 then [] else c.rowsLeft)
  forAll oks fun (_, l) => forAll l fun (_, a) => awaitNear x true a
  let (rows, cut2) ← phase (fun o : Nat × List (Nat × Access) => o.1) (fun o => each o.2 fun (n, a) => do
    let v ← readAccess x true false a
    narrowAcc c.scope a
    return (n, v)) oks
  forAll rows fun ((r, _), vals) =>
    tileUpdate (rowFirst c.e.x2 + r) c.f.vs3.toNat (tileW fmt cvt) (vals.map (·.1)) fun n _ =>
      let v := (Tab.find vals n).getD 0
      if cvt then intoTile fmt c.tileRm v else pure v
  takeCut (cut2.or cut)

/-- Selected elements of a tile row as memory or vector elements of the format. -/
def VCtx.tileOut (c : VCtx) (r rm : Nat) (cvt : Bool) : Exec (List (Nat × Nat)) := do
  let fmt := c.f.fmt.toNat
  let w := tileW fmt cvt
  let b := (← me).tileBase c.f.vs3.toNat w
  let row ← tileRow (rowFirst c.e.x2 + r)
  tileF (c.columns.mapM fun n => do
    let v := elemAt row (b + n) w
    return (n, ← if cvt then outOfTile fmt rm v else pure v))

/-- TST (R187): rows in rising order, the last writer of a byte winning. -/
def tstBody (c : VCtx) : Exec Unit := do
  let cvt := c.f.fn.toNat % 2 = 1
  c.checkTmem
  let x ← c.e.ctx
  let (oks, cut) ← phase id (fun r => do
    let l ← c.rowAccess x r .write
    if ← tileBad (rowFirst c.e.x2 + r) c.f.vs3.toNat (tileW c.f.fmt.toNat cvt) c.columns then
      throw (.park 0x16 3 0 0 0 false false)
    return l) (if c.vl = 0 then [] else c.rowsLeft)
  forAll oks fun (_, l) => forAll l fun (_, a) => awaitNear x true a
  forAll oks fun (r, l) => do
    let vals ← c.tileOut r c.tileRm cvt
    forAll l fun (n, a) => do
      writeAccess x true false ((Tab.find vals n).getD 0) a
      narrowAcc c.scope a
  atScope c.scope
  takeCut cut

/-- The vector element that tile element (r, n) pairs with (R189). -/
def VCtx.pairOf (c : VCtx) (r n : Nat) : Nat :=
  if c.f.fn.toNat / 4 % 2 = 1 then n * rowCount c.e.x2 + r else r * c.vl + n

/-- TMOV (R189). -/
def tmovBody (c : VCtx) : Exec Unit := do
  let fmt := c.f.fmt.toNat
  let w := fmtWidth fmt
  let cvt := c.f.fn.toNat / 2 % 2 = 1
  let tv := c.f.fn.toNat % 2 = 1
  let reg := if tv then c.f.vd.toNat else c.f.vs1.toNat
  let g := groupSize (rowCount c.e.x2 * c.vl) w c.bytes
  c.checkVl fmt
  c.checkRows
  c.checkWindow (c.vl * tileW fmt cvt / 8)
  c.checkGroup reg g
  if c.vl ≠ 0 then
    forAll c.rowsLeft fun r => do
      if tv then
        checkTile r [rowFirst c.e.x2 + r] c.f.vs3.toNat (tileW fmt cvt) c.columns
        let vals ← c.tileOut r c.rm cvt
        let old ← c.read reg g
        c.write reg g (vals.foldl (fun v (n, x) => elemSet v (c.pairOf r n) w x) old) w (c.columns.map (c.pairOf r))
      else
        c.checkRegs r reg w (c.columns.map (c.pairOf r))
        let v ← c.read reg g
        tileUpdate (rowFirst c.e.x2 + r) c.f.vs3.toNat (tileW fmt cvt) c.columns fun n _ =>
          let x := elemAt v (c.pairOf r n) w
          if cvt then intoTile fmt c.rm x else pure x

/-- TZERO (R190). -/
def tzeroBody (c : VCtx) : Exec Unit := do
  c.checkVl 2
  c.checkRows
  c.checkWindow (4 * c.vl)
  forAll c.rowsLeft fun r => tileUpdate (rowFirst c.e.x2 + r) c.f.vs3.toNat 32 c.columns fun _ _ => pure 0

/-- TFLAGS (R179). -/
def tflagsBody (c : VCtx) : Exec Unit := do
  c.needStart0
  let h ← me
  c.putX (tileFlagWord h.tflags)
  if c.f.fn = 0 then modMe fun h => { h with tflags := 0 }

/-- VMMA (R181). -/
def execVmma (f : VForm) (s : State) : Host.Outcome State Fault Refusal := plainStep (.vmma f) f vmmaBody s
/-- VMMAX (R182). -/
def execVmmax (f : VForm) (s : State) : Host.Outcome State Fault Refusal := plainStep (.vmmax f) f vmmaxBody s
/-- VMMAQ (R183). -/
def execVmmaq (f : VForm) (s : State) : Host.Outcome State Fault Refusal := plainStep (.vmmaq f) f vmmaqBody s
/-- TLD (R187). -/
def execTld (f : VForm) (s : State) : Host.Outcome State Fault Refusal := plainStep (.tld f) f tldBody s
/-- TST (R187). -/
def execTst (f : VForm) (s : State) : Host.Outcome State Fault Refusal := plainStep (.tst f) f tstBody s
/-- TMOV (R189). -/
def execTmov (f : VForm) (s : State) : Host.Outcome State Fault Refusal := plainStep (.tmov f) f tmovBody s
/-- TZERO (R190). -/
def execTzero (f : VForm) (s : State) : Host.Outcome State Fault Refusal := plainStep (.tzero f) f tzeroBody s
/-- TFLAGS (R179). -/
def execTflags (f : VForm) (s : State) : Host.Outcome State Fault Refusal := plainStep (.tflags f) f tflagsBody s

end Sys2Proof.Machine
end

