-- ==== Sys2Proof/Machine/Attention.lean ====
section
/-! DEFINITION. Attention slots: VSOFT and VSMERGE (R192 to R197). -/

namespace Sys2Proof.Machine

open Sys2Proof

/-- An attention slot as FP32 encodings (R192): the maximum, the denominator pair, and the o values. -/
structure Slot where
  m  : Nat
  hi : Nat
  lo : Nat
  o  : List Nat
  deriving DecidableEq, Repr

def f32 (b : Nat) : Fp.Val := Fp.decode 8 b
def nan32 : Nat := (Fp.spec 8).nan
def negInf32 : Nat := Fp.signBit (Fp.spec 8) true + (Fp.spec 8).inf

/-- The slot that a NaN leaves. -/
def nanSlot (d : Nat) : Slot := ⟨nan32, nan32, nan32, List.replicate d nan32⟩

/-- Slot u at window column tcol, read. -/
def readSlot (tcol u d : Nat) : Exec Slot := do
  let b := (← me).tileBase tcol 32 + u
  let at_ (m k : Nat) : Exec Nat := do return elemAt (← tileRow m) k 32
  return ⟨← at_ 0 (b + 16), ← at_ 1 (b + 16), ← at_ 2 (b + 16), ← each (List.range d) fun j => at_ j b⟩

/-- A slot written. -/
def writeSlot (tcol u : Nat) (s : Slot) : Exec Unit := do
  forAll s.o.zipIdx fun (v, j) => tileUpdate j tcol 32 [u] fun _ _ => pure v
  forAll [(0, s.m), (1, s.hi), (2, s.lo)] fun (m, v) => tileUpdate m (tcol + 1) 32 [u] fun _ _ => pure v

/-- A slot's words free of poison. -/
def checkSlot (tcol u d : Nat) : Exec Unit := do
  checkTile 0 (List.range d) tcol 32 [u]
  checkTile 0 [0, 1, 2] (tcol + 1) 32 [u]

/-- The larger of two values that are not NaN; of −0 and +0 the first, which R193 and R195 leave open (log 21). -/
def maxOf (a b : Nat) : Nat := if (f32 a).lt (f32 b) then b else a

/-- 2^(a − b) rounded to FP32, or 1 for equal values (R193). -/
def weight (a b : Nat) : Fm Fp.Val := do
  if a = b || (f32 a).eq (f32 b) then return oneVal
  else return f32 (← roundF 8 0 (exp2sub 0 (f32 a) (f32 b)))

/-- A term added to the denominator pair. -/
def addPair (hi lo : Nat) (p : Fp.Val) : Fm (Nat × Nat) := do
  let t := Fp.add 0 (f32 hi) p
  let hi' ← roundF 8 0 t
  let r := Fp.sub 0 t.1 (f32 hi')
  let l := Fp.add 0 (f32 lo) r.1
  let lo' ← roundF 8 0 (l.1, r.2 ||| l.2)
  return (hi', lo')

/-- The slot scaled by alpha. -/
def rescale (alpha : Fp.Val) (s : Slot) : Fm Slot := do
  let t := Fp.mul (f32 s.hi) alpha
  let hi ← roundF 8 0 t
  let r := Fp.sub 0 t.1 (f32 hi)
  let q := Fp.mul (f32 s.lo) alpha
  let l := Fp.add 0 q.1 r.1
  let lo ← roundF 8 0 (l.1, q.2 ||| r.2 ||| l.2)
  let o ← s.o.mapM fun v => roundF 8 0 (Fp.mul (f32 v) alpha)
  return { s with hi := hi, lo := lo, o := o }

/-- A key's score x and value row applied to the slot; the second component is 1 when its weight vanished. -/
def addKey (fv pf mn : Nat) (x : Nat) (row : List Nat) (s : Slot) : Fm (Slot × Nat) := do
  let zero := (f32 x).isInf
  let e := if zero then (zeroVal, 0) else exp2sub 0 (f32 x) (f32 mn)
  let p ← convertF pf 0 false false e.1
  let pv := Fp.decode pf p
  let (hi, lo) ← addPair s.hi s.lo pv
  let o ← (List.zip s.o row).mapM fun (v, w) => roundF 8 0 (Fp.fma 0 false false pv (Fp.decode fv w) (f32 v))
  return ({ s with hi := hi, lo := lo, o := o }, if pv.isZero && !e.1.isZero then 1 else 0)

/-- VSOFT on a slot (R193): the keys as (score, value row) in order; the slot and the weights that vanished. -/
def softF (fv : Nat) (p8 : Bool) (d : Nat) (old : Slot) (keys : List (Nat × List Nat)) : Fm (Slot × Nat) := do
  if (f32 old.m).isNan || keys.any (fun k => (f32 k.1).isNan || ((f32 k.1).isInf && !(f32 k.1).neg)) then
    raise Fp.NV
    return (nanSlot d, 0)
  else
    let mn := keys.foldl (fun a k => maxOf a k.1) old.m
    let alpha ← weight old.m mn
    let s ← rescale alpha old
    let (s, uf) ← keys.foldlM (fun (s, uf) k => do
      let (s, u) ← addKey fv (if p8 then 4 else 6) mn k.1 k.2 s
      return (s, uf + u)) (s, 0)
    return ({ s with m := mn }, uf)

/-- VSOFT (R193). -/
def vsoftBody (c : VCtx) : Exec Unit := do
  let fv := c.f.fmt.toNat
  let w := fmtWidth fv
  let d := 16 * groupingOf c.f
  let tcol := c.f.vs3.toNat
  let u := c.f.vd.toNat
  let g := groupSize (c.vl * d) w c.bytes
  let rs := c.f.vs1.toNat
  let rv := c.f.vs2.toNat
  c.needStart0
  c.checkVl 8
  c.need (rs < c.nregs && tcol + 1 < (← me).count.toNat)
  c.checkGroup rv g
  c.need (!overlaps rv g rs 1)
  if c.vl ≠ 0 then
    let first := c.f.fn.toNat % 2 = 1
    c.checkRegs 0 rs 32 c.actives
    c.checkRegs 0 rv w (c.actives.flatMap fun i => (List.range d).map fun j => i * d + j)
    if !first then checkSlot tcol u d
    let xs ← c.read rs 1
    let vs ← c.read rv g
    let old ← if first then pure ⟨negInf32, 0, 0, List.replicate d 0⟩ else readSlot tcol u d
    let (s, uf) ← tileF (softF fv (c.f.fn.toNat / 2 = 1) d old
      (c.actives.map fun i => (elemAt xs i 32, (List.range d).map fun j => elemAt vs (i * d + j) w)))
    writeSlot tcol u s
    modMe fun h => { h with ufcount := word (min (h.ufcount.toNat + uf) (2 ^ 64 - 1)) }

/-- Two partial states combined (R195). -/
def mergeF (d : Nat) (a b : Slot) : Fm Slot := do
  if (f32 a.m).isNan || (f32 b.m).isNan then
    raise Fp.NV
    return nanSlot d
  else
    let mn := maxOf a.m b.m
    let a1 ← weight a.m mn
    let a2 ← weight b.m mn
    let h1 := Fp.add 0 (f32 a.hi) (f32 a.lo)
    let h2 := Fp.add 0 (f32 b.hi) (f32 b.lo)
    let p1 := Fp.mul h1.1 a1
    let p2 := Fp.mul h2.1 a2
    let t := Fp.add 0 p1.1 p2.1
    let hi ← roundF 8 0 (t.1, h1.2 ||| h2.2 ||| p1.2 ||| p2.2 ||| t.2)
    let lo ← roundF 8 0 (Fp.sub 0 t.1 (f32 hi))
    let o ← (List.zip a.o b.o).mapM fun (x, y) => do
      let q1 := Fp.mul (f32 x) a1
      let q2 := Fp.mul (f32 y) a2
      let r := Fp.add 0 q1.1 q2.1
      roundF 8 0 (r.1, q1.2 ||| q2.2 ||| r.2)
    return ⟨mn, hi, lo, o⟩

/-- VSMERGE (R195). -/
def vsmergeBody (c : VCtx) : Exec Unit := do
  let d := 16 * groupingOf c.f
  let tcol := c.f.vs3.toNat
  c.needStart0
  c.need (c.vl ≤ 16 && tcol + 1 < (← me).count.toNat)
  forAll c.actives fun k => checkSlot tcol k d
  let slots ← each c.actives fun k => readSlot tcol k d
  match slots with
  | [] => pure ()
  | s :: t =>
    let r ← tileF (t.foldlM (mergeF d) s)
    writeSlot tcol c.f.vd.toNat r

/-- VSOFT (R193). -/
def execVsoft (f : VForm) (s : State) : Host.Outcome State Fault Refusal := plainStep (.vsoft f) f vsoftBody s
/-- VSMERGE (R195). -/
def execVsmerge (f : VForm) (s : State) : Host.Outcome State Fault Refusal := plainStep (.vsmerge f) f vsmergeBody s

end Sys2Proof.Machine
end

