-- ==== Sys2Proof/Machine/Flume.lean ====
section
/-! DEFINITION. Engine jobs and the Flume: declared regions, streams, paged streams, copies and folds, VLS, and the moves
of the Flume's own (R252 to R254, R302 to R316). -/

namespace Sys2Proof.Machine

open Sys2Proof

/-! ### Jobs (R252, R253, R303) -/

/-- Regions of a job: first 128-byte line, one past the last line, written. -/
abbrev Regions := List (Nat × Nat × Bool)

/-- The region of the bytes from lo to hi − 1. -/
def region (lo hi : Int) (written : Bool) : Regions :=
  if lo < hi then [((lo / 128).toNat, ((hi + 127) / 128).toNat, written)] else []

/-- A region of one list overlaps one of the other, and one of the two is written. -/
def Regions.meet (a b : Regions) : Bool :=
  a.any fun (l, h, w) => b.any fun (l', h', w') => (w || w') && l < h' && l' < h

/-- Every stream, on its core or saved with its hart. -/
def State.allStreams (s : State) : List Stream :=
  s.streams.map (·.2) ++ s.gangs.flatMap fun (_, g) => g.saved.flatMap fun x => x.streams.map (·.2)

/-- A job is done: every element or tile of it, its round, or it is gone. A PROG that an FLPAGED still owes does not count: R252
puts every store before the report and R310 makes these after CONSUMED, and the model takes the fetches for the job (log 18). -/
def State.jobDone (s : State) (job : Nat) : Bool :=
  s.allStreams.all (fun x => x.job ≠ job || x.avl ≤ x.fetched) &&
  s.convs.all (fun (_, c) => c.job ≠ job || c.tiles ≤ c.ndone) &&
  s.rounds.all fun (_, r) => r.ended || r.parts.all fun p => p.job ≠ job

/-- The jobs of a hart in flight whose regions meet those of a new one (R253). -/
def State.earlierJobs (s : State) (hart : Nat) (r : Regions) : List Nat :=
  ((s.streamsOf hart).filterMap fun (_, x) => if x.fetched < x.avl && Regions.meet x.regions r then some x.job else none) ++
  (s.convs.filterMap fun (_, c) =>
    if c.hart = hart && c.asHart.gang = (s.hart hart).gang && c.accepted && c.ndone < c.tiles && Regions.meet c.regions r then
      some c.job
    else none) ++ s.rounds.flatMap fun (_, q) => if q.ended then [] else q.parts.filterMap fun p =>
    if p.hart = hart && p.gang = (s.hart hart).gang && Regions.meet p.regions r then some p.job else none

/-- The jobs of the hart in flight that the regions meet are done (R214, R253). -/
def awaitJobs (r : Regions) : Exec Unit := do
  let s ← get
  await ((s.earlierJobs s.cur r).all s.jobDone)

/-! ### Starting streams (R306, R309 to R311, R314) -/

/-- The key of the stream an instruction names. -/
def VCtx.sid (c : VCtx) : Exec Nat := do return coreOf (← ask (·.cur)) * 16 + c.f.fn.toNat

/-- The stream an instruction names, if it is live; illegal when another hart owns it, a suspended one too (R305, R314). -/
def VCtx.ownStream (c : VCtx) : Exec (Option Stream) := do
  let s ← get
  let key ← c.sid
  let x := Tab.find s.streams key
  match x with
  | some y => c.need (y.owner = s.cur)
  | none => c.need ((s.gangs.flatMap fun (_, g) => g.saved.flatMap (·.streams)).all fun (k, _) => k ≠ key)
  return x

/-- The streams of suspended harts of a core: they keep their numbers (R305). -/
def State.savedStreams (s : State) (core : Nat) : List (Nat × Stream) :=
  s.gangs.flatMap fun (_, g) => if g.core = core then g.saved.flatMap (·.streams) else []

/-- The number an instruction starts a stream under: no suspended hart owns it, and with all 16 live, its own hart's among
them, the instruction waits until one is freed (R314). -/
def VCtx.freeSid (c : VCtx) : Exec Unit := do
  let _ ← c.ownStream
  let core ← ask (coreOf ·.cur)
  let s ← get
  await ((s.streams.filter fun (k, _) => k / 16 = core).length + (s.savedStreams core).length < 16)

/-- The strip buffer of the word in x(xF): address and bytes (R306, R314). -/
def stripBuffer (c : VCtx) : Exec (Nat × Nat) := do
  let v := c.e.xd.toNat
  let n := bits v 47 32
  need (v / 2 ^ 48 = 0 && 1 ≤ n && n ≤ 8192 && v % 64 = 0) (.trap 0x02 0 (word (c.f.vd.toNat % 32)))
  let a := windowBase + v % 2 ^ 32
  let x ← c.e.ctx
  match outOfBounds x a (64 * n) with
  | some b => trap 0x05 0 (word b)
  | none => return (a, 64 * n)

/-- A stream started: any one of the hart under its number is stopped first, and it waits for the jobs it meets. The answer
says when its token is pushed. -/
def startStream (c : VCtx) (mk : Nat → Stream) : Exec Retire := do
  let key ← c.sid
  stopStream key
  let x := mk (← nextFresh)
  let later := c.f.tpsh = 1 && 0 < x.avl
  let token := if later then some (pushFifo c.e.instr c.f) else none
  modify fun s =>
    let y : Stream := { x with after := s.earlierJobs s.cur x.regions, token := token }
    { s with streams := Tab.set s.streams key y }
  return if x.avl = 0 then .now else .later

/-- The span of n elements of `e` bytes from `a` at a stride (R304). -/
def spanRegion (a : Int) (n : Nat) (stride : Int) (e : Nat) (written : Bool) : Regions :=
  if n = 0 then [] else
    let z := a + (n - 1 : Nat) * stride
    region (min a z) (max a z + e) written

/-- FLSTREAM (R306). -/
def flstreamBody : Body := fun e f => do
  let c ← issueCtx e f
  let eb := fmtWidth f.fmt.toNat / 8
  c.freeSid
  let (buf, n) ← stripBuffer c
  let s ← get
  let avl := e.x2.toNat
  let stride := e.x3.toInt
  startStream c fun job =>
    { job := job, owner := s.cur, kind := .stream, pc := e.pc, fmt := f.fmt.toNat, avl := avl, buf := buf, cap := n / eb,
      base := e.x1.toNat, stride := stride,
      regions := region buf (buf + n : Nat) true ++ spanRegion e.x1.toNat avl stride eb false }

/-- The fields of FLPAGED's parameter block (R309). -/
structure PagedBlock where
  btab : Nat
  tok0 : Nat
  ntok : Nat
  rowb : Nat
  bt   : Nat
  hstr : Nat
  head : Nat
  prog : Nat
  zero : Bool
  deriving DecidableEq, Repr

def PagedBlock.ofBytes (n : Nat) : PagedBlock where
  btab := bytesAt n 0 8
  tok0 := bytesAt n 8 8
  ntok := bytesAt n 0x10 8
  rowb := bytesAt n 0x18 4
  bt := bytesAt n 0x1C 4
  hstr := bytesAt n 0x20 8
  head := bytesAt n 0x28 4
  prog := bytesAt n 0x30 8
  zero := bytesAt n 0x2C 4 = 0 && bytesAt n 0x38 8 = 0

/-- The first block named, and how many (R310). -/
def PagedBlock.first (p : PagedBlock) : Nat := (p.tok0 + p.prog) / p.bt
def PagedBlock.count (p : PagedBlock) : Nat := if p.prog < p.ntok then (p.tok0 + p.ntok - 1) / p.bt + 1 - p.first else 0

/-- The checks of R310. -/
def PagedBlock.ok (p : PagedBlock) (eb : Nat) : Bool :=
  p.zero && p.rowb % eb = 0 && 8 ≤ p.rowb && p.rowb ≤ 65536 &&
  [16, 32, 64, 128, 256, 512, 1024].contains p.bt && p.prog ≤ p.ntok && p.btab % 8 = 0 && p.count ≤ 4096

/-- An 8-byte or 64-byte read at the place of the instruction. -/
def pagedRead (x : Ctx) (a n : Nat) : Exec Nat := do
  let acc ← checkAccess x a n n .read
  awaitNear x true acc
  readAccess x true false acc

/-- FLPAGED (R310). A PROG that the hart's stream of that number still owes is written before the block is read. -/
def flpagedBody : Body := fun e f => do
  let c ← issueCtx e f
  let eb := fmtWidth f.fmt.toNat / 8
  setVstart 0
  c.freeSid
  let (buf, n) ← stripBuffer c
  settleProg (← c.sid)
  let x ← e.ctx
  let xp := e.x1.toNat
  let p := PagedBlock.ofBytes (← pagedRead x xp 64)
  need (p.ok eb) (.trap 0x02 0 e.x1)
  let blocks ← each (List.range p.count) fun i => pagedRead x (p.btab + 8 * (p.first + i)) 8
  let s ← get
  let rows := blocks.flatMap fun b =>
    if b = 0 then [] else region (b + p.head * p.hstr : Nat) (b + p.head * p.hstr + p.bt * p.rowb : Nat) false
  startStream c fun job =>
    { job := job, owner := s.cur, kind := .paged, pc := e.pc, fmt := f.fmt.toNat, avl := (p.ntok - p.prog) * (p.rowb / eb),
      buf := buf, cap := n / eb, blocks := blocks, bt := p.bt, tok := p.tok0 + p.prog, headOff := p.head * p.hstr,
      rowElems := p.rowb / eb, progAddr := xp + 0x30, prog0 := p.prog,
      regions := region xp (xp + 64 : Nat) false ++ region (xp + 0x30 : Nat) (xp + 0x38 : Nat) true ++
        region (p.btab + 8 * p.first : Nat) (p.btab + 8 * (p.first + p.count) : Nat) false ++
        region buf (buf + n : Nat) true ++ rows }

/-- FLCOPY (R311). -/
def flcopyBody : Body := fun e f => do
  let c ← issueCtx e f
  let eb := fmtWidth f.fmt.toNat / 8
  c.freeSid
  let kind : StreamKind := match f.g.toNat with | 0 => .copy | 1 => .foldo | _ => .foldu
  c.need (kind = .copy || c.rm ≠ 5)
  let s ← get
  let n := e.x2.toNat
  let dn := if kind = .copy then n else min n 1
  startStream c fun job =>
    { job := job, owner := s.cur, kind := kind, pc := e.pc, fmt := f.fmt.toNat, avl := n, base := e.x1.toNat, stride := eb,
      dst := e.xd.toNat, op := f.vs3.toNat, rm := c.rm,
      regions := spanRegion e.x1.toNat n eb eb false ++ spanRegion e.xd.toNat dn eb eb true }

/-! ### Taking elements, waiting, stopping (R308, R312, R313) -/

/-- An element of the strip buffer read by VLS; a poisoned word is its data error. -/
def bufferElem (x : Ctx) (st : Stream) (k : Nat) : Exec Nat := do
  let eb := fmtWidth st.fmt / 8
  let a := st.buf + k % st.cap * eb
  let key := scratchKey (clusterOf x.hart) a
  match ← ask (·.badScratchIn key eb) with
  | some w => throw (.park 0x16 3 (word (windowBase + w * 8 % 2 ^ 27)) 0 0 false false)
  | none => ask (·.scratch.readN key eb)

/-- VLS (R308). -/
def vlsBody (c : VCtx) : Exec Unit := do
  let fmt := c.f.fmt.toNat
  c.checkVl fmt
  c.checkGroup c.f.vd.toNat 1
  c.needStart0
  match ← c.ownStream with
  | none => illegalAtIssue c.e.instr
  | some st =>
    c.need ((st.kind = .stream || st.kind = .paged) && st.fmt = fmt)
    let want := min (min c.vl (st.avl - st.consumed)) st.cap
    let have_ := st.fetched - st.consumed
    await (want ≤ have_ || st.stop ≠ .none)
    let n := min want have_
    if n = 0 && want ≠ 0 then
      match st.stop with
      | .entry id => throw (.parkOn id)
      | .failure code detail value => trap code detail value
      | .none => throw .wait
    let x ← c.e.ctx
    let vals ← each ((List.range n).filter c.active) fun i => do return (i, ← bufferElem x st (st.consumed + i))
    c.putEls c.f.vd.toNat (fmtWidth fmt) vals
    let key ← c.sid
    modify fun s => { s with streams := Tab.set s.streams key { st with consumed := st.consumed + n } }
    trimVl n

/-- FLWAIT (R312). -/
def flwaitBody (c : VCtx) : Exec Unit := do
  match ← c.ownStream with
  | none => c.putX 0
  | some st =>
    let bound := min c.e.x1.toNat st.avl
    if bound ≤ st.fetched then
      if st.avl ≤ st.fetched then
        let key ← c.sid
        modMe fun h => { h with flags := h.flags ||| st.flags }
        modify fun s => { s with streams := Tab.set s.streams key { st with flags := 0 } }
      c.putX (word st.fetched)
    else
      match st.stop with
      | .failure code detail value => trap code detail value
      | _ => throw .wait

/-- FLSTOP (R313). -/
def flstopBody (c : VCtx) : Exec Unit := do
  match ← c.ownStream with
  | none => pure ()
  | some _ => stopStream (← c.sid)

/-! ### The job's own moves (R307, R311) -/

/-- The address of element i; none for an element of a zero block (R310). -/
def Stream.addr (x : Stream) (i : Nat) : Option Int :=
  match x.kind with
  | .paged =>
    let eb := fmtWidth x.fmt / 8
    let t := x.tok + i / x.rowElems
    match x.blocks.getD (t / x.bt - x.tok / x.bt) 0 with
    | 0 => none
    | b => some (b + x.headOff + t % x.bt * (x.rowElems * eb) + i % x.rowElems * eb : Nat)
  | _ => some (x.base + i * x.stride)

/-- A stream may move: not stopped, its core not halting (R303, R366), and the jobs before it done. -/
def State.streamFree (s : State) (key : Nat) (x : Stream) : Bool :=
  x.stop = .none && (Tab.find s.preempts (key / 16)).isNone && x.after.all s.jobDone

/-- A stream replaced; when its last element is in, its token is pushed (R254). -/
def putStream (key : Nat) (x : Stream) : Exec Unit := modify fun s =>
  match x.token with
  | some t =>
    if x.avl ≤ x.fetched then
      { s.putHart x.owner ((s.hart x.owner).pushToken t) with streams := Tab.set s.streams key { x with token := none } }
    else { s with streams := Tab.set s.streams key x }
  | none => { s with streams := Tab.set s.streams key x }

/-- A read of the job. -/
def jobRead (c : Ctx) (a : Int) (n : Nat) : Exec Nat := do
  readAccess c false false (← checkAccess c a n n .read)

/-- A store of the job. -/
def jobWrite (c : Ctx) (a : Int) (n v : Nat) : Exec Unit := do
  writeAccess c false false v (← checkAccess c a n n .write)

/-- Element FETCHED of a STREAM or PAGED job fetched into its slot. -/
def fetchElem (key : Nat) (x : Stream) : Exec Unit := do
  let c ← ask (·.ctx x.owner)
  let eb := fmtWidth x.fmt / 8
  let v ← match x.addr x.fetched with | none => pure 0 | some a => jobRead c a eb
  let k := scratchKey (clusterOf x.owner) (x.buf + x.fetched % x.cap * eb)
  modify fun s =>
    let bad := s.badScratch.filter fun w => !(k ≤ w * 8 && w * 8 + 8 ≤ k + eb)
    { s with scratch := s.scratch.writeN k v eb, badScratch := bad }
  putStream key { x with fetched := x.fetched + 1 }

/-- FLUME FETCH (R307, R310): a pending PROG, which a job that has paused or stopped stores too, or the next element. -/
def flumeFetch (key : Nat) : Exec Unit := do
  let s ← get
  match Tab.find s.streams key with
  | none => pure ()
  | some x =>
    if x.owesProg then tryProg key
    else if (x.kind = .stream || x.kind = .paged) && s.streamFree key x then
      if x.fetched < x.avl && x.fetched < x.consumed + x.cap then
        match ← caught (fetchElem key x) with
        | .ok _ => pure ()
        | .error e => streamFault key x e

/-- A destination element of a copy that overlaps the source span without coinciding (R311). -/
def Stream.blurred (x : Stream) (i : Nat) : Bool :=
  let eb := fmtWidth x.fmt / 8
  x.dst ≠ x.base && x.base < x.dst + i * eb + eb && x.dst + i * eb < x.base + x.avl * eb

/-- Element FETCHED copied; a blurred one takes the value of some source element (R311, log 5). -/
def copyElem (key : Nat) (x : Stream) : Exec Unit := do
  let c ← ask (·.ctx x.owner)
  let eb := fmtWidth x.fmt / 8
  let i := x.fetched
  let v ← jobRead c (x.base + i * eb : Nat) eb
  let v ← if x.blurred i then do
      let j := Config.free (← nextFresh) % x.avl
      match ← caught (jobRead c (x.base + j * eb : Nat) eb) with
      | .ok u => pure u
      | .error _ => pure v
    else pure v
  jobWrite c (x.dst + i * eb : Nat) eb v
  putStream key { x with fetched := i + 1 }

/-- A fold's operation on encodings, with its flags (R311). -/
def Stream.foldOp (x : Stream) (a b : Nat) : Nat × Nat := redOp x.op x.fmt x.rm 0 a b

/-- The tree of R166 over a strip, every element active, with its flags. -/
def Stream.stripTree (x : Stream) (l : List Nat) : Nat × Nat :=
  let d := treeDepth l.length
  let leaves := l ++ List.replicate (2 ^ d - l.length) (redIdentity x.op x.fmt)
  let r := treeUp (redF x.op x.fmt x.rm) d leaves { seed := 1 }
  (r.1, r.2.flags)

/-- Element FETCHED folded (R311): in order, or into its strip, which joins the accumulator when it is whole; the last one
writes the destination element. -/
def foldElem (key : Nat) (x : Stream) : Exec Unit := do
  let c ← ask (·.ctx x.owner)
  let eb := fmtWidth x.fmt / 8
  let i := x.fetched
  let acc ← if i = 0 then jobRead c x.dst eb else pure x.acc
  let v ← jobRead c (x.base + i * eb : Nat) eb
  let l := v :: x.strip
  let (acc, strip, fl) :=
    if x.kind = .foldo then
      let r := x.foldOp acc v
      (r.1, [], r.2)
    else if l.length = 256 || i + 1 = x.avl then
      let t := x.stripTree l.reverse
      let r := x.foldOp acc t.1
      (r.1, [], t.2 ||| r.2)
    else (acc, l, 0)
  if i + 1 = x.avl then jobWrite c x.dst eb acc
  putStream key { x with fetched := i + 1, acc := acc, strip := strip, flags := x.flags ||| BitVec.ofNat 6 fl }

/-- FLUME COPY ELEMENT (R311). -/
def flumeCopy (key : Nat) : Exec Unit := do
  let s ← get
  match Tab.find s.streams key with
  | none => pure ()
  | some x =>
    if x.kind ≠ .stream && x.kind ≠ .paged && s.streamFree key x && x.fetched < x.avl then
      match ← caught (if x.kind = .copy then copyElem key x else foldElem key x) with
      | .ok _ => pure ()
      | .error e => streamFault key x e

/-! ### Tokens (R316) -/

/-- The places in a FIFO reserved by entries held for a trap, which no wait in the handler counts (R406). -/
def Hart.heldResv (h : Hart) (k : Nat) : Nat :=
  (h.held.filter fun e => e.reserved && match e.instr.vForm with | some (_, f) => pushFifo e.instr f = k | none => false).length

/-- Every earlier pushing instruction of the hart has retired: no place is reserved but for held entries. -/
def Hart.allPushed (h : Hart) : Bool := h.resv.all fun (k, n) => n ≤ h.heldResv k

/-- TKCLR (R316): held entries keep their reservations. -/
def tkclrBody (_ : VCtx) : Exec Unit := do
  await (← me).allPushed
  modMe fun h => { h with tokens := [] }

/-- FLSTREAM (R306). -/
def execFlstream (f : VForm) (s : State) : Host.Outcome State Fault Refusal :=
  vectorStep (.flstream f) f noHook flstreamBody s
/-- FLPAGED (R310). -/
def execFlpaged (f : VForm) (s : State) : Host.Outcome State Fault Refusal :=
  vectorStep (.flpaged f) f noHook flpagedBody s
/-- FLCOPY (R311). -/
def execFlcopy (f : VForm) (s : State) : Host.Outcome State Fault Refusal :=
  vectorStep (.flcopy f) f noHook flcopyBody s
/-- VLS (R308). -/
def execVls (f : VForm) (s : State) : Host.Outcome State Fault Refusal := plainStep (.vls f) f vlsBody s
/-- FLWAIT (R312). -/
def execFlwait (f : VForm) (s : State) : Host.Outcome State Fault Refusal := plainStep (.flwait f) f flwaitBody s
/-- FLSTOP (R313). -/
def execFlstop (f : VForm) (s : State) : Host.Outcome State Fault Refusal := plainStep (.flstop f) f flstopBody s
/-- TKCLR (R316). -/
def execTkclr (f : VForm) (s : State) : Host.Outcome State Fault Refusal := plainStep (.tkclr f) f tkclrBody s
/-- FLUME FETCH (R307). -/
def execFlumeFetch (core sid : Nat) (s : State) : Host.Outcome State Fault Refusal :=
  eventStep (flumeFetch (core * 16 + sid % 16)) s
/-- FLUME COPY ELEMENT (R311). -/
def execFlumeCopyElement (core sid : Nat) (s : State) : Host.Outcome State Fault Refusal :=
  eventStep (flumeCopy (core * 16 + sid % 16)) s

end Sys2Proof.Machine
end

