-- ==== Sys2Proof/Machine/Collator.lean ====
section
/-! DEFINITION. The Collator: descriptors, the cursor, the steps of a run, split points, and the six instructions (R202 to
R224). -/

namespace Sys2Proof.Machine

open Sys2Proof

/-! ### Descriptors (R202 to R204, R215) -/

/-- A stream descriptor, given by its 32 bytes. -/
abbrev ClDesc := Nat

def ClDesc.base (d : ClDesc) : Nat := bits d 63 0
def ClDesc.len (d : ClDesc) : Nat := bits d 127 64
def ClDesc.segt (d : ClDesc) : Nat := bits d 191 128
def ClDesc.nseg (d : ClDesc) : Nat := bits d 223 192
def ClDesc.enc (d : ClDesc) : Nat := bits d 231 224
def ClDesc.stf (d : ClDesc) : Nat := bits d 239 232
def ClDesc.reserved (d : ClDesc) : Nat := bits d 255 240

/-- Bytes of a unit (R203) and of a table entry (R204). -/
def ClDesc.unit (d : ClDesc) : Nat := match ClDesc.enc d with | 0 => 4 | 1 => 8 | 2 => 2 | _ => 12
def ClDesc.entry (d : ClDesc) : Nat := match ClDesc.stf d with | 0 => 4 | 1 => 8 | _ => 16

/-- A range that neither passes 2^64 nor leaves the canonical addresses. R215 leaves open whether the end address itself must be
canonical; the model checks the bytes of the range, so that an end of exactly 2^55 is accepted: its choice (log 18). -/
def rangeOk (a n : Nat) : Bool := if n = 0 then canonical a else addrOk a n

/-- CLSET's check of a descriptor: a reserved code, or an address fault's DETAIL and value (R215). -/
inductive DescFault where
  | reserved
  | address (detail : Nat) (value : Word)
  deriving DecidableEq, Repr

def ClDesc.fault (d : ClDesc) : Option DescFault :=
  if 3 < ClDesc.enc d || 2 < ClDesc.stf d || ClDesc.reserved d ≠ 0 || (ClDesc.stf d < 2 && 1 < ClDesc.enc d) then some .reserved
  else if ClDesc.base d % (if ClDesc.enc d = 1 then 8 else 4) ≠ 0 then some (.address 1 (word (ClDesc.base d)))
  else if !rangeOk (ClDesc.base d) (ClDesc.len d * ClDesc.unit d) then some (.address 0 (word (ClDesc.base d)))
  else if ClDesc.nseg d ≠ 0 && !rangeOk (ClDesc.segt d) ((ClDesc.nseg d + 1) * ClDesc.entry d) then
    some (.address 0 (word (ClDesc.segt d)))
  else none

/-! ### The cursor (R211) -/

/-- One side of a cursor: UNIT, ORD, PREV, END, BIT, FLG. -/
structure Side where
  unit : Nat
  ord  : Nat
  prev : Nat
  end_ : Nat
  bit  : Nat
  flg  : Nat
  deriving DecidableEq, Repr

/-- A side is exhausted. -/
def Side.out (s : Side) : Bool := bitAt s.flg 1

/-- The side with its exhausted flag set when no unit is left. -/
def Side.mark (s : Side) : Side := if s.end_ ≤ s.unit then { s with flg := s.flg ||| 2 } else s

/-- The fields of a cursor. -/
structure Cursor where
  adesc : ClDesc
  bdesc : ClDesc
  state : Nat
  mode  : Nat
  cfg   : Nat
  segin : Nat
  seg   : Nat
  segend : Nat
  a     : Side
  b     : Side
  emit  : Nat
  fdet  : Nat
  fcrd  : Nat
  faddr : Nat
  deriving DecidableEq, Repr

/-- A side read from its 34 bytes. -/
def Side.ofNat (n : Nat) : Side where
  unit := bits n 63 0
  ord := bits n 127 64
  prev := bits n 191 128
  end_ := bits n 255 192
  bit := bits n 263 256
  flg := bits n 271 264

def Side.toNat (s : Side) : Nat :=
  s.unit % 2 ^ 64 + 2 ^ 64 * (s.ord % 2 ^ 64) + 2 ^ 128 * (s.prev % 2 ^ 64) + 2 ^ 192 * (s.end_ % 2 ^ 64) +
  2 ^ 256 * (s.bit % 256) + 2 ^ 264 * (s.flg % 256)

/-- A cursor read from its 512 bytes. -/
def Cursor.ofNat (n : Nat) : Cursor where
  adesc := bytesAt n 0 32
  bdesc := bytesAt n 0x20 32
  state := bytesAt n 0x40 1
  mode := bytesAt n 0x41 1
  cfg := bytesAt n 0x42 1
  segin := bytesAt n 0x43 1
  seg := bytesAt n 0x48 8
  segend := bytesAt n 0x50 8
  a := .ofNat (bytesAt n 0x58 34)
  b := .ofNat (bytesAt n 0x80 34)
  emit := bytesAt n 0xA8 8
  fdet := bytesAt n 0xB0 8
  fcrd := bytesAt n 0xB8 8
  faddr := bytesAt n 0xC0 8

def Cursor.toNat (c : Cursor) : Nat :=
  c.adesc % 2 ^ 256 + 2 ^ (8 * 0x20) * (c.bdesc % 2 ^ 256) + 2 ^ (8 * 0x40) * (c.state % 256) +
  2 ^ (8 * 0x41) * (c.mode % 256) + 2 ^ (8 * 0x42) * (c.cfg % 256) + 2 ^ (8 * 0x43) * (c.segin % 256) +
  2 ^ (8 * 0x48) * (c.seg % 2 ^ 64) + 2 ^ (8 * 0x50) * (c.segend % 2 ^ 64) + 2 ^ (8 * 0x58) * c.a.toNat +
  2 ^ (8 * 0x80) * c.b.toNat + 2 ^ (8 * 0xA8) * (c.emit % 2 ^ 64) + 2 ^ (8 * 0xB0) * (c.fdet % 2 ^ 64) +
  2 ^ (8 * 0xB8) * (c.fcrd % 2 ^ 64) + 2 ^ (8 * 0xC0) * (c.faddr % 2 ^ 64)

/-- CLREST's check of a block (R220). A SEGIN of 2 to 255, or an ABIT or BBIT above 63, which neither R211 nor R220 names, is
accepted, a SEGIN other than 0 as entered: the model's choice (log 18). -/
def blockOk (n : Nat) : Bool :=
  let c := Cursor.ofNat n
  bytesAt n 0x44 4 = 0 && bytesAt n 0x7A 6 = 0 && bytesAt n 0xA2 6 = 0 && bytesAt n 0xC8 312 = 0 &&
  c.state ≤ 4 && c.mode < 8 && c.cfg < 4 && c.a.flg < 4 && c.b.flg < 4 &&
  (ClDesc.fault c.adesc).isNone && (ClDesc.fault c.bdesc).isNone

/-- The hart's cursor, and its replacement. -/
def getCursor : Exec Cursor := do return .ofNat (← me).cursor
def setCursor (c : Cursor) : Exec Unit := modMe fun h => { h with cursor := c.toNat }

/-- Both sides marked. -/
def Cursor.mark (c : Cursor) : Cursor := { c with a := c.a.mark, b := c.b.mark }

/-- The segment pair has ended, as far as the cursor shows it (R207). -/
def Cursor.ended (c : Cursor) : Bool :=
  match c.mode % 4 with
  | 0 => c.a.out || c.b.out
  | 1 => c.a.out && c.b.out
  | _ => c.a.out

/-- The run past the current pair. -/
def Cursor.nextPair (c : Cursor) : Cursor :=
  { c with seg := c.seg + 1, segin := 0, state := if c.segend ≤ c.seg + 1 then 3 else c.state }

/-! ### Reading a side (R203, R205, R208, R222) -/

/-- An unsorted-index fault: the offending coordinate (none where there is none), the address, and what SKIP does. -/
structure Unsorted where
  crd  : Option Nat
  addr : Nat
  skip : ClSkip
  deriving DecidableEq, Repr

/-- A read of the Collator: a vector load without an alignment (R214, R268). -/
def clRead (x : Ctx) (a n : Nat) : Exec Nat := do
  let acc ← checkAccess x a n 1 .read
  awaitNear x true acc
  readAccess x true false acc

/-- What a side holds next. -/
inductive Look where
  | none                                -- exhausted
  | coord (c : Nat) (s : Side)          -- the next coordinate, and the side past it
  | bad (u : Unsorted)
  deriving DecidableEq, Repr

/-- The lowest set bit of a map, and how many are set. -/
def lowBit (n : Nat) : Nat := ((List.range 64).find? (bitAt n)).getD 64
def popcount (n : Nat) : Nat := ((List.range 64).filter (bitAt n)).length

/-- A side past one coordinate. -/
def Side.past (s : Side) (unit bit crd : Nat) : Side :=
  { s with unit := unit, bit := bit, ord := s.ord + 1, prev := crd, flg := s.flg ||| 1 }

/-- A coordinate checked against the one before it (R205). -/
def Side.check (s : Side) (side addr unit bit crd : Nat) : Look :=
  if bitAt s.flg 0 && crd < s.prev then .bad ⟨some crd, addr, ⟨side, 1, unit, bit, 1⟩⟩ else .coord crd (s.past unit bit crd)

/-- The next coordinate of a side. R222 ranks no kinds where two hold at one coordinate: RANGE goes before DECREASE, and BASE
before DECREASE, by the model's choice (log 18). -/
def look (x : Ctx) (d : ClDesc) (side : Nat) (s : Side) : Exec Look := do
  if s.out then return .none
  else
    let a := ClDesc.base d + s.unit * ClDesc.unit d
    match ClDesc.enc d with
    | 0 | 1 => return s.check side a (s.unit + 1) s.bit (← clRead x a (ClDesc.unit d))
    | 2 => do
      let u ← clRead x a 2
      if u = 0x8000 then
        if s.end_ < s.unit + 3 then return .bad ⟨none, a, ⟨side, 3, s.unit, s.bit, 0⟩⟩
        else
          let lo ← clRead x (a + 2) 2
          let hi ← clRead x (a + 4) 2
          return s.check side a (s.unit + 3) s.bit (lo + 2 ^ 16 * hi)
      else
        let c : Int := s.prev + Fp.sext u 16
        if c < 0 || 2 ^ 32 ≤ c then return .bad ⟨some (addrWord c).toNat, a, ⟨side, 2, s.unit + 1, s.bit, 1⟩⟩
        else return s.check side a (s.unit + 1) s.bit c.toNat
    | _ => do
      let m ← clRead x a 8
      let left := m / 2 ^ s.bit * 2 ^ s.bit
      if left = 0 then return .none
      else
        let bl ← clRead x (a + 8) 4
        let t := lowBit left
        if s.bit = 0 && bl % 64 ≠ 0 then return .bad ⟨some (bl + t), a, ⟨side, 4, s.unit + 1, 0, popcount m⟩⟩
        else if t = 63 then return s.check side a (s.unit + 1) 0 (bl + t)
        else return s.check side a s.unit (t + 1) (bl + t)

/-! ### Entering a segment (R204, R207) -/

/-- A side at the start of segment k, or its SEGTAB condition. -/
def enterSide (x : Ctx) (d : ClDesc) (side k : Nat) : Exec (Except Unsorted Side) := do
  if ClDesc.nseg d = 0 then return .ok ⟨0, 0, 0, ClDesc.len d, 0, 0⟩
  else
    let es := ClDesc.entry d
    let a := ClDesc.segt d + k * es
    let w := min es 8
    let start ← clRead x a w
    let ord ← if ClDesc.stf d = 2 then clRead x (a + 8) 8 else pure start
    let end_ ← clRead x (a + es) w
    if end_ < start || ClDesc.len d < end_ then
      return .error ⟨none, if ClDesc.len d < end_ then a + es else a, ⟨side, 5, 0, 0, 0⟩⟩
    else return .ok ⟨start, ord, 0, end_, 0, 0⟩

/-- The cursor with its segment pair entered; with BCAST, B at its segment 0 (R206). -/
def enterPair (x : Ctx) (c : Cursor) : Exec (Except Unsorted Cursor) := do
  match ← enterSide x c.adesc 0 c.seg with
  | .error u => return .error u
  | .ok a =>
    match ← enterSide x c.bdesc 1 (if bitAt c.mode 2 then 0 else c.seg) with
    | .error u => return .error u
    | .ok b => return .ok { c with a := a, b := b, segin := 1 }

/-! ### Steps (R206, R207) -/

/-- An item: posA, posB (none: the missing side), the coordinate, the segment. -/
structure Item where
  a   : Option Nat
  b   : Option Nat
  crd : Nat
  seg : Nat
  deriving DecidableEq, Repr

/-- A side past its current block, if that is a bitmap block without a set bit from the side's place on (R203, R222). -/
def passBlock (x : Ctx) (d : ClDesc) (s : Side) : Exec (Option Side) := do
  if s.out || ClDesc.enc d ≠ 3 then return none
  else
    let m ← clRead x (ClDesc.base d + s.unit * ClDesc.unit d) 8
    return if m / 2 ^ s.bit = 0 then some { s with unit := s.unit + 1, bit := 0 } else none

/-- The cursor past one such block of a side, side A first. No coordinate is read before there is none, so that a side without a
coordinate is known to be exhausted before the other's next coordinate is reached (R206 to R208). In INTERSECT, whose pair ends
when either side is exhausted, a read of A that fails is taken only where B is not exhausted: past the end of the pair nothing
of A is reached. -/
def passEmpty (x : Ctx) (c : Cursor) : Exec (Option Cursor) := do
  let passB : Exec (Option Cursor) := do return (← passBlock x c.bdesc c.b).map fun b => { c with b := b }
  match ← caught (passBlock x c.adesc c.a) with
  | .ok (some a) => return some { c with a := a }
  | .ok none => passB
  | .error e =>
    if c.mode % 4 = 0 then
      match ← caught passB with
      | .ok (some c') => return some c'
      | _ => throw e
    else throw e

/-- After the item that fills VL, a pair none of whose sides needed has a coordinate left is ended (R217). A read for it that
fails leaves the cursor before it: nothing more was asked for. -/
def endPair (x : Ctx) : Nat → Cursor → Exec Cursor
  | 0, c => return c
  | fuel + 1, c => do
    let c := c.mark
    if c.segin = 0 then return c
    else if c.ended then return c.nextPair
    else
      match ← caught (passEmpty x c) with
      | .ok (some c') => endPair x fuel c'
      | _ => return c

/-- What a move of the run gives. -/
inductive Turn where
  | on (c : Cursor) (item : Option Item)
  | bad (u : Unsorted)
  deriving DecidableEq, Repr

/-- The step on the coordinates of both sides, none for an exhausted one. -/
def Cursor.merge (c : Cursor) (a b : Option (Nat × Side)) : Cursor × Option Item :=
  let m := c.mode % 4
  match a, b with
  | some (ca, sa), some (cb, sb) =>
    if ca < cb then ({ c with a := sa }, if m = 0 then none else some ⟨some c.a.ord, none, ca, c.seg⟩)
    else if cb < ca then ({ c with b := sb }, if m = 1 then some ⟨none, some c.b.ord, cb, c.seg⟩ else none)
    else ({ c with a := sa, b := sb }, if m = 3 then none else some ⟨some c.a.ord, some c.b.ord, ca, c.seg⟩)
  | some (ca, sa), none => ({ c with a := sa }, if m = 0 then none else some ⟨some c.a.ord, none, ca, c.seg⟩)
  | none, some (cb, sb) => ({ c with b := sb }, if m = 1 then some ⟨none, some c.b.ord, cb, c.seg⟩ else none)
  | none, none => (c, none)

/-- One move of a run: a pair entered, an empty block passed, or a step; a pair that has ended is left (R217). Where the reads or
checks of both sides fail at one step, or at one pair's entry, side A's failure is taken: R223 does not say, the model's choice
(log 18). -/
def clTurn (x : Ctx) (c : Cursor) : Exec Turn := do
  if c.segin = 0 then
    match ← enterPair x c with
    | .error u => return .bad u
    | .ok c' => return .on c' none
  else if c.ended then return .on c.nextPair none
  else
    match ← passEmpty x c with
    | some c' => return .on c' none
    | none =>
      match ← look x c.adesc 0 c.a with
      | .bad u => return .bad u
      | la =>
        match ← look x c.bdesc 1 c.b with
        | .bad u => return .bad u
        | lb =>
          let part (l : Look) : Option (Nat × Side) := match l with | .coord v s => some (v, s) | _ => none
          let (c', item) := c.merge (part la) (part lb)
          let c' := if item.isSome then { c'.mark with emit := (c'.emit + 1) % 2 ^ 64 } else c'
          return .on (if item.isSome && c'.ended then c'.nextPair else c') item

/-- How a CLNEXT's moves end. -/
inductive RunEnd where
  | done
  | more
  | stop (e : Stop)
  | unsorted (u : Unsorted)
  deriving DecidableEq, Repr

/-- Moves of a run from element i until VL items or its end; the items found, the cursor, and how it ends. -/
def clMoves (x : Ctx) (vl : Nat) : Nat → Cursor → Nat → Exec (List (Nat × Item) × Cursor × RunEnd)
  | 0, c, i => return ([], c, if i < vl && c.state = 2 then .more else .done)
  | fuel + 1, c, i => do
    if i < vl && c.state = 2 then
      let c := if c.segin = 0 then c else c.mark
      match ← caught (clTurn x c) with
      | .error e => return ([], c, .stop e)
      | .ok (.bad u) => return ([], c, .unsorted u)
      | .ok (.on c' none) => clMoves x vl fuel c' i
      | .ok (.on c' (some it)) =>
        let c' ← if i + 1 < vl then pure c' else endPair x (ClDesc.len c'.adesc + ClDesc.len c'.bdesc + 1) c'
        let r ← clMoves x vl fuel c' (i + 1)
        return ((i, it) :: r.1, r.2)
    else return ([], c, .done)

/-- The moves of a CLNEXT at most: per segment left, the entry, the end, and 64 coordinates and a passing per unit. -/
def clFuel (c : Cursor) : Nat :=
  (c.segend - c.seg + 1) * (3 + 65 * (ClDesc.len c.adesc + ClDesc.len c.bdesc + c.a.end_ + c.b.end_))

/-- The regions of a cursor's streams and segment tables (R214). -/
def ClDesc.regions (d : ClDesc) : Regions :=
  region (ClDesc.base d) (ClDesc.base d + ClDesc.len d * ClDesc.unit d : Nat) false ++
  if ClDesc.nseg d = 0 then [] else
    region (ClDesc.segt d) (ClDesc.segt d + (ClDesc.nseg d + 1) * ClDesc.entry d : Nat) false

def Cursor.regions (c : Cursor) : Regions := ClDesc.regions c.adesc ++ ClDesc.regions c.bdesc

/-! ### The instructions -/

/-- CLSET (R215). -/
def clsetBody (c : VCtx) : Exec Unit := do
  c.needStart0
  let x ← c.e.ctx
  let a := c.e.x1.toNat
  awaitJobs (region a (a + 32 : Nat) false)
  let acc ← checkAccess x a 32 32 .read
  awaitNear x true acc
  let d ← readAccess x true false acc
  match ClDesc.fault d with
  | some .reserved => trap 0x02 0 c.e.x1
  | some (.address det v) => trap 0x04 det v
  | none =>
    let k ← getCursor
    setCursor (if c.f.fn = 0 then { k with adesc := d, cfg := k.cfg ||| 1, state := 1 }
      else { k with bdesc := d, cfg := k.cfg ||| 2, state := 1 })
    modMe fun h => { h with splits := [], skip := none }

/-- Segments of a descriptor's stream: at least one. -/
def ClDesc.segments (d : ClDesc) : Nat := max (ClDesc.nseg d) 1

/-- CLRUN (R216). -/
def clrunBody (c : VCtx) : Exec Unit := do
  let k ← getCursor
  c.needStart0
  c.need (k.cfg = 3)
  awaitJobs k.regions
  let sa := ClDesc.segments k.adesc
  need (bitAt c.f.fn.toNat 2 || sa = ClDesc.segments k.bdesc) (.trap 0x02 0 0)
  let seg := c.e.x1.toNat
  let segend := min c.e.x2.toNat sa
  let clear (s : Side) : Side := { s with flg := s.flg &&& 1 }
  setCursor { k with mode := c.f.fn.toNat, seg := seg, segend := segend, segin := 0, emit := 0, fdet := 0,
                     a := clear k.a, b := clear k.b, state := if seg < segend then 2 else 3 }
  modMe fun h => { h with splits := [], skip := none }

/-- The registers CLNEXT writes for an item. -/
def itemVals (f : VForm) (it : Item) (w : Nat) : List Nat :=
  let pos (p : Option Nat) : Nat := match p with | some n => n % 2 ^ w | none => 2 ^ w - 1
  [pos it.a, pos it.b] ++ (if f.fn.toNat % 2 = 1 then [it.crd % 2 ^ w] else []) ++
    (if f.fn.toNat / 2 % 2 = 1 then [it.seg % 2 ^ w] else [])

/-- The items written (R217). -/
def putItems (c : VCtx) (w n : Nat) (items : List (Nat × Item)) : Exec Unit :=
  forAll (List.range n) fun r => do
    let old ← c.read (c.f.vd.toNat + r) 1
    c.write (c.f.vd.toNat + r) 1
      (items.foldl (fun v (i, it) => elemSet v i w ((itemVals c.f it w).getD r 0)) old) w (items.map (·.1))

/-- CLNEXT (R217, R221, R223). A pre-emption halts it after `until_` moves (R367). Where a page is held it waits as a whole, and
runs again with the translations of then (R379). -/
def clnextBody (c : VCtx) : Exec Unit := do
  let fmt := c.f.fmt.toNat
  let w := fmtWidth fmt
  let n := 2 + c.f.fn.toNat % 2 + c.f.fn.toNat / 2 % 2
  let k ← getCursor
  c.need (2 ≤ k.state)
  c.need (c.f.vd.toNat + n ≤ c.nregs)
  c.checkVl fmt
  if k.state ≠ 2 then trimVl 0
  else if c.vl ≤ c.start then trimVl c.start
  else
    awaitJobs k.regions
    let x ← c.e.ctx
    let s ← get
    let (items, k', stop) ← clMoves x c.vl (min (clFuel k) (c.e.until_.getD (clFuel k))) k c.start
    let i := c.start + items.length
    if stop = .stop .wait then
      set s
      throw .wait
    putItems c w n items
    setCursor k'
    if k'.seg ≠ k.seg || k'.segin = 0 then modMe fun h => { h with splits := [] }
    match stop with
    | .done => trimVl i
    | .more => do
      setVstart i
      throw .wait
    | .stop e =>
      if i = 0 then throw e
      else
        background (.vector c.e.pc false) i e
        trimVl i
    | .unsorted u =>
      if i = 0 then
        let det := u.skip.kind + 8 * u.skip.side
        let crd ← match u.crd with | some v => pure (v % 2 ^ 64) | none => freeBits 64
        setCursor { k' with fdet := det, fcrd := crd, faddr := u.addr % 2 ^ 64 }
        modMe fun h => { h with skip := some u.skip }
        throw (.park 0x15 det (word u.addr) (word det) 0 false false)
      else trimVl i

/-- SKIP on a cursor (R224). -/
def Cursor.skip (c : Cursor) (k : ClSkip) : Cursor :=
  let on (s : Side) : Side :=
    if k.kind = 3 then { s with flg := s.flg ||| 2 }
    else { s with unit := k.unit, bit := k.bit, ord := (s.ord + k.count) % 2 ^ 64 }
  if k.kind = 5 then c.nextPair
  else if k.side = 0 then { c with a := on c.a } else { c with b := on c.b }

/-! ### Split points (R210, R219) -/

/-- The search of R210 on diagonal d: the count of A's coordinates. -/
def splitSearch (ca cb : Nat → Exec Nat) (d : Nat) : Nat → Nat → Nat → Exec Nat
  | 0, lo, _ => return lo
  | fuel + 1, lo, hi => do
    if lo < hi then
      let i := (lo + hi) / 2
      if (← ca i) < (← cb (d - i - 1)) then splitSearch ca cb d fuel (i + 1) hi else splitSearch ca cb d fuel lo i
    else return lo

/-- The points of the rest of a pair; none where it is not split. -/
def splitPoints (x : Ctx) (c : Cursor) : Exec (Option (List (Nat × Nat))) := do
  let left (s : Side) : Nat := if s.out then 0 else s.end_ - s.unit
  let na := left c.a
  let nb := left c.b
  let n := na + nb
  if 1 < ClDesc.enc c.adesc || 1 < ClDesc.enc c.bdesc || n = 0 then return none
  else
    let crd (d : ClDesc) (s : Side) (i : Nat) : Exec Nat :=
      clRead x (ClDesc.base d + (s.unit + i) * ClDesc.unit d) (ClDesc.unit d)
    let pts ← each (List.range 33) fun k => do
      let d := min (k * ((n + 31) / 32)) n
      let i ← splitSearch (crd c.adesc c.a) (crd c.bdesc c.b) d 65 (d - nb) (min d na)
      return (c.a.ord + i, c.b.ord + (d - i))
    return some pts

/-- CLSPLIT (R219). With OUT, STATE not RUNNING and VLMAX below 33 two rows of R219 hold: illegal instruction goes first, by the
model's choice (log 18). -/
def clsplitBody (c : VCtx) : Exec Unit := do
  let out := c.f.fn = 1
  let fmt := c.f.fmt.toNat
  let k ← getCursor
  let h ← me
  c.needStart0
  c.need (2 ≤ k.state)
  c.need (!out || (33 ≤ h.vlmax fmt && c.f.vd.toNat + 1 < c.nregs))
  awaitJobs k.regions
  let x ← c.e.ctx
  let entered ← if k.state ≠ 2 then pure none
    else if k.segin = 0 then do
      match ← enterPair x k with
      | .error _ => pure none
      | .ok k' => pure (some k')
    else pure (some k)
  let pts ← match entered with
    | none => pure none
    | some k' => splitPoints x k'.mark
  match entered with
  | some k' => setCursor k'
  | none => pure ()
  match pts with
  | none => if out then trimVl 0
  | some l =>
    modMe fun h => { h with splits := l }
    if out then
      let w := fmtWidth fmt
      let vals := (List.range 33).zip l
      c.putEls c.f.vd.toNat w (vals.map fun (i, p) => (i, p.1))
      c.putEls (c.f.vd.toNat + 1) w (vals.map fun (i, p) => (i, p.2))
      trimVl 33

/-! ### CLSAVE and CLREST (R220) -/

/-- CLSAVE. -/
def clsaveBody (c : VCtx) : Exec Unit := do
  c.needStart0
  let x ← c.e.ctx
  awaitJobs (region c.e.x1.toNat (c.e.x1.toNat + 512 : Nat) true)
  let acc ← checkAccess x c.e.x1.toNat 512 64 .write
  awaitNear x true acc
  writeAccess x true false (Cursor.toNat (← getCursor)) acc

/-- CLREST. -/
def clrestBody (c : VCtx) : Exec Unit := do
  c.needStart0
  let x ← c.e.ctx
  awaitJobs (region c.e.x1.toNat (c.e.x1.toNat + 512 : Nat) false)
  let acc ← checkAccess x c.e.x1.toNat 512 64 .read
  awaitNear x true acc
  let n ← readAccess x true false acc
  need (blockOk n) (.trap 0x02 0 c.e.x1)
  modMe fun h => { h with cursor := n, splits := [], skip := none }

/-- CLSET (R215). -/
def execClset (f : VForm) (s : State) : Host.Outcome State Fault Refusal := plainStep (.clset f) f clsetBody s
/-- CLSPLIT (R219). -/
def execClsplit (f : VForm) (s : State) : Host.Outcome State Fault Refusal := plainStep (.clsplit f) f clsplitBody s
/-- CLRUN (R216). -/
def execClrun (f : VForm) (s : State) : Host.Outcome State Fault Refusal := plainStep (.clrun f) f clrunBody s
/-- CLNEXT (R217). -/
def execClnext (f : VForm) (s : State) : Host.Outcome State Fault Refusal := plainStep (.clnext f) f clnextBody s
/-- CLSAVE (R220). -/
def execClsave (f : VForm) (s : State) : Host.Outcome State Fault Refusal := plainStep (.clsave f) f clsaveBody s
/-- CLREST (R220). -/
def execClrest (f : VForm) (s : State) : Host.Outcome State Fault Refusal := plainStep (.clrest f) f clrestBody s

end Sys2Proof.Machine
end

