-- ==== Sys2Proof/Machine/Far.lean ====
section
/-! DEFINITION. Far contexts and bank-level commands: leases, transfers, counts, YIRED and YBOP from acceptance to their
action at the banks (R28 to R30, R248, R254, R319 to R327, R364, R423). -/

namespace Sys2Proof.Machine

open Sys2Proof

/-! ### Leases (R319, R320, R364) -/

/-- FBIND's step 4 (R319, R364): the hart joins the Landing's lease queue once, at the back. -/
def joinLease (landing : Nat) : Exec Unit := modify fun s =>
  let q := Tab.get [] s.leaseq landing
  if q.contains s.cur then s else { s with leaseq := Tab.put [] s.leaseq landing (q ++ [s.cur]) }

/-- A free context of a Landing. -/
def State.freeFar (s : State) (landing fctx : Nat) : Bool := fctx < 256 && !(s.farCtx (landing * 256 + fctx)).leased

/-- LEASE GRANT (R364): the oldest waiting hart takes a free context, whose y registers are zero. -/
def grantLease (landing fctx : Nat) : Exec Unit := modify fun s =>
  match Tab.get [] s.leaseq landing with
  | k :: rest =>
    if s.freeFar landing fctx then
      { s.putFar (landing * 256 + fctx) { leased := true } with
        leaseq := Tab.put [] s.leaseq landing rest
        granted := Tab.put 0 s.granted k (1 + landing * 256 + fctx) }
    else s
  | [] => s

/-- FBIND (R319). -/
def fbindBody (c : VCtx) : Exec Unit := do
  let s ← get
  let n := c.f.vd.toNat
  let t := c.e.x1.toNat
  c.need (!(s.me.slot n).bound)
  need (t < 1024 && s.present (t / 8)) (.trap 0x06 0 c.e.x1)
  match Tab.get 0 s.granted s.cur with
  | 0 => do
    joinLease t
    throw .wait
  | key1 + 1 =>
    let k : Fstk := { pkg := BitVec.ofNat 7 (key1 / 2048), stack := BitVec.ofNat 3 (key1 / 256), fctx := BitVec.ofNat 8 key1,
                      bound := true }
    modify fun s => { s with granted := Tab.put 0 s.granted s.cur 0 }
    modMe fun h => { h with fstk := Tab.put {} h.fstk n k }

/-- FREL (R320): it waits for the slot's commands. -/
def frelBody (c : VCtx) : Exec Unit := do
  let k := (← me).slot c.f.vd.toNat
  if k.lost then modMe fun h => { h with fstk := Tab.put {} h.fstk c.f.vd.toNat {} }
  else if k.bound then
    await (← ask (·.slotQuiet k.key))
    freeLease k.key
    modMe fun h => { h with fstk := Tab.put {} h.fstk c.f.vd.toNat {} }

/-! ### Transfers and counts (R322, R323) -/

/-- The near side of an instruction in a far context. -/
def VCtx.nearSide (c : VCtx) : Exec VCtx := do
  let h ← me
  return { c with far := none, bytes := h.regBytes, nregs := h.nregs }

/-- YXFER (R322). -/
def yxferBody (c : VCtx) : Exec Unit := do
  let fmt := c.f.fmt.toNat
  let w := fmtWidth fmt
  let n ← c.nearSide
  let src := if c.f.fn = 0 then n else c
  let dst := if c.f.fn = 0 then c else n
  c.checkVl fmt
  n.checkVl fmt
  src.need (c.f.vs1.toNat < src.nregs)
  dst.need (c.f.vd.toNat < dst.nregs)
  let bad ← src.firstPoison (sameIndex [(c.f.vs1.toNat, w)]) c.actives
  let els := before c.actives bad
  let a ← src.read c.f.vs1.toNat 1
  let old ← dst.read c.f.vd.toNat 1
  dst.write c.f.vd.toNat 1 (els.foldl (fun v i => elemSet v i w (elemAt a i w)) old) w els
  endRun { dst := 0, fs := (← me).fstate, done := [], stop := none } bad

/-- FDONE (R323). -/
def fdoneBody (c : VCtx) : Exec Unit := do
  match c.far with
  | some k => c.putX (← ask (·.farCtx k)).done
  | none => pure ()

/-- YSYNC (R323): a far instruction here has made its accesses when it completes, so nothing is left to order (log 6). -/
def ysyncBody (_ : VCtx) : Exec Unit := pure ()

/-! ### Spans: the checked places of a command -/

/-- The spans of a checked access. -/
def Access.spans (acc : Access) : List Span :=
  acc.map fun (_, n, p) => match p with
    | .scratch key => { pa := 2 ^ 64 + key, bytes := n, domain := ⟨0, 0, 0⟩ }
    | .phys pa d => { pa := pa, bytes := n, domain := d }

/-- A range checked for a command under R269; its dispatch waits for an earlier STKFENCE's maintenance. -/
def cmdRange (x : Ctx) (a : Int) (n al : Nat) (k : Kind) : Exec (List Span) := do
  let acc ← checkAccess x a n al k
  awaitNear x false acc
  return Access.spans acc

/-- The stacks of this package that spans touch. -/
def State.stackMask (s : State) (l : List Span) : BitVec 8 :=
  l.foldl (fun m sp => if sp.pa < 2 ^ 64 && paPkg sp.pa = s.pkg then m ||| (1#8 <<< paStack sp.pa) else m) 0

/-- The Landing that owns a span (R44); a scratchpad's bytes are in none. -/
def Span.landing (sp : Span) : Nat := if sp.pa < 2 ^ 64 then landingOf sp.pa else 2 ^ 10

/-- The Landings of spans, each once. -/
def landings (l : List Span) : List Nat := (l.map (·.landing)).dedup

/-- Two lists of spans share a byte. -/
def spansMeet (a b : List Span) : Bool := a.any fun p => b.any fun q => p.pa < q.pa + q.bytes && q.pa < p.pa + p.bytes

/-- The spans of one Landing read granule by granule from backing values (R232); vague bytes read as free (R252, R307). -/
def readSpans (w : Who) (at_ : Nat) : List Span → Nat → Exec (List Piece)
  | [], _ => return []
  | sp :: t, off => do
    let here ← if sp.landing ≠ at_ then pure []
      else if sp.pa < 2 ^ 64 then
        each (pieces sp.pa sp.bytes) fun (g, lo, len) => do
          let (v, bad) ← bankRead w sp.domain (g * 32 + lo) len
          return (off + (g * 32 + lo - sp.pa), len, ← blur [] (g * 32 + lo) len v, bad)
      else do
        let s ← get
        let v ← blur [] sp.pa sp.bytes (s.scratch.readN (sp.pa - 2 ^ 64) sp.bytes)
        pure [(off, sp.bytes, v, (s.badScratchIn (sp.pa - 2 ^ 64) sp.bytes).isSome)]
    return here ++ (← readSpans w at_ t (off + sp.bytes))

/-- Every span read. -/
def readAll (w : Who) (l : List Span) : Exec (List Piece) := do
  return (← each (landings l) fun k => readSpans w k l 0).flatten

/-- The bytes of pieces as one number. -/
def joinPieces (ps : List Piece) : Nat := ps.foldl (fun acc (off, _, v, _) => acc + v * 2 ^ (8 * off)) 0

/-- Bytes of a range touch a poisoned piece. -/
def badAt (ps : List Piece) (off n : Nat) : Bool := ps.any fun (o, len, _, bad) => bad && o < off + n && off < o + len

/-- A value written to the spans of one Landing at the banks, each granule in one action; granules that take bytes for
which `bad` holds are poisoned (R423); vague bytes take free values (R252, R307), and scratchpad words written whole lose
their poison (R424). -/
def writeSpans (w : Who) (at_ v : Nat) (bad : Nat → Nat → Bool) : List Span → Nat → Exec Unit
  | [], _ => pure ()
  | sp :: t, off => do
    if sp.landing ≠ at_ then pure ()
    else if sp.pa < 2 ^ 64 then
      forAll (pieces sp.pa sp.bytes) fun (g, lo, len) => do
        let o := off + (g * 32 + lo - sp.pa)
        let x ← blur [] (g * 32 + lo) len (bytesAt v o len)
        bankWrite w sp.domain (g * 32 + lo) len x (bad o len)
    else
      let x ← blur [] sp.pa sp.bytes (bytesAt v off sp.bytes)
      modify fun s => { s with scratch := s.scratch.writeN (sp.pa - 2 ^ 64) x sp.bytes }
      clearScratch (sp.pa - 2 ^ 64) sp.bytes
    writeSpans w at_ v bad t (off + sp.bytes)

/-! ### YIRED (R324, R325) -/

/-- The fields of the descriptor, given as a number. -/
structure IredDesc where
  table  : Nat
  rowstr : Nat
  pkt    : Nat
  dst    : Nat
  cword  : Nat
  npkt   : Nat
  nelem  : Nat
  zero   : Bool
  deriving DecidableEq, Repr

def IredDesc.ofBytes (n : Nat) : IredDesc where
  table := bytesAt n 0 8
  rowstr := bytesAt n 8 8
  pkt := bytesAt n 16 8
  dst := bytesAt n 24 8
  cword := bytesAt n 32 8
  npkt := bytesAt n 40 4
  nelem := bytesAt n 44 4
  zero := bytesAt n 48 16 = 0

/-- The descriptor's checks (R324, R327). -/
def IredDesc.ok (d : IredDesc) (w : Nat) (mem : Bool) (vd : Nat) : Bool :=
  let rb := d.nelem * w / 8
  d.zero && d.table % 32 = 0 && d.rowstr % 32 = 0 && d.pkt % 64 = 0 && d.cword % 8 = 0 && 1 ≤ d.npkt && d.npkt ≤ 4096 &&
  rb ≠ 0 && rb % 32 = 0 && rb ≤ 2048 && (if mem then d.dst % 32 = 0 && vd = 0 else d.dst = 0 && d.nelem ≤ farLen w)

/-- The rows a packet names, in index order. -/
def packetRows (x : Ctx) (d : IredDesc) (rb : Nat) (p : Nat) : Exec (List (List Span)) := do
  let acc ← checkAccess x (d.pkt + 64 * p : Nat) 64 64 .read
  awaitNear x true acc
  let v ← readAccess x true false acc
  each (((List.range 16).map fun j => elemAt v j 32).filter (· ≠ 2 ^ 32 - 1)) fun i =>
    cmdRange x (d.table + i * d.rowstr : Nat) rb 32 .read

/-- A command accepted by every Landing it concerns (R248): a fence that waits for its entry now waits for it. -/
def acceptCmd (c : VCtx) (op : BankOp) (spans : List Span) : Exec Unit := do
  let s ← get
  let id ← nextFresh
  let b : BankCmd := { id := id, hart := s.cur, gang := s.me.gang, ctx := c.far.getD noCtx, task := (s.gangOf s.me).task, asid := s.me.asid,
                       stackMask := s.stackMask spans,
                       token := if c.f.tpsh = 1 then some (pushFifo c.e.instr c.f) else none, op := op }
  modify fun s => { s with banks := s.banks ++ [b] }
  modMe fun h =>
    let accept (x : StkFence) : StkFence := if x.queued.contains c.e.seq then { x with cmds := x.cmds ++ [id] } else x
    { h with fences := h.fences.map accept }

/-- YIRED at issue (R325). -/
def yiredBody : Body := fun e f => do
  let c ← issueCtx e f
  let w := fmtWidth f.fmt.toNat
  let mem := f.fn.toNat / 4 % 2 = 1
  let x ← e.ctx
  c.checkVl f.fmt.toNat
  setVstart 0
  let da : Int := e.x1.toNat
  let acc ← checkAccess x da 64 64 .read
  awaitNear x true acc
  let d := IredDesc.ofBytes (← readAccess x true false acc)
  need (d.ok w mem f.vd.toNat) (.trap 0x02 0 (addrWord da))
  let rb := d.nelem * w / 8
  let rows := (← each (List.range d.npkt) (packetRows x d rb)).flatten
  let dst ← if mem then cmdRange x (d.dst : Nat) rb 32 .write else pure []
  let cw ← if d.cword ≠ 0 then cmdRange x (d.cword : Nat) 8 8 .write else pure []
  acceptCmd c (.yired (f.fn.toNat % 4) f.fmt.toNat c.rm d.nelem rows dst (if mem then none else some f.vd.toNat) cw.head?)
    (rows.flatten ++ dst ++ cw)
  return .later

/-- One element of a YIRED from the elements of its rows (R325). -/
def iredElem (op fmt rm : Nat) (xs : List Nat) : Nat :=
  let w := fmtWidth fmt
  let n := xs.length
  if fmtIsInt fmt then
    let s : Int := (xs.map fun x => Fp.sext x w).sum
    match op with
    | 0 => Fp.wrap w s
    | 1 => match xs with | [] => 0 | x :: t => t.foldl (fun a b => if Fp.sext a w < Fp.sext b w then b else a) x
    | _ => if n = 0 then 0 else Fp.wrap w (Fp.toInt rm 0 (Fp.div (Fp.ofInt s) (Fp.ofInt n)).1).1
  else
    let vals := xs.map (Fp.decode fmt)
    let s : Fp.Val := match vals with | [] => .num false 0 0 false | v :: t => t.foldl (fun a b => (Fp.add rm a b).1) v
    match op with
    | 0 => (Fp.roundBits fmt rm 0 s).1
    | 1 => match xs with | [] => 0 | x :: t => t.foldl (fun a b => (Fp.minMax true fmt a b).1) (Fp.minMax true fmt x x).1
    | _ => if n = 0 then 0 else (Fp.roundBits fmt rm 0 (Fp.div s (Fp.ofInt n)).1).1

/-- Whom a command's accesses are for. -/
def BankCmd.who (b : BankCmd) : Who := { task := b.task, asid := b.asid }

/-- The row of results of a YIRED from the pieces of its rows (R325), and where a poisoned granule went into it (R423). -/
def iredRow (op fmt rm nelem : Nat) (ps : List (List Piece)) : Nat :=
  let w := fmtWidth fmt
  let vals := ps.map joinPieces
  (List.range nelem).foldl (fun acc j => elemSet acc j w (iredElem op fmt rm (vals.map fun v => elemAt v j w))) 0

def badRow (ps : List (List Piece)) (off n : Nat) : Bool := ps.any fun p => badAt p off n

/-- The result written to yd, whose elements from NELEM up become zero (R325). -/
def putYd (b : BankCmd) (y r bytes : Nat) (bad : Nat → Nat → Bool) : Exec Unit :=
  let set (s : State) : State :=
    let c := s.farCtx b.ctx
    let marks := (List.range (bytes / 8)).filter fun k => bad (8 * k) 8
    let c' := { c with
      y := Tab.put 0 c.y y r
      bady := c.bady.filter fun (reg, _) => reg ≠ y
      marks := (c.marks.filter fun (reg, _) => reg ≠ y) ++ marks.map fun k => (y, k) }
    s.putFar b.ctx c'
  if b.ctx ≠ noCtx then modify set else pure ()

/-- The Landings with a part of a command left (R46): those that read rows, and when all have read those that write DST; of
a YBOP those that write D. -/
def BankCmd.todo (b : BankCmd) : List Nat :=
  match b.op with
  | .yired _ _ _ _ rows dst _ _ =>
    let unread := (landings rows.flatten).filter fun k => !b.acted.contains k
    if unread.isEmpty then (landings dst).filter fun k => !b.wrote.contains k else unread
  | .ybop _ _ _ _ d _ _ _ => (landings d).filter fun k => !b.acted.contains k

/-- The pieces a YIRED's parts have read, by row. -/
def BankCmd.rowPieces (b : BankCmd) (n : Nat) : List (List Piece) :=
  (List.range n).map fun i => (b.got.filter (·.1 = i)).flatMap (·.2)

/-- What a Landing reads for a YIRED: its parts of the rows. -/
def iredRead (b : BankCmd) (k : Nat) (rows : List (List Span)) : Exec BankCmd := do
  let ps ← each rows.zipIdx fun (r, i) => do return (i, ← readSpans b.who k r 0)
  return { b with got := b.got ++ ps, acted := b.acted ++ [k] }

/-- YIRED's part at a Landing (R46, R325): it reads its parts of the rows if it has not, and writes its part of DST once
every Landing has read. -/
def iredPart (b : BankCmd) (k op fmt rm nelem : Nat) (rows : List (List Span)) (dst : List Span) : Exec BankCmd := do
  let unread (b : BankCmd) : List Nat := (landings rows.flatten).filter fun j => !b.acted.contains j
  let b ← if (unread b).contains k then iredRead b k rows else pure b
  if (unread b).isEmpty && (landings dst).contains k then do
    let ps := b.rowPieces rows.length
    writeSpans b.who k (iredRow op fmt rm nelem ps) (badRow ps) dst 0
    return { b with wrote := b.wrote ++ [k] }
  else return b

/-- The completion word's atomic add of 1 (R325). A poisoned word stays poisoned under it, so that the hart that reads it takes
the data error (log 15). -/
def addCword (b : BankCmd) (sp : Span) : Exec Unit := do
  if sp.pa < 2 ^ 64 then
    let (v, _) ← readPhys b.who sp.domain true 0 sp.pa 8
    writePhys b.who sp.domain false sp.pa 8 (← blur [] sp.pa 8 ((v + 1) % 2 ^ 64))
    wakeLine (sp.pa / 128)
  else
    let x ← blur [] sp.pa 8 ((← ask (·.scratch.readN (sp.pa - 2 ^ 64) 8)) + 1)
    modify fun s => { s with scratch := s.scratch.writeN (sp.pa - 2 ^ 64) (x % 2 ^ 64) 8 }
    wakeLine ((2 ^ 67 + (sp.pa - 2 ^ 64)) / 128)

/-! ### YBOP (R326) -/

/-- YBOP's operation on encodings, whose flags are not raised. -/
def ybopElem (op fmt rm a b : Nat) : Nat :=
  let w := fmtWidth fmt
  if op = 5 then a
  else if fmtIsInt fmt then
    match op with
    | 0 => (a + b) % 2 ^ w
    | 1 => Fp.wrap w (Fp.sext a w - Fp.sext b w)
    | 2 => a * b % 2 ^ w
    | 3 => if Fp.sext a w < Fp.sext b w then b else a
    | _ => if Fp.sext b w < Fp.sext a w then b else a
  else
    let x := Fp.decode fmt a
    let y := Fp.decode fmt b
    match op with
    | 0 => (Fp.roundBits fmt rm 0 (Fp.add rm x y).1).1
    | 1 => (Fp.roundBits fmt rm 0 (Fp.sub rm x y).1).1
    | 2 => (Fp.roundBits fmt rm 0 (Fp.mul x y).1).1
    | 3 => (Fp.minMax true fmt a b).1
    | _ => (Fp.minMax false fmt a b).1

/-- The elements of the range at d that overlap a range of n bytes at s without coinciding with it: first, count. -/
def vagueRange (d s n e : Nat) : List (Nat × Nat) :=
  if d = s || d + n ≤ s || s + n ≤ d then []
  else
    let lo := max d s
    let hi := min (d + n) (s + n)
    [((lo - d) / e, (hi - d + e - 1) / e - (lo - d) / e)]

/-- YBOP at issue (R326). -/
def ybopBody : Body := fun e f => do
  let c ← issueCtx e f
  let x ← e.ctx
  let al := fmtWidth f.fmt.toNat / 8
  let n := e.x3.toNat
  let one := f.fn.toNat = 5
  c.checkVl f.fmt.toNat
  setVstart 0
  need (n * al ≤ 2 ^ 24) (.trap 0x04 0 e.xd)
  let span (a : Word) (k : Kind) : Exec (List Span) := if n = 0 then return [] else cmdRange x a.toNat (n * al) al k
  let d ← span e.xd .write
  let a ← span e.x1 .read
  let b ← if one then pure [] else span e.x2 .read
  let vague := vagueRange e.xd.toNat e.x1.toNat (n * al) al ++ if one then [] else vagueRange e.xd.toNat e.x2.toNat (n * al) al
  acceptCmd c (.ybop f.fn.toNat f.fmt.toNat c.rm n d a b vague) (d ++ a ++ b)
  return .later

/-- Result elements with the unspecified ones free. -/
def ybopResult (op fmt rm a b : Nat) (vague : List (Nat × Nat)) : List Nat → Nat → Exec Nat
  | [], acc => return acc
  | i :: t, acc => do
    let w := fmtWidth fmt
    let v ← if vague.any (fun (k, n) => k ≤ i && i < k + n) then freeBits w
      else pure (ybopElem op fmt rm (elemAt a i w) (elemAt b i w))
    ybopResult op fmt rm a b vague t (elemSet acc i w v)

/-- YBOP's part at a Landing: the bytes of D that it owns (R46). -/
def ybopPart (b : BankCmd) (k op fmt rm n : Nat) (d x y : List Span) (vague : List (Nat × Nat)) : Exec BankCmd := do
  let px ← readAll b.who x
  let py ← readAll b.who y
  let r ← ybopResult op fmt rm (joinPieces px) (joinPieces py) vague (List.range n) 0
  writeSpans b.who k r (fun o k => badAt px o k || badAt py o k) d 0
  return { b with acted := b.acted ++ [k] }

/-! ### The action of a command (R248) -/

/-- The completion word of a command, and the y register it writes. -/
def BankCmd.cword (b : BankCmd) : List Span := match b.op with | .yired _ _ _ _ _ _ _ w => w.toList | .ybop .. => []
def BankCmd.yd (b : BankCmd) : Option Nat := match b.op with | .yired _ _ _ _ _ _ y _ => y | .ybop .. => none

/-- What a command touches at the banks, its completion word apart. -/
def BankCmd.acts (b : BankCmd) : List Span :=
  match b.op with
  | .yired _ _ _ _ rows dst _ _ => rows.flatten ++ dst
  | .ybop _ _ _ _ d x y _ => d ++ x ++ y

/-- A command may act: nothing that an earlier command of its hart has still to do touches a byte of its next action, or writes
the same y register (R248). The add to a completion word is an action of its own, after the command is done (R325). -/
def State.bankReady (s : State) (b : BankCmd) : Bool :=
  (s.banks.takeWhile (·.id ≠ b.id)).all fun a => a.hart ≠ b.hart || a.gang ≠ b.gang ||
    !(spansMeet (a.cword ++ if a.raised then [] else a.acts) (if b.raised then b.cword else b.acts) ||
      (!a.raised && a.ctx = b.ctx && a.yd.isSome && a.yd = b.yd))

/-- A command accepted, replaced. -/
def putBank (b : BankCmd) : Exec Unit := modify fun s => { s with banks := s.banks.map fun a => if a.id = b.id then b else a }

/-- A command leaves: its token is pushed (R254). -/
def leaveBank (b : BankCmd) : Exec Unit := modify fun s =>
  let s := { s with banks := s.banks.filter (·.id ≠ b.id) }
  match b.token with
  | some k => s.onHart b.hart b.gang (·.pushToken k)
  | none => s

/-- The Landing whose part comes next: the only one left, or a free choice among several (log 2, log 5). -/
def pickLanding (l : List Nat) : Exec (Option Nat) := do
  match l with
  | [] => return none
  | [k] => return some k
  | k :: _ => do
    let n ← freeBits 16
    return some (l.getD (n % l.length) k)

/-- The part of a command at a Landing. -/
def bankPart (b : BankCmd) (k : Nat) : Exec BankCmd :=
  match b.op with
  | .yired op fmt rm nelem rows dst _ _ => iredPart b k op fmt rm nelem rows dst
  | .ybop op fmt rm n d x y vague => ybopPart b k op fmt rm n d x y vague

/-- A command is done: yd is written and DONE rises (R325); the command stays while its add to CWORD is left. -/
def bankDone (b : BankCmd) : Exec Unit := do
  match b.op with
  | .yired op fmt rm nelem rows _ (some y) _ =>
    let ps := b.rowPieces rows.length
    putYd b y (iredRow op fmt rm nelem ps) (nelem * fmtWidth fmt / 8) (badRow ps)
  | _ => pure ()
  let raise (s : State) : State := s.putFar b.ctx { s.farCtx b.ctx with done := (s.farCtx b.ctx).done + 1 }
  if b.ctx ≠ noCtx then modify raise
  match b.op with
  | .yired _ _ _ _ _ _ _ (some _) => putBank { b with raised := true }
  | _ => leaveBank b

/-- BANK ACTION (R46, R248, R325): the next part of a command, at one Landing; with no part left the command is done; then,
as an action of its own, the completion word is added to. -/
def bankAct (id : Nat) : Exec Unit := do
  let s ← get
  match s.banks.find? (·.id = id) with
  | none => pure ()
  | some b =>
    if s.bankReady b then
      if b.raised then do
        match b.op with
        | .yired _ _ _ _ _ _ _ (some sp) => addCword b sp
        | _ => pure ()
        leaveBank b
      else
        let b ← match ← pickLanding b.todo with
          | some k => bankPart b k
          | none => pure b
        if b.todo.isEmpty then bankDone b else putBank b

/-- FBIND (R319). -/
def execFbind (f : VForm) (s : State) : Host.Outcome State Fault Refusal := plainStep (.fbind f) f fbindBody s
/-- FREL (R320). -/
def execFrel (f : VForm) (s : State) : Host.Outcome State Fault Refusal := plainStep (.frel f) f frelBody s
/-- YXFER (R322). -/
def execYxfer (f : VForm) (s : State) : Host.Outcome State Fault Refusal := plainStep (.yxfer f) f yxferBody s
/-- FDONE (R323). -/
def execFdone (f : VForm) (s : State) : Host.Outcome State Fault Refusal := plainStep (.fdone f) f fdoneBody s
/-- YSYNC (R323). -/
def execYsync (f : VForm) (s : State) : Host.Outcome State Fault Refusal := plainStep (.ysync f) f ysyncBody s
/-- YIRED (R325). -/
def execYired (f : VForm) (s : State) : Host.Outcome State Fault Refusal := vectorStep (.yired f) f noHook yiredBody s
/-- YBOP (R326). -/
def execYbop (f : VForm) (s : State) : Host.Outcome State Fault Refusal := vectorStep (.ybop f) f noHook ybopBody s
/-- LEASE GRANT (R364). -/
def execLeaseGrant (landing fctx : Nat) (s : State) : Host.Outcome State Fault Refusal :=
  eventStep (grantLease landing fctx) s
/-- BANK ACTION (R248). -/
def execBankAction (cmd : Nat) (s : State) : Host.Outcome State Fault Refusal := eventStep (bankAct cmd) s

end Sys2Proof.Machine
end

