-- ==== Sys2Proof/Machine/Imposition.lean ====
section
/-! DEFINITION. Conversions of a tensor's layout: IMPOSE, the engine's tiles, IMPWAIT (R256, R328 to R332). -/

namespace Sys2Proof.Machine

open Sys2Proof

/-- The bytes of an element of a handle. -/
def Handle.elBytes (h : Handle) : Nat := fmtWidth h.fmt.toNat / 8

/-- The tiles of a handle (R328). -/
def Handle.tiles (h : Handle) : Nat := ceilDiv (h.ext 0) 128 * ceilDiv (h.ext 1) 128 * h.ext 2 * h.ext 3

/-- One past the highest byte of a layout within the extents (R304). -/
def Handle.spanEnd (h : Handle) (tag base : Nat) : Nat :=
  h.addr tag base h.elBytes 0 ⟨h.ext 0 - 1, h.ext 1 - 1, h.ext 2 - 1, h.ext 3 - 1⟩ + h.elBytes

/-- The failure of a span by address (R329): its lowest byte that is not canonical or past 64 bits. -/
def spanAddr (lo hi : Nat) : Option (Nat × Nat × Word) :=
  if !canonical lo then some (0x04, 0, word lo)
  else if lo < 2 ^ 55 then (if 2 ^ 55 < hi then some (0x04, 0, word (2 ^ 55)) else none)
  else if 2 ^ 64 < hi then some (0x04, 0, 0) else none

/-- The descriptor IMPOSE writes (R329). -/
def Handle.imposed (h : Handle) (tag : BitVec 4) (base : Word) (imp : Nat) : Handle :=
  let h' := { h with oldTag := h.tag, oldBase := h.base, tag := tag, base := base, impid := BitVec.ofNat 16 imp }
  if tag.toNat ≤ 1 && h.pitch1 = 0 then
    let p1 := h.elBytes * (if tag = 0 then h.ext 0 else h.ext 1)
    { h' with pitch1 := BitVec.ofNat 32 p1, pitch2 := BitVec.ofNat 32 (p1 * if tag = 0 then h.ext 1 else h.ext 0) }
  else h'

/-- IMPOSE's checks (R329) on a descriptor: the failure found first. -/
def imposeFail (x : Ctx) (n : Nat) (h : Handle) (tag : BitVec 4) (base : Word) : Option (Nat × Nat × Word) :=
  let g := h.imposed tag base 0
  if x.h.badh.contains n then some (0x16, 3, 0)
  else if h.impid ≠ 0 || 4 ≤ h.tag.toNat || 10 ≤ h.fmt.toNat || 2 ^ 24 < h.tiles then some (0x02, 0, word n)
  else if base.toNat % 64 ≠ 0 then some (0x04, 1, base)
  else if !canonical base.toNat then some (0x04, 0, base)
  else if h.tiles = 0 then none
  else
    let old := (h.base.toNat, g.spanEnd h.tag.toNat h.base.toNat)
    let new := (base.toNat, g.spanEnd tag.toNat base.toNat)
    let sp (q : Nat × Nat) := (outOfBounds x q.1 (q.2 - q.1)).map fun b => (0x05, 0, word b)
    ((spanAddr old.1 old.2).or (spanAddr new.1 new.2)).or ((sp old).or (sp new))

/-- The IMPIDs that are free. -/
def State.freeImpids (s : State) : List Nat := (List.range 4096).filter fun i => i ≠ 0 && (Tab.find s.convs i).isNone

/-- IMPOSE at VIQ entry (R329): the checks, an IMPID, and the new descriptor. Which free IMPID it takes is open (log 5). -/
def imposeEntry (e : VEntry) (f : VForm) : Exec VEntry := do
  let x ← myCtx
  let n := f.vs1.toNat
  let h : Handle := Tab.get {} x.h.h n
  match imposeFail x n h f.fn e.x2 with
  | some r => return { e with handle := h, impFail := some r, imp := 0 }
  | none => do
    let s ← get
    match s.freeImpids with
    | [] => throw .wait
    | l => do
      let id := l.getD (Config.free (← nextFresh) % l.length) 0
      let job ← nextFresh
      let g := h.imposed f.fn e.x2 id
      let c : Conv :=
        { job := job, old := h, new := g, tiles := h.tiles, bay := coreOf s.cur / 8, hart := s.cur, pc := e.pc,
          task := (s.gangOf x.h).task, asHart := { asid := x.h.asid, ptbase := x.h.ptbase, keydom := x.h.keydom,
                                                   tstat := { lvl := x.h.isS }, gang := x.h.gang },
          splo := x.splo, sphi := x.sphi,
          regions := if h.tiles = 0 then [] else
            region h.base.toNat (g.spanEnd h.tag.toNat h.base.toNat) false ++ region g.base.toNat (g.spanEnd g.tag.toNat g.base.toNat) true }
      modify fun s => { s with convs := Tab.set s.convs id c }
      modMe fun y => { y with h := Tab.put {} y.h n g }
      return { e with handle := h, imp := id, impFail := none }

/-- A failure found at entry is raised when the instruction issues; afterwards its entry's checks are made again. -/
def raiseEntry (e : VEntry) (enter : Exec VEntry) : Exec VEntry := do
  let e ← if e.again then do
      let e' ← enter
      setHead { e' with again := e'.impFail.isSome }
      pure e'
    else pure e
  match e.impFail with
  | none => return e
  | some (code, detail, value) => do
    setHead { e with again := true }
    if code = 0x16 then throw (.park code detail 0 0 0 false false) else trap code detail value

/-- IMPOSE at issue: its job is accepted (R252), behind those of its bay and those its regions meet (R253, R328). -/
def imposeBody : Body := fun e f => do
  let _ ← issueCtx e f
  let e ← raiseEntry e (imposeEntry e f)
  let s ← get
  match Tab.find s.convs e.imp with
  | none => return .now
  | some c =>
    let bay := s.convs.filterMap fun (_, d) =>
      if d.accepted && d.bay = c.bay && d.ndone < d.tiles then some d.job else none
    let later := f.tpsh = 1 && c.tiles ≠ 0
    let token := if later then some (pushFifo e.instr f) else none
    let after := bay ++ s.earlierJobs s.cur c.regions
    modify fun s =>
      let d : Conv := { c with accepted := true, after := after.filter (· ≠ c.job), token := token }
      { s with convs := Tab.set s.convs e.imp d }
    return if c.tiles = 0 then .now else .later

/-- IMPWAIT at VIQ entry (R330). -/
def impwaitEntry (e : VEntry) (f : VForm) : Exec VEntry := do
  let y ← me
  let n := f.vs1.toNat
  let h : Handle := Tab.get {} y.h n
  if y.badh.contains n then return { e with impFail := some (0x16, 3, 0) }
  else if h.impid = 0 then return { e with imp := 0, impFail := none }
  else
    let flat := h.tag = 2 || h.tag = 3
    let g := { h with impid := 0, oldBase := 0, oldTag := 0, pitch1 := if flat then 0 else h.pitch1,
                      pitch2 := if flat then 0 else h.pitch2 }
    modMe fun y => { y with h := Tab.put {} y.h n g }
    return { e with imp := h.impid.toNat % 4096, impFail := none }

/-- IMPWAIT at issue: the conversion done, its IMPID freed by a hart of its task. -/
def impwaitBody : Body := fun e f => do
  let _ ← issueCtx e f
  let e ← raiseEntry e (impwaitEntry e f)
  let s ← get
  match Tab.find s.convs e.imp with
  | none => return .now
  | some c =>
    if c.ndone < c.tiles then
      match c.stop with
      | .failure code detail value => trap code detail value
      | _ => throw .wait
    else
      if c.task = (s.gangOf s.me).task then freeConv e.imp
      return .now

/-! ### The engine (R328, R331) -/

/-- The context of a conversion's accesses. -/
def Conv.ctx (c : Conv) : Ctx :=
  { h := c.asHart, hart := c.hart, pos := 0, splo := c.splo, sphi := c.sphi, who := { task := c.task, asid := c.asHart.asid } }

/-- The local elements of tile k inside the extents. -/
def Conv.tileEls (c : Conv) (k : Nat) : List Loc :=
  let h := c.new
  let t0 := ceilDiv (h.ext 0) 128
  let t1 := ceilDiv (h.ext 1) 128
  let r := k / (t0 * t1)
  let a := k % t0 * 128
  let b := k / t0 % t1 * 128
  (List.range (min 128 (h.ext 1 - b))).flatMap fun j => (List.range (min 128 (h.ext 0 - a))).map fun i =>
    ⟨a + i, b + j, r % h.ext 2, r / h.ext 2⟩

/-- The address of a local element in the old and in the new storage. -/
def Conv.oldAddr (c : Conv) (l : Loc) : Nat := c.new.addr c.old.tag.toNat c.old.base.toNat c.new.elBytes 0 l
def Conv.newAddr (c : Conv) (l : Loc) : Nat := c.new.addr c.new.tag.toNat c.new.base.toNat c.new.elBytes 0 l

/-- A tile with an element in the bytes that the two storages share (R329). -/
def Conv.overlaps (c : Conv) (els : List Loc) : Bool :=
  let e := c.new.elBytes
  let lo := max c.old.base.toNat c.new.base.toNat
  let hi := min (c.new.spanEnd c.old.tag.toNat c.old.base.toNat) (c.new.spanEnd c.new.tag.toNat c.new.base.toNat)
  let in_ (a : Nat) : Bool := a < hi && lo < a + e
  lo < hi && els.any fun l => in_ (c.oldAddr l) || in_ (c.newAddr l)

/-- Free values in elements of a storage, wherever the job can write (log 5). -/
def blurEls (c : Conv) (at_ : Loc → Nat) (els : List Loc) : Exec Unit :=
  forAll els fun l => do
    let v ← freeBits (8 * c.new.elBytes)
    let _ ← caught (jobWrite c.ctx (at_ l) c.new.elBytes v)

/-- The elements of a tile that one move of the engine reads or writes (log 9). -/
def tileChunk : Nat := 128

/-- A move of the engine in its tile (R256, R328): the next elements are read; once all are, the next are written, and after
the last ones the tile is NEW. A tile in the overlap of the storages becomes free values in both (R329). A tile whose old
storage a handle store has reached is read in one move: R266 lets no raw store after that one, made while the tile is CONVERTING,
reach the new storage, which R256's row on raw stores would carry up to the byte's read (log 18). -/
def convertMove (c : Conv) (els : List Loc) : Exec Conv := do
  let e := c.new.elBytes
  if c.got.length < els.length then
    let n := if c.stored.contains c.ndone then els.length else tileChunk
    let more ← each ((els.drop c.got.length).take n) fun l => jobRead c.ctx (c.oldAddr l) e
    return { c with got := c.got ++ more }
  else
    let part := ((els.zip c.got).drop c.put).take tileChunk
    if c.overlaps els then
      forAll part fun (l, _) => do jobWrite c.ctx (c.newAddr l) e (← freeBits (8 * e))
      blurEls c c.oldAddr (part.map (·.1))
    else forAll part fun (l, v) => jobWrite c.ctx (c.newAddr l) e v
    if c.put + tileChunk < els.length then return { c with put := c.put + tileChunk }
    else return { c with got := [], put := 0, ndone := c.ndone + 1 }

/-- The stop of a conversion at its tile (R303). -/
def convFault (id : Nat) (c : Conv) (e : Stop) : Exec Unit := do
  let s ← get
  let stop ← match e with
    | .park code detail addr val pte w f => do
      let en : Entry := { taskid := c.task, addr := addr, val := val, pc := c.pc, pte := pte, elem := c.ndone,
                          hartid := s.hartId c.hart, asid := c.asHart.asid, code := code, detail := detail,
                          kind := kindByte (.vector c.pc false) w f false, src := 3 }
      let ring := match Tab.find s.tasks c.task with | some t => t.fqbase | none => 0
      let h := s.hart c.hart
      let ring := if h.run ≠ .free && h.gang = c.asHart.gang then h.fqbase else ring
      pure (JobStop.entry (← postJobEntry c.asHart ring en none (some id)))
    | .trap code detail value => pure (JobStop.failure code detail value)
    | _ => pure c.stop
  modify fun s => { s with convs := Tab.set s.convs id { c with stop := stop } }

/-- TILE CONVERSION (R328): the next move in the next tile of an accepted conversion. A failure returns the tile to OLD, its
new storage unspecified (R331). -/
def tileConversion (id : Nat) : Exec Unit := do
  let s ← get
  match Tab.find s.convs id with
  | none => pure ()
  | some c =>
    if c.accepted && c.stop = .none && c.ndone < c.tiles && c.after.all s.jobDone then
      let els := c.tileEls c.ndone
      match ← caught (convertMove c els) with
      | .ok d => modify fun s =>
          if d.ndone = d.tiles then { s.convToken d with convs := Tab.set s.convs id { d with token := none } }
          else { s with convs := Tab.set s.convs id d }
      | .error .wait => pure ()
      | .error e => do
        blurEls c c.newAddr els
        convFault id { c with got := [], put := 0 } e

/-- IMPOSE (R329). -/
def execImpose (f : VForm) (s : State) : Host.Outcome State Fault Refusal :=
  vectorStep (.impose f) f (fun e => imposeEntry e f) imposeBody s
/-- IMPWAIT (R330). -/
def execImpwait (f : VForm) (s : State) : Host.Outcome State Fault Refusal :=
  vectorStep (.impwait f) f (fun e => impwaitEntry e f) impwaitBody s
/-- TILE CONVERSION (R328). -/
def execTileConversion (impid : Nat) (s : State) : Host.Outcome State Fault Refusal := eventStep (tileConversion impid) s

end Sys2Proof.Machine
end

