-- ==== Sys2Proof/Machine/Collective.lean ====
section
/-! DEFINITION. Collectives: the values elements receive, the rounds of a group, VCOLL and COLLWAIT (R198 to R201, R333 to
R338). -/

namespace Sys2Proof.Machine

open Sys2Proof

/-! ### Values (R198 to R200) -/

/-- ⌊log2 |x|⌋ of a finite non-zero value. -/
def Fp.Val.exponent : Fp.Val → Option Int
  | .num _ m e _ => if m = 0 then none else some (e + Nat.log2 m)
  | _ => none

/-- The greatest of a list of exponents. -/
def maxExponent (l : List Int) : Option Int := l.foldl (fun o e => some (match o with | some x => max x e | none => e)) none

/-- The signed mantissa of a value over 2^e, truncated toward zero. -/
def Fp.Val.over (e : Int) : Fp.Val → Int
  | .num n m x _ =>
    let k := if x ≥ e then m * 2 ^ (x - e).toNat else m / 2 ^ (e - x).toNat
    if n then -(k : Int) else k
  | _ => 0

/-- The least exponent of the values' mantissas. -/
def minScale (l : List Fp.Val) (e : Int) : Int := l.foldl (fun a v => match v with | .num _ _ x _ => min a x | _ => a) e

/-- The floating-point sum of R199 with the flags of R200. -/
def collSum (fmt : Nat) (xs : List Nat) : Nat × Nat :=
  let f := Fp.spec fmt
  let vs := xs.map (Fp.decode fmt)
  let pos := vs.any fun v => v.isInf && !v.neg
  let neg := vs.any fun v => v.isInf && v.neg
  if vs.any (·.isNan) || (pos && neg) then (f.nan, if vs.any (·.isSig) || (pos && neg) then Fp.NV else 0)
  else if pos || neg then (Fp.signBit f neg + f.inf, 0)
  else
    match maxExponent (vs.filterMap (·.exponent)) with
    | none => (Fp.signBit f (!vs.isEmpty && vs.all (·.neg)), 0)
    | some e =>
      let q := e - 62
      let s : Int := (vs.map (Fp.Val.over q)).sum
      let r := Fp.roundBits fmt 0 0 (.num (s < 0) s.natAbs q false)
      let low := minScale vs (min q f.qmin)
      let exact : Int := (vs.map (Fp.Val.over low)).sum
      let got := Fp.decode fmt r.1
      let same := !got.isInf && got.over low = exact
      (r.1, (r.2 &&& (Fp.OF ||| Fp.UF)) ||| if same then 0 else Fp.NX)

/-- The combination of the contributions of an element (R198), in rank order, and its flags. -/
def collCombine (op fmt : Nat) (xs : List Nat) : Nat × Nat :=
  let w := fmtWidth fmt
  if fmtIsInt fmt then
    match op, xs with
    | 1, x :: t => (t.foldl (fun a b => if Fp.sext a w < Fp.sext b w then b else a) x, 0)
    | 2, x :: t => (t.foldl (fun a b => if Fp.sext b w < Fp.sext a w then b else a) x, 0)
    | _, _ => (xs.sum % 2 ^ w, 0)
  else
    match op, xs with
    | 1, x :: t => t.foldl (fun r b => let q := Fp.minMax true fmt r.1 b; (q.1, r.2 ||| q.2)) (Fp.minMax true fmt x x)
    | 2, x :: t => t.foldl (fun r b => let q := Fp.minMax false fmt r.1 b; (q.1, r.2 ||| q.2)) (Fp.minMax false fmt x x)
    | _, _ => collSum fmt xs

/-! ### Groups (R333, R334) -/

/-- The fields of a group descriptor. -/
structure GroupDesc where
  nmem : Nat
  buf  : Nat
  size : Nat
  zero : Bool      -- the reserved fields are zero
  idle : Bool      -- ROUND and PHASE are zero
  deriving DecidableEq, Repr

def GroupDesc.ofBytes (n : Nat) : GroupDesc where
  nmem := bytesAt n 0 4
  buf := bytesAt n 8 8
  size := bytesAt n 0x10 8
  zero := bytesAt n 4 4 = 0 && bytesAt n 0x28 24 = 0
  idle := bytesAt n 0x18 16 = 0

/-- RANK and DESC of a CG register (R333). -/
def cgRank (v : Word) : Nat := v.toNat / 2 ^ 52
def cgDesc (v : Word) : Nat := bits v.toNat 51 6 * 64

/-- The buffer bytes that a round needs (R334). -/
def bufferNeed (op fmt vl nmem : Nat) : Nat :=
  512 + match op with | 3 => nmem * vl * (fmtWidth fmt / 8) | 4 => 16 * nmem * vl | _ => 16 * vl

/-- The elements of the source and of the destination (R335). -/
def srcCount (op vl nmem : Nat) : Nat := if op = 4 then nmem * vl else vl
def dstCount (op vl nmem : Nat) : Nat := if op = 3 then nmem * vl else vl

/-- The round of a group. -/
def State.round (s : State) (key : Nat) : Round := Tab.get {} s.rounds key
def putRound (key : Nat) (r : Round) : Exec Unit := modify fun s => { s with rounds := Tab.put {} s.rounds key r }

/-- The first address of an access, and its part from there. -/
def Access.start (acc : Access) : Nat := match acc with | (a, _) :: _ => a | [] => 0

/-- What the device leaves in the descriptor's ROUND and PHASE: free values, ROUND not zero (R334; log 5). -/
def scribbleDesc (x : Ctx) (desc : Access) : Exec Unit := do
  let v ← freeBits 128
  putAccess x (v ||| 1) (desc.slice (desc.start + 0x18) 16)

/-- What the device leaves in the descriptor and the arrival map: free values, the map zero when the round has ended
(R334, R338). -/
def scribble (x : Ctx) (desc buf : Access) (ended : Bool) : Exec Unit := do
  scribbleDesc x desc
  let map ← if ended then pure 0 else freeBits 4096
  putAccess x map (buf.slice buf.start 512)

/-- What a member leaves in the slots: a gather's contribution is scattered coherently; exponents and truncated
contributions are combined at the banks (R45, R248, R335). The slots hold free values until the next round. -/
def scribbleSlots (x : Ctx) (op : Nat) (buf : Access) : Exec Unit := do
  let slots := buf.slice (buf.start + 512) (2 ^ 64)
  let v ← freeBits (8 * (slots.map (·.2.1)).sum)
  if op = 3 then putAccess x v slots else bankPut x v slots

/-- Bank-level work on the buffer waits for earlier commands of the hart on the same bytes (R248), and for maintenance
before an earlier STKFENCE (R250). -/
def awaitBanks (x : Ctx) (buf : Access) : Exec Unit := do
  let s ← get
  await (s.banks.all fun b => b.hart ≠ s.cur || b.gang ≠ s.me.gang || b.raised || !spansMeet b.op.spans (Access.spans buf))
  awaitNear x false buf

/-! ### VCOLL (R335, R336) -/

/-- The places of a group checked: its descriptor and the buffer bytes the round needs, and the fields read. -/
def groupAccess (c : VCtx) (x : Ctx) : Exec (Access × GroupDesc) := do
  let a := cgDesc c.e.x3
  let acc ← checkAccess x a 64 64 .write
  awaitNear x false acc
  let n ← takeAccess x acc
  return (acc, GroupDesc.ofBytes n)

def bufferAccess (c : VCtx) (x : Ctx) (d : GroupDesc) : Exec Access := do
  let acc ← checkAccess x d.buf (bufferNeed c.f.fn.toNat c.f.fmt.toNat c.vl d.nmem) 64 .write
  awaitNear x false acc
  return acc

/-- The key of a group: where its descriptor is. -/
def groupKey (acc : Access) : Nat :=
  match acc with
  | (_, _, p) :: _ => p.spot
  | [] => 0

/-- The entry's round recorded, with the phases finished in VSTART (R336). -/
def setRound (e : VEntry) (r : Option (Nat × Nat)) (phases : Nat) : Exec Unit := do
  setHead { e with coll := r }
  setVstart phases

/-- The hart's latest VCOLL on the group register was of a round (R337). -/
def noteRound (c : VCtx) (key serial : Nat) : Exec Unit :=
  modMe fun h => { h with colls := Tab.set h.colls (c.f.vs3.toNat % 4) (key, serial) }

/-- A contribution is this hart's. -/
def State.mine (s : State) (p : Contribution) : Bool := p.hart = s.cur && p.gang = s.me.gang && !p.remote

/-- The members of a round that stop at its abort: those for which `p` holds have taken it (R338). -/
def Round.abort (r : Round) (p : Contribution → Bool) : Round :=
  { r with aborted := true, parts := r.parts.map fun q => if p q then { q with trapped := true } else q }

/-- A round that a member in an unreachable package belongs to is aborted, and the member takes part no more (R428). -/
def Round.losePkg (r : Round) (pkg : Nat) : Round :=
  if !r.ended && r.parts.any (fun p => p.remote && p.pkg = pkg) then r.abort fun p => p.remote && p.pkg = pkg else r

/-- The collective abort at this member (R338): marked in its round, which it leaves. -/
def abortHere {α : Type} (c : VCtx) (key : Nat) : Exec α := do
  let s ← get
  let r := s.round key
  putRound key (r.abort s.mine)
  noteRound c key r.serial
  setRound c.e none 0
  trap 0x08 0 (word (cgDesc c.e.x3))

/-- A live round refuses a member whose op, FMT, VL or NMEM is another, or whose RANK has arrived (R338). -/
def Round.refuses (r : Round) (op fmt vl nmem rank : Nat) : Bool :=
  r.op ≠ op || r.fmt ≠ fmt || r.vl ≠ vl || r.nmem ≠ nmem || r.parts.any fun p => p.rank = rank

/-- A round's descriptor as a member finds it (R333, R334, R338): its fields hold, and its buffer is large enough. -/
def GroupDesc.valid (d : GroupDesc) (op fmt vl nmem rank : Nat) : Bool :=
  d.zero && 1 ≤ nmem && nmem ≤ 4096 && rank < nmem && bufferNeed op fmt vl nmem ≤ d.size

/-- A member arrives (R336, R338): it joins the round of its group, or begins one where none is live or software has zeroed
ROUND, PHASE and the map. -/
def arrive (c : VCtx) : Exec Unit := do
  let s ← get
  let x ← c.e.ctx
  let op := c.f.fn.toNat
  let fmt := c.f.fmt.toNat
  let w := fmtWidth fmt
  let (dacc, d) ← groupAccess c x
  let key := groupKey dacc
  let r := s.round key
  let valid := d.valid op fmt c.vl d.nmem (cgRank c.e.x3)
  let gs := c.group (srcCount op c.vl d.nmem) w
  let gd := c.group (dstCount op c.vl d.nmem) w
  let live := !r.parts.isEmpty && !r.ended
  if r.aborted && !(d.idle && valid) then abortHere c key
  else if live && !r.aborted && r.parts.length = r.nmem && !d.idle then throw .wait
  else if !valid then
    let n ← nextFresh
    if !live then putRound key { serial := n, task := (s.gangOf s.me).task }
    scribbleDesc x dacc
    abortHere c key
  else
    c.checkGroup c.f.vs1.toNat gs
    c.checkGroup c.f.vd.toNat gd
    match ← c.firstPoison (sameIndex [(c.f.vs1.toNat, w)])
        (if op = 4 then List.range (d.nmem * c.vl) else (List.range c.vl).filter (bitAt c.mask)) with
    | some (_, cl) => throw (.park 0x16 cl 0 0 0 false false)
    | none => pure ()
    let bacc ← bufferAccess c x d
    let map ← takeAccess x (bacc.slice bacc.start 512)
    let zeroed := d.idle && map = 0
    if r.aborted && !zeroed then abortHere c key
    let fresh := !live || zeroed
    if !fresh && r.parts.length = r.nmem then throw .wait
    if !fresh && r.refuses op fmt c.vl d.nmem (cgRank c.e.x3) then abortHere c key
    let da := cgDesc c.e.x3
    let regions := region da (da + 64 : Nat) true ++ region d.buf (d.buf + bufferNeed op fmt c.vl d.nmem : Nat) true
    awaitJobs regions
    if op ≠ 3 then awaitBanks x bacc
    let src ← c.read c.f.vs1.toNat gs
    let job ← nextFresh
    let p : Contribution :=
      { job := job, rank := cgRank c.e.x3, hart := s.cur, gang := s.me.gang, active := c.mask, regions := regions,
        values := (List.range (srcCount op c.vl d.nmem)).map fun i => elemAt src i w, added := op = 3 }
    let serial := if fresh then job else r.serial
    putRound key (if fresh then { serial := serial, op := op, fmt := fmt, vl := c.vl, nmem := d.nmem, parts := [p],
                                  task := (s.gangOf s.me).task, desc := dacc, buf := bacc }
      else { r with parts := r.parts ++ [p] })
    setRound c.e (some (key, serial)) 1
    noteRound c key serial
    scribble x dacc bacc false
    scribbleSlots x op bacc

/-- A VCOLL that is issued with phases finished in VSTART sends none of them again: it goes on in the round of the hart's
latest VCOLL on the group register, and waits where there is none (R336; log 21). -/
def rejoin (c : VCtx) : Exec Unit := do
  let s ← get
  match Tab.find s.me.colls (c.f.vs3.toNat % 4) with
  | some (key, serial) =>
    let r := s.round key
    await (r.serial = serial && (r.parts.any fun p => s.mine p && !p.read))
    setRound c.e (some (key, serial)) c.start
    if c.start ≥ 2 then
      putRound key { r with parts := r.parts.map fun p => if s.mine p then { p with added := true } else p }
  | none => throw .wait

/-- The values member p receives, by element: none where it is masked off. -/
def Round.result (r : Round) (p : Contribution) (i : Nat) : Option (Nat × Nat) :=
  match r.op with
  | 3 => some ((((r.parts.find? fun q => q.rank = i / r.vl).map (·.values)).getD []).getD (i % r.vl) 0, 0)
  | 4 => some (collCombine 0 r.fmt (r.parts.map fun q => q.values.getD (p.rank * r.vl + i) 0))
  | op =>
    if bitAt p.active i then
      some (collCombine op r.fmt (r.parts.filterMap fun q => if bitAt q.active i then some (q.values.getD i 0) else none))
    else none

/-- A member has read its results; the last one to read ends the round (R336). -/
def markRead (x : Ctx) (key rank : Nat) : Exec Unit := do
  let r ← ask (·.round key)
  let r' : Round := { r with parts := r.parts.map fun q => if q.rank = rank then { q with read := true } else q }
  if r'.ended then scribble x r.desc r.buf true
  putRound key r'

/-- The results written, with the flags of R200, and the member marked (R336). -/
def collect (c : VCtx) (key : Nat) (r : Round) (p : Contribution) : Exec Unit := do
  let w := fmtWidth r.fmt
  let els := (List.range (dstCount r.op r.vl r.nmem)).filterMap fun i => (r.result p i).map fun v => (i, v)
  let gd := c.group (dstCount r.op r.vl r.nmem) w
  markRead (← c.e.ctx) key p.rank
  let old ← c.read c.f.vd.toNat gd
  c.write c.f.vd.toNat gd (els.foldl (fun v (i, q) => elemSet v i w q.1) old) w (els.map (·.1))
  modMe fun h => { h with flags := h.flags ||| BitVec.ofNat 6 (els.foldl (fun a (_, q) => a ||| q.2) 0) }

/-- VCOLL at issue: it arrives, adds its contribution once every member has arrived, and reads once every member has
added (R336). Each turn makes the moves possible then. -/
def vcollBody (c : VCtx) : Exec Unit := do
  c.checkVl c.f.fmt.toNat
  c.checkGroup c.f.vs1.toNat 1
  c.checkGroup c.f.vd.toNat 1
  if c.e.coll.isNone then if c.start = 0 then arrive c else rejoin c
  let s ← get
  match s.me.viq with
  | [] => pure ()
  | e :: _ =>
    let (key, serial) := e.coll.getD (0, 0)
    let c := { c with e := e }
    let r := s.round key
    if r.serial ≠ serial then do
      setRound e none 0
      trap 0x08 0 (word (cgDesc e.x3))
    if r.aborted then abortHere c key
    await (r.parts.length = r.nmem)
    if r.parts.any fun p => s.mine p && !p.added then do
      let x ← c.e.ctx
      awaitBanks x r.buf
      putRound key { r with parts := r.parts.map fun p => if s.mine p then { p with added := true } else p }
      scribbleSlots x r.op r.buf
      setVstart 2
    let r ← ask (·.round key)
    await (r.parts.all (·.added))
    match r.parts.find? s.mine with
    | some p => collect c key r p
    | none => pure ()

/-- VCOLL's CG register is read at VIQ entry (R107). -/
def vcollHook (f : VForm) : EntryHook := fun e => do
  return { e with x3 := Tab.get (0 : Word) (← me).cg (f.vs3.toNat % 4) }

/-- COLLWAIT (R337). -/
def collwaitBody (c : VCtx) : Exec Unit := do
  let s ← get
  match Tab.find s.me.colls (c.f.vs3.toNat % 4) with
  | none => pure ()
  | some (key, serial) => do
    await ((s.round key).serial ≠ serial || (s.round key).ended)
    modMe fun h => { h with colls := Tab.erase h.colls (c.f.vs3.toNat % 4) }

/-- VCOLL (R335). -/
def execVcoll (f : VForm) (s : State) : Host.Outcome State Fault Refusal :=
  vectorStep (.vcoll f) f (vcollHook f) (bodyNow vcollBody) s
/-- COLLWAIT (R337). -/
def execCollwait (f : VForm) (s : State) : Host.Outcome State Fault Refusal := plainStep (.collwait f) f collwaitBody s

end Sys2Proof.Machine
end

