-- ==== Sys2Proof/Machine/Fetch.lean ====
section
/-! DEFINITION. Fetching and decoding the instruction at the PC, whose turn is next, and placing an instruction where the
next step fetches it (R49 to R51, R71; log 1, log 2). -/

namespace Sys2Proof.Machine

open Sys2Proof

/-- What the fetch at a PC finds. -/
inductive Fetched where
  | instr (i : Instr)
  | illegal (parcels : BitVec 64)
  | failed
  | waits
  deriving DecidableEq, Repr

/-- The first two parcels as the value of R401. -/
def parcelValue : List (BitVec 32) → BitVec 64
  | [] => 0
  | p :: ps => if opIsV (opcodeOf p).toNat then (ps.headD 0) ++ p else (0 : BitVec 32) ++ p

/-- The alignment of R50: V-format instructions at multiples of 8, convoy headers at 4 mod 8, every PC a multiple of 4. -/
def placedRight (op pc : Nat) : Bool :=
  if opIsV op then pc % 8 = 0 else if op = 0xC0 then pc % 8 = 4 else pc % 4 = 0

/-- The instruction that parcels at an address are (R50, R72). -/
def decodeAt (pc : Nat) (ps : List (BitVec 32)) : Fetched :=
  match decodeParcels ps with
  | .ok (i, _) =>
    if i.wf && placedRight (opcodeOf (ps.headD 0)).toNat pc then .instr i else .illegal (parcelValue ps)
  | .error _ => .illegal (parcelValue ps)

/-- The fetch at the PC of the hart whose turn it is. A fault on the high parcel of a misplaced V-format instruction comes before
its illegal instruction (log 21). One that fails is made, with its effects, by FETCH_FAULT. The members
of a checked convoy have been fetched with its header (R51), and a MIGR or KDEND past its first effect goes on without a
fetch: it may have taken its own page away (R390, R393). -/
def fetchAt (s : State) : Fetched × State :=
  match s.me.move, s.me.ending, s.me.members with
  | some m, _, _ => (.instr (.migr m.form), s)
  | none, some f, _ => (.instr (.kdend f), s)
  | none, none, (i, _) :: _ => (.instr i, s)
  | none, none, [] =>
    match fetchParcels (s.ctx s.cur) s.me.pc.toNat s with
    | .ok ps s' => (decodeAt s.me.pc.toNat ps, s')
    | .error .wait s' => (.waits, s')
    | .error _ _ => (.failed, s)

/-- A hart that executes instructions of its scalar stream: it runs, and no pass of a repeat waits for its count (R134). -/
def Hart.active (h : Hart) : Bool := (h.run = .running || h.run = .woken) && !h.passOpen

/-- The hart executes, its core not halting for a pre-emption (R366). -/
def State.runs (s : State) (k : Nat) : Bool := (s.hart k).active && (Tab.find s.preempts (coreOf k)).isNone

/-- The next hart that executes after the present one, in rising and then wrapping order; the present one if there is no
other (log 2). -/
def State.rotate (s : State) : State :=
  let ks := (s.harts.map (·.1)).filter s.runs
  match ks.find? (fun k => s.cur < k) with
  | some k => { s with cur := k }
  | none => match ks with | k :: _ => { s with cur := k } | [] => s

/-- An address for a placed instruction: right by R50. -/
def placedPc (op : Nat) : Nat := if op = 0xC0 then 0x10004 else 0x10000

/-- The leaf that maps the placed page: V, X, W and U, tier 0, frame 1 of the package, key slot 0. -/
def placedLeaf (pkg : Nat) : Word := word (pkg * 2 ^ 45 + 0x10000 + 0xF)

/-- A running S-level hart whose next fetch finds the given bytes: its page is in the TLB, the census covers it, its gang
was placed with them, and nothing else is due (log 1). -/
def State.place (s : State) (pc : Nat) (bytes : List Byte) : State :=
  let base := s.pkg * 2 ^ 45 + pc
  let h := s.me
  let h := { h with run := .running, pc := word pc, tstat := { h.tstat with lvl := true }, members := [], move := none, ending := none,
                    rep := if h.passOpen then {} else h.rep }
  let v := bytes.foldr (fun b acc => b.toNat + 256 * acc) 0
  let s := { (s.putHart s.cur h) with
    census := Tab.put 0 s.census s.pkg (Tab.get 0 s.census s.pkg ||| 1)
    mem := s.mem.writeN base v bytes.length
    sectors := s.sectors.filter (fun (g, _) => g / 4 ≠ base / 128)
    l1i := s.l1i.filter (fun (k, _) => k ≠ l1iKey (coreOf s.cur) (base / 32))
    poison := s.poison.filter (· ≠ base / 32)
    dram := Tab.put .none s.dram (base / 32) .none
    port := { s.port with lostPkgs := s.port.lostPkgs.filter (· ≠ s.pkg) }
    preempts := Tab.erase s.preempts (coreOf s.cur)
    agenda := [], arrays := [], plan := {}, stopped := false, clock := s.clock + s.clock % 2 }
  let d := s.domainAt (s.pkg * 4096) base
  let t : TlbEntry := { holder := coreOf s.cur, asid := h.asid, big := false, page := 1, leaf := placedLeaf s.pkg,
                        leafPa := 0, sealv := d.sealv, key := s.pkg * 4096 }
  let s := { s with
    domains := Tab.set s.domains (base / 32) d
    tlb := t :: s.tlb.filter (fun t => !t.hits (coreOf s.cur) h.asid 0x10000) }
  s.putGang h.gang { s.gang h.gang with code := s.view }

end Sys2Proof.Machine
end

