-- ==== Sys2Proof/Machine/Issue.lean ====
section
/-! DEFINITION. Issue from the queues: the meaning of every queued instruction, convoy headers, the sequencer's moves, and
the restart of parked harts (R64 to R66, R321, R336, R352, R412, R413, R419). -/

namespace Sys2Proof.Machine

open Sys2Proof

/-! ### Convoys (R64, R65, R58, R135) -/

/-- Member k of a convoy whose header is at pc: its parcels are fetched and its encoding, class and eligibility checked. The
members are taken in order, so where one is illegal and a later one's fetch faults, illegal instruction is raised: the
model's choice (log 21). -/
def checkMember (i : Instr) (f : CForm) (pc : Word) (k : Nat) : Exec (Instr × VForm) := do
  let c ← myCtx
  let a := pc.toNat + 4 + 8 * k
  let p ← fetchParcel c (a % 2 ^ 64)
  let q ← fetchParcel c ((a + 4) % 2 ^ 64)
  match decodeParcels [p, q] with
  | .ok (m, _) =>
    match m.vForm with
    | some (op, v) =>
      need (m.wf && opConvoyable op.toNat && (v.unit op.toNat).code = (Wf.convoyUnits f).getD k 7)
        (.trap 0x01 0 (illegalValue i))
      return (m, v)
    | none => illegal i
  | .error _ => illegal i

/-- The members of a checked convoy enter the VIQ together, so that the convoy can issue as a whole (R65, R352), from the
first on; one that finds no free entry, or waits for an operand, enters at a later turn without being fetched again (R51,
R107, R108, R406). -/
def Hart.enterNow (h : Hart) : Nat → Hart
  | 0 => h
  | n + 1 =>
    match h.members with
    | [] => h
    | (m, v) :: _ => if h.viqRoom = 0 || !h.ready (xFieldsOf m v) then h else (h.enqueue m (h.capture m v)).enterNow n

/-- The convoy header (R64, R65): the convoy is checked as a whole; a false one is passed over, and the members of a true
one enter the VIQ. -/
def execConvoyHeader (f : CForm) (s : State) : Host.Outcome State Fault Refusal :=
  scalarStep true [] 4 (do
    let h ← me
    let n := f.n.toNat + 2
    let i : Instr := .convoyHeader f
    need i.wf (.trap 0x01 0 (illegalValue i))
    let ms ← each (List.range n) (checkMember i f h.pc)
    if h.rep.active && h.rep.len ≤ h.rep.pos + n then illegal i
    if h.getG f.guard.toNat then modMe fun h => { h.advance 4 with members := ms, convoy := h.entered }.enterNow n
    else modMe (·.retire (n + 1) (h.pc + word (4 + 8 * n)))
    return .stay) s

/-! ### The meaning of a queued instruction -/

/-- The body of a queued instruction. -/
def issueBody : Instr → Body
  | .vsoft _ => bodyNow vsoftBody
  | .vsmerge _ => bodyNow vsmergeBody
  | .clset _ => bodyNow clsetBody
  | .clsplit _ => bodyNow clsplitBody
  | .clrun _ => bodyNow clrunBody
  | .clnext _ => bodyNow clnextBody
  | .clsave _ => bodyNow clsaveBody
  | .clrest _ => bodyNow clrestBody
  | .vcoll _ => bodyNow vcollBody
  | .collwait _ => bodyNow collwaitBody
  | .fbind _ => bodyNow fbindBody
  | .frel _ => bodyNow frelBody
  | .yxfer _ => bodyNow yxferBody
  | .fdone _ => bodyNow fdoneBody
  | .ysync _ => bodyNow ysyncBody
  | .yired _ => yiredBody
  | .ybop _ => ybopBody
  | .flstream _ => flstreamBody
  | .flpaged _ => flpagedBody
  | .flcopy _ => flcopyBody
  | .vls _ => bodyNow vlsBody
  | .flwait _ => bodyNow flwaitBody
  | .flstop _ => bodyNow flstopBody
  | .tkclr _ => bodyNow tkclrBody
  | .impose _ => imposeBody
  | .impwait _ => impwaitBody
  | .vmma _ => bodyNow vmmaBody
  | .vmmax _ => bodyNow vmmaxBody
  | .vmmaq _ => bodyNow vmmaqBody
  | .tld _ => bodyNow tldBody
  | .tst _ => bodyNow tstBody
  | .tmov _ => bodyNow tmovBody
  | .tzero _ => bodyNow tzeroBody
  | .tflags _ => bodyNow tflagsBody
  | .vcvt _ => bodyNow vcvtBody
  | .vquant _ => bodyNow vquantBody
  | .vblkhdr _ => bodyNow vblkhdrBody
  | .setvl _ => setvlBody
  | .setvlw _ => setvlwBody
  | .vcfg _ => vcfgBody
  | .vfalu _ => bodyNow vfaluBody
  | .vfma _ => bodyNow vfmaBody
  | .vfdiv _ => bodyNow vfdivBody
  | .vfsqrt _ => bodyNow vfsqrtBody
  | .vfexp2 _ => bodyNow vfexp2Body
  | .vfclass _ => bodyNow vfclassBody
  | .vldh _ => bodyNow vldhBody
  | .vsth _ => bodyNow vsthBody
  | .vint _ => bodyNow vintBody
  | .vmul _ => bodyNow vmulBody
  | .vsat _ => bodyNow vsatBody
  | .vmulw _ => bodyNow vmulwBody
  | .vaddw _ => bodyNow vaddwBody
  | .vnarrow _ => bodyNow vnarrowBody
  | .vabsd _ => bodyNow vabsdBody
  | .vbitc _ => bodyNow vbitcBody
  | .vcmp _ => bodyNow vcmpBody
  | .vmlog _ => bodyNow vmlogBody
  | .vmpop _ => bodyNow vmpopBody
  | .vsel _ => bodyNow vselBody
  | .vld _ => bodyNow vldBody
  | .vldff _ => bodyNow vldffBody
  | .vldx _ => bodyNow vldxBody
  | .vst _ => bodyNow vstBody
  | .vstx _ => bodyNow vstxBody
  | .vstxa _ => bodyNow vstxaBody
  | .vperm _ => bodyNow vpermBody
  | .vpermb _ => bodyNow vpermbBody
  | .vslide _ => bodyNow vslideBody
  | .vcompress _ => bodyNow vcompressBody
  | .vexpand _ => bodyNow vexpandBody
  | .vsplat _ => bodyNow vsplatBody
  | .vmvx _ => bodyNow vmvxBody
  | .vmvv _ => bodyNow vmvvBody
  | .viota _ => bodyNow viotaBody
  | .vred _ => bodyNow vredBody
  | .vredo _ => bodyNow vredoBody
  | .vscan _ => bodyNow vscanBody
  | .vrecur _ => bodyNow vrecurBody
  | .vtopk _ => bodyNow vtopkBody
  | _ => fun _ _ => return .now

/-! ### The sequencer (R352) -/

/-- A hart whose queue may issue: not parked, restarting or halted (R366, R415). -/
def Hart.issues (h : Hart) : Bool :=
  match h.run with
  | .running | .woken | .asleep .. | .yielding _ => true
  | _ => false

/-- The head of a hart's queue, if it may issue now. -/
def State.headOf (s : State) (k : Nat) : Option VEntry :=
  let h := s.hart k
  if h.issues && (Tab.find s.preempts (coreOf k)).isNone && !s.late k && !h.filling then h.viq.head? else none

/-- The head of the queue of the hart whose turn it is issues; a stop of it ends the hart's own wait. The answer is false
where it waits. -/
def issueOne : Exec Bool := do
  match (← me).viq with
  | [] => return false
  | e :: _ =>
    match ← caught (issueHead (issueBody e.instr)) with
    | .ok _ => do
      passPointer (← ask (·.cur)) e.unit
      return true
    | .error .wait => return false
    | .error st => do
      modMe fun h => { h with run := .running }
      settleStop e.point st
      passPointer (← ask (·.cur)) e.unit
      return true

/-- The members of a convoy issue together, as far as none waits or stops (R352). -/
def issueConvoy (convoy : Nat) : Nat → Exec Unit
  | 0 => pure ()
  | n + 1 => do
    match (← me).viq.head? with
    | some e =>
      if e.convoy = some convoy && (← me).issues then
        if ← issueOne then issueConvoy convoy n
    | none => pure ()

/-! ### Looking ahead at an instruction, and accesses performed ahead of older ones (R237, R238, R249; log 2) -/

/-- The places and bytes in memory of noted addresses, of those that have a place: a frame whatever its leaf permits. -/
def notedPlaces (c : Ctx) (l : List (Nat × Nat)) : Exec (List (Nat × Nat)) := do
  let ps ← each (l.flatMap fun (a, n) => cuts a n) fun (a, n) => do
    if inWindow a then return some (2 ^ 64 + scratchKey (clusterOf c.hart) a, n)
    else
      match ← caught (findLeaf c a .read) with
      | .ok f => return some (leafPa f.big f.leaf a, n)
      | .error _ => return none
  return ps.filterMap id

/-- The places in memory that a queue entry touches if it is performed now, faults and waits passed over. The state stays as
it is. -/
def footprint (e : VEntry) (f : VForm) : Exec (List (Nat × Nat)) := fun s =>
  let look : Exec (List (Nat × Nat)) := do
    let _ ← caught (issueBody e.instr { e with probe := true } f)
    notedPlaces (← myCtx) (← ask (·.plan.noted))
  match look { s with plan := { s.plan with noted := [] } } with
  | .ok l _ => .ok l s
  | .error .. => .ok [] s

/-- Two lists of places share a byte. -/
def sharesByte (a b : List (Nat × Nat)) : Bool := a.any fun p => b.any fun q => p.1 < q.1 + q.2 && q.1 < p.1 + p.2

/-- The vector loads and stores; `true`: it stores. -/
def vectorAccess : Instr → Option Bool
  | .vld _ | .vldh _ | .tld _ => some false
  | .vldx f => if f.fn.toNat / 2 % 2 = 1 then none else some false
  | .vst _ | .vstx _ | .vstxa _ | .vsth _ | .tst _ => some true
  | _ => none

/-- An instruction that accesses may be performed ahead of: one of registers and tiles only, a SETVL, or a vector load or
store without ACQ and REL (R238, R239). -/
def passable (i : Instr) (f : VForm) : Bool :=
  match i with
  | .setvl _ => true
  | .vldff _ => f.ord = 0
  | .vldx _ => f.ord = 0
  | _ => if (vectorAccess i).isSome then f.ord = 0 else 0x83 ≤ vOpcode i && vOpcode i ≤ 0xB9 && vOpcode i ≠ 0xAE

/-- The registers that an entry names, by field: the first, how many at most (R19, R141), whether it is written. Vector and
mask registers are not told apart. -/
def namedRegs (h : Hart) (i : Instr) (f : VForm) : List (Nat × Nat × Bool) :=
  let index := (f.vs2.toNat, groupSize (vlmaxOf f.fmt.toNat h.regBytes) (Wf.iwOf f) h.regBytes, false)
  (if f.vm = 0 then [] else [(f.vm.toNat, 1, false)]) ++
  match i with
  | .vld _ | .vldh _ => [(f.vd.toNat, 1, true)]
  | .vst _ | .vsth _ => [(f.vd.toNat, 1, false)]
  | .vldx _ => [(f.vd.toNat, 1, true), index]
  | .vstx _ | .vstxa _ => [(f.vd.toNat, 1, false), index]
  | .tld _ | .tst _ | .setvl _ => []
  | _ => [f.vd, f.vs1, f.vs2, f.vs3].map fun r => (r.toNat, 8, true)

/-- An instruction works on the tile. -/
def usesTile (i : Instr) : Bool := 0xAF ≤ vOpcode i && vOpcode i ≤ 0xB6

/-- Two instructions depend on each other by a register or the tile, one of them writing it. -/
def clash (h : Hart) (i j : Instr) (f g : VForm) : Bool :=
  (usesTile i && usesTile j) ||
  (namedRegs h i f).any fun p => (namedRegs h j g).any fun q => (p.2.2 || q.2.2) && p.1 < q.1 + q.2.1 && q.1 < p.1 + p.2.1

/-- Accesses of an entry, at the places `foot`, may be performed ahead of the older entries of its queue, which run here in
order: no FENCE of kind V→V stands between (R240), no store passes the end of a strip (R238), they share no byte with an
older access (R237, R242), depend on no older entry, and each older one completes. -/
def mayPass (i : Instr) (f : VForm) (foot : List (Nat × Nat)) : List VEntry → Exec Bool
  | [] => return true
  | o :: t =>
    match o.instr.vForm with
    | none => return false
    | some (_, g) => do
      let strip := match o.instr with | .setvl _ => true | _ => false
      let h ← me
      let theirs ← footprint o g
      if o.fence || !passable o.instr g || (strip && vectorAccess i = some true) || clash h i o.instr f g ||
          sharesByte foot theirs then return false
      else if ← issueOne then mayPass i f foot t
      else return false

/-- The mask of a vector's elements but those of another mask. -/
def butElements (vl els : Nat) : Nat := (2 ^ vl - 1) ^^^ ((2 ^ vl - 1) &&& els)

/-- Some elements of the entry at a place of the queue have their accesses performed ahead of the older entries and of its
own other elements, where the rules allow it and no older entry would stop. The entry completes in its turn. -/
def performAhead (n els : Nat) : Exec Unit := do
  let s ← get
  let h := s.me
  let pre := h.viq.take n
  match h.viq.drop n with
  | [] => pure ()
  | e :: post =>
    match e.instr.vForm, e.vl with
    | some (_, f), some vl =>
      let whole := butElements vl els = 0
      let now := { e with early := e.early ||| butElements vl els }
      let later := { e with early := e.early ||| ((2 ^ vl - 1) &&& els) }
      let foot ← footprint now f
      let own ← footprint later f
      let pass ← mayPass e.instr f foot pre
      let left := (← me).viq.length
      set s
      if pass && left = post.length + 1 && !sharesByte foot own && (vectorAccess e.instr).isSome && f.ord = 0 && h.vstart = 0 &&
          (f.tpop = 0 || e.popped) && e.until_.isNone && (whole || (!fmtIsBlock f.fmt.toNat && h.badv.isEmpty)) then
        match ← caught (issueBody e.instr now f) with
        | .ok _ => modMe fun x => { x with viq := pre ++ later :: post, vl := h.vl, vvl := h.vvl, vlPending := h.vlPending }
        | .error _ => set s
    | _, _ => pure ()

/-- The head of a hart's queue issues, with the rest of its convoy; the answer is false where it waits. -/
def issueOn (k : Nat) : Exec Bool := asHart k (do
  match (← ask (·.plan)).ahead.find? (·.1 = k) with
  | some (_, n, els) => do
    modify fun s => { s with plan := { s.plan with ahead := s.plan.ahead.filter (·.1 ≠ k) } }
    performAhead n els
    return true
  | none =>
    let convoy := (← me).viq.head?.bind (·.convoy)
    let went ← issueOne
    match convoy with
    | some c => if went then issueConvoy c 8
    | none => pure ()
    return went)

/-- The harts of a core in the order a unit class looks at them (R352). -/
def State.issueOrder (s : State) (core unit : Nat) : List Nat :=
  (List.range 8).map fun i => core * 8 + (Tab.get 0 s.issuePtr (core * 8 + unit) + i) % 8

/-- The first hart of a list whose head, or the convoy there, wants a unit class and does not wait issues (R352, R353). -/
def issueFirst (unit : Nat) : List Nat → Exec Unit
  | [] => pure ()
  | k :: t => do
    match ← ask (·.headOf k) with
    | some _ =>
      if (← ask (·.hart k)).headUnits.contains unit then (if ← issueOn k then pure () else issueFirst unit t)
      else issueFirst unit t
    | none => issueFirst unit t

/-- The sequencer serves the unit class of a hart's head (R352). -/
def serveUnit (k : Nat) : Exec Unit := do
  match ← ask (·.headOf k) with
  | some e => issueFirst e.unit (← ask (·.issueOrder (coreOf k) e.unit))
  | none => pure ()

/-- The head issues when it is of a kind. -/
def issueWhen (p : VEntry → Bool) (k : Nat) : Exec Unit := do
  match (← ask (·.headOf k)) with
  | some e => if p e then let _ ← issueOn k
  | none => pure ()

/-- The far placement of a queue entry. -/
def VEntry.isFar (e : VEntry) : Bool := match e.instr.vForm with | some (_, f) => f.p = 1 | none => false
def VEntry.isVcoll (e : VEntry) : Bool := match e.instr with | .vcoll _ => true | _ => false
def VEntry.isSetvlw (e : VEntry) : Bool := match e.instr with | .setvlw _ => true | _ => false

/-- VECTOR ISSUE (R352): the unit class of the hart's head takes its next instruction. -/
def execVectorIssue (hart : Nat) (s : State) : Host.Outcome State Fault Refusal := eventStep (serveUnit hart) s

/-- FAR EXECUTE (R321): the far instruction at the head executes in its context. -/
def execFarExecute (hart : Nat) (s : State) : Host.Outcome State Fault Refusal := eventStep (issueWhen (·.isFar) hart) s

/-- COLLECTIVE PHASE (R336): the VCOLL at the head passes the phases it can. -/
def execCollectivePhase (hart : Nat) (s : State) : Host.Outcome State Fault Refusal := eventStep (issueWhen (·.isVcoll) hart) s

/-- WATERMARK PASS (R137, R318): a SETVLW at the head, or the WMWAIT a hart is at, reads its word again. -/
def execWatermarkPass (hart : Nat) (s : State) : Host.Outcome State Fault Refusal :=
  match s.headOf hart with
  | some e => if e.isSetvlw then eventStep (do let _ ← issueOn hart) s else .next s
  | none =>
    if s.runs hart then
      match fetchAt { s with cur := hart } with
      | (.instr (.wmwait f), s') =>
        match execWmwait f s' with
        | .next s'' => .next { s'' with cur := s.cur }
        | .fault r => .fault r
        | .refused r => .refused r
      | _ => .next s
    else .next s

/-! ### Maintenance operations taking effect (R249, R279) -/

/-- Where an entry's accesses go depends on more than it captured: on registers, tiles, a cursor or a stream. -/
def VEntry.wanders (e : VEntry) (f : VForm) : Bool :=
  match e.instr with
  | .vldx _ | .vstx _ | .vstxa _ | .vmmax _ | .clsplit _ | .clrun _ | .clnext _ | .impose _ | .vls _ => true
  | .vld _ | .vldff _ | .vst _ => fmtIsBlock f.fmt.toNat
  | _ => false

/-- An entry of a hart's queue touches a line of a list, or, where earlier entries may still move its accesses, may touch
one. Behind the oldest entry every element counts. -/
def State.mayTouch (s : State) (k : Nat) (h : Hart) (lines : List (Nat × Nat)) (oldest : Bool) (e : VEntry) : Bool :=
  match e.instr.vForm with
  | none => false
  | some (_, f) => (!oldest && e.wanders f) ||
    match footprint e (if oldest then f else { f with vm := 0 }) { s.putHart k h with cur := k } with
    | .ok l _ => l.any fun (pa, n) => lines.any fun (x, m) => pa / 128 < x + m && x ≤ (pa + n - 1) / 128
    | .error .. => false

/-- A maintenance operation of a hart of a context is ready to take effect: no VIQ entry before it is still to access its
lines (R249), and no STKFENCE before it holds them (R250). -/
def State.maintReady (s : State) (k : Nat) (h : Hart) (m : Maint) : Bool :=
  ((h.held ++ h.viq).zipIdx.all fun (e, i) => !m.after.contains e.seq || !s.mayTouch k h m.lines (i = 0) e) &&
  m.lines.all fun (l, n) => (List.range n).all fun i => !s.fenceHeld h m.id ((l + i) * 128)

/-- An accepted maintenance operation takes effect at its Landings (R249, R279): of the hart in the context, or of a
suspended one of that context, whose operations run on. -/
def maintEffect (hart : Nat) : Exec Unit := do
  let s ← get
  match (s.hart hart :: s.savedAt hart).findSome? fun h => (h.maint.find? (s.maintReady hart h)).map fun m => (h.gang, m) with
  | none => pure ()
  | some (gang, m) =>
    forAll m.lines fun (l, n) => forAll (List.range n) fun i => maintLine m.kind (l + i)
    modify fun s => s.onHart hart gang (·.dropMaint m.id)

/-- MAINTENANCE EFFECT (R279). -/
def execMaintenanceEffect (hart : Nat) (s : State) : Host.Outcome State Fault Refusal := eventStep (maintEffect hart) s

/-! ### Fault service (R413, R419) -/

/-- HELD ENTRY WRITE (R413): the oldest entry held for a ring, by its BASE, when the ring has space. -/
def heldEntryWrite (base : Nat) : Exec Unit := do
  match (← ask (·.pending)).find? (fun p => p.seq = none && p.ring.toNat / 2 ^ 12 = base) with
  | some p =>
    if ringOk p.ring then
      drainRing p.ring 1
      setWaiting p.ring
  | none => pure ()

def execHeldEntryWrite (ring : Nat) (s : State) : Host.Outcome State Fault Refusal := eventStep (heldEntryWrite ring) s

/-- A hart is due to restart, on a core that no pre-emption halts. -/
def State.due (s : State) (k : Nat) : Bool :=
  (match (s.hart k).run with | .restart .. => true | _ => false) && (Tab.find s.preempts (coreOf k)).isNone

/-- No hart of the cluster whose completion took effect earlier is still to restart (R419). -/
def State.restartsNext (s : State) (k : Nat) : Bool :=
  s.harts.all fun (j, h) => clusterOf j ≠ clusterOf k || !s.due j || (s.hart k).dueAt ≤ h.dueAt

/-- A parked hart restarts as its completion code says (R224, R418): RETRY, SKIP, ABORT, RAISE, RETURN. -/
def restartHart (k : Nat) : Exec Unit := asHart k (do
  await (← ask (·.restartsNext k))
  match (← me).run with
  | .restart code value e => do
    modMe fun h => { h with run := .running }
    match code with
    | 1 => modMe fun h =>
        match h.skip with
        | some k => { h with cursor := ((Cursor.ofNat h.cursor).skip k).toNat, skip := none, vstart := 0 }
        | none => h
    | 2 => modMe fun h => { h with cursor := { Cursor.ofNat h.cursor with state := 4 }.toNat, skip := none, vstart := 0 }
    | 3 =>
      let p : Point := if e.kind / 4 % 2 = 1 then .vector e.pc (e.kind / 16 % 2 = 1) else .scalar
      takeTrap p e.code e.detail e.addr
    | 4 => modMe fun h => (h.setX h.callRd.toNat value).advance 4
    | _ => pure ()
  | _ => pure ())

/-- PARKED HART RESTART (R419). -/
def execParkedHartRestart (hart : Nat) (s : State) : Host.Outcome State Fault Refusal := eventStep (restartHart hart) s

end Sys2Proof.Machine
end

