-- ==== Sys2Proof/Machine/Pod.lean ====
section
/-! DEFINITION. The requests of other packages of the pod: reads, writes and atomics at the homes of this one, and what
travels to its command window: far work, bank-level commands and collective phases (R201, R430, R438, R439). What a request
holds where the rules give no layout is the model's (log 14). -/

namespace Sys2Proof.Machine

open Sys2Proof

/-- The port changed. -/
def modPort (f : Port → Port) : Exec Unit := modify fun s => { s with port := f s.port }

/-- The reply of a port. -/
def reply (r : PortReply) : Exec Unit := modPort fun p => { p with reply := r }

/-- A little-endian number as n bytes, and back. -/
def toBytes (v n : Nat) : List Byte := (List.range n).map fun i => BitVec.ofNat 8 (v / 2 ^ (8 * i))
def ofBytes (l : List Byte) : Nat := l.foldr (fun b acc => b.toNat + 256 * acc) 0

/-- The domain of a request at an address: its translation and key check were made where it issued. -/
def State.guestDomain (s : State) (slot pa : Nat) : Domain := s.domainAt (s.pkg * 4096 + slot % 4096) pa

/-- The span of a request. -/
def State.guestSpan (s : State) (u : UaSpan) : Span := { pa := u.1, bytes := u.2.1, domain := s.guestDomain u.2.2 u.1 }
def State.guestSpans (s : State) (l : List UaSpan) : List Span := l.map s.guestSpan

/-- The same as the parts of an access, numbered from `off`. -/
def State.guestAccess (s : State) (off : Nat) : List UaSpan → Access
  | [] => []
  | u :: t => (off, u.2.1, .phys u.1 (s.guestDomain u.2.2 u.1)) :: s.guestAccess (off + u.2.1) t

/-! ### Reads, writes and atomics at the home (R231) -/

/-- Bytes read at their home, and the class of a data error or 0. -/
def guestRead (pa n slot : Nat) : Exec (List Byte × Nat) := do
  let rs ← each (cuts pa n) fun (a, k) => do
    let (v, e) ← readPhys {} (← ask (·.guestDomain slot a)) false 0 a k
    return (toBytes v k, e)
  return (rs.flatMap (·.1), (rs.map (·.2)).foldl (fun a e => if a ≠ 0 then a else e) 0)

/-- Bytes written at their home, with the wake of the lines. -/
def guestWrite (pa : Nat) (l : List Byte) (slot : Nat) : Exec Unit := do
  forAll (cuts pa l.length) fun (a, k) => do
    writeHome {} (← ask (·.guestDomain slot a)) a k (ofBytes ((l.drop (a - pa)).take k))
  if l ≠ [] then wakeRange pa (pa + l.length - 1)

/-- An indivisible change of n bytes: the reply is the old value. -/
def guestAtomic (pa n slot : Nat) (f : Nat → Option Nat) : Exec Unit := do
  let (l, e) ← guestRead pa n slot
  if e ≠ 0 then reply .poisoned
  else
    match f (ofBytes l) with
    | some v => guestWrite pa (toBytes (v % 2 ^ (8 * n)) n) slot
    | none => pure ()
    reply (.data l)

/-! ### Far work of another package's harts (R321, R322, R439) -/

/-- The key under which a far instruction of another package runs while it executes here. -/
def guestHart : Nat := 384 * 8

/-- Far instructions that a request carries whole: they reach no memory and no near register but FDONE's x(VD). -/
def farRegister : Instr → Bool
  | .vld _ | .vst _ | .vldx _ | .vstx _ | .vstxa _ | .yxfer _ | .yired _ | .ybop _ | .fbind _ | .frel _ => false
  | _ => true

/-- What of the issuing hart a far instruction sees. -/
def guestOf (q : FarSource) (ctx : Nat) (i : Instr) (f : VForm) : Hart :=
  let k : Fstk := { pkg := BitVec.ofNat 7 (ctx / 2048), stack := BitVec.ofNat 3 (ctx / 256), fctx := BitVec.ofNat 8 ctx, bound := true }
  { run := .running, vcfg := BitVec.ofNat 2 q.vcfg, count := BitVec.ofNat 6 q.lanes, vstart := BitVec.ofNat 16 q.start,
    srseed := BitVec.ofNat 32 q.seed, fstk := [(f.slot.toNat, k)],
    m := (if f.vm = 0 then [] else [(f.vm.toNat, q.mask)]) ++ [(f.vs1.toNat, q.mask1)],
    tstat := { nve := q.en.testBit 0, dze := q.en.testBit 1, ofe := q.en.testBit 2 },
    viq := [{ seq := 0, pc := 0, instr := i, xd := 0, x1 := 0, x2 := 0, x3 := q.x3, vl := some q.vl, dyn := BitVec.ofNat 3 q.dyn,
              handle := {} }] }

/-- The flags, SRSEED and VSTART of a far instruction as its reply brings them back, with the cause of a trap and FDONE's
result (R321, R323). -/
def farReply (h : Hart) (f : VForm) (code detail : Nat) : List Byte :=
  toBytes (h.flags.toNat + 2 ^ 8 * code + 2 ^ 16 * detail + 2 ^ 32 * h.srseed.toNat + 2 ^ 64 * h.vstart.toNat) 10 ++
    toBytes (h.getX f.vd.toNat).toNat 8

/-- A far instruction executed in its context: flags, and an enabled trap, return to the issuing hart (R321). -/
def guestFar (ctx : Nat) (words : BitVec 64) (q : FarSource) : Exec Unit := do
  match decodeParcels [words.setWidth 32, (words >>> 32).setWidth 32] with
  | .ok (i, _) =>
    match i.vForm with
    | some (_, f) =>
      if i.wf && f.p = 1 && farRegister i then do
        let h := guestOf q ctx i f
        modify (·.putHart guestHart h)
        let r ← caught (asHart guestHart (do
          match h.viq with
          | e :: _ => let _ ← issueBody i e f
          | [] => pure ()))
        let h ← ask (·.hart guestHart)
        modify (·.putHart guestHart {})
        match r with
        | .ok _ => reply (.data (farReply h f 0 0))
        | .error (.trap code detail _) => reply (.data (farReply h f code detail))
        | .error (.park code detail ..) => reply (.data (farReply h f code detail))
        | .error _ => reply .none
      else reply .unsupported
    | none => reply .unsupported
  | .error _ => reply .unsupported

/-- A y register of a context, and its replacement. -/
def State.yReg (s : State) (ctx reg : Nat) : Nat := Tab.get 0 (s.farCtx ctx).y reg
def putYReg (ctx reg v : Nat) : Exec Unit := modify fun s =>
  let c := s.farCtx ctx
  s.putFar ctx { c with y := Tab.put 0 c.y reg (v % 2 ^ (8 * yBytes)), bady := c.bady.filter (·.1 ≠ reg),
                        marks := c.marks.filter (·.1 ≠ reg) }

/-- The words of a y register that elements of width w wrote whole have lost their poison (R424). -/
def State.yClear (s : State) (ctx reg w : Nat) (els : List Nat) : State :=
  let c := s.farCtx ctx
  let stays (l : List (Nat × Nat)) := l.filter fun (r, wd) => !(r = reg && wordWritten w els wd)
  s.putFar ctx { c with bady := stays c.bady, marks := stays c.marks }

/-- A far load: elements of w bits from their homes into a y register, up to one with a data error; `els` are the elements
loaded. -/
def guestLoad (ctx reg w : Nat) (els : List Nat) : List (Nat × Nat × Nat) → Exec Unit
  | [] => do
    modify (·.yClear ctx reg w els)
    reply .done
  | (i, pa, slot) :: t => do
    let (l, e) ← guestRead pa (w / 8) slot
    if e ≠ 0 then do
      modify (·.yClear ctx reg w els)
      reply .poisoned
    else
      modify fun s =>
        let c := s.farCtx ctx
        s.putFar ctx { c with y := Tab.put 0 c.y reg (elemSet (s.yReg ctx reg) i w (ofBytes l)) }
      guestLoad ctx reg w (i :: els) t

/-- A byte range of a y register touches a poisoned word (R423, R424). -/
def State.yBad (s : State) (ctx reg lo n : Nat) : Bool :=
  let c := s.farCtx ctx
  (c.marks ++ c.bady).any fun (r, wd) => r = reg && wd * 8 < lo + n && lo < wd * 8 + 8

/-- A y register read for another package: not before a YIRED has written it (R321, R325). -/
def guestReg (ctx reg : Nat) : Exec Unit := do
  let s ← get
  reply (if s.yBusy ctx reg then .none else if s.yBad ctx reg 0 yBytes then .poisoned else .data (toBytes (s.yReg ctx reg) yBytes))

/-- A far store or addition: elements of a y register to their homes, up to one that reads a poisoned word. It waits, with
nothing stored, for a YIRED that will write the register (R321). -/
def guestStore (ctx reg w : Nat) (add : Bool) : List (Nat × Nat × Nat) → Exec Unit
  | [] => reply .done
  | (i, pa, slot) :: t => do
    let v := elemAt (← ask (·.yReg ctx reg)) i w
    if ← ask (·.yBusy ctx reg) then reply .none
    else if ← ask (·.yBad ctx reg (i * w / 8) ((w + 7) / 8)) then reply .poisoned
    else if add then guestAtomic pa (w / 8) slot fun old => some (old + v)
    else guestWrite pa (toBytes v (w / 8)) slot
    guestStore ctx reg w add t

/-! ### Bank-level commands and collective phases (R201, R248) -/

/-- A command of another package accepted here. -/
def guestCommand (ctx : Nat) (op : BankOp) (spans : List Span) : Exec Unit := do
  let id ← nextFresh
  modify fun s => { s with banks := s.banks ++ [{ id := id, hart := guestHart + 1 + ctx, gang := 0, ctx := ctx, task := 2 ^ 64,
                                                  asid := 0, stackMask := s.stackMask spans, op := op }] }
  reply .done

/-- A member of a round is this hart of another package. -/
def Contribution.guest (p q : Contribution) : Bool := q.remote && p.hart = q.hart && p.pkg = q.pkg

/-- The collective abort at a member in another package (R338). -/
def guestAbort (key : Nat) (p : Contribution) : Exec Unit := do
  let r ← ask (·.round key)
  putRound key (r.abort p.guest)
  reply .aborted

/-- A member in another package arrives (R201, R336, R338): it joins the live round at the descriptor or begins one, by the
descriptor and the arrival map as they lie; it comes again while its last round has not ended. -/
def guestArrive (desc : UaSpan) (buf : List UaSpan) (q : Round) (p : Contribution) : Exec Unit := do
  let s ← get
  let x := s.ctx guestHart
  let dacc := s.guestAccess 0 [desc]
  let bacc := s.guestAccess 0 buf
  match ← caught (do return (GroupDesc.ofBytes (← takeAccess x dacc), ← takeAccess x (bacc.slice 0 512))) with
  | .error _ => reply .poisoned
  | .ok (d, map) =>
    let r := s.round desc.1
    let valid := d.valid q.op q.fmt q.vl q.nmem p.rank
    let live := !r.parts.isEmpty && !r.ended
    let zeroed := d.idle && map = 0
    let joins := live && !zeroed
    if r.aborted && !(zeroed && valid) then guestAbort desc.1 p
    else if joins && r.parts.any (fun o => p.guest o && !o.read) then reply .done
    else if joins && (r.parts.length = r.nmem || r.parts.any p.guest) then reply .none
    else if !valid then do
      if !live then putRound desc.1 { serial := p.job, task := q.task }
      scribbleDesc x dacc
      guestAbort desc.1 p
    else if joins && r.refuses q.op q.fmt q.vl q.nmem p.rank then guestAbort desc.1 p
    else do
      putRound desc.1 (if joins then { r with parts := r.parts ++ [p] }
        else { q with serial := p.job, parts := [p], desc := dacc, buf := bacc })
      scribble x dacc bacc false
      scribbleSlots x q.op bacc
      reply .done

/-- A later phase of a member in another package (R336): it adds once every member has arrived, and reads its results, with
their flags, once every member has added; before that it comes again. -/
def guestLater (key : Nat) (p : Contribution) (step : Nat) : Exec Unit := do
  let s ← get
  let r := s.round key
  let x := s.ctx guestHart
  match r.parts.find? p.guest with
  | none => reply .aborted
  | some m =>
    if r.aborted then guestAbort key p
    else if r.parts.length ≠ r.nmem then reply .none
    else if step = 2 then do
      putRound key { r with parts := r.parts.map fun o => if p.guest o then { o with added := true } else o }
      scribbleSlots x r.op r.buf
      reply .done
    else if r.parts.all (·.added) then do
      markRead x key m.rank
      let els := (List.range (dstCount r.op r.vl r.nmem)).map fun i => (r.result m i).getD (0, 0)
      reply (.data (els.flatMap (fun v => toBytes v.1 (fmtWidth r.fmt / 8)) ++ [BitVec.ofNat 8 (els.foldl (fun a v => a ||| v.2) 0)]))
    else reply .none

/-- A collective phase of a member in another package: steps 0 and 1 arrive, 2 adds, 3 reads the results. -/
def guestPhase (desc : UaSpan) (buf : List UaSpan) (hart rank op fmt vl nmem active : Nat) (values : List Nat) (step pkg : Nat) :
    Exec Unit := do
  let p : Contribution :=
    { job := ← nextFresh, rank := rank, hart := hart, gang := 0, values := values, active := active, added := op = 3,
      remote := true, pkg := pkg }
  if step ≤ 1 then guestArrive desc buf { op := op, fmt := fmt, vl := vl, nmem := nmem, task := 2 ^ 64 } p
  else guestLater desc.1 p step

/-! ### Serving a request -/

/-- The home of a request: the address it names, or its context's Landing as an address. -/
def requestAddr : UaRequest → Nat
  | .read pa _ _ => pa
  | .write pa _ _ => pa
  | .atomicAdd pa _ _ _ => pa
  | .atomic _ pa _ _ _ => pa
  | .compareSwap pa _ _ _ _ => pa
  | .lease landing => landing / 8 * 2 ^ 45 + landing % 8 * 2 ^ 16
  | .release ctx | .far ctx _ _ | .farLoad ctx _ _ _ | .farStore ctx _ _ _ _ | .farRead ctx _ | .farWrite ctx _ _
  | .reduce ctx _ _ _ _ _ _ _ _ | .combine ctx _ _ _ _ _ _ _ => ctx / 2048 * 2 ^ 45 + ctx / 256 % 8 * 2 ^ 16
  | .phase desc _ _ _ _ _ _ _ _ _ _ => desc.1

/-- The places a request is for: a collective phase concerns its descriptor and its buffer, which may have different homes
(R335). -/
def requestHomes : UaRequest → List Nat
  | .phase desc buf _ _ _ _ _ _ _ _ _ => desc.1 :: buf.map (·.1)
  | r => [requestAddr r]

/-- A lease for a hart of another package (R319): a free context of the Landing when no hart waits for one; else the request
is made again. -/
def guestLease (landing : Nat) : Exec Unit := do
  let s ← get
  match (List.range 256).filter (s.freeFar landing) with
  | [] => reply .none
  | l => do
    if (Tab.get [] s.leaseq landing).isEmpty then
      let f := l.getD (Config.free (← nextFresh) % l.length) 0
      modify fun s => s.putFar (landing * 256 + f) { leased := true }
      reply (.data (toBytes (landing * 256 + f) 4))
    else reply .none

/-- A request of a package of the pod. -/
def serveRequest (pkg : Nat) (req : UaRequest) : Exec Unit := do
  let s ← get
  let bound (ctx : Nat) (m : Exec Unit) : Exec Unit := if (s.farCtx ctx).leased then m else reply .unsupported
  match req with
  | .read pa n slot => do
    let (l, e) ← guestRead pa n slot
    reply (if e = 0 then .data l else .poisoned)
  | .write pa l slot => do
    guestWrite pa l slot
    reply .done
  | .atomicAdd pa n value slot => guestAtomic pa n slot fun old => some (old + value)
  | .atomic op pa n value slot => guestAtomic pa n slot fun old => some (amoResult op n old (value % 2 ^ (8 * n)))
  | .compareSwap pa n expected value slot => guestAtomic pa n slot fun old => if old = expected then some value else none
  | .lease landing => guestLease landing
  | .release ctx => do
    if s.slotQuiet ctx then do
      freeLease ctx
      reply .done
    else reply .none
  | .far ctx words q => bound ctx (guestFar ctx words q)
  | .farLoad ctx reg w els => bound ctx (guestLoad ctx reg w [] els)
  | .farStore ctx reg w add els => bound ctx (guestStore ctx reg w add els)
  | .farRead ctx reg => bound ctx (guestReg ctx reg)
  | .farWrite ctx reg v => bound ctx (do putYReg ctx reg v; reply .done)
  | .reduce ctx op fmt rm nelem rows dst yd cword =>
    let rs := rows.map s.guestSpans
    bound ctx (guestCommand ctx (.yired op fmt rm nelem rs (s.guestSpans dst) yd (cword.map s.guestSpan))
      (rs.flatten ++ s.guestSpans dst ++ (cword.map s.guestSpan).toList))
  | .combine ctx op fmt rm n d a b =>
    bound ctx (guestCommand ctx (.ybop op fmt rm n (s.guestSpans d) (s.guestSpans a) (s.guestSpans b) [])
      (s.guestSpans d ++ s.guestSpans a ++ s.guestSpans b))
  | .phase desc buf hart rank op fmt vl nmem active values step =>
    guestPhase desc buf hart rank op fmt vl nmem active values step pkg

end Sys2Proof.Machine
end

