-- ==== Sys2Proof/Machine/Sha.lean ====
section
/-! DEFINITION. SHA-384 as R443 names it: the standard function, which the spec gives by its name alone (log 13). -/

namespace Sys2Proof.Machine

open Sys2Proof

namespace Sha

/-- The greatest r below 2^m with r^k ≤ n, by its bits from the highest. -/
def root (k n : Nat) : Nat → Nat → Nat
  | 0, r => r
  | m + 1, r => root k n m (if (r + 2 ^ m) ^ k ≤ n then r + 2 ^ m else r)

/-- The first 80 primes. -/
def primes : List Nat := (List.range 410).filter fun p => 2 ≤ p && (List.range p).all fun d => d < 2 || p % d ≠ 0

/-- The first 64 bits of the fraction of the k-th root of p. -/
def fraction (k p : Nat) : BitVec 64 := BitVec.ofNat 64 (root k (p * 2 ^ (64 * k)) 72 0)

/-- The constants of the 80 rounds, and the initial value of SHA-384. -/
def rounds : List (BitVec 64) := primes.map (fraction 3)
def initial : List (BitVec 64) := ((primes.drop 8).take 8).map (fraction 2)

def small0 (x : BitVec 64) : BitVec 64 := x.rotateRight 1 ^^^ x.rotateRight 8 ^^^ (x >>> 7)
def small1 (x : BitVec 64) : BitVec 64 := x.rotateRight 19 ^^^ x.rotateRight 61 ^^^ (x >>> 6)
def big0 (x : BitVec 64) : BitVec 64 := x.rotateRight 28 ^^^ x.rotateRight 34 ^^^ x.rotateRight 39
def big1 (x : BitVec 64) : BitVec 64 := x.rotateRight 14 ^^^ x.rotateRight 18 ^^^ x.rotateRight 41

/-- The message words of a block, latest first, extended by n words. -/
def extend : Nat → List (BitVec 64) → List (BitVec 64)
  | 0, l => l
  | n + 1, l => extend n ((small1 (l.getD 1 0) + l.getD 6 0 + small0 (l.getD 14 0) + l.getD 15 0) :: l)

/-- One round on the eight working words, with its constant and message word. -/
def turn (v : List (BitVec 64)) (k : BitVec 64 × BitVec 64) : List (BitVec 64) :=
  let x (i : Nat) := v.getD i 0
  let choose := (x 4 &&& x 5) ^^^ (~~~(x 4) &&& x 6)
  let major := (x 0 &&& x 1) ^^^ (x 0 &&& x 2) ^^^ (x 1 &&& x 2)
  let t := x 7 + big1 (x 4) + choose + k.1 + k.2
  [t + big0 (x 0) + major, x 0, x 1, x 2, x 3 + t, x 4, x 5, x 6]

/-- A block of 16 words taken into the hash value. -/
def block (h words : List (BitVec 64)) : List (BitVec 64) :=
  List.zipWith (· + ·) h ((rounds.zip (extend 64 words.reverse).reverse).foldl turn h)

/-- Words from bytes, the first byte the highest; n words. -/
def wordsOf : Nat → List Byte → List (BitVec 64)
  | 0, _ => []
  | n + 1, l => BitVec.ofNat 64 ((l.take 8).foldl (fun a b => 256 * a + b.toNat) 0) :: wordsOf n (l.drop 8)

/-- The blocks of a padded message in order; n blocks. -/
def blocks : Nat → List Byte → List (BitVec 64) → List (BitVec 64)
  | 0, _, h => h
  | n + 1, l, h => blocks n (l.drop 128) (block h (wordsOf 16 l))

/-- The bytes of a number, the highest first. -/
def bigEndian (n v : Nat) : List Byte := ((List.range n).map fun i => BitVec.ofNat 8 (v / 2 ^ (8 * i))).reverse

/-- The padded message. -/
def padded (l : List Byte) : List Byte :=
  l ++ [0x80] ++ List.replicate ((239 - l.length % 128) % 128) 0 ++ bigEndian 16 (8 * l.length)

end Sha

/-- SHA-384 of bytes: its 48 bytes as a little-endian number, as they lie in the evidence. -/
def sha384 (l : List Byte) : Nat :=
  let m := Sha.padded l
  (((Sha.blocks (m.length / 128) m Sha.initial).take 6).flatMap fun w => Sha.bigEndian 8 w.toNat).foldr
    (fun b acc => b.toNat + 256 * acc) 0

end Sys2Proof.Machine
end

