-- ==== Sys2Proof/Machine/Yarder.lean ====
section
/-! DEFINITION. The Yarder: taking and checking launch records, watermarks, candidates and their aging, placement, the
grant, pre-emption with the saved image, and the ends of waits (R340 to R351, R360, R362, R365 to R371). -/

namespace Sys2Proof.Machine

open Sys2Proof

/-! ### Launch records (R341, R342) -/

/-- Bytes off to off + n − 1 of a number. -/
def field (v off n : Nat) : Nat := v / 2 ^ (8 * off) % 2 ^ (8 * n)

/-- The four watermarks of a record, ADDR and BOUND. -/
def recordMarks (v : Nat) : List (Word × Word) :=
  (List.range 4).map fun n => (word (field v (0x40 + 16 * n) 8), word (field v (0x48 + 16 * n) 8))

/-- A record from its 128 bytes (R341). -/
def Record.ofNat (v : Nat) : Record where
  entry := word (field v 0x00 8)
  arg := word (field v 0x08 8)
  status := word (field v 0x10 8)
  scratch := field v 0x18 4
  gangs := field v 0x1C 2
  harts := field v 0x1E 1
  lanes := field v 0x1F 1
  vcfg := field v 0x20 1 % 4
  farctx := field v 0x21 1
  tilerows := field v 0x22 1
  prio := field v 0x23 1 % 8
  asid := BitVec.ofNat 16 (field v 0x24 2)
  nwm := field v 0x26 2
  keydom := word (field v 0x28 8)
  save := word (field v 0x30 8)
  wms := (recordMarks v).take (field v 0x26 2)
  reservedZero := field v 0x20 1 < 4 && field v 0x23 1 < 8 && field v 0x38 8 = 0 &&
    ((recordMarks v).drop (field v 0x26 2)).all fun m => m = (0, 0)

/-- The checks of R342 that read no memory. -/
def Record.ok (r : Record) : Bool :=
  r.reservedZero && r.keydom.toNat < 2 ^ 16 && 1 ≤ r.gangs && r.gangs ≤ 1536 && 1 ≤ r.harts && r.harts ≤ 8 &&
  (r.lanes = 4 || r.lanes = 8 || r.lanes = 16 || r.lanes = 32) && r.harts * r.lanes ≤ 32 &&
  r.scratch ≤ 0x6000000 && r.scratch % 4096 = 0 && r.farctx ≤ 8 && r.tilerows ≤ 128 && r.nwm ≤ 4 &&
  r.entry.toNat % 4 = 0 && r.save ≠ 0 && r.save.toNat % 4096 = 0 && r.status.toNat % 8 = 0 &&
  r.wms.all fun m => m.1.toNat % 8 = 0

/-- A queue's context. -/
def State.queue (s : State) (q : Nat) : Queue := Tab.get {} s.port.queues q

/-- The host window is open (R440, R441). -/
def State.windowOpen (s : State) : Bool := s.port.state = 1

/-- Every watermark has passed its bound (R255); a read that faults stops, and one held by a move has not passed. -/
def marksPassed (c : Ctx) : List (Word × Word) → Exec Bool
  | [] => return true
  | (a, b) :: t => do
    match ← caught (load c a.toNat 8 8) with
    | .ok v => do
      let r ← marksPassed c t
      return b.toNat ≤ v && r
    | .error .wait => do
      let _ ← marksPassed c t
      return false
    | .error e => throw e

/-- The task of a record taken from a queue (R343, R344): identities from QID when FIXID = 1 (R433). -/
def Queue.taskOf (x : Queue) (q : Nat) (v : Nat) : Task :=
  let r := Record.ofNat v
  let r := if x.fixid then { r with asid := x.qid.setWidth 16, keydom := word (x.qid.toNat / 2 ^ 16) } else r
  { record := r, queue := q, slevel := x.slevel, ptbase := x.qptbase &&& 0x000FFFFFFFFE0000,
    fqbase := x.qfqbase &&& 0x000FFFFFFFFFF01F, left := r.gangs, keydom := r.keydom.setWidth 16 }

/-- A refused record (R342, R343): status code 2 where a status store is allowed, and the message. -/
def refuseRecord (t : Task) (id : Nat) : Exec Unit := do
  if t.record.status.toNat % 8 = 0 then finishTask t id 2 else signalStatus t.queue

/-- The record at the head leaves its queue (R342, R348, R436). -/
def leaveQueue (q : Nat) : Exec Unit := modQueue q fun x => { x with head := none }

/-- LAUNCH RECORD CHECK (R340, R342, R433): the next announced record of an enabled queue is taken, numbered and checked;
QHEAD counts it, and it is refused, or its task lives and it stands at the head. -/
def takeRecord (q : Nat) : Exec Unit := do
  flushStatuses q
  let s ← get
  let x := s.queue q
  need (q < 64 && s.windowOpen && x.en && x.head.isNone && x.qhead ≠ x.qtail) .wait
  let v ← readOwn (slotPa x.qring x.qhead.toNat) 128
  let id := (q + 64 * x.qhead.toNat) % 2 ^ 64
  let t := x.taskOf q v
  modQueue q fun x => { x with qhead := x.qhead + 1 }
  let marks ← if t.record.ok then caught (marksPassed (t.ctx id) t.record.wms) else pure (.error .wait)
  match marks with
  | .error _ => refuseRecord t id
  | .ok p => do
    let now ← ask (·.clock)
    let h : Head := { record := t.record, task := id, since := if p then some now else none, level := t.record.prio }
    modify fun s => { s with tasks := Tab.set s.tasks id t }
    modQueue q fun x => { x with head := some h }

/-- WATERMARK RECHECK (R347): a head that is no candidate yet reads its watermarks again. -/
def recheck (q : Nat) : Exec Unit := do
  let s ← get
  match (s.queue q).head with
  | none => pure ()
  | some h =>
    match Tab.find s.tasks h.task with
    | none => pure ()
    | some t =>
      if h.since.isNone then
        match ← caught (marksPassed (t.ctx h.task) h.record.wms) with
        | .ok true => do
          let now ← ask (·.clock)
          modQueue q fun x => { x with head := some { h with since := some now, level := h.record.prio } }
        | .ok false => pure ()
        | .error _ => do
          leaveQueue q
          modify fun s => { s with tasks := Tab.erase s.tasks h.task }
          refuseRecord t h.task

/-! ### Candidates (R347, R349) -/

/-- A candidate: the head of a queue, or a suspended gang; with its effective priority and t0. -/
structure Candidate where
  head  : Bool
  key   : Nat
  level : Nat
  since : Nat
  deriving DecidableEq, Repr

/-- The effective priority of R349. -/
def effective (prio now t0 : Nat) : Nat := min 7 (prio + (now - t0) / 65536)

/-- The queues a cluster's Yarder serves. -/
def clusterQueues (cluster : Nat) : List Nat := (List.range 32).map (cluster * 32 + ·)

/-- A suspended gang of a cluster. -/
def Gang.resumes (g : Gang) (cluster : Nat) : Bool := g.suspended && clusterOfCore g.core = cluster

/-- PRIORITY AGING (R349): every candidate of a cluster has the effective priority of the clock. -/
def age (cluster : Nat) : Exec Unit := modify fun s =>
  let heads (q : Nat) (x : Queue) : Queue :=
    if q / 32 = cluster then
      { x with head := x.head.map fun h => match h.since with
        | some t0 => { h with level := effective h.record.prio s.clock t0 }
        | none => h }
    else x
  let gangs (g : Gang) : Gang :=
    if g.resumes cluster then
      { g with level := effective ((Tab.find s.tasks g.task).map (·.record.prio) |>.getD 0) s.clock g.since }
    else g
  { s with port := { s.port with queues := s.port.queues.map fun (q, x) => (q, heads q x) },
           gangs := s.gangs.map fun (k, g) => (k, gangs g) }

/-- The candidates of a cluster. -/
def State.waiting (s : State) (cluster : Nat) : List Candidate :=
  (clusterQueues cluster).filterMap (fun q => do
    let h ← (s.queue q).head
    let t0 ← h.since
    if h.placed < h.record.gangs then some { head := true, key := q, level := h.level, since := t0 } else none) ++
  s.gangs.filterMap fun (k, g) =>
    if g.resumes cluster then some { head := false, key := k, level := g.level, since := g.since } else none

/-- A candidate goes before another: the higher effective priority, then the lower t0 (R349). -/
def Candidate.before (a b : Candidate) : Bool := b.level < a.level || (a.level = b.level && a.since < b.since)

/-- The candidates that no other goes before: more than one only on a tie, which is the arbiter's to break. -/
def topOf (l : List Candidate) : List Candidate := l.filter fun c => l.all fun d => !d.before c

/-! ### Fitting a core (R348) -/

/-- Pick n members of a list, each one the device's choice (log 5, log 7). -/
def choose : Nat → List Nat → Exec (List Nat)
  | 0, _ => return []
  | n + 1, l => do
    match l with
    | [] => return []
    | _ => do
      let k ← nextFresh
      let a := l.getD (Config.free k % l.length) 0
      let r ← choose n (l.filter (· ≠ a))
      return a :: r

/-- The free contexts of a core. -/
def State.freeContexts (s : State) (core : Nat) : List Nat := (List.range 8).filter fun c => (s.hart (core * 8 + c)).run = .free

/-- The first lanes of the free aligned groups of n lanes of a core. -/
def State.freeGroups (s : State) (core n : Nat) : List Nat :=
  ((List.range (32 / n)).map (· * n)).filter fun f => (s.laneHolders core f n).isEmpty

/-- A gang that holds its scratchpad range: any but one suspended with the range spilled. -/
def Gang.holdsScratch (g : Gang) : Bool := !(g.suspended && g.spilled)

/-- A range of a cluster's window meets no gang's. -/
def State.rangeFree (s : State) (cluster lo hi : Nat) : Bool :=
  s.gangs.all fun (_, g) => clusterOfCore g.core ≠ cluster || !g.holdsScratch || hi ≤ g.splo.toNat || g.sphi.toNat ≤ lo ||
    g.splo = g.sphi

/-- The addresses at which n scratch bytes fit (R348); none asked fits at the core's own scratchpad (R40). -/
def State.freeRanges (s : State) (core n : Nat) : List Nat :=
  if n = 0 then [windowBase + core % 192 * 0x80000]
  else ((List.range ((0x6000000 - n) / 4096 + 1)).map (fun i => windowBase + i * 4096)).filter fun a =>
    s.rangeFree (clusterOfCore core) a (a + n)

/-- Unleased far contexts of a cluster's four Landings. -/
def State.freeLeases (s : State) (cluster : Nat) : Nat :=
  1024 - (s.far.filter fun (k, f) => f.leased && k / 256 / 4 = s.pkg * 2 + cluster).length

/-- A core takes gangs: no halt has finished there whose save is still to come (R371). -/
def State.takesGangs (s : State) (core : Nat) : Bool :=
  match Tab.find s.preempts core with
  | some p => p.halted.isNone
  | none => true

/-- A range of n scratch bytes is free: at the window's start, or somewhere in it. -/
def State.hasRange (s : State) (core n : Nat) : Bool :=
  n = 0 || s.rangeFree (clusterOfCore core) windowBase (windowBase + n) || !(s.freeRanges core n).isEmpty

/-- The next gang of a record fits a core (R348). -/
def State.fits (s : State) (core : Nat) (r : Record) : Bool :=
  s.takesGangs core && r.harts ≤ (s.freeContexts core).length && r.harts ≤ (s.freeGroups core r.lanes).length &&
  r.harts * r.farctx ≤ s.freeLeases (clusterOfCore core) && s.hasRange core r.scratch

/-! ### Placing a gang (R16, R344, R348) -/

/-- The lanes of the harts given as a mask of 32. -/
def laneMask (l : List Hart) : Nat :=
  (List.range 32).foldr (fun i acc =>
    (if l.any fun h => h.first.toNat ≤ i && i < h.first.toNat + h.count.toNat then 1 else 0) + 2 * acc) 0

/-- A tile row with the columns of a lane mask taken from new. -/
def mergeLanes (mask old new : Nat) : Nat :=
  (List.range 32).foldr (fun i acc => elemAt (if bitAt mask i then new else old) i 512 + 2 ^ 512 * acc) 0

/-- The tile rows of a core with the columns of a lane mask replaced, and their poisoned words. -/
def State.putColumns (s : State) (core mask : Nat) (rows bad : List (Nat × Nat)) : State :=
  { s with
    tiles := (List.range 128).foldl (fun t r =>
      Tab.put 0 t (tileKey core r) (mergeLanes mask (Tab.get 0 t (tileKey core r)) (Tab.get 0 rows r))) s.tiles
    badTile := (s.badTile.filter fun (k, w) => !(k / 128 = core && bitAt mask (w / 8))) ++
      bad.map fun (r, w) => (tileKey core r, w) }

/-- The columns of a lane mask, row by row, and their poisoned words. -/
def State.columns (s : State) (core mask : Nat) : List (Nat × Nat) × List (Nat × Nat) :=
  ((List.range 128).map (fun r => (r, mergeLanes mask 0 (Tab.get 0 s.tiles (tileKey core r)))),
   (s.badTile.filter fun (k, w) => k / 128 = core && bitAt mask (w / 8)).map fun (k, w) => (k % 128, w))

/-- The places of a gang's scratchpad bytes. -/
def Gang.scratchPlaces (g : Gang) : Nat × Nat :=
  (scratchKey (clusterOfCore g.core) g.splo.toNat, scratchKey (clusterOfCore g.core) g.sphi.toNat)

/-- Scratchpad bytes and poisoned words from place lo to place hi replaced. -/
def State.putScratch (s : State) (lo hi : Nat) (m : Memory) (bad : List Nat) : State :=
  { s with scratch := m.foldl (fun t (k, b) => Memory.write t k b) (s.scratch.filter fun (k, _) => !(lo ≤ k && k < hi))
           badScratch := (s.badScratch.filter fun w => !(lo ≤ w * 8 && w * 8 < hi)) ++ bad }

/-- A hart as a record creates it (R16, R344). -/
def Task.newHart (t : Task) (gang : Gang) (key index first : Nat) : Hart :=
  (((({ run := .running, gang := key, pc := t.record.entry, vcp0 := t.record.entry, vcfg := BitVec.ofNat 2 t.record.vcfg, gshift := gang.gshift,
        first := BitVec.ofNat 5 first, count := BitVec.ofNat 6 t.record.lanes, tstat := { lvl := t.slevel },
        asid := t.record.asid, ptbase := t.ptbase, fqbase := t.fqbase, keydom := t.keydom, index := index } : Hart).setX 2
    gang.sphi).setX 3 gang.splo).setX 4 t.record.arg).setX 5 (word index)

/-- The priority of the record that created a gang. -/
def State.gangPrio (s : State) (g : Gang) : Nat := (Tab.find s.tasks g.task).map (·.record.prio) |>.getD 0

/-- The GSHIFT a new gang of a priority starts with (R34, R351): 0 while the package is not narrowed; else the controller's,
free (log 7), but 0 where a gang of lower priority has its full grant, and not 0 where one of higher priority has not. -/
def startGrant (prio : Nat) : Exec (BitVec 2) := do
  let s ← get
  if !s.port.narrowed || s.gangs.any (fun (_, g) => s.gangPrio g < prio && g.gshift = 0) then return 0
  else
    let v := BitVec.ofNat 2 (← freeBits 2)
    return if v = 0 && s.gangs.any (fun (_, g) => prio < s.gangPrio g && g.gshift ≠ 0) then 1 else v

/-- The next gang of the record at the head of a queue, placed on a core if it fits there (R348): in its lowest free contexts
(R456; log 7), in lanes and a scratchpad range of the Yarder's choice. -/
def placeNew (q core gangId : Nat) (h : Head) (t : Task) : Exec Unit := do
  let s ← get
  let r := h.record
  let groups := s.freeGroups core r.lanes
  let ranges := s.freeRanges core r.scratch
  need (s.fits core r && gangId < 2 ^ 16 && s.gangs.all fun (_, g) => clusterOfCore g.core ≠ clusterOfCore core || g.gangid.toNat ≠ gangId) .wait
  let cs := (s.freeContexts core).take r.harts
  let gs ← choose r.harts groups
  let base := (← choose 1 ranges).headD 0
  let n := BitVec.ofNat 4 r.harts
  let key := (← nextFresh) + 1
  let shift ← startGrant r.prio
  let g : Gang :=
    { task := h.task, index := h.placed, gangid := BitVec.ofNat 16 gangId, splo := word base, sphi := word (base + r.scratch),
      gshift := shift, gbar := { expect := n, next := n }, core := core, code := s.view }
  let hs := ((List.range r.harts).zip (cs.zip gs)).map fun (i, c, f) => (core * 8 + c, t.newHart g key i f)
  modify fun s => ((s.putGang key g).putScratch g.scratchPlaces.1 g.scratchPlaces.2 [] []).putColumns core
    (laneMask (hs.map (·.2))) [] []
  modify fun s => hs.foldl (fun s (k, x) => s.putHart k x) (s.dropL1i core)
  if h.placed + 1 = r.gangs then leaveQueue q else modQueue q fun x => { x with head := some { h with placed := h.placed + 1 } }

/-! ### The saved image (R368, R369) -/

/-- A checked access of the image: a page held by a move or copy-on-write counts as a fault. -/
def imageAccess (c : Ctx) (a n : Nat) (k : Kind) : Exec Access := do
  let acc ← checkAccess c a n 8 k
  forAll acc fun (va, _, _) => do
    let f ← findLeaf c va k
    need (!leafBit f.leaf 4) .wait
  return acc

/-- The parts of a gang's image: address and bytes, for its contexts, its lanes, and the spilled range. -/
def imageParts (base scratch : Nat) (spilled : Bool) (ctxs lanes : List Nat) : List (Nat × Nat) :=
  (ctxs.map fun c => (base + 4096 * c, 4096)) ++ (lanes.map fun n => (base + 0x8000 + 0x3000 * n, 0x3000)) ++
  (if spilled && scratch ≠ 0 then [(base + 0x68000, scratch)] else [])

/-- The lanes of a mask. -/
def lanesOf (mask : Nat) : List Nat := (List.range 32).filter (bitAt mask)

/-- Where a gang's image lies: S is the scratchpad's size for a request that spills it, and 0 otherwise (R368; log 12). -/
def Gang.imageBase (g : Gang) (t : Task) (spill : Bool) : Nat :=
  (t.record.save.toNat + g.index * (0x68000 + if spill then t.record.scratch else 0)) % 2 ^ 64

/-- Values laid one after another, w bits each. -/
def packed (w : Nat) (l : List Nat) : Nat := l.foldr (fun v acc => v % 2 ^ w + 2 ^ w * acc) 0

/-- Words 0x100 to 0x13F of a hart's block (R368): PC; g1 to g7 and the privilege; the repeat; JOIN and the barrier. Which
bit of the range holds what is the model's choice (log 12). -/
def Hart.scalarWords (h : Hart) (gang : Gang) : List Nat :=
  let join : Nat := match h.run with | .joined v => 2 ^ 32 + v.toNat | _ => 0
  let barrier : Nat := match h.run with | .barrier m => 2 + b1 m | _ => 0
  [h.pc.toNat, h.g.toNat + 2 ^ 8 * b1 h.tstat.lvl, b1 h.rep.active + 2 * h.rep.reg.toNat + 2 ^ 8 * h.rep.len + 2 ^ 16 * h.rep.pos,
   h.rep.start.toNat, join, (h.parent.map fun p => 1 + p % 8).getD 0, barrier + 4 * b1 h.member, gang.gbar.toNat]

/-- Words 0x140 to 0x1FF (R368): FSTK0 to FSTK7, and the other special registers of R31 that the hart holds, VCP given (log
12). -/
def Hart.specialWords (h : Hart) (vcp : Word) : List Nat :=
  (List.range 8).map (fun n => (h.slot n).toNat) ++
  [h.vl.toNat + 2 ^ 16 * h.vcfg.toNat + 2 ^ 32 * h.vstart.toNat + 2 ^ 48 * h.gshift.toNat,
   h.flags.toNat + 2 ^ 8 * (h.dyn.toNat + 8 * b1 h.nohint) + 2 ^ 32 * h.srseed.toNat, h.count.toNat + 2 ^ 8 * h.first.toNat,
   vcp.toNat, h.tvec.toNat, h.tcause.toNat + 2 ^ 24 * (h.ptbase.toNat / 2 ^ 17), h.tpc.toNat, h.tval.toNat, h.tstat.toNat] ++
  (List.range 4).map (fun n => (Tab.get (0 : Word) h.cg n).toNat) ++
  [h.ufcount.toNat, h.asid.toNat + 2 ^ 16 * h.keydom.toNat, h.fqbase.toNat]

/-- The x registers and the words 0x100 to 0x13F of a hart's block. -/
def blockHead (h : Hart) (gang : Gang) : Nat :=
  packed 64 ((List.range 32).map fun r => (h.getX r).toNat) + 2 ^ (8 * 0x100) * packed 64 (h.scalarWords gang)

/-- A hart's block (R368); what is in a form private to the device is free (log 12). -/
def hartBlock (k : Nat) (h : Hart) (gang : Gang) : Exec Nat := do
  let b ← freeBits (8 * 1920)
  let vcp ← asHart k haltedVcp
  return blockHead h gang + 2 ^ (8 * 0x140) * packed 64 (h.specialWords vcp) +
    2 ^ (8 * 0x200) * packed 512 ((List.range 16).map fun r => (Tab.get ({} : Handle) h.h r).bytes) +
    2 ^ (8 * 0x600) * (h.cursor % 2 ^ 4096) + 2 ^ (8 * 0x800) * b

/-- A lane's part: its register storage, whose layout is the device's (log 12), then its tile column. -/
def laneBlock (rows : List (Nat × Nat)) (lane : Nat) : Exec Nat := do
  let a ← freeBits (8 * 4096)
  return a + 2 ^ (8 * 4096) * (List.range 128).foldr (fun r acc => elemAt (Tab.get 0 rows r) lane 512 + 2 ^ 512 * acc) 0

/-- The image of a gang stored, with what each part holds; it stops at the first store that faults. -/
def storeImage (c : Ctx) (base : Nat) (g : Gang) (spill : Bool) (hs : List (Nat × Hart)) (rows : List (Nat × Nat)) :
    Exec (List Nat) := do
  let put (a n v : Nat) : Exec Nat := do
    writeAccess c false false v (← imageAccess c a n .discard)
    return v
  let harts ← each hs fun (k, h) => do put (base + 4096 * ctxOf k) 4096 (← hartBlock k h g)
  let lanes ← each (lanesOf (laneMask (hs.map (·.2)))) fun n => do put (base + 0x8000 + 0x3000 * n) 0x3000 (← laneBlock rows n)
  let n := g.sphi.toNat - g.splo.toNat
  let range ← each (if spill && n ≠ 0 then [n] else []) fun n => do
    put (base + 0x68000) n (← ask (·.scratch.readN g.scratchPlaces.1 n))
  return harts ++ lanes ++ range

/-- A gang leaves its core for the resume list: its harts with their streams, its tile columns, and its scratchpad when
spilled are kept (R368; log 12). -/
def suspendGang (key : Nat) (spill : Bool) (hs : List (Nat × Hart)) (cols : List (Nat × Nat) × List (Nat × Nat))
    (image : List Nat) : Exec Unit := modify fun s =>
  let g := s.gang key
  let (lo, hi) := g.scratchPlaces
  let saved := hs.map fun (k, h) =>
    ({ ctx := ctxOf k, hart := { h with splits := [] }, streams := s.streams.filter fun (_, x) => x.owner = k } : SavedHart)
  let g' := { g with
    image := image, saved := saved, tile := cols.1, badTile := cols.2, spilled := spill, suspended := true, since := s.clock
    scratch := if spill then s.scratch.filter fun (k, _) => lo ≤ k && k < hi else []
    badScratch := if spill then s.badScratch.filter fun w => lo ≤ w * 8 && w * 8 < hi else [] }
  let s := { s with streams := s.streams.filter fun (_, x) => hs.all fun (k, _) => x.owner ≠ k }
  (hs.foldl (fun s (k, _) => s.putHart k {}) s).putGang key g'

/-- One gang saved and suspended; a fault of its image ends its task with code 4. The PROG that a paused job owes is stored first
(R303, R310). -/
def saveGang (core : Nat) (spill : Bool) (key : Nat) : Exec Unit := do
  let s ← get
  let g := s.gang key
  match if g = {} then none else Tab.find s.tasks g.task with
  | none => pure ()
  | some t =>
    forAll ((s.gangHarts key).flatMap fun k => (s.streamsOf k).map (·.1)) fun k => do
      let _ ← caught (storeProg k)
    let s ← get
    let hs := (s.gangHarts key).map fun k => (k, s.hart k)
    let cols := s.columns core (laneMask (hs.map (·.2)))
    match ← caught (storeImage (t.ctx g.task) (g.imageBase t spill) g spill hs cols.1) with
    | .ok image => suspendGang key spill hs cols image
    | .error _ => endTask g.task 4

/-! ### Work that a stopped hart has left to the device (R399) -/

/-- The place of a context in a suspended gang, and its saved hart. -/
def Gang.savedAt (g : Gang) (ctx : Nat) : Option (Nat × SavedHart) :=
  (g.saved.zipIdx.find? fun (x, _) => x.ctx = ctx).map fun (x, i) => (i, x)

/-- The result of a saved hart's instruction in its image: a store of the image as R368 gives. -/
def rewriteImage (gang ctx : Nat) : Exec Unit := do
  let s ← get
  let g := s.gang gang
  match g.savedAt ctx, Tab.find s.tasks g.task with
  | some (i, x), some t =>
    let v := blockHead x.hart g
    let c := t.ctx g.task
    match ← caught (do writeAccess c false false v (← imageAccess c (g.imageBase t g.spilled + 4096 * ctx) 0x140 .discard)) with
    | .ok _ => modify fun s => s.putGang gang { s.gang gang with image := g.image.set i (setBits (g.image.getD i 0) 0 (8 * 0x140) v) }
    | .error _ => endTask g.task 4
  | _, _ => pure ()

/-- A MIGR past its step 3 or a KDEND past its step 1, of a hart that does not execute, runs to completion; its result goes into
the hart, and into the image of a saved one (R399). -/
def settleHart (k : Nat) (h : Hart) : Exec Unit := do
  match ← goOn (← ask (·.who h)) h with
  | none => pure ()
  | some (f, r) => do
    modify (·.onHart k h.gang (·.settled f r))
    if (← ask (·.gang h.gang)).suspended then rewriteImage h.gang (ctxOf k)

/-- The harts that do not execute and have left such work, in their contexts or saved. -/
def State.leftWork (s : State) : List (Nat × Hart) :=
  let left (h : Hart) : Bool := h.move.isSome || h.ending.isSome
  (s.harts.filter fun (k, h) => left h && !s.runs k) ++
  s.gangs.flatMap fun (_, g) => (g.saved.filter fun x => left x.hart).map fun x => (g.core * 8 + x.ctx, x.hart)

/-- What the harts have left goes on, where nothing holds it (R379). -/
def State.settleWork (s : State) : State :=
  s.leftWork.foldl (fun s (k, h) => match settleHart k h s with | .ok _ t => t | .error .. => s) s

/-- CONTEXT SAVE (R368): once the core has halted, every gang of it is saved; the request is over. -/
def saveCore (core : Nat) : Exec Unit := do
  match Tab.find (← ask (·.preempts)) core with
  | none => pure ()
  | some p =>
    if p.halted.isSome then
      forAll (← ask (·.gangsOn core)) (saveGang core p.spill)
      modify fun s => { s with preempts := Tab.erase s.preempts core }

/-- The free values of a table's keys. -/
def freeTab (keys : List Nat) (w : Nat) : Exec (List (Nat × Nat)) := each keys fun r => do return (r, ← freeBits w)

/-- A list of entries as a table. -/
def tabOf {α : Type} [DecidableEq α] (d : α) (l : List (Nat × α)) : Tab α := l.foldl (fun t (r, v) => Tab.put d t r v) []

/-- Special registers free, of those that bound no effect (R9, R31). -/
def changedSpecials (h : Hart) : Exec Hart := do
  let flags := BitVec.ofNat 6 (← freeBits 6)
  let seed := BitVec.ofNat 32 (← freeBits 32)
  let cg ← freeTab (List.range 4) 58
  let t := h.tstat.write (← freeBits 39)
  return { h with
    vl := BitVec.ofNat 16 (← freeBits 16), vvl := ← freeBits 16, heldVl := BitVec.ofNat 16 (← freeBits 16), heldVvl := ← freeBits 16
    vstart := BitVec.ofNat 16 (← freeBits 16), flags := flags, srseed := if seed = 0 then 1 else seed
    dyn := BitVec.ofNat 3 (← freeBits 3), nohint := (← freeBits 1) = 1, vcp0 := word (← freeBits 64)
    tvec := word (← freeBits 64) &&& ~~~2, tcause := BitVec.ofNat 17 (← freeBits 17), tpc := word (← freeBits 64)
    tval := word (← freeBits 64), tstat := { t with pl := t.pl && h.tstat.lvl }, ufcount := word (← freeBits 64)
    cg := tabOf 0 (cg.map fun (r, v) => (r, word (v * 64))), tflags := BitVec.ofNat 4 (← freeBits 4) }

/-- A repeat and a JOIN value free; a hart that does not run stays where it waits (R9). -/
def changedControl (h : Hart) : Exec Hart := do
  let rep : Repeat := { active := (← freeBits 1) = 1, reg := BitVec.ofNat 5 (← freeBits 5), len := 1 + (← freeBits 5), pos := ← freeBits 5,
                        start := word (4 * (← freeBits 62)) }
  let v := BitVec.ofNat 32 (← freeBits 32)
  return { h with
    rep := if rep.reg = 0 || rep.len ≤ rep.pos then {} else rep, pc := word (4 * (← freeBits 62)), g := BitVec.ofNat 8 (2 * (← freeBits 7))
    run := match h.run with | .joined _ => .joined v | r => r }

/-- The operands that a queue captured, free. -/
def changedQueue (l : List VEntry) : Exec (List VEntry) := each l fun e => do
  let vl ← freeBits 16
  return { e with xd := word (← freeBits 64), x1 := word (← freeBits 64), x2 := word (← freeBits 64), x3 := word (← freeBits 64)
                  vl := e.vl.map fun _ => vl, handle := Handle.ofBytes (← freeBits 512) }

/-- The tokens of the FIFOs free, none past its depth with what is reserved in it (R315). -/
def changedTokens (resv : Tab Nat) : Exec (Tab Nat) := do
  let t ← freeTab (List.range 64) 5
  return tabOf 0 (t.map fun (k, v) => (k, v % (Config.tokenDepth + 1 - min Config.tokenDepth (Tab.get 0 resv k))))

/-- A hart whose block of the image has changed (R9, R368): its registers, its repeat, its tokens and what its queue captured are
free; what bounds its effects (its level, its address space, its keys, its lanes, its leases) stays. -/
def changedHart (h : Hart) : Exec Hart := do
  let x ← freeTab ((List.range 31).map (· + 1)) 64
  let hs ← each (List.range 16) fun r => do return (r, Handle.ofBytes (← freeBits 512))
  let h := { h with x := tabOf 0 (x.map fun (r, v) => (r, word v)), h := tabOf {} hs, viq := ← changedQueue h.viq
                    held := ← changedQueue h.held, cursor := ← freeBits 4096, tokens := ← changedTokens h.resv }
  changedControl (← changedSpecials h)

/-- What a changed block leaves of a stream: its owner, its buffer and its jobs stay; its addresses, its place in its source and
a fold's value are free (R9). -/
def changedStream (x : Stream) : Exec Stream := do
  let fetched := (← freeBits 64) % (x.avl + 1)
  let behind := (← freeBits 64) % (min x.cap fetched + 1)
  return { x with fetched := fetched, consumed := if x.cap = 0 then x.consumed else fetched - behind, base := ← freeBits 64
                  dst := ← freeBits 64, acc := ← freeBits 64, strip := [], flags := BitVec.ofNat 6 (← freeBits 6) }

/-- A hart some of whose lanes have a changed part: its vector and mask registers are free. -/
def changedLanes (h : Hart) : Exec Hart := do
  let v ← each (List.range h.nregs) fun r => do return (r, ← freeBits (8 * h.regBytes))
  let m ← each ((List.range 7).map (· + 1)) fun r => do return (r, ← freeBits h.maskLen)
  return { h with v := v.foldl (fun t (r, x) => Tab.put 0 t r x) [], m := m.foldl (fun t (r, x) => Tab.put 0 t r x) [] }

/-- The lanes whose parts of the image have changed, as a mask. -/
def changedMask (lanes : List Nat) (old new : List Nat) : Nat :=
  (lanes.zip (old.zip new)).foldl (fun m (n, a, b) => if a = b then m else m ||| 2 ^ n) 0

/-- What a resumed gang starts from, given the parts of its image as they now read: its harts with their streams, its tile
rows and scratchpad as they were halted, and free values where the image has changed (R9, R368). -/
def restored (g : Gang) (new : List Nat) : Exec (List SavedHart × List (Nat × Nat) × Memory) := do
  let n := g.saved.length
  let lanes := lanesOf (laneMask (g.saved.map (·.hart)))
  let mask := changedMask lanes (g.image.drop n) (new.drop n)
  let hs ← each ((g.saved.zip (g.image.zip new)).map id) fun (x, a, b) => do
    let h ← if a = b then pure x.hart else changedHart x.hart
    let h ← if laneMask [h] &&& mask = 0 then pure h else changedLanes h
    let streams ← if a = b then pure x.streams else each x.streams fun (k, y) => do return (k, ← changedStream y)
    return { x with hart := h, streams := streams }
  let rows ← if mask = 0 then pure g.tile else each g.tile fun (r, v) => do return (r, mergeLanes mask v (← freeBits (2 ^ 14)))
  let old := g.image.getD (n + lanes.length) 0
  let now := new.getD (n + lanes.length) 0
  let lo := g.scratchPlaces.1
  let bytes ← if old = now then pure [] else
    each ((List.range (g.sphi.toNat - g.splo.toNat)).filter fun i => elemAt old i 8 ≠ elemAt now i 8) fun i => do
      return (lo + i, BitVec.ofNat 8 (← freeBits 8))
  return (hs, rows, bytes.foldl (fun t (k, b) => Memory.write t k b) g.scratch)

/-- A suspended gang back on its core, which reads its image (R369): the harts as they were halted. -/
def resumeGang (key core : Nat) : Exec Unit := do
  let s ← get
  let g := s.gang key
  let hs := g.saved.map fun x => (core * 8 + x.ctx, x.hart)
  need (core = g.core && s.takesGangs core && hs.all (fun (k, h) =>
    (s.hart k).run = .free && (s.laneHolders core h.first.toNat h.count.toNat).isEmpty) &&
    (!g.spilled || g.splo = g.sphi || s.rangeFree (clusterOfCore core) g.splo.toNat g.sphi.toNat)) .wait
  match Tab.find s.tasks g.task with
  | none => pure ()
  | some t =>
    let mask := laneMask (hs.map (·.2))
    let parts := imageParts (g.imageBase t g.spilled) t.record.scratch g.spilled (g.saved.map (·.ctx)) (lanesOf mask)
    let c := t.ctx g.task
    match ← caught (each parts fun (a, n) => do readAccess c false false (← imageAccess c a n .read)) with
    | .error _ => endTask g.task 4
    | .ok new => do
      let (saved, rows, scratch) ← restored g new
      modify fun s =>
        let s := if g.spilled then s.putScratch g.scratchPlaces.1 g.scratchPlaces.2 scratch g.badScratch else s
        let s := (s.putColumns core mask rows g.badTile).dropL1i core
        let s := saved.foldl (fun s x => s.putHart (core * 8 + x.ctx) x.hart) s
        let s := { s with streams := (saved.flatMap fun (x : SavedHart) => x.streams).foldl (fun (l : List (Nat × Stream)) (p : Nat × Stream) => Tab.set l p.1 p.2) s.streams }
        s.putGang key { g with code := s.view, image := [], saved := [], tile := [], badTile := [], scratch := [], badScratch := [], spilled := false,
                               suspended := false, since := 0, level := 0 }

/-- GANG PLACEMENT (R347 to R349, R369): the next gang of the candidate that goes first, on the chosen core if it fits
there. -/
def placeGang (cluster core gangId : Nat) : Exec Unit := do
  age cluster
  let s ← get
  need (core ≤ 383 && clusterOfCore core = cluster) .wait
  match topOf (s.waiting cluster) with
  | [] => pure ()
  | l => do
    let c := l.getD (Config.free (← nextFresh) % l.length) ⟨true, 64, 0, 0⟩
    if c.head then
      match (s.queue c.key).head with
      | none => pure ()
      | some h =>
        match Tab.find s.tasks h.task with
        | none => pure ()
        | some t => placeNew c.key core gangId h t
    else resumeGang c.key core

/-! ### The grant (R34, R351) -/

/-- GRANT NARROWING (R351): GSHIFT of a live gang changes, at most once in 65,536 clocks; a gang is narrowed when every
gang of lower priority is, and restored when none of higher priority is narrowed (log 7). The package is narrowed from then
on until its last narrowed gang is restored. With no gang of that number only the package's state changes. -/
def setGrant (key shift : Nat) : Exec Unit := modify fun s =>
  let g := s.gang key
  let live := s.gangs.any fun (k, _) => k = key
  let due := match g.grantAt with | some t => t + 65536 ≤ s.clock | none => true
  let order := s.gangs.all fun (_, x) =>
    if g.gshift.toNat < shift then s.gangPrio g ≤ s.gangPrio x || x.gshift ≠ 0
    else s.gangPrio x ≤ s.gangPrio g || x.gshift = 0
  if live && shift ≤ 3 && due && order && g.gshift.toNat ≠ shift then
    let t := s.putGang key { g with gshift := BitVec.ofNat 2 shift, grantAt := some s.clock }
    { t with port := { t.port with narrowed := t.gangs.any fun (_, x) => x.gshift ≠ 0 } }
  else if !live && (shift ≠ 0 || s.gangs.all fun (_, x) => x.gshift = 0) then
    { s with port := { s.port with narrowed := shift ≠ 0 } }
  else s

/-! ### Pre-emption (R365 to R367) -/

/-- PREEMPTION REQUEST (R365): a core with a gang stops fetching; a request under way takes it in. -/
def seeRequest (core : Nat) (spill : Bool) : Exec Unit := do
  let s ← get
  if core ≤ 383 && !(s.gangsOn core).isEmpty then requestPreempt core spill []

/-- A hart at the halt (R367): a wait that is executed again, or a pause, is over; barrier, JOIN and parked states stay. -/
def Hart.atHalt (h : Hart) : Hart :=
  match h.run with
  | .asleep .. | .woken | .yielding _ => { h with run := .running }
  | _ => h

/-- What a halted hart held in the lease queues is withdrawn: its place, and a context granted and not taken. -/
def withdrawBind (k : Nat) : Exec Unit := modify fun s =>
  let g := Tab.get 0 s.granted k
  let s := if g ≠ 0 then s.putFar (g - 1) {} else s
  { s with granted := Tab.erase s.granted k, leaseq := (s.leaseq.map fun (l, q) => (l, q.filter (· ≠ k))).filter (·.2 ≠ []) }

/-- A block instruction of the resumed ones: it halts between records (R144). -/
def byRecords (i : Instr) (f : VForm) : Bool :=
  match i with
  | .vcvt g => fmtIsBlock g.fn.toNat
  | .vquant _ | .vblkhdr _ => true
  | .vperm _ | .vmvv _ | .vld _ | .vldff _ | .vldx _ | .vst _ | .vstx _ | .vldh _ | .vsth _ => fmtIsBlock f.fmt.toNat
  | _ => false

/-- The units of an instruction between which a pre-emption may halt it (R144, R175, R367): elements, or of block operands the
elements at which its records begin, passes, rows. None for one that is restarted. -/
def haltUnits (c : VCtx) : Nat :=
  match c.e.instr with
  | .vint _ | .vmul _ | .vsat _ | .vmulw _ | .vaddw _ | .vnarrow _ | .vabsd _ | .vbitc _ | .vfalu _ | .vfma _ | .vfdiv _
  | .vfsqrt _ | .vfexp2 _ | .vfclass _ | .vcmp _ | .vsel _ | .vcvt _ | .vquant _ | .vperm _ | .vpermb _ | .vslide _
  | .vcompress _ | .vexpand _ | .vsplat _ | .viota _ | .vredo _ | .vscan _ | .vrecur _ | .vld _ | .vldff _ | .vldx _
  | .vst _ | .vstx _ | .vstxa _ | .vldh _ | .vsth _ => c.vl
  | .vmvv f => if f.fn = 0 then c.vl else 0
  | .vblkhdr f => if f.fn = 0 then 0 else c.vl
  | .vmma _ | .vmmax _ | .vmmaq _ => groupingOf c.f * ceilDiv c.vl 128
  | .tld _ | .tst _ | .tmov _ | .tzero _ => rowCount c.e.x2
  | _ => 0

/-- The head of a halted hart's queue up to a unit of the device's choice, past VSTART, with VSTART there or at the record that
follows (R367): the units before it are executed as at issue, and the instruction stays at VCP, VL with it. One that would wait
or stop before that has not begun. CLNEXT halts between moves, its cursor exact (R217). -/
def haltHead (k : Nat) : Exec Unit := asHart k (do
  let s ← get
  match if s.me.issues then s.me.viq.head? else none with
  | none => pure ()
  | some e =>
    match e.instr.vForm with
    | none => pure ()
    | some (_, f) =>
      let n ← nextFresh
      let cut : Exec Unit := do
        let e ← takeTokens e f
        let c ← issueCtx e f
        match e.instr with
        | .clnext _ => let _ ← issueBody e.instr { e with until_ := some (Config.free n) } f
        | _ => do
          let units := haltUnits c
          let h ← me
          await (c.far.isNone && c.start + 1 < units)
          let m := c.start + 1 + Config.free n % (units - c.start - 1)
          if byRecords e.instr f then setVstart units
          let _ ← issueBody e.instr { e with until_ := some m } f
          if !byRecords e.instr f then setVstart m
          modMe fun x => { x with vl := h.vl, vvl := h.vvl, vlPending := h.vlPending }
      match e.instr, ← caught cut with
      | .clnext _, .error .wait => pure ()
      | .clnext _, _ => set s
      | _, .ok _ => pure ()
      | _, .error _ => set s)

/-- The harts of a core whose head is under way at the halt, the device's choice (R367; log 5). -/
def underWay (core : Nat) : Exec (List Nat) := do
  let n ← freeBits 8
  return ((List.range 8).filter (bitAt n)).map (core * 8 + ·)

/-- PREEMPTION HALT (R366): every hart of the core has halted; the PREEMPTs that wait for it have their count. -/
def haltCore (core : Nat) : Exec Unit := do
  match Tab.find (← ask (·.preempts)) core with
  | none => pure ()
  | some p =>
    if p.halted.isNone then
      forAll (← underWay core) haltHead
      let n ← ask (fun s => (s.gangsOn core).length)
      modify fun s => { s with
        harts := s.harts.map fun (k, h) =>
          if coreOf k = core then (k, h.atHalt)
          else if p.waiters.contains k && h.run = .running then (k, { h with answer := some n })
          else (k, h)
        preempts := (Tab.set s.preempts core { p with halted := some n, waiters := [] }).map fun (c, p) =>
          (c, { p with waiters := p.waiters.filter fun k => coreOf k ≠ core }) }
      forAll ((List.range 8).map (core * 8 + ·)) withdrawBind

/-! ### Ends of waits (R360, R362) -/

/-- A hart asleep wakes (R362). -/
def wakeHart (k : Nat) : Exec Unit := modify fun s =>
  match (s.hart k).run with
  | .asleep .. => s.putHart k { s.hart k with run := .woken }
  | _ => s

/-- A hart asleep for 2^20 clocks wakes. -/
def timeoutHart (k : Nat) : Exec Unit := do
  match (← ask (·.hart k)).run with
  | .asleep _ t => if t ≤ (← ask (·.clock)) then wakeHart k
  | _ => pure ()

/-- A pause of YIELD whose clocks have passed ends (R360). -/
def expireYield (k : Nat) : Exec Unit := modify fun s =>
  match (s.hart k).run with
  | .yielding t => if t ≤ s.clock then s.putHart k { s.hart k with run := .running } else s
  | _ => s

/-! ### The moves -/

/-- LAUNCH RECORD CHECK (R342). -/
def execLaunchRecordCheck (q : Nat) (s : State) : Host.Outcome State Fault Refusal := eventStep (takeRecord q) s
/-- WATERMARK RECHECK (R347). -/
def execWatermarkRecheck (q : Nat) (s : State) : Host.Outcome State Fault Refusal := eventStep (recheck q) s
/-- GANG PLACEMENT (R348). -/
def execGangPlacement (cluster core gangId : Nat) (s : State) : Host.Outcome State Fault Refusal :=
  eventStep (placeGang cluster core gangId) s
/-- PRIORITY AGING (R349). -/
def execPriorityAging (cluster : Nat) (s : State) : Host.Outcome State Fault Refusal := eventStep (age cluster) s
/-- GRANT NARROWING (R351). -/
def execGrantNarrowing (gang gshift : Nat) (s : State) : Host.Outcome State Fault Refusal := eventStep (setGrant gang gshift) s
/-- PREEMPTION REQUEST (R365). -/
def execPreemptionRequest (core : Nat) (spill : Bool) (s : State) : Host.Outcome State Fault Refusal :=
  eventStep (seeRequest core spill) s
/-- PREEMPTION HALT (R366). -/
def execPreemptionHalt (core : Nat) (s : State) : Host.Outcome State Fault Refusal := eventStep (haltCore core) s
/-- CONTEXT SAVE (R368). -/
def execContextSave (core : Nat) (s : State) : Host.Outcome State Fault Refusal := eventStep (saveCore core) s
/-- WAITA WAKE (R362). -/
def execWaitaWake (hart : Nat) (s : State) : Host.Outcome State Fault Refusal := eventStep (wakeHart hart) s
/-- WAITA TIMEOUT (R362). -/
def execWaitaTimeout (hart : Nat) (s : State) : Host.Outcome State Fault Refusal := eventStep (timeoutHart hart) s
/-- YIELD EXPIRY (R360). -/
def execYieldExpiry (hart : Nat) (s : State) : Host.Outcome State Fault Refusal := eventStep (expireYield hart) s
end Sys2Proof.Machine
end

