-- ==== Sys2Proof/Machine/Boundary.lean ====
section
/-! DEFINITION. The boundary: the control window, launch queues, apertures and host commands (R430 to R437, R458), links
(R427, R428), the pod (R438, R439), boot and attestation (R440 to R444). -/

namespace Sys2Proof.Machine

open Sys2Proof

/-! ### Queue contexts and doorbells (R433, R434) -/

/-- QCTL written: ERR clears on a one (R433). -/
def Queue.writeCtl (x : Queue) (v : Nat) : Queue :=
  { x with en := bitAt v 0, devlaunch := bitAt v 1, slevel := bitAt v 2, fixid := bitAt v 3,
           err := x.err && !bitAt v 4, fqvec := BitVec.ofNat 8 (v / 2 ^ 16), stvec := BitVec.ofNat 8 (v / 2 ^ 24) }

/-- A word of a queue context written; all but QCTL keep their values while EN = 1, and QRING sets the ring afresh (R434). -/
def Queue.write (x : Queue) (off : Nat) (v : Word) : Queue :=
  match off with
  | 0x00 => if x.en then x else { x with qring := v &&& 0x000FFFFFFFFFFF9F, qhead := 0, qtail := 0, head := none }
  | 0x08 => x.writeCtl v.toNat
  | 0x10 => if x.en then x else { x with qptbase := v &&& 0x000FFFFFFFFE0000 }
  | 0x18 => if x.en then x else { x with qfqbase := v &&& 0x000FFFFFFFFFF01F }
  | 0x20 => if x.en then x else { x with qid := v.setWidth 32 }
  | _ => x

/-- A doorbell write: refused with ERR, or the new QTAIL (R434). -/
def Queue.ring (x : Queue) (v : Word) : Queue :=
  if !x.en || x.devlaunch || v.toNat < x.qtail.toNat || x.qhead.toNat + ringRecords x.qring < v.toNat then { x with err := true }
  else { x with qtail := v }

/-! ### Apertures (R432) -/

/-- A word of an aperture written: while EN = 1 only EN changes. -/
def Aperture.write (a : Aperture) (off : Nat) (v : Nat) : Aperture :=
  match off with
  | 0x00 => if a.en then a else { a with base := BitVec.ofNat 36 (v / 2 ^ 16) }
  | 0x08 => if a.en then a else { a with size := BitVec.ofNat 21 (v / 2 ^ 16) }
  | 0x10 =>
    if a.en then { a with en := bitAt v 18 }
    else { wr := bitAt v 19, en := bitAt v 18, raw := bitAt v 16, gen := BitVec.ofNat 4 (v / 2 ^ 12), slot := BitVec.ofNat 12 v,
           base := a.base, size := a.size }
  | _ => a

/-! ### Host commands (R436) -/

/-- A command completes. -/
def commandDone : Exec Unit := modPort fun p => { p with cdone := p.cdone + 1 }

/-- The words latched for INVPAGE and FQCOMP. -/
def latched (off : Nat) : Exec Word := do return Tab.get (0 : Word) (← ask (·.port.latch)) off

/-- INVPAGE: as TLBINV.PAGE (R398): it waits for what holds the page's translations (R379). -/
def invPage (asid va : Nat) : Exec Unit := do
  await (!(← ask (·.xlatHeld (fun a => a.toNat = asid) fun a x => a.toNat = asid && pageOf true x = pageOf true va)))
  tlbDrop fun t => t.covers asid va

/-- FQCOMP: as FQDONE (R417), with its result in CRES; a code of 5 to 7 leaves CRES. -/
def fqComp (fqbase seq code value : Word) : Exec Unit := do
  if fqbase &&& 0x000FFFFFFFFFF01F = fqbase && code.toNat ≤ 4 then
    let r ← completeSeq fqbase seq.toNat code.toNat value
    modPort fun p => { p with cres := word r }

/-- Every WAITA asleep on a core, or on all for 0xFFFF, wakes (R362, R436). -/
def notifyCore (v : Nat) : Exec Unit := do
  if v ≤ 383 || v = 0xFFFF then modify fun s => { s with harts := s.harts.map fun (k, h) =>
    match h.run with
    | .asleep .. => if v = 0xFFFF || coreOf k = v then (k, { h with run := .woken }) else (k, h)
    | _ => (k, h) }

/-- A write to the command page taken, at its offset; the last word of a command makes it act. -/
def takeCommand (off : Nat) (v : Word) : Exec Unit := do
  let latch : Exec Unit := modPort fun p => { p with latch := Tab.put (0 : Word) p.latch off v }
  match off with
  | 0x000 => do endTask v.toNat 3; commandDone
  | 0x008 => do
    if v.toNat < 2 ^ 10 then seeRequest (v.toNat % 2 ^ 9) (bitAt v.toNat 9)
    commandDone
  | 0x010 => do notifyCore v.toNat; commandDone
  | 0x020 => latch
  | 0x028 => latch
  | 0x030 => do
    let asid := (← latched 0x020).toNat
    if asid < 2 ^ 16 && v.toNat < 2 then invPage asid (← latched 0x028).toNat
    commandDone
  | 0x040 => latch
  | 0x048 => latch
  | 0x050 => latch
  | 0x058 => do
    fqComp (← latched 0x040) (← latched 0x048) (← latched 0x050) v
    commandDone
  | _ => pure ()

/-- The writes to the command page taken in order, up to one that waits (R436); n at most. -/
def runCommands : Nat → Exec Unit
  | 0 => pure ()
  | n + 1 => do
    match (← ask (·.port.cmds)) with
    | [] => pure ()
    | (off, v) :: t => do
      match ← caught (takeCommand off v) with
      | .error .wait => pure ()
      | _ => do
        modPort fun p => { p with cmds := t }
        runCommands n

/-- A write to the command page: it is taken after those before it. -/
def hostCommand (off : Nat) (v : Word) : Exec Unit := do
  modPort fun p => { p with cmds := p.cmds ++ [(off, v)] }
  runCommands ((← ask (·.port.cmds)).length)

/-- The writes that had to wait are tried again. -/
def State.settleCommands (s : State) : State :=
  match runCommands s.port.cmds.length s with
  | .ok _ s' => s'
  | .error _ s' => s'

/-! ### The control window (R431, R458) -/

/-- PCAP written: clamped to 600 to 2,400 watts (R458). -/
def writePcap (v : Word) : Exec Unit := modPort fun p => { p with pcap := BitVec.ofNat 12 (max 600 (min 2400 v.toNat)) }

/-- The counter at an offset of the report window: its class and instance, a stack or Landing being this package's own (R429;
log 14). -/
def State.counterKey (s : State) (off : Nat) : Nat :=
  let cls := (off - 0x208000) / 0x1000
  let i := (off - 0x208000) % 0x1000 / 8
  let first := if cls ≤ 1 then 0 else 384
  cls * 4096 + if cls ≤ 3 && first ≤ i then (if i < first + 8 then s.pkg * 8 + i else 2048 + i) else i

/-- A 64-bit write to BAR0. The device page takes it always; the rest of the window once it is open (R440, R441). -/
def hostWrite (off : Nat) (v : Word) : Exec Unit := do
  let s ← get
  if off % 8 ≠ 0 then pure ()
  else if off < 0x1000 then (if off = 8 then writePcap v else pure ())
  else if !s.windowOpen then pure ()
  else if 0x10000 ≤ off && off < 0x11000 then modQueue ((off - 0x10000) / 64) (·.write (off % 64) v)
  else if 0x20000 ≤ off && off < 0x20200 then
    let a := (off - 0x20000) / 32
    modPort fun p => { p with apertures := Tab.put {} p.apertures a ((Tab.get {} p.apertures a).write (off % 32) v.toNat) }
  else if 0x30000 ≤ off && off < 0x31000 then hostCommand (off - 0x30000) v
  else if 0x100000 ≤ off && off < 0x140000 && off % 0x1000 = 0 then modQueue ((off - 0x100000) / 0x1000) (·.ring v)
  else if 0x208000 ≤ off && off < 0x210000 then modPort fun p => { p with counters := Tab.put 0 p.counters (s.counterKey off) 0 }
  else pure ()

/-! ### What the host reads of BAR0 (R431 to R436, R458)

A read changes nothing, so it is no step of the machine. -/

/-- The words of the device page (R458). -/
def Port.deviceWord (p : Port) (off : Nat) : Word :=
  match off with
  | 0x000 => p.podId.setWidth 64
  | 0x008 => p.pcap.setWidth 64
  | 0x010 => word (p.state.toNat + 2 ^ 8 * p.reason.toNat)
  | _ => 0

/-- The words of a queue context (R433). -/
def Queue.read (x : Queue) (off : Nat) : Word :=
  match off with
  | 0x00 => x.qring
  | 0x08 => word (b1 x.en + 2 * b1 x.devlaunch + 4 * b1 x.slevel + 8 * b1 x.fixid + 16 * b1 x.err + 2 ^ 16 * x.fqvec.toNat +
      2 ^ 24 * x.stvec.toNat)
  | 0x10 => x.qptbase
  | 0x18 => x.qfqbase
  | 0x20 => x.qid.setWidth 64
  | 0x28 => x.qhead
  | 0x30 => x.qtail
  | _ => 0

/-- The words of an aperture (R432). -/
def Aperture.read (a : Aperture) (off : Nat) : Word :=
  match off with
  | 0x00 => word (a.base.toNat * 2 ^ 16)
  | 0x08 => word (a.size.toNat * 2 ^ 16)
  | 0x10 => word (a.slot.toNat + 2 ^ 12 * a.gen.toNat + 2 ^ 16 * b1 a.raw + 2 ^ 18 * b1 a.en + 2 ^ 19 * b1 a.wr)
  | _ => 0

/-- A 64-bit word of the error log, the retirement lists and the counters, at an offset in their 64 KiB (R422, R426, R429; the
places within the 64 KiB are the model's, log 14): 256 entries of 64 bytes, the eight lists, one counter a word. -/
def State.reportWord (s : State) (off : Nat) : Word :=
  if off < 0x4000 then
    match s.port.errLog[off / 64]? with
    | some e => word (e.bytes (off / 64) / 2 ^ (8 * (off % 64)))
    | none => 0
  else if off < 0x8000 then
    word (((Tab.get [] s.port.retired (s.pkg * 8 + (off - 0x4000) / 0x800)).getD ((off - 0x4000) % 0x800 / 8) 0) * 2 ^ 16)
  else word (Tab.get 0 s.port.counters (s.counterKey (0x200000 + off)))

/-- The mailbox: the latest answer from its first byte on (R443, R444; log 14). -/
def PortReply.word (r : PortReply) (off : Nat) : Word :=
  match r with
  | .evidence v => Machine.word (v / 2 ^ (8 * off))
  | .certificates v => Machine.word (v / 2 ^ (8 * off))
  | _ => 0

/-- The 64-bit word that the host reads at an offset of BAR0: none where the rules expose nothing, or no value (R431, R440). -/
def State.hostRead (s : State) (off : Nat) : Option Word :=
  if off % 8 ≠ 0 then none
  else if off < 0x1000 then some (s.port.deviceWord off)
  else if 0x300000 ≤ off && off < 0x305000 then some (s.port.mailbox.word (off - 0x300000))
  else if !s.windowOpen then none
  else if 0x10000 ≤ off && off < 0x11000 then some ((s.queue ((off - 0x10000) / 64)).read (off % 64))
  else if 0x20000 ≤ off && off < 0x20200 then some ((Tab.get ({} : Aperture) s.port.apertures ((off - 0x20000) / 32)).read (off % 32))
  else if off = 0x30100 then some s.port.cdone
  else if off = 0x30108 then some s.port.cres
  else if 0x100000 ≤ off && off < 0x140000 && off % 0x1000 = 8 then some (s.queue ((off - 0x100000) / 0x1000)).qhead
  else if 0x200000 ≤ off && off < 0x210000 then some (s.reportWord (off - 0x200000))
  else none

/-! ### Aperture accesses (R432) -/

/-- The domain of an aperture at an address: its slot in the package that owns the frame. -/
def Aperture.kslot (a : Aperture) (pa : Nat) : Nat := paPkg pa * 4096 + a.slot.toNat

/-- A failed access: poisoned data to a read under CXL.mem, else a completer abort. -/
def failAccess (write : Bool) : Exec Unit := reply (if !write && Config.cxlMem then .poisoned else .aborted)

/-- The frames an access touches can be reached: in the address space, in the pod, with a route. -/
def State.reaches (s : State) (pa n : Nat) : Bool :=
  pa + n ≤ 2 ^ 52 && (cuts pa n).all fun (a, _) => s.present (paPkg a) && !s.port.lostPkgs.contains (paPkg a)

/-- A coherent access at the home of its lines, each frame under the aperture's domain, performed at SYSTEM scope; it brings
no line into a cache (R231). -/
def coherentAccess (ap : Aperture) (pa n : Nat) (data : Option (List Byte)) : Exec Unit := do
  let s ← get
  if !((cuts pa n).all fun (a, _) => s.domainLive (ap.kslot a) ap.gen.toNat) then failAccess data.isSome
  else
    match data with
    | some l => do
      forAll (cuts pa n) fun (a, k) => do
        writeHome {} (s.domainAt (ap.kslot a) a) a k (ofBytes ((l.drop (a - pa)).take k))
      flushPool
      wakeRange pa (pa + n - 1)
      reply .done
    | none => do
      let rs ← each (cuts pa n) fun (a, k) => do
        let (v, e) ← readPhys {} (s.domainAt (ap.kslot a) a) false 0 a k
        return (toBytes v k, e)
      if rs.all fun r => r.2 = 0 then reply (.data (rs.flatMap (·.1))) else failAccess false

/-- A RAW access: backing ciphertext. -/
def rawAccess (pa n : Nat) (data : Option (List Byte)) : Exec Unit := do
  match data with
  | some l => do
    rawWrite pa n (ofBytes l)
    reply .done
  | none => do
    let v ← rawRead pa n
    reply (.data (toBytes v n))

/-- A host access at an offset of an aperture; of data when it is a write. -/
def hostAccess (a off n : Nat) (data : Option (List Byte)) : Exec Unit := do
  let s ← get
  let ap : Aperture := Tab.get {} s.port.apertures a
  let n := match data with | some l => l.length | none => n
  let pa := ap.base.toNat * 2 ^ 16 + off
  if !(s.windowOpen && a < 16 && ap.en && off + n ≤ ap.size.toNat * 2 ^ 16 && off + n ≤ 2 ^ 36 && (data.isNone || ap.wr)) then
    reply .unsupported
  else if n = 0 then reply .done
  else if !s.reaches pa n then failAccess data.isSome
  else if ap.raw then rawAccess pa n data
  else coherentAccess ap pa n data

/-! ### Other packages (R438, R439) -/

/-- An error record with no task concerned (R426, R438). -/
def logError (detail : Nat) (pa : Nat) : Exec Unit := modPort fun p =>
  { p with errLog := p.errLog ++ [{ taskid := 0, addr := 0, val := word pa, pc := 0, pte := errInfo pa detail false false true,
                                    elem := 0, hartid := 0, asid := 0, code := 0x20, detail := detail, kind := 8, src := 4 }] }

/-- UALINK REQUEST (R438): accepted from a package of the pod table for memory of this one; else dropped and recorded, with
one of the five classes, which one the rules do not say (R426; log 15). -/
def uaRequest (pkg : Nat) (req : UaRequest) : Exec Unit := do
  let s ← get
  if s.port.podTable.contains pkg && pkg ≠ s.pkg then
    if (requestHomes req).any (fun a => paPkg a = s.pkg && a < 2 ^ 52) then serveRequest pkg req else pure ()
  else logError (1 + (← freeBits 8) % 5) (requestAddr req)

/-- POD TABLE UPDATE (R438): running firmware enters a package or removes it. -/
def podUpdate (pkg : Nat) (enter : Bool) : Exec Unit := do
  let s ← get
  if s.windowOpen && pkg < 128 then modPort fun p =>
    { p with podTable := if enter then (if p.podTable.contains pkg then p.podTable else p.podTable ++ [pkg])
                         else p.podTable.filter (· ≠ pkg) }

/-- The slots of a hart bound at a package's Landings lose their contexts (R439). -/
def Hart.losePkg (h : Hart) (pkg : Nat) : Hart :=
  { h with fstk := h.fstk.map fun (n, f) => if f.bound && f.pkg.toNat = pkg then (n, { f with lost := true }) else (n, f) }

/-- REMOTE PACKAGE RESET (R439): the contexts leased there are freed, later far instructions through them find no route, and
what the model keeps for the package (keys, census, queue, copies, translations of its frames) is gone (log 15). -/
def remoteReset (pkg : Nat) : Exec Unit := do
  let s ← get
  if pkg < 128 && pkg ≠ s.pkg then modify fun s =>
    let here (key : Nat) : Bool := key / 2048 = pkg
    { s with
      harts := s.harts.map fun (k, h) => (k, h.losePkg pkg)
      gangs := s.gangs.map fun (k, g) => (k, { g with saved := g.saved.map fun x => { x with hart := x.hart.losePkg pkg } })
      far := s.far.filter fun (k, _) => !here k
      banks := s.banks.map fun b => if here b.ctx then { b with ctx := noCtx } else b
      granted := s.granted.filter fun (_, g) => !here (g - 1)
      leaseq := s.leaseq.filter fun (l, _) => l / 8 ≠ pkg
      sectors := s.sectors.filter fun (g, _) => paPkg (g * 32) ≠ pkg
      slots := s.slots.filter fun (k, _) => k / 4096 ≠ pkg
      census := Tab.erase s.census pkg
      freeq := Tab.erase s.freeq pkg
      tlb := s.tlb.filter fun t => t.key / 4096 ≠ pkg }

/-! ### Links (R427, R428, R429) -/

/-- LINK CRC REPLAY (R427): flits replayed in order, counted; Landing links are 0 to 7, UALink ports 8 to 23. -/
def crcReplay (link dir flits : Nat) : Exec Unit := modify fun s =>
  if dir ≥ 2 then s
  else if link < 8 then s.count 4 (link * 2 + dir) 32 flits
  else if link < 24 then s.count 5 ((link - 8) * 2 + dir) 32 flits
  else s

/-- The package stops (R428): every task ends with code 3, and the host is notified, by a vector the rules do not give. -/
def stopPackage : Exec Unit := do
  forAll (← ask (·.tasks)) fun (id, _) => endTask id 3
  signalHost (← freeBits 8)
  modify fun s => { s with stopped := true }

/-- LINK RETRAIN (R428). -/
def retrain (link : Nat) (o : LinkOutcome) : Exec Unit := do
  let s ← get
  match o with
  | .retrained back =>
    if link < 24 then modify fun s =>
      let s := s.count 6 link 8 1
      if link < 8 then s
      else { s with port := { s.port with lostPkgs := s.port.lostPkgs.filter fun p => !back.contains p } }
  | .landingLost => if link < 8 then stopPackage else pure ()
  | .portRerouted => pure ()
  | .packagesLost pkgs =>
    if 8 ≤ link && link < 24 then
      forAll (pkgs.filter fun p => p < 128 && p ≠ s.pkg && !s.port.lostPkgs.contains p) fun p => do
        logError 5 (p * 2 ^ 45)
        modPort fun x => { x with lostPkgs := x.lostPkgs ++ [p] }
        modify fun s => { s with rounds := s.rounds.map fun (k, r) => (k, r.losePkg p) }

/-! ### Boot and attestation (R440 to R443) -/

/-- Why the boot ROM rejects an image: 0, or REASON of R458. -/
def rejectReason (i : FwImage) (fused : Nat) : Nat :=
  if i.malformed then 4
  else if !Config.rsaVerifies i.body i.rsaSig then 1
  else if !Config.slhVerifies i.body i.slhSig then 2
  else if i.version < fused then 3
  else 0

/-- The machine as device reset leaves it, before the boot ROM's verdict: memory, its domains and errors, the fuses, and
what the model itself keeps (log 3). -/
def State.afterReset (s : State) : State :=
  { State.reset with
    mem := s.mem, domains := s.domains, poison := s.poison, dram := s.dram, keys := s.keys, fresh := s.fresh,
    agenda := s.agenda, resets := s.resets + 1
    port := { State.reset.port with fused := s.port.fused, msix := s.port.msix } }

/-- CENSUS and FREEQ as firmware sets them: their reserved bits are zero, and PLOG is at most 28 (R385). -/
def censusWord (v : Word) : Word := let w := v &&& 0x000FFFFFFFFFF1F1; if 28 < bits w.toNat 8 4 then w &&& ~~~0x1F0 else w
def freeqWord (v : Word) : Word := v &&& 0x000FFFFFFFFFFFC0

/-- DEVICE RESET (R440, R441): the boot ROM checks the image; accepted firmware sets the pod number and table, CENSUS,
FREEQ and slot 0, and opens the window; else recovery mode with its reason. -/
def State.boot (s : State) (i : FwImage) : State :=
  let s := s.afterReset
  let r := rejectReason i s.port.fused
  if r ≠ 0 then { s with port := { s.port with state := 2, reason := BitVec.ofNat 8 r, image := i.body } }
  else
    let p := i.podId.toNat
    { s with
      port := { s.port with state := 1, podId := i.podId, podTable := i.podTable, image := i.body, config := i.config }
      census := Tab.put (0 : Word) s.census p (censusWord i.census)
      freeq := Tab.put (0 : Word) s.freeq p (freeqWord i.freeq)
      slots := Tab.put {} s.slots (p * 4096) { state := .live, gen := 0, key := s.keys }
      keys := s.keys + 1 }

/-- Fields of given sizes in bytes, joined little-endian. -/
def joinFields : List (Nat × Nat) → Nat
  | [] => 0
  | (n, v) :: t => v % 2 ^ (8 * n) + 2 ^ (8 * n) * joinFields t

/-- SHA-384 of a measured object held as a number: of its bytes, lowest first, as far as the last that is not zero; and of the
pod table, a byte for each package (R443; log 13). -/
def measureNat (v : Nat) : Nat := sha384 (toBytes v (if v = 0 then 0 else Nat.log2 v / 8 + 1))
def measureTable (l : List Nat) : Nat := sha384 (l.map (BitVec.ofNat 8))

/-- The first 0x120 bytes of evidence (R443). -/
def State.measured (s : State) (nonce : BitVec 256) : Nat :=
  joinFields [(4, 0x01454E5A), (12, 0), (32, nonce.toNat), (16, Config.serial), (48, measureNat Config.bootRom),
    (48, measureNat s.port.image), (48, measureNat s.port.config), (48, measureTable s.port.podTable), (8, s.port.fused), (24, 0)]

/-- The evidence (R443): 16,896 bytes. -/
def State.evidence (s : State) (nonce : BitVec 256) : Nat :=
  let m := s.measured nonce
  joinFields [(0x120, m), (384, Config.rsaSign m), (16224, Config.slhSign m)]

/-- ATTESTATION REQUEST (R442, R443): the mailbox answers once the boot ROM has decided. -/
def attest (nonce : BitVec 256) (certs : Bool) : Exec Unit := modify fun s =>
  if s.port.state = 1 || s.port.state = 2 then
    { s with port := { s.port with mailbox := if certs then .certificates Config.certificates else .evidence (s.evidence nonce) } }
  else s

/-- SECURITY VERSION RAISE (R440): only with an image signed with both algorithms. -/
def raiseVersion (i : FwImage) : Exec Unit := modPort fun p =>
  if p.state = 1 && !i.malformed && Config.rsaVerifies i.body i.rsaSig && Config.slhVerifies i.body i.slhSig then
    { p with fused := max p.fused i.version }
  else p

/-! ### The events -/

/-- LINK CRC REPLAY (R427). -/
def execLinkCrcReplay (link dir flits : Nat) (s : State) : Host.Outcome State Fault Refusal := eventStep (crcReplay link dir flits) s
/-- LINK RETRAIN (R428). -/
def execLinkRetrain (link : Nat) (outcome : LinkOutcome) (s : State) : Host.Outcome State Fault Refusal :=
  eventStep (retrain link outcome) s
/-- UALINK REQUEST (R438). -/
def execUalinkRequest (pkg : Nat) (req : UaRequest) (s : State) : Host.Outcome State Fault Refusal := eventStep (uaRequest pkg req) s
/-- REMOTE PACKAGE RESET (R439). -/
def execRemotePackageReset (pkg : Nat) (s : State) : Host.Outcome State Fault Refusal := eventStep (remoteReset pkg) s
/-- DEVICE RESET (R440, R441). -/
def execDeviceReset (image : FwImage) (s : State) : Host.Outcome State Fault Refusal := .next (s.boot image)
/-- ATTESTATION REQUEST (R443). -/
def execAttestationRequest (nonce : BitVec 256) (certs : Bool) (s : State) : Host.Outcome State Fault Refusal :=
  eventStep (attest nonce certs) s
/-- SECURITY VERSION RAISE (R440). -/
def execSecurityVersionRaise (image : FwImage) (s : State) : Host.Outcome State Fault Refusal := eventStep (raiseVersion image) s
/-- POD TABLE UPDATE (R438). -/
def execPodTableUpdate (pkg : Nat) (enter : Bool) (s : State) : Host.Outcome State Fault Refusal := eventStep (podUpdate pkg enter) s
/-- DOORBELL (R434): a write at offset 0 of the queue's doorbell page. -/
def execDoorbell (q : Nat) (value : Word) (s : State) : Host.Outcome State Fault Refusal :=
  eventStep (do if q < 64 then hostWrite (0x100000 + 0x1000 * q) value) s
/-- QRING (R434). -/
def execQring (q : Nat) (value : Word) (s : State) : Host.Outcome State Fault Refusal :=
  eventStep (do if q < 64 then hostWrite (0x10000 + 64 * q) value) s
/-- PCAP (R458). -/
def execPcap (value : Word) (s : State) : Host.Outcome State Fault Refusal := eventStep (hostWrite 0x008 value) s
/-- HOST REGISTER WRITE (R431 to R433). -/
def execHostRegisterWrite (offset : Nat) (value : Word) (s : State) : Host.Outcome State Fault Refusal :=
  eventStep (hostWrite offset value) s
/-- APERTURE ACCESS (R432): the aperture's RAW bit says which way it goes. -/
def execApertureAccess (a off n : Nat) (data : Option (List Byte)) (s : State) : Host.Outcome State Fault Refusal :=
  eventStep (hostAccess a off n data) s
/-- RAW APERTURE ACCESS (R432). -/
def execRawApertureAccess (a off n : Nat) (data : Option (List Byte)) (s : State) : Host.Outcome State Fault Refusal :=
  eventStep (hostAccess a off n data) s
/-- END (R436). -/
def execEndTask (taskid : Word) (s : State) : Host.Outcome State Fault Refusal := eventStep (hostWrite 0x30000 taskid) s
/-- HOST PREEMPT (R436). -/
def execHostPreempt (value : Word) (s : State) : Host.Outcome State Fault Refusal := eventStep (hostWrite 0x30008 value) s
/-- NOTIFY (R436). -/
def execNotify (value : Word) (s : State) : Host.Outcome State Fault Refusal := eventStep (hostWrite 0x30010 value) s
/-- INVPAGE (R436). -/
def execInvpage (asid va pod : Word) (s : State) : Host.Outcome State Fault Refusal :=
  eventStep (do hostWrite 0x30020 asid; hostWrite 0x30028 va; hostWrite 0x30030 pod) s
/-- FQCOMP (R436). -/
def execFqcomp (fqbase seq code value : Word) (s : State) : Host.Outcome State Fault Refusal :=
  eventStep (do hostWrite 0x30040 fqbase; hostWrite 0x30048 seq; hostWrite 0x30050 code; hostWrite 0x30058 value) s

end Sys2Proof.Machine
end

