-- ==== Sys2Proof/Machine/Background.lean ====
section
/-! DEFINITION. Which moves of the device's units are possible now, in the order the step tries them (log 2). -/

namespace Sys2Proof.Machine

open Sys2Proof

/-- Moves for each hart: its queue's head, a restart, its maintenance, and the ends of its waits. -/
def State.hartMoves (s : State) (k : Nat) (h : Hart) : List Instr :=
  (if (s.headOf k).isSome then [.vectorIssue k] else []) ++
  (if h.maint ≠ [] then [.maintenanceEffect k] else []) ++
  match h.run with
  | .restart .. => if s.due k && s.restartsNext k then [.parkedHartRestart k] else []
  | .asleep _ t => if t ≤ s.clock then [.waitaTimeout k] else []
  | .yielding t => if t ≤ s.clock then [.yieldExpiry k] else []
  | _ => []

/-- The move of a stream. -/
def Stream.move (key : Nat) (x : Stream) : Instr :=
  match x.kind with
  | .stream | .paged => .flumeFetch (key / 16) (key % 16)
  | _ => .flumeCopyElement (key / 16) (key % 16)

/-- A lease a Landing can grant: its oldest request, its first free context. -/
def State.leaseMoves (s : State) (landing : Nat) (q : List Nat) : List Instr :=
  match q, (List.range 256).find? (s.freeFar landing) with
  | _ :: _, some f => [.leaseGrant landing f]
  | _, _ => []

/-- A gang number that no gang of a cluster holds. -/
def State.freeGangId (s : State) (cluster : Nat) : Nat :=
  ((List.range 65536).find? fun n => s.gangs.all fun (_, g) => clusterOfCore g.core ≠ cluster || g.gangid.toNat ≠ n).getD 65536

/-- The placement of a candidate: on a suspended gang's own core, or on the lowest core its next gang fits. -/
def State.placeMove (s : State) (cluster : Nat) (c : Candidate) : Option Instr :=
  if c.head then do
    let h ← (s.queue c.key).head
    guard (s.hasRange (cluster * 192) h.record.scratch)
    let core ← ((List.range 192).map (cluster * 192 + ·)).find? fun k => s.fits k h.record
    return .gangPlacement cluster core (s.freeGangId cluster)
  else some (.gangPlacement cluster (s.gang c.key).core 0)

/-- Moves of a cluster's Yarder: records to take, watermarks to read, and placements. -/
def State.yarderMoves (s : State) (cluster : Nat) : List Instr :=
  ((clusterQueues cluster).flatMap fun q =>
    let x := s.queue q
    match x.head with
    | none => if s.windowOpen && x.en && x.qhead ≠ x.qtail then [.launchRecordCheck q] else []
    | some h => if h.since.isNone then [.watermarkRecheck q] else []) ++
  (((s.statuses.map (·.task.queue)).filter (· / 32 = cluster)).dedup.map .launchRecordCheck) ++
  (s.waiting cluster).filterMap (s.placeMove cluster)

/-- The moves of the device's own units that are due. -/
def State.candidates (s : State) : List Instr :=
  (s.gangs.flatMap fun (_, g) => g.saved.filterMap fun x =>
    if x.hart.maint ≠ [] then some (.maintenanceEffect (g.core * 8 + x.ctx)) else none) ++
  (s.harts.flatMap fun (k, h) => s.hartMoves k h) ++
  (s.streams.filterMap fun (k, x) =>
    if x.owesProg || (x.stop = .none && x.fetched < x.avl && (Tab.find s.preempts (k / 16)).isNone) then some (x.move k) else none) ++
  (s.convs.filterMap fun (id, c) =>
    if c.accepted && c.stop = .none && c.ndone < c.tiles then some (.tileConversion id) else none) ++
  (s.banks.map fun b => .bankAction b.id) ++
  (s.leaseq.flatMap fun (l, q) => s.leaseMoves l q) ++
  (s.pending.filterMap fun p => if p.seq.isNone then some (.heldEntryWrite (p.ring.toNat / 2 ^ 12)) else none) ++
  (s.preempts.map fun (c, p) => if p.halted.isSome then .contextSave c else .preemptionHalt c) ++
  s.yarderMoves 0 ++ s.yarderMoves 1

end Sys2Proof.Machine
end

