-- ==== Sys2Proof/Machine/ScalarFp.lean ====
section
/-! DEFINITION. Scalar floating point (R124 to R130). -/

namespace Sys2Proof.Machine

open Sys2Proof

/-- The FMT of SF, FN[4:3] (R124). -/
def sfFmt (fn : Nat) : Nat := match fn / 8 with | 0 => 7 | 1 => 6 | 2 => 8 | _ => 9

/-- The low bits of a register in a format (R23). -/
def lowBits (fmt : Nat) (a : Word) : Nat := a.toNat % 2 ^ (Fp.spec fmt).width

/-- The dynamic mode of FALU and FMA: DYN 6 and 7 are illegal, for the functions that do not round too (R124). -/
def dynMode (i : Instr) : Exec Nat := do
  let d := (← me).dyn.toNat
  if d ≥ 6 then illegal i else return d

/-- RM of FSQRT and FCVT, 6 meaning DYN (R124, R130). -/
def staticMode (i : Instr) (rm : Nat) : Exec Nat := if rm = 6 then dynMode i else return rm

/-- An instruction that rounds in mode 5 waits for the vector side (R101, R108). -/
def waitIfStochastic (rm : Nat) : Exec Unit := if rm = 5 then vectorDone else pure ()

/-- FALU's arithmetic on two encodings (R125). -/
def faluF (fn fmt rm a b : Nat) : Fm Nat :=
  let x := Fp.decode fmt a
  let y := Fp.decode fmt b
  match fn with
  | 0 => roundF fmt rm (Fp.add rm x y)
  | 1 => roundF fmt rm (Fp.sub rm x y)
  | 2 => roundF fmt rm (Fp.mul x y)
  | 3 => roundF fmt rm (Fp.div x y)
  | 4 => exactF (Fp.minMax false fmt a b)
  | 5 => exactF (Fp.minMax true fmt a b)
  | 6 => exactF (Fp.withSign fmt a (Fp.signOf fmt b))
  | _ => exactF (Fp.withSign fmt a (!Fp.signOf fmt b))

/-- FALU (R125). -/
def execFalu (f : SForm) (s : State) : Host.Outcome State Fault Refusal :=
  sStep f (do
    let rm ← dynMode (.falu f)
    let fn := f.fn.toNat % 8
    if fn ≤ 3 then waitIfStochastic rm
    let fmt := sfFmt f.fn.toNat
    let r ← scalarF (faluF fn fmt rm (lowBits fmt (← getX f.rs1.toNat)) (lowBits fmt (← getX f.rs2.toNat)))
    setX f.rd.toNat (word r)
    return .seq) s

/-- The fused multiply-adds by function: product negated for 2 and 3, addend negated for 1 and 2 (R126). -/
def fmaF (fn fmt rm : Nat) (x y z : Fp.Val) : Fm Nat :=
  roundF fmt rm (Fp.fma rm (fn = 2 || fn = 3) (fn = 1 || fn = 2) x y z)

/-- FMA (R126): the accumuland is the old x(RD). -/
def execFma (f : SForm) (s : State) : Host.Outcome State Fault Refusal :=
  scalarStep (s.me.guardOn f.g f.gn) (f.rd.toNat :: f.regs) 4 (do
    let rm ← dynMode (.fma f)
    waitIfStochastic rm
    let fmt := sfFmt f.fn.toNat
    let v (r : BitVec 5) : Exec Fp.Val := do return Fp.decode fmt (lowBits fmt (← getX r.toNat))
    let r ← scalarF (fmaF (f.fn.toNat % 8) fmt rm (← v f.rs1) (← v f.rs2) (← v f.rd))
    setX f.rd.toNat (word r)
    return .seq) s

/-- FSQRT (R127). -/
def execFsqrt (f : SForm) (s : State) : Host.Outcome State Fault Refusal :=
  scalarStep (s.me.guardOn f.g f.gn) [f.rs1.toNat] 4 (do
    let rm ← staticMode (.fsqrt f) (f.rs2.toNat % 8)
    waitIfStochastic rm
    let fmt := sfFmt f.fn.toNat
    let r ← scalarF (roundF fmt rm (Fp.sqrt (Fp.decode fmt (lowBits fmt (← getX f.rs1.toNat)))))
    setX f.rd.toNat (word r)
    return .seq) s

/-- A floating comparison (R128): 0 eq, 1 lt, 2 le, 3 un, 4 ne, with its flags. -/
def fcmpF (fn : Nat) (a b : Fp.Val) : Fm Bool := do
  let nan := a.isNan || b.isNan
  raise (if nan && (a.isSig || b.isSig || fn = 1 || fn = 2) then Fp.NV else 0)
  return match fn with
    | 0 => !nan && a.eq b
    | 1 => !nan && a.lt b
    | 2 => !nan && (a.lt b || a.eq b)
    | 3 => nan
    | _ => nan || !a.eq b

/-- FCMP (R128). -/
def execFcmp (f : SForm) (s : State) : Host.Outcome State Fault Refusal :=
  scalarStep (s.me.guardOn f.g f.gn) [f.rs1.toNat, f.rs2.toNat] 4 (do
    let fmt := sfFmt f.fn.toNat
    let a := Fp.decode fmt (lowBits fmt (← getX f.rs1.toNat))
    let b := Fp.decode fmt (lowBits fmt (← getX f.rs2.toNat))
    let r ← scalarF (fcmpF (f.fn.toNat % 8) a b)
    setG (f.rd.toNat % 8) r
    return .seq) s

/-- The value of FCVT's source (R129): codes 0 and 1 integers, 2 to 7 FMT 4 to 9. -/
def fcvtSource (sc : Nat) (a : Word) : Fp.Val :=
  match sc with
  | 0 => Fp.ofInt a.toInt
  | 1 => Fp.ofInt a.toNat
  | c => Fp.decode (c + 2) (lowBits (c + 2) a)

/-- FCVT's arithmetic (R103, R104, R129): the same floating-point code copies, with a NaN made canonical. -/
def fcvtF (dc sc rm : Nat) (nosat : Bool) (a : Word) : Fm Nat :=
  let v := fcvtSource sc a
  if dc = sc then
    match v with
    | .nan sig => exactF ((Fp.spec (sc + 2)).nan, if sig then Fp.NV else 0)
    | _ => exactF (lowBits (sc + 2) a, 0)
  else convertF (if dc ≤ 1 then 3 else dc + 2) rm (dc = 1) nosat v

/-- FCVT (R129). Its mode counts as rounding whatever the codes; a copy rounds nothing. -/
def execFcvt (f : SForm) (s : State) : Host.Outcome State Fault Refusal :=
  scalarStep (s.me.guardOn f.g f.gn) [f.rs1.toNat] 4 (do
    let rm ← staticMode (.fcvt f) (Wf.fcvtRm f)
    if Wf.fcvtDc f ≠ Wf.fcvtSc f then waitIfStochastic rm
    let r ← scalarF (fcvtF (Wf.fcvtDc f) (Wf.fcvtSc f) rm (Wf.fcvtNosat f) (← getX f.rs1.toNat))
    setX f.rd.toNat (word r)
    return .seq) s

end Sys2Proof.Machine
end

