-- ==== Sys2Proof/Machine/Dispatch.lean ====
section
/-! DEFINITION. The meaning of every instruction and event, one arm each. -/

namespace Sys2Proof.Machine

open Sys2Proof

def exec (i : Instr) (s : State) : Host.Outcome State Fault Refusal :=
  match i with
  | .alu f => Sys2Proof.Machine.execAlu f s
  | .mul f => Sys2Proof.Machine.execMul f s
  | .div f => Sys2Proof.Machine.execDiv f s
  | .addi f => Sys2Proof.Machine.execAddi f s
  | .andi f => Sys2Proof.Machine.execAndi f s
  | .ori f => Sys2Proof.Machine.execOri f s
  | .xori f => Sys2Proof.Machine.execXori f s
  | .shi f => Sys2Proof.Machine.execShi f s
  | .lit32 f lit => Sys2Proof.Machine.execLit32 f lit s
  | .lit64 f lit => Sys2Proof.Machine.execLit64 f lit s
  | .lea f => Sys2Proof.Machine.execLea f s
  | .bitc f => Sys2Proof.Machine.execBitc f s
  | .cmp f => Sys2Proof.Machine.execCmp f s
  | .cmpi f => Sys2Proof.Machine.execCmpi f s
  | .glog f => Sys2Proof.Machine.execGlog f s
  | .sel f => Sys2Proof.Machine.execSel f s
  | .falu f => Sys2Proof.Machine.execFalu f s
  | .fma f => Sys2Proof.Machine.execFma f s
  | .fsqrt f => Sys2Proof.Machine.execFsqrt f s
  | .fcmp f => Sys2Proof.Machine.execFcmp f s
  | .fcvt f => Sys2Proof.Machine.execFcvt f s
  | .br f => Sys2Proof.Machine.execBr f s
  | .cbr f => Sys2Proof.Machine.execCbr f s
  | .jal f => Sys2Proof.Machine.execJal f s
  | .jalr f => Sys2Proof.Machine.execJalr f s
  | .rep f => Sys2Proof.Machine.execRep f s
  | .nop f => Sys2Proof.Machine.execNop f s
  | .ld f => Sys2Proof.Machine.execLd f s
  | .st f => Sys2Proof.Machine.execSt f s
  | .amo f => Sys2Proof.Machine.execAmo f s
  | .cas f => Sys2Proof.Machine.execCas f s
  | .fence f => Sys2Proof.Machine.execFence f s
  | .pfetch f => Sys2Proof.Machine.execPfetch f s
  | .stkfence f => Sys2Proof.Machine.execStkfence f s
  | .clnr f => Sys2Proof.Machine.execClnr f s
  | .invr f => Sys2Proof.Machine.execInvr f s
  | .cflr f => Sys2Proof.Machine.execCflr f s
  | .waita f => Sys2Proof.Machine.execWaita f s
  | .gsync f => Sys2Proof.Machine.execGsync f s
  | .fork f => Sys2Proof.Machine.execFork f s
  | .join f => Sys2Proof.Machine.execJoin f s
  | .joinl f => Sys2Proof.Machine.execJoinl f s
  | .yield f => Sys2Proof.Machine.execYield f s
  | .halt f => Sys2Proof.Machine.execHalt f s
  | .launch f => Sys2Proof.Machine.execLaunch f s
  | .wmpub f => Sys2Proof.Machine.execWmpub f s
  | .wmwait f => Sys2Proof.Machine.execWmwait f s
  | .srd f => Sys2Proof.Machine.execSrd f s
  | .swr f => Sys2Proof.Machine.execSwr f s
  | .trap f => Sys2Proof.Machine.execTrap f s
  | .tret f => Sys2Proof.Machine.execTret f s
  | .hcall f => Sys2Proof.Machine.execHcall f s
  | .kdnew f => Sys2Proof.Machine.execKdnew f s
  | .kdnewRecycle f => Sys2Proof.Machine.execKdnewRecycle f s
  | .kdend f => Sys2Proof.Machine.execKdend f s
  | .pgref f => Sys2Proof.Machine.execPgref f s
  | .pgrefNew f => Sys2Proof.Machine.execPgrefNew f s
  | .pgrefSeal f => Sys2Proof.Machine.execPgrefSeal f s
  | .pgunref f => Sys2Proof.Machine.execPgunref f s
  | .tlbinvPage f => Sys2Proof.Machine.execTlbinvPage f s
  | .tlbinvAsid f => Sys2Proof.Machine.execTlbinvAsid f s
  | .tlbinvAll f => Sys2Proof.Machine.execTlbinvAll f s
  | .preempt f => Sys2Proof.Machine.execPreempt f s
  | .fqdone f => Sys2Proof.Machine.execFqdone f s
  | .hset f => Sys2Proof.Machine.execHset f s
  | .hget f => Sys2Proof.Machine.execHget f s
  | .migr f => Sys2Proof.Machine.execMigr f s
  | .ptset f => Sys2Proof.Machine.execPtset f s
  | .convoyHeader f => Sys2Proof.Machine.execConvoyHeader f s
  | .setvl f => Sys2Proof.Machine.execSetvl f s
  | .setvlw f => Sys2Proof.Machine.execSetvlw f s
  | .vcfg f => Sys2Proof.Machine.execVcfg f s
  | .vint f => Sys2Proof.Machine.execVint f s
  | .vmul f => Sys2Proof.Machine.execVmul f s
  | .vsat f => Sys2Proof.Machine.execVsat f s
  | .vmulw f => Sys2Proof.Machine.execVmulw f s
  | .vaddw f => Sys2Proof.Machine.execVaddw f s
  | .vnarrow f => Sys2Proof.Machine.execVnarrow f s
  | .vabsd f => Sys2Proof.Machine.execVabsd f s
  | .vbitc f => Sys2Proof.Machine.execVbitc f s
  | .vfalu f => Sys2Proof.Machine.execVfalu f s
  | .vfma f => Sys2Proof.Machine.execVfma f s
  | .vfdiv f => Sys2Proof.Machine.execVfdiv f s
  | .vfsqrt f => Sys2Proof.Machine.execVfsqrt f s
  | .vfexp2 f => Sys2Proof.Machine.execVfexp2 f s
  | .vfclass f => Sys2Proof.Machine.execVfclass f s
  | .vcmp f => Sys2Proof.Machine.execVcmp f s
  | .vmlog f => Sys2Proof.Machine.execVmlog f s
  | .vmpop f => Sys2Proof.Machine.execVmpop f s
  | .vsel f => Sys2Proof.Machine.execVsel f s
  | .vcvt f => Sys2Proof.Machine.execVcvt f s
  | .vquant f => Sys2Proof.Machine.execVquant f s
  | .vblkhdr f => Sys2Proof.Machine.execVblkhdr f s
  | .vperm f => Sys2Proof.Machine.execVperm f s
  | .vpermb f => Sys2Proof.Machine.execVpermb f s
  | .vslide f => Sys2Proof.Machine.execVslide f s
  | .vcompress f => Sys2Proof.Machine.execVcompress f s
  | .vexpand f => Sys2Proof.Machine.execVexpand f s
  | .vsplat f => Sys2Proof.Machine.execVsplat f s
  | .vmvx f => Sys2Proof.Machine.execVmvx f s
  | .vmvv f => Sys2Proof.Machine.execVmvv f s
  | .viota f => Sys2Proof.Machine.execViota f s
  | .vred f => Sys2Proof.Machine.execVred f s
  | .vredo f => Sys2Proof.Machine.execVredo f s
  | .vscan f => Sys2Proof.Machine.execVscan f s
  | .vrecur f => Sys2Proof.Machine.execVrecur f s
  | .vtopk f => Sys2Proof.Machine.execVtopk f s
  | .vld f => Sys2Proof.Machine.execVld f s
  | .vldff f => Sys2Proof.Machine.execVldff f s
  | .vldx f => Sys2Proof.Machine.execVldx f s
  | .vst f => Sys2Proof.Machine.execVst f s
  | .vstx f => Sys2Proof.Machine.execVstx f s
  | .vstxa f => Sys2Proof.Machine.execVstxa f s
  | .vldh f => Sys2Proof.Machine.execVldh f s
  | .vsth f => Sys2Proof.Machine.execVsth f s
  | .vls f => Sys2Proof.Machine.execVls f s
  | .vmma f => Sys2Proof.Machine.execVmma f s
  | .vmmax f => Sys2Proof.Machine.execVmmax f s
  | .vmmaq f => Sys2Proof.Machine.execVmmaq f s
  | .tld f => Sys2Proof.Machine.execTld f s
  | .tst f => Sys2Proof.Machine.execTst f s
  | .tmov f => Sys2Proof.Machine.execTmov f s
  | .tzero f => Sys2Proof.Machine.execTzero f s
  | .tflags f => Sys2Proof.Machine.execTflags f s
  | .vsoft f => Sys2Proof.Machine.execVsoft f s
  | .vsmerge f => Sys2Proof.Machine.execVsmerge f s
  | .yxfer f => Sys2Proof.Machine.execYxfer f s
  | .vcoll f => Sys2Proof.Machine.execVcoll f s
  | .fbind f => Sys2Proof.Machine.execFbind f s
  | .frel f => Sys2Proof.Machine.execFrel f s
  | .fdone f => Sys2Proof.Machine.execFdone f s
  | .yired f => Sys2Proof.Machine.execYired f s
  | .ybop f => Sys2Proof.Machine.execYbop f s
  | .ysync f => Sys2Proof.Machine.execYsync f s
  | .flstream f => Sys2Proof.Machine.execFlstream f s
  | .flpaged f => Sys2Proof.Machine.execFlpaged f s
  | .flcopy f => Sys2Proof.Machine.execFlcopy f s
  | .flwait f => Sys2Proof.Machine.execFlwait f s
  | .flstop f => Sys2Proof.Machine.execFlstop f s
  | .clset f => Sys2Proof.Machine.execClset f s
  | .clsplit f => Sys2Proof.Machine.execClsplit f s
  | .clrun f => Sys2Proof.Machine.execClrun f s
  | .clnext f => Sys2Proof.Machine.execClnext f s
  | .clsave f => Sys2Proof.Machine.execClsave f s
  | .clrest f => Sys2Proof.Machine.execClrest f s
  | .impose f => Sys2Proof.Machine.execImpose f s
  | .impwait f => Sys2Proof.Machine.execImpwait f s
  | .collwait f => Sys2Proof.Machine.execCollwait f s
  | .tkclr f => Sys2Proof.Machine.execTkclr f s
  | .vectorIssue hart => Sys2Proof.Machine.execVectorIssue hart s
  | .heldEntryWrite ring => Sys2Proof.Machine.execHeldEntryWrite ring s
  | .parkedHartRestart hart => Sys2Proof.Machine.execParkedHartRestart hart s
  | .fqhead value => Sys2Proof.Machine.execFqhead value s
  | .specialRegisterWrite num value => Sys2Proof.Machine.execSpecialRegisterWrite num value s
  | .launchRecordCheck q => Sys2Proof.Machine.execLaunchRecordCheck q s
  | .watermarkRecheck q => Sys2Proof.Machine.execWatermarkRecheck q s
  | .gangPlacement cluster core gangId => Sys2Proof.Machine.execGangPlacement cluster core gangId s
  | .priorityAging cluster => Sys2Proof.Machine.execPriorityAging cluster s
  | .grantNarrowing gang gshift => Sys2Proof.Machine.execGrantNarrowing gang gshift s
  | .preemptionRequest core spill => Sys2Proof.Machine.execPreemptionRequest core spill s
  | .preemptionHalt core => Sys2Proof.Machine.execPreemptionHalt core s
  | .contextSave core => Sys2Proof.Machine.execContextSave core s
  | .leaseGrant landing fctx => Sys2Proof.Machine.execLeaseGrant landing fctx s
  | .waitaWake hart => Sys2Proof.Machine.execWaitaWake hart s
  | .waitaTimeout hart => Sys2Proof.Machine.execWaitaTimeout hart s
  | .yieldExpiry hart => Sys2Proof.Machine.execYieldExpiry hart s
  | .watermarkPass hart => Sys2Proof.Machine.execWatermarkPass hart s
  | .farExecute hart => Sys2Proof.Machine.execFarExecute hart s
  | .bankAction cmd => Sys2Proof.Machine.execBankAction cmd s
  | .flumeFetch core sid => Sys2Proof.Machine.execFlumeFetch core sid s
  | .flumeCopyElement core sid => Sys2Proof.Machine.execFlumeCopyElement core sid s
  | .tileConversion impid => Sys2Proof.Machine.execTileConversion impid s
  | .collectivePhase hart => Sys2Proof.Machine.execCollectivePhase hart s
  | .copyOnWrite hart va => Sys2Proof.Machine.execCopyOnWrite hart va s
  | .linkCrcReplay link dir flits => Sys2Proof.Machine.execLinkCrcReplay link dir flits s
  | .linkRetrain link outcome => Sys2Proof.Machine.execLinkRetrain link outcome s
  | .ualinkRequest pkg req => Sys2Proof.Machine.execUalinkRequest pkg req s
  | .remotePackageReset pkg => Sys2Proof.Machine.execRemotePackageReset pkg s
  | .deviceReset image => Sys2Proof.Machine.execDeviceReset image s
  | .attestationRequest nonce certs => Sys2Proof.Machine.execAttestationRequest nonce certs s
  | .securityVersionRaise image => Sys2Proof.Machine.execSecurityVersionRaise image s
  | .doorbell q value => Sys2Proof.Machine.execDoorbell q value s
  | .qring q value => Sys2Proof.Machine.execQring q value s
  | .pcap value => Sys2Proof.Machine.execPcap value s
  | .hostRegisterWrite offset value => Sys2Proof.Machine.execHostRegisterWrite offset value s
  | .apertureAccess a off n data => Sys2Proof.Machine.execApertureAccess a off n data s
  | .rawApertureAccess a off n data => Sys2Proof.Machine.execRawApertureAccess a off n data s
  | .endTask taskid => Sys2Proof.Machine.execEndTask taskid s
  | .hostPreempt value => Sys2Proof.Machine.execHostPreempt value s
  | .notify value => Sys2Proof.Machine.execNotify value s
  | .invpage asid va pod => Sys2Proof.Machine.execInvpage asid va pod s
  | .fqcomp fqbase seq code value => Sys2Proof.Machine.execFqcomp fqbase seq code value s
  | .illegalInstruction parcels => Sys2Proof.Machine.execIllegalInstruction parcels s
  | .fetchFault => Sys2Proof.Machine.execFetchFault s
  | .maintenanceEffect hart => Sys2Proof.Machine.execMaintenanceEffect hart s
  | .podTableUpdate pkg enter => Sys2Proof.Machine.execPodTableUpdate pkg enter s

end Sys2Proof.Machine
end

