-- ==== Sys2Proof/Machine/Step.lean ====
section
/-! DEFINITION. One step: a stopped package, an event of an array, an input or engine move of the agenda, a move of the device's
units on odd clocks, or the instruction of the hart whose turn it is (log 2, log 9, log 11). -/

namespace Sys2Proof.Machine

open Sys2Proof

/-- A next state passed through a function; a fault or refusal stays. -/
def mapNext (f : State → State) : Host.Outcome State Fault Refusal → Host.Outcome State Fault Refusal
  | .next s => .next (f s)
  | .fault r => .fault r
  | .refused r => .refused r

/-- The clock moves by one (log 9); what stopped harts have left to the device goes on (R399), and host commands that had to
wait are tried again (R436). -/
def State.tick (s : State) : State := { s.settleWork.settleCommands with clock := s.clock + 1 }

/-- The next hart's turn, one clock later. -/
def State.turn (s : State) : State := s.tick.rotate

/-- The instruction of the hart whose turn it is. -/
def hartStep (s : State) : Host.Outcome State Fault Refusal :=
  if s.runs s.cur then
    match fetchAt s with
    | (.instr i, s') => exec i s'
    | (.illegal p, s') => exec (.illegalInstruction p) s'
    | (.failed, s') => exec .fetchFault s'
    | (.waits, s') => .next s'
  else .next s

/-- The unit move of an odd clock, if one is possible. -/
def State.unitMove (s : State) : Option Instr :=
  if s.clock % 2 = 1 then
    match s.candidates with
    | [] => none
    | l => l[s.clock / 2 % l.length]?
  else none

/-- One step. -/
def step (s : State) : Host.Outcome State Fault Refusal :=
  if s.stopped then
    match s.agenda with
    | .deviceReset image :: rest => mapNext State.tick (exec (.deviceReset image) { s with agenda := rest })
    | _ => .fault .packageStopped
  else
    match s.crowded.toList ++ s.arrays with
    | e :: _ => mapNext State.tick (eventStep (arrayStep e) { s with arrays := if s.crowded.isSome then s.arrays else s.arrays.tail })
    | [] =>
      match s.agenda with
      | i :: rest => mapNext State.tick (exec i { s with agenda := rest })
      | [] =>
        match s.unitMove with
        | some i => mapNext State.tick (exec i s)
        | none => mapNext State.turn (hartStep s)

/-- The state with an instruction stored where the next step fetches it (log 1). -/
def State.withFetchWord (s : State) (nbits w : Nat) : State :=
  s.place (placedPc (w % 256)) (bytesOfNat (w % 2 ^ nbits) 12)

end Sys2Proof.Machine
end

