-- ==== Sys2Proof/Safety.lean ====
section
/-! DEFINITION. What a safe state is, and the words the claims are stated in: the results the spec's tables give, and what
an instruction leaves when it completes. -/

namespace Sys2Proof.Machine

open Sys2Proof

/-- The backing memory and the scratchpads are in canonical form. -/
abbrev State.inv (s : State) : Prop := Memory.wf s.mem = true ∧ Memory.wf s.scratch = true

/-- The state after a scalar instruction of `len` bytes that leaves the registers of its hart as h: the scalar side moves
on, and nothing else changes. -/
def State.after (s : State) (h : Hart) (len : Nat) : State := s.putHart s.cur (h.advance len)

/-- The state after a taken transfer (R131, R135). -/
def State.went (s : State) (h : Hart) (target : Word) : State := s.putHart s.cur (h.jump target)

/-- A trap of the hart is taken by its handler: it has one, it is not inside it, and no vector instruction is before
(R109, R405). -/
abbrev Hart.catches (h : Hart) : Prop := h.tvec.getLsbD 0 = true ∧ h.tstat.inh = false ∧ h.viq = []

/-- The state after a scalar trap is taken (R405). -/
def State.trapped (s : State) (code detail : Nat) (value : Word) : State :=
  s.putHart s.cur (s.me.enterTrap .scalar code detail value)

/-- TSTAT.NARROW set by an access to a scratchpad address at a scope above CLUSTER (R228). -/
def Hart.narrowIf (h : Hart) (c : Bool) : Hart := if c then { h with tstat := { h.tstat with narrow := true } } else h

/-- Whether an access at an address and scope is one that sets NARROW (R228). -/
def narrows (a : Int) (scope : Nat) : Bool := decide (3 ≤ scope) && decide (0 ≤ a) && inWindow a.toNat

/-- n bytes at an address lie in the scratchpad window, in the bounds of the gang of the hart whose turn it is, and in one
64 KiB page (R39, R40). -/
abbrev State.ownScratch (s : State) (a n : Nat) : Prop :=
  windowBase ≤ a ∧ (s.gangOf s.me).splo.toNat ≤ a ∧ a + n ≤ (s.gangOf s.me).sphi.toNat ∧ a + n ≤ windowBase + 0x6000000 ∧
  0 < n ∧ a / 65536 = (a + n - 1) / 65536

/-- The place of a scratchpad address for the hart whose turn it is. -/
def State.scratchAt (s : State) (a : Nat) : Nat := scratchKey (clusterOf s.cur) a

/-- n scratchpad bytes from a place are plain: none in a poisoned word (R424), none in a strip buffer being filled or in the
buffer of a collective (R307, R252), and no hart asleep on their lines (R362). -/
def State.plainScratch (s : State) (key n : Nat) : Prop :=
  s.badScratchIn key n = none ∧ (∀ i < n, s.vague s.me.colls (2 ^ 64 + key + i) = false) ∧
  ∀ k h line t, (k, h) ∈ s.harts → h.run = .asleep line t → line < (2 ^ 67 + key) / 128 ∨ (2 ^ 67 + key + n - 1) / 128 < line

/-- The state after the low n bytes of v are stored at a scratchpad place. -/
def State.storeScratch (s : State) (key n v : Nat) : State :=
  { s with scratch := s.scratch.writeN key v n, badScratch := s.badScratch.filter fun w => !(key ≤ w * 8 && w * 8 + 8 ≤ key + n) }

/-- Where a vector instruction executes: the hart's v registers, or with P = 1 the y registers of its slot's far context
(R18, R29). -/
structure VSide where
  far   : Option Nat
  bytes : Nat
  nregs : Nat
  regs  : Tab Nat

def State.side (s : State) (f : VForm) : VSide :=
  let k := (s.me.slot f.slot.toNat).key
  if f.p = 1 then { far := some k, bytes := yBytes, nregs := 8, regs := (s.farCtx k).y }
  else { far := none, bytes := s.me.regBytes, nregs := s.me.nregs, regs := s.me.v }

/-- A register as a number, and the registers r to r + g − 1 as one. -/
def VSide.reg (d : VSide) (r : Nat) : Nat := Tab.get 0 d.regs r % 2 ^ (8 * d.bytes)
def VSide.group (d : VSide) (r g : Nat) : Nat := groupVal d.regs d.bytes r g

/-- The registers where an instruction executes replaced, and a group of them written. -/
def State.putRegs (s : State) (f : VForm) (l : Tab Nat) : State :=
  match (s.side f).far with
  | none => s.putHart s.cur { s.me with v := l }
  | some k => s.putFar k { s.farCtx k with y := l }
def State.putGroup (s : State) (f : VForm) (r g v : Nat) : State := s.putRegs f (setGroup (s.side f).regs (s.side f).bytes r v g)

/-- A table that reads as the registers with a group written. -/
def VSide.reads (d : VSide) (r g v : Nat) (l : Tab Nat) : Prop := ∀ k, Tab.get 0 l k = Tab.get 0 (setGroup d.regs d.bytes r v g) k

/-- The hart whose turn it is is at no member of a convoy, and its queue issues what it enters: no other hart of its core has
one queued (R352), and the plan does not delay it (log 2). -/
abbrev State.alone (s : State) : Prop :=
  s.me.members = [] ∧ s.late s.cur = false ∧ ∀ p ∈ s.harts, p.1 ≠ s.cur → coreOf p.1 = coreOf s.cur → p.2.viq = []

/-- A vector instruction of form f can enter, issue and complete at once: nothing is queued or held before it, VL is known,
it has no token bits, its mode is legal (R99), and no word of its registers is poisoned; a far one has a bound slot (R29), a
route to it, and no bank-level command at work on its context (R321). -/
abbrev State.calm (s : State) (f : VForm) : Prop :=
  let h := s.me
  let k := (h.slot f.slot.toNat).key
  s.alone ∧ h.viq = [] ∧ (h.tstat.inh = true → h.noRoom = false) ∧ h.held.length < 64 ∧ h.vlPending = false ∧ f.tpop = 0 ∧ f.tpsh = 0 ∧ (f.rm = 6 → h.dyn.toNat < 6) ∧
  (f.p = 0 → h.badv = []) ∧
  (f.p = 1 → (h.slot f.slot.toNat).bound = true ∧ (h.slot f.slot.toNat).lost = false ∧
    (h.slot f.slot.toNat).pkg.toNat ∉ s.port.lostPkgs ∧ (f.rm = 6 → h.dyn ≠ 5) ∧ (∀ b ∈ s.banks, b.ctx ≠ k) ∧
    (s.farCtx k).bady = [] ∧ (s.farCtx k).marks = [])

/-- The state with the vector instruction of the hart whose turn it is in its queue, the scalar side past it, and VL to come
from an instruction that sets it (R107, R218). -/
def State.entered (s : State) (i : Instr) (f : VForm) : State := s.putHart s.cur (s.me.enqueue i (s.me.capture i f))

/-- A hart whose oldest queue entry has completed: VSTART is 0 (R144), and a pass of a repeat that waited for the count it
wrote ends (R134). -/
def Hart.leave (h : Hart) : Hart :=
  let t := { h with viq := h.viq.tail, vstart := 0 }
  if h.rep.active && (h.viq.head?.map (·.ends)).getD false then t.closePass t.pc else t

/-- The state after an issue to the unit class of an instruction: its round-robin pointer is past the hart (R352). -/
def State.passed (s : State) (i : Instr) (f : VForm) : State :=
  { s with issuePtr := Tab.put 0 s.issuePtr (s.cur / 8 * 8 + (f.unit (vOpcode i)).code) ((s.cur % 8 + 1) % 8) }

/-- The state as the oldest queue entry of the hart whose turn it is leaves it. -/
def State.leave (s : State) (i : Instr) (f : VForm) : State := (s.putHart s.cur s.me.leave).passed i f

/-- The state after a vector instruction that changes its hart by g: it has left the queue (R107, R144), with the VL of its
own where it sets it (R218). -/
def State.vecDone (s : State) (i : Instr) (f : VForm) (g : Hart → Hart) : State :=
  let h := (s.entered i f).me
  State.leave (s.putHart s.cur { g h with vlPending := false }) i f

/-- The state after a trap of the vector instruction just entered, its hart otherwise as g leaves it (R404, R405). -/
def State.vecTrapped (s : State) (i : Instr) (f : VForm) (g : Hart → Hart) (code detail : Nat) (v : Word) : State :=
  (s.entered i f).putHart s.cur ((g (s.entered i f).me).enterTrap (.vector s.me.pc (f.p = 1)) code detail v)

/-- The rounding mode of a form, DYN for mode 6 (R99). -/
def Hart.mode (h : Hart) (f : VForm) : Nat := if f.rm.toNat = 6 then h.dyn.toNat else f.rm.toNat

/-- The second operand of element i (R142): the low bits of the scalar, or the element of VS2. -/
def State.operand2 (s : State) (f : VForm) (w i : Nat) : Nat :=
  if f.xs = 1 then (s.me.getX (f.vs3.toNat % 32)).toNat % 2 ^ w else elemAt ((s.side f).reg f.vs2.toNat) i w

/-- The longest vector of a format that an instruction accepts (R17, R140), far also within the far length (R28, R29). -/
def State.longest (s : State) (f : VForm) (fmt : Nat) : Nat :=
  if f.p = 1 then min (s.me.vlmax fmt) (farLen (fmtWidth fmt)) else s.me.vlmax fmt

/-- VL is within a format's, and single registers exist (R17, R140). -/
abbrev State.vlOk (s : State) (f : VForm) (fmt : Nat) (regs : List Nat) : Prop :=
  s.me.vl.toNat ≤ s.longest f fmt ∧ ∀ r ∈ regs, r < (s.side f).nregs

/-- A group of g registers from r exists (R19, R141). -/
abbrev VSide.groupOk (d : VSide) (r g : Nat) : Prop := g ≤ 8 ∧ r % g = 0 ∧ r + g ≤ d.nregs

/-- The registers of a two-operand form. -/
def twoRegs (f : VForm) : List Nat := if f.xs = 1 then [f.vd.toNat, f.vs1.toNat] else [f.vd.toNat, f.vs1.toNat, f.vs2.toNat]

/-- The elements from VSTART to VL − 1, and those of them that the governing mask makes active (R139). -/
def Hart.fromStart (h : Hart) : List Nat := (List.range (h.vl.toNat - h.vstart.toNat)).map (· + h.vstart.toNat)
def Hart.actives (h : Hart) (f : VForm) : List Nat := h.fromStart.filter (bitAt (h.governing f.vm.toNat h.vl.toNat))

/-- The context a calm vector instruction issues in (R107, R139). -/
def State.calmCtx (s : State) (i : Instr) (f : VForm) : VCtx :=
  { e := s.me.capture i f, f := f, vl := s.me.vl.toNat, start := s.me.vstart.toNat, mask := s.me.governing f.vm.toNat s.me.vl.toNat,
    rm := s.me.mode f, bytes := (s.side f).bytes, nregs := (s.side f).nregs, far := (s.side f).far }

/-- Elements processed in order, from the hart's flags and SRSEED, into a register group (R106, R139). -/
def State.inOrder (s : State) (f : VForm) (els : List Nat) (rd gd wd : Nat) (op : Nat → Nat → Fm Nat) : LoopState :=
  runElems wd op els { dst := (s.side f).group rd gd, fs := s.me.fstate, done := [], stop := none }

/-- How a run of elements ends: complete, with the group, the flags and SRSEED it left; or, at an enabled condition, with the
elements before it kept, in the handler with VSTART at the element (R106, R144). -/
def State.endsAs (s : State) (i : Instr) (f : VForm) (rd gd : Nat) (l : LoopState) (o : Host.Outcome State Fault Refusal) : Prop :=
  (l.stop = none → o = .next ((s.vecDone i f (·.withF l.fs)).putGroup f rd gd l.dst)) ∧
  (∀ j d, l.stop = some (j, d) → s.me.catches → o = .next ((s.vecTrapped i f
    (fun h => { h.withF l.fs with vstart := BitVec.ofNat 16 j }) 0x03 d 0).putGroup f rd gd l.dst))

/-- The accesses of a calm instruction's queue entry: its hart's, at its own place among the hart's work (R249). -/
def State.entryCtx (s : State) (i : Instr) (f : VForm) : Ctx := { (s.entered i f).ctx s.cur with pos := s.me.entered }

/-- The address of element i of n bytes of VLD and VST (R283): packed from x(VS1), or strided by x(VS3). -/
def State.linearAddr (s : State) (f : VForm) (n i : Nat) : Int :=
  (s.me.getX (f.vs1.toNat % 32)).toNat + if f.xs = 1 then i * (s.me.getX (f.vs3.toNat % 32)).toInt else (i * n : Nat)

/-- The index width of an indexed form, and the registers of its index operand (R282, R290). -/
def indexWidth (f : VForm) : Nat := match f.fn.toNat / 4 with | 0 => 32 | 1 => 64 | _ => 16
def State.indexRegs (s : State) (f : VForm) : Nat :=
  if f.p = 1 then 1 else groupSize (vlmaxOf f.fmt.toNat (s.side f).bytes) (indexWidth f) (s.side f).bytes

/-- The address of element i of an indexed form (R283): x(VS1) plus the index, signed or not, times 1 or the element's bytes. -/
def State.indexAddr (s : State) (f : VForm) (n i : Nat) : Int :=
  let w := indexWidth f
  let ix := elemAt ((s.side f).group f.vs2.toNat (s.indexRegs f)) i w
  (s.me.getX (f.vs1.toNat % 32)).toNat +
    (if f.fn.getLsbD 0 then (ix : Int) else (BitVec.ofNat w ix).toInt) * (if f.vs3.getLsbD 0 then n else 1 : Nat)

/-- The index operand of an indexed form exists, and VL is within it (R290). -/
abbrev State.indexOk (s : State) (f : VForm) : Prop :=
  (s.side f).groupOk f.vs2.toNat (s.indexRegs f) ∧ (f.p = 1 → s.me.vl.toNat ≤ farLen (indexWidth f))

/-- The n bytes at the address of every element of a list are the hart's own plain scratchpad, aligned. -/
def State.scratchEls (s : State) (els : List Nat) (addr : Nat → Int) (n : Nat) : Prop :=
  ∀ i ∈ els, 0 ≤ addr i ∧ s.ownScratch (addr i).toNat n ∧ (addr i).toNat % n = 0 ∧ s.plainScratch (s.scratchAt (addr i).toNat) n

/-- FLAGS.SAT set when an integer clamp changed its result (R111). -/
def Hart.satIf (h : Hart) (c : Bool) : Hart := if c then { h with flags := h.flags ||| 0x20 } else h

end Sys2Proof.Machine

namespace Sys2Proof.Spec

open Sys2Proof.Machine

/-! ### Scalar integer results (R111 to R113) -/

variable {w : Nat}

/-- An exact result clamped to a range: its bits, and whether the clamp changed it. -/
def clamp (lo hi r : Int) : BitVec w × Bool := (BitVec.ofInt w (max lo (min hi r)), decide (r < lo ∨ hi < r))

/-- The ALU column of R111 on w-bit operands. -/
def alu (fn : Nat) (a b : BitVec w) : BitVec w × Bool :=
  match fn with
  | 0 => (a + b, false)
  | 1 => (a - b, false)
  | 2 => (a &&& b, false)
  | 3 => (a ||| b, false)
  | 4 => (a ^^^ b, false)
  | 5 => (a <<< (b.toNat % w), false)
  | 6 => (a >>> (b.toNat % w), false)
  | 7 => (a.sshiftRight (b.toNat % w), false)
  | 8 => (if a.toInt ≤ b.toInt then a else b, false)
  | 9 => (if a.toInt ≤ b.toInt then b else a, false)
  | 10 => (if a.toNat ≤ b.toNat then a else b, false)
  | 11 => (if a.toNat ≤ b.toNat then b else a, false)
  | 12 => clamp (-2 ^ (w - 1)) (2 ^ (w - 1) - 1) (a.toInt + b.toInt)
  | 13 => clamp (-2 ^ (w - 1)) (2 ^ (w - 1) - 1) (a.toInt - b.toInt)
  | 14 => clamp 0 (2 ^ w - 1) (a.toNat + b.toNat)
  | _ => clamp 0 (2 ^ w - 1) (a.toNat - b.toNat)

/-- The MUL column of R111: the low half, or the high half of the exact product. -/
def mul (fn : Nat) (a b : BitVec w) : BitVec w :=
  match fn with
  | 0 => a * b
  | 1 => BitVec.ofInt w (a.toInt * b.toInt / 2 ^ w)
  | 2 => BitVec.ofNat w (a.toNat * b.toNat / 2 ^ w)
  | _ => BitVec.ofInt w (a.toInt * b.toNat / 2 ^ w)

/-- Quotient and remainder of R113, signed and unsigned. -/
def sdivrem (a b : BitVec w) : BitVec w × BitVec w :=
  if b = 0 then (-1, a)
  else if a.toInt = -2 ^ (w - 1) ∧ b.toInt = -1 then (a, 0)
  else (BitVec.ofInt w (a.toInt.tdiv b.toInt), BitVec.ofInt w (a.toInt.tmod b.toInt))
def udivrem (a b : BitVec w) : BitVec w × BitVec w :=
  if b = 0 then (-1, a) else (BitVec.ofNat w (a.toNat / b.toNat), BitVec.ofNat w (a.toNat % b.toNat))

/-- The DIV column of R111 (R113). -/
def div (fn : Nat) (a b : BitVec w) : BitVec w :=
  match fn with
  | 0 => (sdivrem a b).1
  | 1 => (udivrem a b).1
  | 2 => (sdivrem a b).2
  | _ => (udivrem a b).2

/-- The BITC column of R111, each result said by what it counts. -/
def bitc (fn : Nat) (a r : BitVec w) : Prop :=
  match fn with
  | 0 => ∃ n ≤ w, r = BitVec.ofNat w n ∧ (∀ i < n, a.getLsbD (w - 1 - i) = false) ∧ (n < w → a.getLsbD (w - 1 - n) = true)
  | 1 => ∃ n ≤ w, r = BitVec.ofNat w n ∧ (∀ i < n, a.getLsbD i = false) ∧ (n < w → a.getLsbD n = true)
  | 2 => r = BitVec.ofNat w ((List.range w).countP fun i => a.getLsbD i)
  | _ => ∀ i < w, r.getLsbD i = a.getLsbD (w - 1 - i)

/-- CMP's conditions on w-bit operands (R119). -/
def cmp (fn : Nat) (a b : BitVec w) : Bool :=
  match fn with
  | 0 => a = b
  | 1 => a ≠ b
  | 2 => a.slt b
  | 3 => !a.slt b
  | 4 => a.ult b
  | 5 => !a.ult b
  | 6 => a &&& b = 0
  | _ => a &&& b ≠ 0

/-- A loaded number of 2^(W mod 4) bytes as LD writes it (R272): sign-extended for W 0 to 3, zero-extended for 4 to 6. -/
def loaded (w : BitVec 3) (v : Nat) : Word :=
  match w.toNat with
  | 0 => (BitVec.ofNat 8 v).signExtend 64
  | 1 => (BitVec.ofNat 16 v).signExtend 64
  | 2 => (BitVec.ofNat 32 v).signExtend 64
  | _ => BitVec.ofNat 64 v

/-- A register whose elements of a list have the values val and whose other elements are as before (R139). -/
def elements (v old w : Nat) (els : List Nat) (val : Nat → Nat) : Prop :=
  ∀ i, elemAt v i w = if i ∈ els then val i else elemAt old i w

/-- VINT's functions (R146). -/
def vint (fn : Nat) (a b : BitVec w) : BitVec w :=
  match fn with
  | 0 => a + b
  | 1 => a - b
  | 2 => b - a
  | 3 => a &&& b
  | 4 => a ||| b
  | 5 => a ^^^ b
  | 6 => a <<< (b.toNat % w)
  | 7 => a >>> (b.toNat % w)
  | 8 => a.sshiftRight (b.toNat % w)
  | 9 => if a.slt b then a else b
  | 10 => if a.slt b then b else a
  | 11 => if a.ult b then a else b
  | 12 => if a.ult b then b else a
  | 13 => BitVec.ofInt w ((a.toInt + b.toInt) / 2)
  | _ => BitVec.ofNat w ((a.toNat + b.toNat) / 2)

/-- VMUL's functions with the old element (R147). -/
def vmul (fn : Nat) (a b old : BitVec w) : BitVec w :=
  match fn with
  | 4 => old + a * b
  | 5 => old - a * b
  | n => mul n a b

/-- VABSD's functions (R151). -/
def vabsd (fn : Nat) (a b old : BitVec w) : BitVec w :=
  let ds := BitVec.ofNat w (a.toInt - b.toInt).natAbs
  let du := if a.ult b then b - a else a - b
  match fn with
  | 0 => ds
  | 1 => du
  | 2 => old + ds
  | 3 => old + du
  | _ => if a.slt 0 then -a else a

/-- VBITC's functions (R151): those of BITC, and the bytes reversed. -/
def vbitc (fn : Nat) (a r : BitVec w) : Prop :=
  if fn = 4 then ∀ k < w / 8, r.extractLsb' (8 * k) 8 = a.extractLsb' (w - 8 - 8 * k) 8 else bitc fn a r

/-- VSAT's functions that round nothing (R148): the clamped result, and whether the clamp changed it. -/
def vsat (fn : Nat) (a b : BitVec w) : BitVec w × Bool :=
  let lo : Int := -2 ^ (w - 1)
  let hi : Int := 2 ^ (w - 1) - 1
  let top : Int := 2 ^ w - 1
  match fn with
  | 0 => clamp lo hi (a.toInt + b.toInt)
  | 1 => clamp lo hi (a.toInt - b.toInt)
  | 2 => clamp 0 top (a.toNat + b.toNat)
  | 3 => clamp 0 top (a.toNat - b.toNat)
  | 4 => clamp lo hi (a.toInt * 2 ^ (b.toNat % w))
  | _ => clamp 0 top (a.toNat * 2 ^ (b.toNat % w))

/-- VMULW's functions (R149). -/
def vmulw (fn : Nat) (a b : BitVec w) (old : BitVec (2 * w)) : BitVec (2 * w) :=
  let p := match fn % 3 with
    | 0 => a.signExtend (2 * w) * b.signExtend (2 * w)
    | 1 => a.setWidth (2 * w) * b.setWidth (2 * w)
    | _ => a.signExtend (2 * w) * b.setWidth (2 * w)
  if fn < 3 then p else old + p

/-- VADDW's functions (R149): FN 4 and 5 take a wide first operand. -/
def vaddw (fn : Nat) (a b : BitVec w) (wide : BitVec (2 * w)) : BitVec (2 * w) :=
  match fn with
  | 0 => a.signExtend (2 * w) + b.signExtend (2 * w)
  | 1 => a.setWidth (2 * w) + b.setWidth (2 * w)
  | 2 => a.signExtend (2 * w) - b.signExtend (2 * w)
  | 3 => a.setWidth (2 * w) - b.setWidth (2 * w)
  | 4 => wide + b.signExtend (2 * w)
  | _ => wide + b.setWidth (2 * w)

/-- VNARROW's functions that round nothing (R150). -/
def vnarrow (fn : Nat) (a : BitVec (2 * w)) : BitVec w × Bool :=
  match fn with
  | 0 => (a.setWidth w, false)
  | 1 => clamp (-2 ^ (w - 1)) (2 ^ (w - 1) - 1) a.toInt
  | 2 => clamp 0 (2 ^ w - 1) a.toNat
  | _ => clamp 0 (2 ^ w - 1) a.toInt

/-- Bit i of VMLOG's result from bits 0 to vl − 1 of two masks (R155). -/
def vmlog (fn vl : Nat) (p q : Nat → Bool) (i : Nat) : Prop :=
  match fn with
  | 0 => p i ∧ q i
  | 1 => p i ∨ q i
  | 2 => p i ≠ q i
  | 3 => p i ∧ ¬q i
  | 4 => p i ∨ ¬q i
  | 5 => p i = q i
  | 6 => ¬(p i ∧ q i)
  | 7 => ¬(p i ∨ q i)
  | 8 => True
  | 9 => False
  | 10 => ∀ j ≤ i, p j = false
  | 11 => ∀ j < i, p j = false
  | 12 => p i ∧ ∀ j < i, p j = false
  | 13 => ∀ j < vl, i ≤ j → p j = false
  | _ => (∃ j ≤ i, p j = true) ∧ ∃ j < vl, i ≤ j ∧ p j = true

/-- The integer functions of VRED (R166). -/
def red (fn : Nat) (a b : BitVec w) : BitVec w :=
  match fn with
  | 0 => a + b
  | 1 => if a.slt b then b else a
  | 2 => if a.slt b then a else b
  | 3 => if a.ult b then b else a
  | 4 => if a.ult b then a else b
  | 5 => a &&& b
  | 6 => a ||| b
  | _ => a ^^^ b

/-- VCMP's integer conditions (R154). -/
def vcmp (fn : Nat) (a b : BitVec w) : Bool :=
  match fn with
  | 0 => a = b
  | 1 => a ≠ b
  | 2 => a.slt b
  | 3 => !b.slt a
  | 4 => b.slt a
  | 5 => !a.slt b
  | 6 => a.ult b
  | 7 => !b.ult a
  | 8 => b.ult a
  | _ => !a.ult b

/-- The steps of a run over one segment pair (R206, R207): positions and coordinates of A and of B, walked in order until the
pair ends for the mode; the items, with none for a missing side. -/
def pairItems (mode : Nat) : Nat → List (Nat × Nat) → List (Nat × Nat) → List (Option Nat × Option Nat × Nat)
  | n + 1, (i, a) :: l, (j, b) :: r =>
    if a < b then (if mode = 0 then [] else [(some i, none, a)]) ++ pairItems mode n l ((j, b) :: r)
    else if b < a then (if mode = 1 then [(none, some j, b)] else []) ++ pairItems mode n ((i, a) :: l) r
    else (if mode = 3 then [] else [(some i, some j, a)]) ++ pairItems mode n l r
  | n + 1, (i, a) :: l, [] => if mode = 0 then [] else (some i, none, a) :: pairItems mode n l []
  | n + 1, [], (j, b) :: r => if mode = 1 then (none, some j, b) :: pairItems mode n [] r else []
  | _, _, _ => []

/-- The target of a transfer is acceptable (R42, R50, R132): a multiple of 4, canonical, and outside the scratchpad's
4 GiB. -/
abbrev targetOk (t : Int) : Prop := t % 4 = 0 ∧ 0 ≤ t ∧ t < 2 ^ 64 ∧ canonical t.toNat = true ∧ inScratchRegion t.toNat = false

end Sys2Proof.Spec
end

