-- ==== Sys2Proof/Certificates/Slice0/Obligations.lean ====
section
/-! DEFINITION. The statements about the model. -/

open Sys2Proof Sys2Proof.Machine

/-! ### Scalar integer arithmetic -/

/-- R111 to R113: a guarded-on ALU, MUL, DIV or BITC writes the function of its operands to x(RD), the `.w` forms that of their
low 32 bits, sign-extended; a clamp that changes its result sets FLAGS.SAT; nothing else changes but the PC, and the queued
instructions that were to write x(RD) no longer do, by the model’s choice (R108; log 21). -/
def Obligations.IntegerResult : Prop :=
  (∀ (f : SForm) (s : State),
    s.me.guardOn f.g f.gn = true → s.me.ready f.regs = true →
    let a := s.me.getX f.rs1.toNat
    let b := s.me.getX f.rs2.toNat
    let r := Spec.alu f.fn.toNat a b
    let r32 := Spec.alu (f.fn.toNat - 16) (a.setWidth 32) (b.setWidth 32)
    (f.fn.toNat < 16 → exec (.alu f) s = .next (s.after ((s.me.satIf r.2).setXNow f.rd.toNat r.1) 4)) ∧
    (16 ≤ f.fn.toNat → exec (.alu f) s = .next (s.after ((s.me.satIf r32.2).setXNow f.rd.toNat (r32.1.signExtend 64)) 4))) ∧
  (∀ (f : SForm) (s : State),
    s.me.guardOn f.g f.gn = true → s.me.ready f.regs = true →
    let a := s.me.getX f.rs1.toNat
    let b := s.me.getX f.rs2.toNat
    let dest (r : Word) := Host.Outcome.next (φ := Fault) (ρ := Refusal) (s.after (s.me.setXNow f.rd.toNat r) 4)
    (f.fn.toNat < 4 → exec (.mul f) s = dest (Spec.mul f.fn.toNat a b) ∧ exec (.div f) s = dest (Spec.div f.fn.toNat a b)) ∧
    (16 ≤ f.fn.toNat → f.fn.toNat < 20 →
      exec (.mul f) s = dest ((Spec.mul (f.fn.toNat - 16) (a.setWidth 32) (b.setWidth 32)).signExtend 64) ∧
      exec (.div f) s = dest ((Spec.div (f.fn.toNat - 16) (a.setWidth 32) (b.setWidth 32)).signExtend 64))) ∧
  (∀ (f : SForm) (s : State),
    s.me.guardOn f.g f.gn = true → s.me.ready f.regs = true →
    let a := s.me.getX f.rs1.toNat
    (f.fn.toNat < 4 → ∃ r : Word, Spec.bitc f.fn.toNat a r ∧ exec (.bitc f) s = .next (s.after (s.me.setXNow f.rd.toNat r) 4)) ∧
    (16 ≤ f.fn.toNat → f.fn.toNat < 20 → ∃ r : BitVec 32, Spec.bitc (f.fn.toNat - 16) (a.setWidth 32) r ∧
      exec (.bitc f) s = .next (s.after (s.me.setXNow f.rd.toNat (r.signExtend 64)) 4)))

/-- R114 to R117, R133: NOP changes nothing but the PC; the immediate forms, the shifts and the literals write their result
modulo 2^64; LEA writes its unbounded address when it is canonical in 64 bits, and is an address fault otherwise. The queued
instructions that were to write x(RD) no longer do, by the model’s choice (R108; log 21). -/
def Obligations.ImmediateResult : Prop :=
  (∀ (f : IForm) (l : BitVec 32) (l64 : BitVec 64) (s : State),
    s.me.guardOn f.g f.gn = true → s.me.ready f.regs = true →
    let a := s.me.getX f.rs1.toNat
    let k := f.imm.signExtend 64
    let dest (r : Word) (len : Nat) := Host.Outcome.next (φ := Fault) (ρ := Refusal) (s.after (s.me.setXNow f.rd.toNat r) len)
    let sh := f.imm.toNat % 64
    let half := a.setWidth 32
    exec (.nop f) s = .next (s.after s.me 4) ∧
    exec (.addi f) s = dest (a + k) 4 ∧ exec (.andi f) s = dest (a &&& k) 4 ∧ exec (.ori f) s = dest (a ||| k) 4 ∧
    exec (.xori f) s = dest (a ^^^ k) 4 ∧
    exec (.lit32 f l) s = dest (a + if f.imm.getLsbD 0 then l.setWidth 64 else l.signExtend 64) 8 ∧
    exec (.lit64 f l64) s = dest (a + l64) 12 ∧
    (f.imm.toNat / 256 = 0 → exec (.shi f) s = dest (match f.imm.toNat / 64 with
      | 0 => a <<< sh | 1 => a >>> sh | _ => a.sshiftRight sh) 4) ∧
    (f.imm.toNat / 256 = 1 → sh < 32 → exec (.shi f) s = dest ((match f.imm.toNat / 64 % 4 with
      | 0 => half <<< sh | 1 => half >>> sh | _ => half.sshiftRight sh : BitVec 32).signExtend 64) 4)) ∧
  (∀ (f : IForm) (s : State),
    s.me.guardOn f.g f.gn = true → s.me.ready f.regs = true →
    let d := (f.imm.extractLsb' 0 9).toInt
    let a := if f.imm.getLsbD 9 then ((s.me.pc.toNat - s.me.pc.toNat % 64 : Nat) : Int) + d * 64
      else ((s.me.getX f.rs1.toNat).toNat : Int) + d * 8
    (addrOk a 1 = true → exec (.lea f) s = .next (s.after (s.me.setXNow f.rd.toNat (BitVec.ofInt 64 a)) 4)) ∧
    (addrOk a 1 = false → s.me.catches → exec (.lea f) s = .next (s.trapped 0x04 0 (BitVec.ofInt 64 a))))

/-- R119 to R122: CMP, CMPI and GLOG write one guard (gpack a register, gunpack every guard), SEL copies x(RS1) or x(RS2) by the
guard FN names, and nothing else changes but the PC. The queued instructions that were to write a register that gpack or SEL
writes no longer do, by the model’s choice (R108; log 21). -/
def Obligations.GuardResult : Prop :=
  (∀ (f : SForm) (i : IForm) (s : State),
    s.me.ready f.regs = true → s.me.ready i.regs = true →
    let a := s.me.getX f.rs1.toNat
    let b := s.me.getX f.rs2.toNat
    let p := s.me.getG (f.rs1.toNat % 8)
    let q := s.me.getG (f.rs2.toNat % 8)
    let k := i.imm.extractLsb' 0 9
    let c := s.me.getX i.rs1.toNat
    (s.me.guardOn f.g f.gn = true →
      (f.fn.toNat < 8 → exec (.cmp f) s = .next (s.after (s.me.setG (f.rd.toNat % 8) (Spec.cmp f.fn.toNat a b)) 4)) ∧
      (16 ≤ f.fn.toNat → f.fn.toNat < 24 → exec (.cmp f) s = .next (s.after
        (s.me.setG (f.rd.toNat % 8) (Spec.cmp (f.fn.toNat - 16) (a.setWidth 32) (b.setWidth 32))) 4)) ∧
      (f.fn.toNat < 6 → exec (.glog f) s = .next (s.after (s.me.setG (f.rd.toNat % 8)
        (([p && q, p || q, p ^^ q, p && !q, p || !q, !(p ^^ q)] : List Bool).getD f.fn.toNat false)) 4)) ∧
      (f.fn = 6 → exec (.glog f) s = .next (s.after (s.me.setG (f.rd.toNat % 8) (a ≠ 0)) 4)) ∧
      (f.fn = 7 → ∃ v : Word, (∀ j < 64, v.getLsbD j = (decide (j < 8) && s.me.getG j)) ∧
        exec (.glog f) s = .next (s.after (s.me.setXNow f.rd.toNat v) 4)) ∧
      (f.fn = 8 → ∃ h : Hart, (∀ j, 0 < j → j < 8 → h.getG j = a.getLsbD j) ∧ { h with g := s.me.g } = s.me ∧
        exec (.glog f) s = .next (s.after h 4))) ∧
    (s.me.guardOn i.g i.gn = true → exec (.cmpi i) s = .next (s.after (s.me.setG (i.rd.toNat % 8)
      (if i.imm.getLsbD 9 then Spec.cmp ([0, 1, 4, 5].getD (i.rd.toNat / 8) 0) c (k.setWidth 64)
       else Spec.cmp (i.rd.toNat / 8) c (k.signExtend 64))) 4))) ∧
  (∀ (f : SForm) (s : State),
    s.me.guardOn f.g f.gn = true → s.me.ready f.regs = true → f.fn.toNat < 16 →
    exec (.sel f) s = .next (s.after (s.me.setXNow f.rd.toNat
      (if s.me.getG (f.fn.toNat % 8) = (f.fn.toNat < 8 : Bool) then s.me.getX f.rs1.toNat else s.me.getX f.rs2.toNat)) 4))

/-- R58, R108: a guarded-off scalar instruction only moves the PC past itself (and a repeat's position), writing no register,
guard or flag, reading no memory and trapping never; a guarded-on one that reads a register which a queued vector
instruction will write waits, and nothing changes. -/
def Obligations.GuardedOffDoesNothing : Prop :=
  (∀ (f : SForm) (i : IForm) (b : BForm) (l : BitVec 32) (l64 : BitVec 64)
      (s : State),
    (s.me.guardOn f.g f.gn = false → ∀ op ∈ [Instr.alu, .mul, .div, .bitc, .cmp, .glog, .sel, .falu, .fma, .fsqrt, .fcmp,
      .fcvt, .clnr, .invr, .cflr, .waita, .launch, .wmpub, .wmwait, .kdnew, .kdnewRecycle, .kdend, .pgref, .pgrefNew,
      .pgrefSeal, .pgunref, .tlbinvPage, .tlbinvAsid, .tlbinvAll, .preempt, .fqdone, .migr, .ptset],
      exec (op f) s = .next (s.after s.me 4)) ∧
    (s.me.guardOn i.g i.gn = false → (∀ op ∈ [Instr.addi, .andi, .ori, .xori, .shi, .lea, .cmpi, .cbr, .jalr, .rep, .nop,
      .stkfence, .gsync, .fork, .join, .joinl, .yield, .halt, .trap, .tret, .hcall],
      exec (op i) s = .next (s.after s.me 4)) ∧
      exec (.lit32 i l) s = .next (s.after s.me 8) ∧ exec (.lit64 i l64) s = .next (s.after s.me 12)) ∧
    (s.me.guardOn b.g b.gn = false → exec (.br b) s = .next (s.after s.me 4))) ∧
  (∀ (f : SForm) (i : IForm) (m : MForm) (s : State),
    (s.me.guardOn f.g f.gn = true → s.me.ready f.regs = false →
      ∀ op ∈ [Instr.alu, .mul, .div, .bitc, .sel, .falu, .fma], exec (op f) s = .next s) ∧
    (s.me.guardOn i.g i.gn = true → s.me.ready i.regs = false →
      ∀ op ∈ [Instr.addi, .andi, .ori, .xori, .shi, .lea, .jalr], exec (op i) s = .next s) ∧
    (s.me.ready m.regs = false → ∀ op ∈ [Instr.ld, .st], exec (op m) s = .next s))

/-! ### Scalar floating point -/

/-- R105, R106, R124 to R129: scalar floating-point arithmetic under a legal mode writes its result and its flags, and an
enabled condition traps instead, with its first condition as DETAIL and no register written; under DYN 6 or 7 every FALU
and FMA, and every FSQRT and FCVT with RM = 6, is an illegal instruction. -/
def Obligations.ScalarFloatResult : Prop :=
  (∀ (f : SForm) (s : State),
    s.me.guardOn f.g f.gn = true → s.me.viq = [] →
    let fmt := sfFmt f.fn.toNat
    let a := lowBits fmt (s.me.getX f.rs1.toNat)
    let b := lowBits fmt (s.me.getX f.rs2.toNat)
    let d := lowBits fmt (s.me.getX f.rd.toNat)
    let mode (rm : Nat) := if rm = 6 then s.me.dyn.toNat else rm
    let ends (i : Instr) (m : Fm Nat) :=
      let r := m s.me.fstate
      (r.2.hit = none → exec i s = .next (s.after ((s.me.withF r.2).setX f.rd.toNat (word r.1)) 4)) ∧
      (∀ c, r.2.hit = some c → s.me.catches → exec i s = .next (s.trapped 0x03 c 0))
    (s.me.dyn.toNat < 6 → ends (.falu f) (faluF (f.fn.toNat % 8) fmt s.me.dyn.toNat a b)) ∧
    (s.me.dyn.toNat < 6 → ends (.fma f)
      (fmaF (f.fn.toNat % 8) fmt s.me.dyn.toNat (Fp.decode fmt a) (Fp.decode fmt b) (Fp.decode fmt d))) ∧
    (f.rs2.toNat % 8 < 6 ∨ (f.rs2.toNat % 8 = 6 ∧ s.me.dyn.toNat < 6) →
      ends (.fsqrt f) (roundF fmt (mode (f.rs2.toNat % 8)) (Fp.sqrt (Fp.decode fmt a)))) ∧
    (Wf.fcvtRm f < 6 ∨ (Wf.fcvtRm f = 6 ∧ s.me.dyn.toNat < 6) → ends (.fcvt f)
      (fcvtF (Wf.fcvtDc f) (Wf.fcvtSc f) (mode (Wf.fcvtRm f)) (Wf.fcvtNosat f) (s.me.getX f.rs1.toNat))) ∧
    (let r := fcmpF (f.fn.toNat % 8) (Fp.decode fmt a) (Fp.decode fmt b) s.me.fstate
     (r.2.hit = none → exec (.fcmp f) s = .next (s.after ((s.me.withF r.2).setG (f.rd.toNat % 8) r.1) 4)) ∧
     (∀ c, r.2.hit = some c → s.me.catches → exec (.fcmp f) s = .next (s.trapped 0x03 c 0)))) ∧
  (∀ (f : SForm) (s : State),
    s.me.guardOn f.g f.gn = true → 6 ≤ s.me.dyn.toNat → s.me.catches →
    exec (.falu f) s = .next (s.trapped 0x01 0 (illegalValue (.falu f))) ∧
    exec (.fma f) s = .next (s.trapped 0x01 0 (illegalValue (.fma f))) ∧
    (f.rs2.toNat % 8 = 6 → exec (.fsqrt f) s = .next (s.trapped 0x01 0 (illegalValue (.fsqrt f)))) ∧
    (Wf.fcvtRm f = 6 → exec (.fcvt f) s = .next (s.trapped 0x01 0 (illegalValue (.fcvt f)))))

/-! ### Control flow -/

/-- R42, R50, R131, R132: the transfers reach their target when it is acceptable, with the return address in x(RD) for JAL and
JALR, and an untaken CBR falls through; a JALR to a target that is not a multiple of 4 is an illegal instruction, and one to a
target that is not canonical or lies in the scratchpad's 4 GiB an address fault, with x(RD) unchanged. The link is written over
what the queue was to write there, by the model’s choice (R108; log 21). -/
def Obligations.TransferResult : Prop :=
  (∀ (b : BForm) (i : IForm) (j : JForm) (s : State),
    let pc : Int := s.me.pc.toNat
    let a := s.me.getX i.rs1.toNat
    (s.me.guardOn b.g b.gn = true → ∀ t, t = pc + b.off.toInt * 4 → Spec.targetOk t →
      exec (.br b) s = .next (s.went s.me (BitVec.ofInt 64 t))) ∧
    (s.me.guardOn i.g i.gn = true → s.me.ready i.regs = true → i.rd.toNat % 8 < 6 →
      let taken := ([a = 0, a ≠ 0, a.slt 0, !a.slt 0, (0 : Word).slt a, !(0 : Word).slt a] : List Bool).getD (i.rd.toNat % 8) false
      (taken = false → exec (.cbr i) s = .next (s.after s.me 4)) ∧
      (taken = true → ∀ t, t = pc + i.imm.toInt * 4 → Spec.targetOk t →
        exec (.cbr i) s = .next (s.went s.me (BitVec.ofInt 64 t)))) ∧
    (∀ t, t = pc + j.off.toInt * 4 → Spec.targetOk t →
      exec (.jal j) s = .next (s.went (s.me.setXNow j.rd.toNat (s.me.pc + 4)) (BitVec.ofInt 64 t))) ∧
    (s.me.guardOn i.g i.gn = true → s.me.ready i.regs = true → ∀ t, t = (a.toNat : Int) + i.imm.toInt * 4 → Spec.targetOk t →
      exec (.jalr i) s = .next (s.went (s.me.setXNow i.rd.toNat (s.me.pc + 4)) (BitVec.ofInt 64 t)))) ∧
  (∀ (i : IForm) (s : State),
    s.me.guardOn i.g i.gn = true → s.me.catches →
    let t := ((s.me.getX i.rs1.toNat).toNat : Int) + i.imm.toInt * 4
    (t % 4 ≠ 0 → exec (.jalr i) s = .next (s.trapped 0x01 0 (illegalValue (.jalr i)))) ∧
    (t % 4 = 0 → (t < 0 ∨ 2 ^ 64 ≤ t ∨ canonical t.toNat = false) →
      exec (.jalr i) s = .next (s.trapped 0x04 0 (BitVec.ofInt 64 t))) ∧
    (t % 4 = 0 → 0 ≤ t → t < 2 ^ 64 → canonical t.toNat = true → inScratchRegion t.toNat = true →
      exec (.jalr i) s = .next (s.trapped 0x04 2 (BitVec.ofInt 64 t))))

/-- R134, R135: REP with a non-zero count starts its body at the next instruction, with a zero count passes over it, and inside
an active body is illegal; the last body instruction counts down and goes back to the body's start until the count is zero,
and the ones before it only move on. Where a queued instruction is still to write the count, the scalar side waits at the end
of the pass for it. -/
def Obligations.RepeatResult : Prop :=
  (∀ (i : IForm) (s : State),
    s.me.guardOn i.g i.gn = true → s.me.ready i.regs = true →
    (s.me.rep.active = false → s.me.getX i.rs1.toNat ≠ 0 → exec (.rep i) s = .next (s.putHart s.cur { s.me with
      rep := { active := true, reg := i.rs1, len := i.imm.toNat + 1, pos := 0, start := s.me.pc + 4 }, pc := s.me.pc + 4 })) ∧
    (s.me.rep.active = false → s.me.getX i.rs1.toNat = 0 → ∀ e s',
      afterBody (s.ctx s.cur) (s.me.pc + 4).toNat (i.imm.toNat + 1) s = .ok e s' →
      exec (.rep i) s = .next (s'.went s'.me (word e))) ∧
    (s.me.rep.active = true → s.me.catches → exec (.rep i) s = .next (s.trapped 0x01 0 (illegalValue (.rep i))))) ∧
  (∀ (i : IForm) (s : State),
    s.me.guardOn i.g i.gn = true → s.me.ready i.regs = true → s.me.rep.active = true →
    let r := s.me.rep
    let c := s.me.getX r.reg.toNat
    (r.pos + 1 < r.len → exec (.nop i) s = .next (s.putHart s.cur { s.me with rep := { r with pos := r.pos + 1 }, pc := s.me.pc + 4 })) ∧
    (r.pos + 1 = r.len → s.me.ready [r.reg.toNat] = true → 1 < c.toNat → exec (.nop i) s = .next (s.putHart s.cur
      { s.me.setX r.reg.toNat (c - 1) with rep := { r with pos := 0 }, pc := r.start })) ∧
    (r.pos + 1 = r.len → s.me.ready [r.reg.toNat] = true → c = 1 → exec (.nop i) s = .next (s.putHart s.cur
      { s.me.setX r.reg.toNat 0 with rep := {}, pc := s.me.pc + 4 })) ∧
    (r.pos + 1 = r.len → s.me.ready [r.reg.toNat] = false → ∃ h, exec (.nop i) s = .next (s.putHart s.cur h) ∧
      h.active = false ∧ h.pc = s.me.pc + 4 ∧ h.x = s.me.x ∧ h.viq.length = s.me.viq.length))

/-! ### Scalar memory -/

/-- R39, R40, R56, R241, R272, R273: LD writes the loaded value to x(RD), sign-extended for W 0 to 3 and zero-extended for 4 to
6; ST stores the low bytes of x(RD); both move the PC and change no other register (NARROW apart, R228). In the hart's own
scratchpad a load reads its bytes, a store writes them, an atomic does both in one step, and nothing else changes. A store at
SYSTEM scope sends the dirty copies of the pool there (R233), every one by the model’s reading (log 6), and LD writes over what
the queue was to write to x(RD), by its choice (R108; log 21). -/
def Obligations.LoadStoreResult : Prop :=
  (∀ (f : MForm) (s s1 : State) (v : Nat),
    s.me.ready f.regs = true →
    let n : Nat := 2 ^ (f.w.toNat % 4)
    let a := ((s.me.getX f.rs1.toNat).toNat : Int) + f.imm.toInt * n
    let al : Nat := if f.ord = 0 then 1 else n
    let h1 := s1.me.narrowIf (narrows a f.scope.toNat)
    (load (s.ctx s.cur) a n al s = .ok v s1 → exec (.ld f) s = .next (s1.after (h1.setXNow f.rd.toNat (Spec.loaded f.w v)) 4)) ∧
    (f.w.toNat < 4 → s.me.ready [f.rd.toNat] = true →
      store (s.ctx s.cur) a n al false ((s.me.getX f.rd.toNat).toNat % 2 ^ (8 * n)) s = .ok () s1 →
      ∀ s2, atScope f.scope.toNat (s1.putHart s1.cur h1) = .ok () s2 → exec (.st f) s = .next (s2.after s2.me 4))) ∧
  (∀ (s : State), ∃ t, flushPool s = .ok () t ∧ t.harts = s.harts ∧ t.scratch = s.scratch ∧
    (∀ scope, atScope scope s = .ok () (if scope = 5 then t else s)) ∧
    ∀ g c, Tab.find t.sectors g = some c → paPool (g * 32) = 1 → c.dirty = false) ∧
  ((∀ (f : MForm) (s : State),
      s.me.viq = [] →
      let n : Nat := 2 ^ (f.w.toNat % 4)
      ∀ a : Nat, (a : Int) = (s.me.getX f.rs1.toNat).toNat + f.imm.toInt * n → s.ownScratch a n → a % n = 0 →
      s.plainScratch (s.scratchAt a) n →
      let h1 := s.me.narrowIf (decide (3 ≤ f.scope.toNat))
      exec (.ld f) s = .next (s.after (h1.setX f.rd.toNat (Spec.loaded f.w (s.scratch.readN (s.scratchAt a) n))) 4) ∧
      (f.w.toNat < 4 → f.scope ≠ 5 → exec (.st f) s =
        .next ((s.storeScratch (s.scratchAt a) n (s.me.getX f.rd.toNat).toNat).after h1 4))) ∧
    (∀ (s : State) (a n : Nat) (g : Nat → Option Nat),
      n = 4 ∨ n = 8 → s.ownScratch a n → a % n = 0 → s.plainScratch (s.scratchAt a) n →
      atomic (s.ctx s.cur) a n n g s = .ok (s.scratch.readN (s.scratchAt a) n)
        (match g (s.scratch.readN (s.scratchAt a) n) with | some v => s.storeScratch (s.scratchAt a) n v | none => s)))

/-- R273, R274, R317: AMO, CAS and WMPUB read and write their bytes in one action; AMO and CAS give the old value sign-extended,
with the old x(RD) as CAS's expected value, and WMPUB gives none; what the scope asks for is done (R233; for every dirty copy of
the pool by the model’s reading, log 6), and the old value is written over what the queue was to write there, by its choice
(R108; log 21). -/
def Obligations.AtomicResult : Prop := ∀ (m : MForm) (f : SForm) (s s1 : State) (old : Nat),
  let n := 4 * (1 + m.imm.toNat % 2)
  let a : Int := (s.me.getX m.rs1.toNat).toNat
  let b := (s.me.getX (m.imm.toNat / 2)).toNat % 2 ^ (8 * n)
  let e := (s.me.getX m.rd.toNat).toNat % 2 ^ (8 * n)
  let c := s.ctx s.cur
  let out : Word := if n = 4 then (BitVec.ofNat 32 old).signExtend 64 else BitVec.ofNat 64 old
  let sgn (v : Nat) : Int := if n = 4 then (BitVec.ofNat 32 v).toInt else (BitVec.ofNat 64 v).toInt
  let amo (v : Nat) : Nat := match m.w.toNat with
    | 0 => b | 1 => (v + b) % 2 ^ (8 * n) | 2 => v &&& b | 3 => v ||| b
    | 4 => if sgn v < sgn b then b else v | 5 => if sgn b < sgn v then b else v | 6 => max v b | _ => min v b
  let ends (i : Instr) (a : Int) (scope : Nat) (g : Hart → Hart) : Prop := ∀ s2,
    atScope scope (s1.putHart s1.cur (s1.me.narrowIf (narrows a scope))) = .ok () s2 → exec i s = .next (s2.after (g s2.me) 4)
  (s.me.ready [m.rs1.toNat, m.imm.toNat / 2] = true → atomic c a n n (fun v => some (amo v)) s = .ok old s1 →
    ends (.amo m) a m.scope.toNat (·.setXNow m.rd.toNat out)) ∧
  (s.me.ready [m.rd.toNat, m.rs1.toNat, m.imm.toNat / 2] = true →
    atomic c a n n (fun v => if v = e then some b else none) s = .ok old s1 →
    ends (.cas m) a m.scope.toNat (·.setXNow m.rd.toNat out)) ∧
  (s.me.guardOn f.g f.gn = true → s.me.viq = [] → ∀ a, a = ((s.me.getX f.rs1.toNat).toNat : Int) →
    atomic c a 8 8 (fun v => some (max v (s.me.getX f.rs2.toNat).toNat)) s = .ok old s1 → ends (.wmpub f) a f.fn.toNat id)

/-- R267 to R269, R40: an access is checked in this order: its bytes inside 64 bits and canonical, its alignment, the
scratchpad bounds; the first that fails is the trap, and x(RD) is not written. -/
def Obligations.AccessTraps : Prop := ∀ (f : MForm) (s : State), s.me.catches →
  let n : Nat := 2 ^ (f.w.toNat % 4)
  let a := ((s.me.getX f.rs1.toNat).toNat : Int) + f.imm.toInt * n
  let al : Nat := if f.ord = 0 then 1 else n
  (addrOk a n = false → exec (.ld f) s = .next (s.trapped 0x04 0 (BitVec.ofInt 64 a))) ∧
  (addrOk a n = true → a % (al : Nat) ≠ 0 → exec (.ld f) s = .next (s.trapped 0x04 1 (BitVec.ofInt 64 a))) ∧
  (addrOk a n = true → a % (al : Nat) = 0 → ∀ b, Machine.outOfBounds (s.ctx s.cur) a.toNat n = some b →
    exec (.ld f) s = .next (s.trapped 0x05 0 (BitVec.ofNat 64 b)))

/-- R233, R240, R250, R276, R277, R280: FENCE of kinds V→S and ALL waits for the vector side and the others do not; one of V→V
leaves its mark on the last queued entry, which no later access is performed ahead of; one at SYSTEM scope sends the dirty
copies of the pool there, every one by the model’s reading (log 6), with entries queued before a V→V once they complete; PFETCH
writes no register, and does nothing where no address is; STKFENCE with a zero mask changes nothing but the PC, and with another
records its place after the maintenance operations, the bank-level commands and the queued ones of the hart. -/
def Obligations.FenceResult : Prop :=
  (∀ (f : MForm) (s : State),
    (f.w = 0 ∨ 3 < f.w.toNat ∨ s.me.viq = [] →
      (f.scope ≠ 5 → exec (.fence f) s = .next (s.after s.me 4)) ∧
      (f.scope = 5 → ∃ t, flushPool s = .ok () t ∧ exec (.fence f) s = .next (t.after t.me 4))) ∧
    (f.w = 1 ∨ f.w = 3 → s.me.viq ≠ [] → exec (.fence f) s = .next s) ∧
    (∀ pre e, f.w = 2 → s.me.viq = pre ++ [e] → exec (.fence f) s = .next (s.after
      { s.me with viq := pre ++ [{ e with fence := true, flush := e.flush || decide (f.scope = 5) }] } 4)) ∧
    (s.me.ready [f.rs1.toNat] = true →
      let a := ((s.me.getX f.rs1.toNat).toNat : Int) + f.imm.toInt * 128
      (addrOk a 1 = false ∨ inScratchRegion a.toNat = true → exec (.pfetch f) s = .next (s.after s.me 4)) ∧
      (∀ s1, addrOk a 1 = true → (∃ r, caught (fetchLine (s.ctx s.cur) a.toNat) s = .ok r s1) →
        exec (.pfetch f) s = .next (s1.after s1.me 4)))) ∧
  (∀ (f : IForm) (s : State),
    s.me.guardOn f.g f.gn = true → s.me.ready f.regs = true →
    (f.imm.setWidth 8 = 0#8 → exec (.stkfence f) s = .next (s.after s.me 4)) ∧
    (f.imm.setWidth 8 ≠ 0#8 →
      let x : StkFence := {
        id := s.me.entered, mask := f.imm.setWidth 8, maints := s.me.maint.map (·.id),
        cmds := (s.banks.filter fun b => b.hart = s.cur && b.gang = s.me.gang).map (·.id),
        queued := ((s.me.viq ++ s.me.held).filter fun e => isBankLevel e.instr).map (·.seq) }
      exec (.stkfence f) s = .next (s.after { s.me with fences := s.me.fences.filter (·.live s s.me) ++ [x] } 4))) ∧
  (∀ (i : Instr) (f : VForm) (foot : List (Nat × Nat)) (o : VEntry) (t : List VEntry) (s : State), o.fence = true →
    mayPass i f foot (o :: t) s = .ok false s)

/-- R249, R278, R279: CLNR, INVR and CFLR are accepted with the lines of their range and the queue entries they follow, and an
empty range does nothing; an accepted operation, of a hart or of a suspended one, takes effect at its Landings and leaves the
hart's queue. On a line, CLNR writes dirty bytes back and keeps the copies clean, INVR drops them with what they hold, and CFLR
writes back and drops. -/
def Obligations.MaintenanceResult : Prop :=
  ((∀ (f : SForm) (s s1 : State) (l : List (Nat × Nat)),
      s.me.guardOn f.g f.gn = true → s.me.ready f.regs = true →
      let b := (s.me.getX f.rs1.toNat).toNat
      let n := (s.me.getX f.rs2.toNat).toNat
      let t (k : MaintKind) := s1.after { s1.me with maint := s1.me.maint ++ [
        { id := s1.me.entered, kind := k, lines := l, after := s1.me.viq.map (·.seq) }], entered := s1.me.entered + 1 } 4
      (n = 0 → exec (.clnr f) s = .next (s.after s.me 4) ∧ exec (.invr f) s = .next (s.after s.me 4) ∧
        exec (.cflr f) s = .next (s.after s.me 4)) ∧
      (n ≠ 0 → s1.me.maint.length < 16 →
        (maintRange (s.ctx s.cur) .read b n s = .ok l s1 → exec (.clnr f) s = .next (t .clnr) ∧ exec (.cflr f) s = .next (t .cflr)) ∧
        (maintRange (s.ctx s.cur) .discard b n s = .ok l s1 → exec (.invr f) s = .next (t .invr)))) ∧
    (∀ (k : Nat) (m : Maint) (s s1 : State),
      let dropped (h : Hart) : Hart := { h with
        maint := h.maint.filter (·.id ≠ m.id)
        fences := h.fences.map fun x => { x with maints := x.maints.filter (· ≠ m.id) } }
      (forAll m.lines fun p => forAll (List.range p.2) fun i => maintLine m.kind (p.1 + i)) s = .ok () s1 →
      ((s.hart k).maint.find? (s.maintReady k (s.hart k)) = some m →
        exec (.maintenanceEffect k) s = .next (s1.onHart k (s.hart k).gang dropped)) ∧
      (∀ h l, (s.hart k).maint.find? (s.maintReady k (s.hart k)) = none → s.savedAt k = h :: l →
        h.maint.find? (s.maintReady k h) = some m → exec (.maintenanceEffect k) s = .next (s1.onHart k h.gang dropped)))) ∧
  (∀ (line : Nat) (s : State), ∃ a b c, maintLine .clnr line s = .ok () a ∧ maintLine .invr line s = .ok () b ∧
    maintLine .cflr line s = .ok () c ∧ b.mem = s.mem ∧ a.harts = s.harts ∧ b.harts = s.harts ∧ c.harts = s.harts ∧
    ∀ g, g / 4 = line →
      Tab.find a.sectors g = (Tab.find s.sectors g).map ({ · with dirty := false }) ∧
      Tab.find b.sectors g = none ∧ Tab.find c.sectors g = none ∧
      ∀ x, Tab.find s.sectors g = some x → x.dirty = true → x.valid = fullMask →
        a.mem.readN (g * 32) 32 = x.data % 2 ^ 256 ∧ c.mem.readN (g * 32) 32 = x.data % 2 ^ 256) ∧
  (∀ (g : Nat) (c : Sector) (s : State),
    Tab.find s.sectors g = some c → c.dirty = true → c.valid = fullMask → c.poison = false →
    ∃ t, writeBack g s = .ok () t ∧ t.mem.readN (g * 32) 32 = c.data % 2 ^ 256 ∧
      Tab.find t.sectors g = some { c with dirty := false } ∧ g ∉ t.poison ∧
      (∀ b, b < g * 32 ∨ g * 32 + 32 ≤ b → t.mem.read b = s.mem.read b) ∧
      dropCopy g s = .ok () { s with sectors := Tab.erase s.sectors g })

/-- R233, R296, R297: HSET loads a checked descriptor into h(RD); HGET stores the descriptor it holds, at its scope. A store at
SYSTEM scope sends every dirty copy of the pool there, by the model’s reading (log 6). -/
def Obligations.HandleLoadStore : Prop := ∀ (f : MForm) (s s1 : State) (v : Nat),
  s.me.ready [f.rs1.toNat] = true →
  let a := ((s.me.getX f.rs1.toNat).toNat : Int) + f.imm.toInt * 64
  (load (s.ctx s.cur) a 64 64 s = .ok v s1 → (Handle.ofBytes v).ok = true →
    let h1 := s1.me.narrowIf (narrows a f.scope.toNat)
    exec (.hset f) s = .next (s1.after { h1 with h := Tab.put {} h1.h f.rd.toNat (Handle.ofBytes v),
                                                 badh := h1.badh.filter (· ≠ f.rd.toNat) } 4)) ∧
  (load (s.ctx s.cur) a 64 64 s = .ok v s1 → (Handle.ofBytes v).ok = false → s1.me.catches →
    exec (.hset f) s = .next (s1.trapped 0x02 0 (BitVec.ofInt 64 a))) ∧
  (s.me.badh.contains f.rd.toNat = false →
    store (s.ctx s.cur) a 64 64 false (Tab.get ({} : Handle) s.me.h f.rd.toNat).bytes s = .ok () s1 →
    ∀ s2, atScope f.scope.toNat (s1.putHart s1.cur (s1.me.narrowIf (narrows a f.scope.toNat))) = .ok () s2 →
    exec (.hget f) s = .next (s2.after s2.me 4))

/-! ### Special registers, traps and their return -/

/-- R31, R32, R34, R36, R101, R105, R358, R374, R403, R406, R411, R412: SRD gives each listed register its value, at S level for
the numbers from 0x100, and after the vector side for the synchronising ones. VCP is the address of the held instruction at the
trap point, or of the next vector instruction, which the program run ahead on a copy of the state shows, and before any its
reset value, the entry PC (log 8); FQHEAD and FQTAIL are the ring's words, read without a data error (log 15). -/
def Obligations.SpecialRegisterRead : Prop := ∀ (f : SrForm) (s : State),
  let h := s.me
  let g := s.gangOf h
  let w (n : Nat) : Word := BitVec.ofNat 64 n
  let bit (b : Bool) (i : Nat) : Nat := if b then 2 ^ i else 0
  let read (v : Word) (t : State) : Prop := exec (.srd f) s = .next (t.after (t.me.setX f.rd.toNat v) 4)
  h.viq = [] → f.num.toNat < 0x100 ∨ h.isS = true → (∀ v : Word, (f.num.toNat, v) ∈ [
    (0x000, h.vl.setWidth 64), (0x001, h.vcfg.setWidth 64), (0x002, h.vstart.setWidth 64),
    (0x004, w (g.gshift.toNat + 256 * max 1 (h.count.toNat / 2 ^ g.gshift.toNat))),
    (0x005, w (h.count.toNat + 256 * h.first.toNat)), (0x006, h.flags.setWidth 64),
    (0x007, w (h.dyn.toNat + bit h.nohint 3)), (0x008, h.srseed.setWidth 64),
    (0x018, w (g.gbar.expect.toNat + 2 ^ 4 * g.gbar.next.toNat + 2 ^ 8 * g.gbar.arrived.toNat + 2 ^ 12 * g.gbar.early.toNat +
      2 ^ 16 * g.gbar.phase.toNat)),
    (0x020, w (s.cur % 8 + 8 * (s.cur / 8 % 192) + 2 ^ 11 * (s.cur / 8 / 192) + 2 ^ 12 * s.pkg)),
    (0x021, g.gangid.setWidth 64), (0x022, w g.task), (0x023, w s.clock + Config.cycOffset s.resets (s.cur / 8)),
    (0x030, h.tvec), (0x031, h.tcause.setWidth 64), (0x032, h.tpc),
    (0x033, h.tval),
    (0x034, w (bit h.tstat.nve 0 + bit h.tstat.dze 1 + bit h.tstat.ofe 2 + bit h.tstat.narrow 3 + bit h.tstat.inh 4 +
      bit h.tstat.pl 5 + bit h.tstat.lvl 6 + bit h.tstat.ract 8 + 2 ^ 9 * h.tstat.rreg.toNat + 2 ^ 14 * h.tstat.rb.toNat +
      2 ^ 19 * h.tstat.rpos.toNat + 2 ^ 24 * h.tstat.rback.toNat + 2 ^ 32 * h.tstat.shn.toNat)),
    (0x050, g.splo), (0x051, g.sphi), (0x060, h.ufcount), (0x100, h.asid.setWidth 64), (0x101, h.ptbase), (0x102, h.fqbase),
    (0x105, h.keydom.setWidth 64), (0x106, Tab.get 0 s.census s.pkg), (0x107, Tab.get 0 s.freeq s.pkg)] ++
    ((List.range 4).map fun n => (0x040 + n, Tab.get 0 h.cg n)) ++
    ((List.range 8).map fun n => (0x010 + n, w (bit (h.slot n).bound 0 + 2 ^ 8 * (h.slot n).fctx.toNat +
      2 ^ 16 * (h.slot n).stack.toNat + 2 ^ 19 * (h.slot n).pkg.toNat))) → read v s) ∧
  (∀ off v t t', (f.num.toNat, off) ∈ [(0x103, 0), (0x104, 8)] →
    checkOwn (s.ctx s.cur) (ringPa h.fqbase + off) false (ringPa h.fqbase + off) 8 s = .ok () t →
    readOwn (ringPa h.fqbase + off) 8 t = .ok v t' → read (w v) t') ∧
  (f.num = 0x003 →
    (∀ e l, h.held = e :: l → read e.pc s) ∧
    (h.held = [] → h.rep.active = false → ∀ ps t, let c := s.putHart s.cur { h.retire 1 (h.pc + 4) with run := .running }
      fetchParcels (c.ctx s.cur) c.me.pc.toNat c = .ok ps t → opIsV (opcodeOf (ps.headD 0)).toNat = true →
      read t.me.pc { s with fresh := s.fresh + 6 }) ∧
    (h.held = [] → (∀ b t, nextVector f.rd.toNat s = .ok (some b) t → read (w b) t) ∧
      (∀ t, nextVector f.rd.toNat s = .ok none t → h.entered = 0 → read h.vcp0 t)))

/-- R7, R31, R101, R374, R403, R405, R411 to R414: SWR writes the writable bits of each listed register and leaves the read-only
ones; SPECIAL REGISTER WRITE is the same effect without the instruction's PC; FQBASE keeps BASE and NLOG. FQHEAD
sets the ring's HEAD word, performed at SYSTEM scope, then writes the entries held for the ring while it has space, and WAITING
counts those left; with none held it becomes zero. R233: a SYSTEM store sends the dirty copies of tier 1 to the pool, every one
by the model's reading (log 6). -/
def Obligations.SpecialRegisterWritten : Prop :=
  (∀ (f : SrForm) (s : State),
    let h := s.me
    let v := h.getX f.rd.toNat
    h.viq = [] → f.num.toNat < 0x100 ∨ h.isS = true → ∀ h' : Hart, (f.num.toNat, h') ∈ [
      (0x002, { h with vstart := v.setWidth 16 }), (0x006, { h with flags := v.setWidth 6 }),
      (0x007, { h with dyn := v.setWidth 3, nohint := v.getLsbD 3 }),
      (0x008, { h with srseed := if v.setWidth 32 = 0#32 then 1 else v.setWidth 32 }),
      (0x030, { h with tvec := v &&& ~~~2 }), (0x031, { h with tcause := v.setWidth 17 }), (0x032, { h with tpc := v }),
      (0x033, { h with tval := v }),
      (0x034, { h with tstat := { h.tstat with
        nve := v.getLsbD 0, dze := v.getLsbD 1, ofe := v.getLsbD 2, narrow := v.getLsbD 3, pl := v.getLsbD 5, ract := v.getLsbD 8,
        rreg := v.extractLsb' 9 5, rb := v.extractLsb' 14 5, rpos := v.extractLsb' 19 5, rback := v.extractLsb' 24 7 } }),
      (0x060, { h with ufcount := v }), (0x100, { h with asid := v.setWidth 16 }),
      (0x101, { h with ptbase := v &&& 0x000FFFFFFFFE0000 }), (0x105, { h with keydom := v.setWidth 16 })] ++
      ([0x000, 0x001, 0x003, 0x004, 0x005, 0x018, 0x020, 0x021, 0x022, 0x023, 0x050, 0x051, 0x104, 0x106, 0x107].map (·, h)) ++
      ((List.range 8).map fun n => (0x010 + n, h)) ++
      ((List.range 4).map fun n => (0x040 + n, { h with cg := Tab.put 0 h.cg n (v &&& ~~~0x3F) })) →
    exec (.swr f) s = .next (s.after h' 4) ∧
    ∃ l, (∀ k, Tab.get {} l k = if k = s.cur then h' else s.hart k) ∧ exec (.specialRegisterWrite f.num v) s = .next { s with harts := l }) ∧
  (∀ (f : SrForm) (s : State),
    s.me.isS = true → s.me.ready [f.rd.toNat] = true → f.num = 0x102 → (∀ p ∈ s.pending, p.seq ≠ none) →
    exec (.swr f) s = .next (s.after { s.me with fqbase := s.me.getX f.rd.toNat &&& 0x000FFFFFFFFFF01F } 4)) ∧
  (∀ (v : Word) (s : State), let ring := s.me.fqbase
    s.me.isS = true → ∃ s1 s2 s3 t, writeOwn (ringPa ring) 8 v.toNat s = .ok () s1 ∧ flushPool s1 = .ok () s2 ∧
      drainRing ring (s2.heldOf ring).length s2 = .ok () s3 ∧
      (ringOk ring = true → setWaiting ring s3 = .ok () t) ∧ (ringOk ring = false → t = s3) ∧
      exec (.fqhead v) s = .next t ∧
      ∀ f : SrForm, f.num = 0x103 → s.me.ready [f.rd.toNat] = true → v = s.me.getX f.rd.toNat → exec (.swr f) s = .next (t.after t.me 4)) ∧
  (∀ (v : Word) (s s1 s2 s3 : State),
    s.me.isS = true → ringOk s.me.fqbase = true → writeOwn (ringPa s.me.fqbase) 8 v.toNat s = .ok () s1 → flushPool s1 = .ok () s2 →
    s2.heldOf s.me.fqbase = [] → writeOwn (ringPa s.me.fqbase + 16) 8 0 s2 = .ok () s3 → exec (.fqhead v) s = .next s3)

/-- R51, R71, R72, R401, R405, R408, R409: taking a trap saves the cause, the value and the PC, records the level and the repeat,
enters the handler at TVEC with the repeat ended, and holds the queue of a vector trap; TRAP n saves the PC after it and
raises 0x09. A handler that changes nothing of the saved state returns to where the trap was: the PC, the repeat, the level,
the VL and the queue as before. TRET in a handler returns as the saved state says, and outside one is illegal; an encoding
that is no instruction traps as illegal with its parcels as value, and a failed fetch with its own cause, at the PC. -/
def Obligations.TrapResult : Prop :=
  (∀ (f : IForm) (s : State) (h : Hart) (p : Point) (c d : Nat) (v : Word),
    (s.me.guardOn f.g f.gn = true → s.me.catches → exec (.trap f) s = .next (s.putHart s.cur
      ((s.me.advance 4).enterTrap .scalar 0x09 (f.imm.toNat % 256) (s.me.getX f.rs1.toNat)))) ∧
    (let t := h.enterTrap p c d v
     (c < 256 → d < 256 → t.tcause.toNat = c + 256 * d + 65536 * (if p = .scalar then 0 else 1)) ∧ t.tval = v ∧ t.tpc = h.pc ∧
     t.pc = h.tvec &&& ~~~3 ∧ t.rep = {} ∧ t.tstat.inh = true ∧ t.tstat.pl = h.tstat.lvl ∧ t.tstat.lvl = h.tstat.lvl ∧
     t.tstat.ract = h.rep.active ∧ t.tstat.rreg = h.rep.reg ∧ t.x = h.x ∧ t.g = h.g ∧ t.v = h.v ∧ t.m = h.m ∧ t.flags = h.flags ∧
     (p = .scalar → t.viq = h.viq ∧ t.vl = h.vl ∧ t.tstat.shn = h.tstat.shn) ∧
     (p ≠ .scalar → t.viq = [] ∧ t.held = h.viq ∧ (h.viq.length < 128 → t.tstat.shn.toNat = h.viq.length)))) ∧
  (∀ (h : Hart) (p : Point) (c d : Nat) (v : Word),
    h.held = [] → h.tstat.inh = false → h.tstat.shn = 0 → h.viq.length < 128 → (p ≠ .scalar → h.viq ≠ []) →
    (h.rep = {} ∨ (h.rep.active = true ∧ 0 < h.rep.len ∧ h.rep.len ≤ 32 ∧ h.rep.pos < h.rep.len ∧
      ∃ k < 128, h.pc - h.rep.start = BitVec.ofNat 64 (4 * k))) →
    let t := (h.enterTrap p c d v).leaveTrap
    t.pc = h.pc ∧ t.rep = h.rep ∧ t.viq = h.viq ∧ t.held = [] ∧ t.vl = h.vl ∧ t.vvl = h.vvl ∧ t.vlPending = h.vlPending ∧
    t.tstat.lvl = h.tstat.lvl ∧ t.tstat.inh = false ∧ t.x = h.x ∧ t.g = h.g ∧ t.v = h.v ∧ t.m = h.m ∧ t.flags = h.flags) ∧
  ((∀ (f : IForm) (s : State),
      s.me.guardOn f.g f.gn = true → s.me.viq = [] →
      let t := s.me.tstat
      (t.inh = true → (t.pl = true → t.lvl = true) → Spec.targetOk s.me.tpc.toNat →
        (t.ract = true → t.rreg ≠ 0 ∧ t.rpos.toNat ≤ t.rb.toNat) → exec (.tret f) s = .next (s.putHart s.cur s.me.leaveTrap)) ∧
      (t.inh = false → s.me.catches → exec (.tret f) s = .next (s.trapped 0x01 0 (illegalValue (.tret f))))) ∧
    (∀ (p : BitVec 64) (s : State), s.me.catches →
      exec (.illegalInstruction p) s = .next (s.trapped 0x01 0 p) ∧
      (canonical s.me.pc.toNat = false → exec .fetchFault s = .next (s.trapped 0x04 0 s.me.pc)) ∧
      (canonical s.me.pc.toNat = true → inScratchRegion s.me.pc.toNat = true → exec .fetchFault s = .next (s.trapped 0x04 2 s.me.pc))))

/-- R233, R410, R413, R415, R418, R419: HCALL sends the dirty copies of tier 1 to the pool, as a FENCE ALL at SYSTEM scope does, every
one by the model's reading (log 6), and parks its hart on an entry of code 0x17 with the number as ADDR and x(RS1) as VAL, held in
the device with no valid ring; a hart whose entry is completed restarts at the instruction for RETRY, in its handler for
RAISE, and past the HCALL with x(RD) := VALUE for RETURN, once no hart of its cluster is due whose completion took effect
before. -/
def Obligations.HcallAndRestart : Prop :=
  (∀ (f : IForm) (s0 : State),
    s0.me.guardOn f.g f.gn = true → s0.me.viq = [] → ∃ s, flushPool s0 = .ok () s ∧
    let h : Hart := { s.me with callRd := f.rd }
    let e : Entry := {
      taskid := (s.gangOf h).task, addr := BitVec.ofNat 64 f.imm.toNat, val := s.me.getX f.rs1.toNat,
      pc := s.me.pc, pte := 0, elem := 0, hartid := s.hartId s.cur, asid := s.me.asid, code := 0x17, detail := 0, kind := 0,
      src := 0 }
    (∃ id s1, postEntry s.me.fqbase e [s.cur] none none (s.putHart s.cur h) = .ok id s1 ∧
      exec (.hcall f) s0 = .next (s1.putHart s1.cur { s1.me with run := .parked id })) ∧
    (ringOk s.me.fqbase = false → exec (.hcall f) s0 = .next (State.putHart { s with
      fresh := s.fresh + 1
      pending := s.pending ++ [{ id := s.fresh, ring := s.me.fqbase, seq := none, entry := e, harts := [s.cur],
                                 stream := none, conv := none }] } s.cur { h with run := .parked s.fresh }))) ∧
  (∀ (k : Nat) (s : State) (c : Nat) (v : Word) (e : Entry),
    (s.hart k).run = .restart c v e →
    (s.restartsNext k = false → exec (.parkedHartRestart k) s = .next s) ∧
    (s.restartsNext k = true →
    let h : Hart := { s.hart k with run := .running }
    (c = 0 → exec (.parkedHartRestart k) s = .next (s.putHart k h)) ∧
    (c = 3 → e.kind < 4 → h.tvec.getLsbD 0 = true → h.tstat.inh = false →
      exec (.parkedHartRestart k) s = .next (s.putHart k (h.enterTrap .scalar e.code e.detail e.addr))) ∧
    (c = 4 → exec (.parkedHartRestart k) s = .next (s.putHart k ((h.setX h.callRd.toNat v).advance 4)))))

/-- R233, R413, R417, R418: FQDONE at S level, after what a FENCE ALL at SYSTEM scope waits for and sends to the pool (every dirty
copy of tier 1 by the model's reading, log 6), completes the entry of its ring with the sequence number: result 1 with no such
entry, 2 when the code is not allowed, and 0 otherwise, when the entry is no longer pending and the harts parked on it are
due to restart; ABORT of anything but an unsorted index ends the entry's task. HELD ENTRY WRITE writes the oldest entry held
for a ring at TAIL when the ring has space, and then WAITING. -/
def Obligations.FaultEntryService : Prop :=
  (∀ (f : SForm) (s0 : State),
    s0.me.guardOn f.g f.gn = true → s0.me.viq = [] → s0.me.isS = true → s0.me.run = .running → ∃ s, flushPool s0 = .ok () s ∧
    let p := s.pending.find? fun p => sameRing p.ring s.me.fqbase && p.seq = some (s.me.getX f.rs1.toNat).toNat
    let v := s.me.getX f.rs2.toNat
    let c := f.fn.toNat
    (p = none → exec (.fqdone f) s0 = .next (s.after (s.me.setX f.rd.toNat 1) 4)) ∧
    (∀ q, p = some q → completionAllowed q.entry c = false → exec (.fqdone f) s0 = .next (s.after (s.me.setX f.rd.toNat 2) 4)) ∧
    (∀ q, p = some q → completionAllowed q.entry c = true → (c ≠ 2 ∨ q.entry.code = 0x15) → ∃ t : State,
      t.pending = s.pending.filter (·.id ≠ q.id) ∧ t.harts = s.harts.map (fun (k, h) => (k, h.due q.id c s.fresh v q.entry)) ∧
      t.mem = s.mem ∧ t.sectors = s.sectors ∧ t.scratch = s.scratch ∧
      exec (.fqdone f) s0 = .next (t.after (s.me.setX f.rd.toNat 0) 4)) ∧
    (∀ q, p = some q → completionAllowed q.entry c = true → c = 2 → q.entry.code ≠ 0x15 → ∃ t, endTask q.entry.taskid 3 s = .ok () t ∧
      (t.me.run = .free → exec (.fqdone f) s0 = .next t) ∧
      (t.me.run ≠ .free → exec (.fqdone f) s0 = .next (t.after (t.me.setX f.rd.toNat 0) 4)))) ∧
  (∀ (b : Nat) (p : Pending) (s : State),
    s.pending.find? (fun p => p.seq = none && p.ring.toNat / 2 ^ 12 = b) = some p → ringOk p.ring = true →
    ∃ space s1 s2 s3, ringSpace p.ring s = .ok space s1 ∧ (space = true → writeEntry p s1 = .ok () s2) ∧ (space = false → s2 = s1) ∧
      setWaiting p.ring s2 = .ok () s3 ∧ exec (.heldEntryWrite b) s = .next s3)

/-! ### Harts -/

/-- R354: FORK gives the lowest free context of the core the upper half of the lanes and a copy of the scalar state, at its
target, and keeps the lower half with its vector state invalid; with no context, or 4 lanes, it gives −1 and changes nothing
else. R355, R361: JOIN ends a forked hart with its value, HALT a hart of the launch, when their jobs are over; HALT's wait is at SYSTEM
scope, so that the dirty copies of tier 1 are sent to the pool (R233), every one by the model's reading (log 6). R315: what a
conversion or a command still owes their token FIFOs is dropped. R356: JOINL
joins a child's lanes back, or gives −1. R359, R360: GSYNC waits at the barrier; YIELD gives up the hart's turn at
the unit classes, and pauses. -/
def Obligations.HartLife : Prop :=
  (∀ (f : IForm) (s : State) (c : Nat) (t : Int), s.me.guardOn f.g f.gn = true → s.me.viq = [] → s.me.tstat.inh = false →
    t = s.me.pc.toNat + f.imm.toInt * 4 → Spec.targetOk t →
    let h := s.me
    let g := s.gang h.gang
    let half := h.count.toNat / 2
    let s1 := Fp.srStep h.srseed
    (s.freeContext (s.cur / 8) = none ∨ h.count = 4 → exec (.fork f) s = .next (s.after (h.setX f.rd.toNat (-1)) 4)) ∧
    (s.freeContext (s.cur / 8) = some c → h.count ≠ 4 → g.gbar.arrived ≠ g.gbar.expect ∨ g.gbar.expect = 0 →
      ∃ child : Hart, child.run = .running ∧ child.pc = BitVec.ofInt 64 t ∧
        (∀ r, child.getX r = if r = f.rd.toNat ∧ r ≠ 0 then BitVec.ofNat 64 (s.cur % 8) else h.getX r) ∧ child.g = h.g ∧
        child.h = h.h ∧ child.first = h.first + BitVec.ofNat 5 half ∧ child.count = BitVec.ofNat 6 half ∧
        child.vcfg = h.vcfg ∧ child.vl = 0 ∧ child.vstart = 0 ∧ child.v = [] ∧ child.m = [] ∧ child.flags = h.flags ∧
        child.dyn = h.dyn ∧ child.srseed = Fp.srStep s1 ∧ child.tvec = h.tvec ∧ child.tstat = h.tstat ∧
        child.asid = h.asid ∧ child.ptbase = h.ptbase ∧ child.keydom = h.keydom ∧ child.fqbase = h.fqbase ∧
        child.gang = h.gang ∧ child.parent = some s.cur ∧ child.member = false ∧ child.fstk = [] ∧ child.viq = [] ∧
        exec (.fork f) s = .next (((s.putHart (s.cur / 8 * 8 + c) child).putGang h.gang
          { g with gbar := { g.gbar with next := g.gbar.next + 1 } }).after
          (({ h with count := BitVec.ofNat 6 half, srseed := s1, v := [], m := [], badv := [] } : Hart).setX f.rd.toNat
            (BitVec.ofNat 64 c)) 4))) ∧
  (∀ (s : State), s.me.viq = [] → s.copiesDone s.cur = true → s.me.leases.all s.slotQuiet = true →
    (∀ p ∈ s.streamsOf s.cur, ∀ x, Tab.find s.streams p.1 = some x → x.kind ≠ .paged ∨ x.rowsDone = x.progDone) →
    ∃ s1, endJobs s = .ok () s1) ∧
  (∀ (s : State), s.me.viq ≠ [] ∨ s.copiesDone s.cur = false ∨ s.me.leases.all s.slotQuiet = false →
    endJobs s = .error .wait s) ∧
  (∀ (f : IForm) (s s1 s2 : State), s.me.guardOn f.g f.gn = true → s.me.ready f.regs = true → s.me.tstat.inh = false →
    s.me.parent ≠ none → s.children s.cur = [] → endJobs s = .ok () s1 →
    ∀ s0, dropTokens s1.cur s1 = .ok () s0 →
    leaveBarrier s1.me.gang s1.me.member (s0.putHart s1.cur { s1.me with
      run := .joined ((s1.me.getX f.rs1.toNat).setWidth 32), v := [], m := [], badv := [], tokens := [], resv := [] }) = .ok () s2 →
    exec (.join f) s = .next s2) ∧
  (∀ (f : IForm) (s s1 s2 s3 s4 : State), s.me.guardOn f.g f.gn = true → s.me.ready f.regs = true → s.me.tstat.inh = false →
    s.me.parent = none → s.children s.cur = [] → endJobs s = .ok () s1 →
    (∀ b ∈ s1.banks, b.hart ≠ s1.cur ∨ b.gang ≠ s1.me.gang) → ∀ s0, flushPool s1 = .ok () s0 → clearHart s1.cur s0 = .ok () s2 →
    leaveBarrier s1.me.gang s1.me.member s2 = .ok () s3 →
    (s3.gangHarts s1.me.gang ≠ [] → exec (.halt f) s = .next s3) ∧
    (s3.gangHarts s1.me.gang = [] → endGang s1.me.gang s3 = .ok () s4 → exec (.halt f) s = .next s4)) ∧
  -- each completes where nothing of the hart's is under way
  (∀ (f : IForm) (s : State), s.me.guardOn f.g f.gn = true → s.me.tstat.inh = false → s.children s.cur = [] → s.me.viq = [] →
    s.copiesDone s.cur = true → s.me.leases.all s.slotQuiet = true →
    (∀ p ∈ s.streamsOf s.cur, ∀ x, Tab.find s.streams p.1 = some x → x.kind ≠ .paged ∨ x.rowsDone = x.progDone) →
    (s.me.parent ≠ none → ∃ s1 s0 s2, endJobs s = .ok () s1 ∧ dropTokens s1.cur s1 = .ok () s0 ∧
      leaveBarrier s1.me.gang s1.me.member (s0.putHart s1.cur { s1.me with
        run := .joined ((s1.me.getX f.rs1.toNat).setWidth 32), v := [], m := [], badv := [], tokens := [], resv := [] }) = .ok () s2 ∧
      exec (.join f) s = .next s2) ∧
    (s.me.parent = none → (∀ b ∈ s.banks, b.hart ≠ s.cur ∨ b.gang ≠ s.me.gang) →
      ∃ s1 s0 s2 s3 s4, endJobs s = .ok () s1 ∧ flushPool s1 = .ok () s0 ∧ clearHart s1.cur s0 = .ok () s2 ∧
        leaveBarrier s1.me.gang s1.me.member s2 = .ok () s3 ∧
        (if s3.gangHarts s1.me.gang = [] then endGang s1.me.gang else pure ()) s3 = .ok () s4 ∧ exec (.halt f) s = .next s4)) ∧
  (∀ (f : IForm) (s : State), s.me.guardOn f.g f.gn = true → s.me.viq = [] → s.me.tstat.inh = false →
    let h := s.me
    let n := h.count.toNat
    let holders := s.laneHolders (s.cur / 8) (h.first.toNat + n) n
    (n = 32 ∨ h.first.toNat % (2 * n) ≠ 0 ∨ (holders.map fun k => (s.hart k).count.toNat).sum ≠ n ∨
      (∃ k ∈ holders, s.isAncestor s.cur 8 k = false) → exec (.joinl f) s = .next (s.after (h.setX f.rd.toNat (-1)) 4)) ∧
    (∀ k v, n ≠ 32 → h.first.toNat % (2 * n) = 0 → holders = [k] → (s.hart k).count.toNat = n →
      s.isAncestor s.cur 8 k = true → (s.hart k).run = .joined v → ∃ s1, clearHart k s = .ok () s1 ∧
      let c := s.hart k
      exec (.joinl f) s = .next (s1.after (({ h with
        count := BitVec.ofNat 6 (2 * n), v := [], m := [], badv := [], tflags := h.tflags ||| c.tflags,
        flags := h.flags ||| c.flags
        ufcount := BitVec.ofNat 64 (min (h.ufcount.toNat + c.ufcount.toNat) (2 ^ 64 - 1)) } : Hart).setX f.rd.toNat
        (v.setWidth 64)) 4))) ∧
  (∀ (f : IForm) (s : State), s.me.guardOn f.g f.gn = true → s.me.viq = [] →
    let h := s.me
    let g := s.gang h.gang
    let b := if h.member then { g.gbar with arrived := g.gbar.arrived + 1 } else { g.gbar with early := g.gbar.early + 1 }
    let w := s.putHart s.cur { h with run := .barrier h.member }
    (b.arrived ≠ b.expect ∨ b.expect = 0 → exec (.gsync f) s = .next (w.putGang h.gang { g with gbar := b })) ∧
    (b.arrived = b.expect → b.expect ≠ 0 → b.early ≠ b.next ∨ b.next = 0 → exec (.gsync f) s = .next (releaseGang
      (w.putGang h.gang { g with gbar := { b with phase := b.phase + 1, expect := b.next, arrived := b.early, early := 0 } })
      h.gang 1))) ∧
  (∀ (f : IForm) (s : State), s.me.guardOn f.g f.gn = true → s.me.ready f.regs = true → exec (.yield f) s =
    .next ((s.giveTurn s.cur).after (if f.imm = 0 then s.me else { s.me with run := .yielding (s.clock + f.imm.toNat) }) 4)) ∧
  (∀ (s : State), { s.giveTurn s.cur with issuePtr := s.issuePtr } = s ∧ ∀ core u, u < 8 →
    let p := Tab.get 0 s.issuePtr (core * 8 + u)
    Tab.get 0 (s.giveTurn s.cur).issuePtr (core * 8 + u) = if core = s.cur / 8 ∧ p = s.cur % 8 then (s.cur % 8 + 1) % 8 else p)

/-- R317, R318, R360, R362, R436: WAITA completes when its word differs or it was woken, and sleeps otherwise; the wake, the
timeout, NOTIFY and the end of a pause change only what a hart waits for; WMWAIT completes when its word has reached its bound
and is read again until then, by the hart or by WATERMARK PASS, which does nothing where no hart waits so. The results of WAITA
and WMWAIT are written over what the queue was to write there (R108; log 21), and a clock of the timeout is a step (log 9): the
model’s choices. -/
def Obligations.WaitResult : Prop :=
  (∀ (f : SForm) (s s1 s2 : State) (acc : Access) (v : Nat), s.me.guardOn f.g f.gn = true → s.me.ready f.regs = true →
    let n := 4 * (1 + f.fn.toNat / 8)
    let a : Int := (s.me.getX f.rs1.toNat).toNat
    checkAccess (s.ctx s.cur) a n n .read s = .ok acc s1 → readAccess (s.ctx s.cur) true false acc s1 = .ok v s2 →
    let h := s2.me.narrowIf (narrows a (f.fn.toNat % 8))
    let same := v = (h.getX f.rs2.toNat).toNat % 2 ^ (8 * n)
    (h.run = .woken ∨ ¬same → exec (.waita f) s = .next (s2.after
      (({ h with run := .running } : Hart).setXNow f.rd.toNat (BitVec.ofNat 64 v)) 4)) ∧
    (h.run ≠ .woken → same → exec (.waita f) s = .next (s2.putHart s2.cur
      { h with run := .asleep (accessLine acc) (s2.clock + 2 ^ 20) }))) ∧
  (∀ (k line t : Nat) (s : State), (s.hart k).run = .asleep line t →
    exec (.waitaWake k) s = .next (s.putHart k { s.hart k with run := .woken }) ∧
    (t ≤ s.clock → exec (.waitaTimeout k) s = .next (s.putHart k { s.hart k with run := .woken })) ∧
    (s.clock < t → exec (.waitaTimeout k) s = .next s)) ∧
  (∀ (k t : Nat) (s : State), (s.hart k).run = .yielding t →
    (t ≤ s.clock → exec (.yieldExpiry k) s = .next (s.putHart k { s.hart k with run := .running })) ∧
    (s.clock < t → exec (.yieldExpiry k) s = .next s)) ∧
  (∀ (v : Word) (s : State), s.port.state = 1 → s.port.cmds = [] → v.toNat ≤ 383 ∨ v.toNat = 0xFFFF → ∃ l,
    l.map (·.1) = s.harts.map (·.1) ∧
    (∀ p ∈ s.harts.zip l, p.2.2 = match p.1.2.run with
      | .asleep .. => if v.toNat = 0xFFFF ∨ p.1.1 / 8 = v.toNat then { p.1.2 with run := .woken } else p.1.2
      | _ => p.1.2) ∧
    exec (.notify v) s = .next { s with harts := l, port := { s.port with cdone := s.port.cdone + 1 } }) ∧
  (∀ (f : SForm) (s s1 : State) (v : Nat), s.me.guardOn f.g f.gn = true → s.me.ready f.regs = true →
    let a : Int := (s.me.getX f.rs1.toNat).toNat
    load (s.ctx s.cur) a 8 8 s = .ok v s1 →
    let h := s1.me.narrowIf (narrows a f.fn.toNat)
    ((s1.me.getX f.rs2.toNat).toNat ≤ v → exec (.wmwait f) s = .next (s1.after (h.setXNow f.rd.toNat (BitVec.ofNat 64 v)) 4)) ∧
    (v < (s1.me.getX f.rs2.toNat).toNat → narrows a f.fn.toNat = false → exec (.wmwait f) s = .next s1)) ∧
  (∀ (k : Nat) (s : State),
    (∀ e, s.headOf k = some e → e.isSetvlw = false → exec (.watermarkPass k) s = .next s) ∧
    (s.headOf k = none → s.runs k = false → exec (.watermarkPass k) s = .next s) ∧
    (∀ f s1, s.headOf k = none → s.runs k = true → fetchAt { s with cur := k } = (.instr (.wmwait f), s1) →
      (∀ s2, exec (.wmwait f) s1 = .next s2 → exec (.watermarkPass k) s = .next { s2 with cur := s.cur }) ∧
      -- a word in the hart's own scratchpad that has reached its bound, or has not
      (let a := (s1.me.getX f.rs1.toNat).toNat
       let v := s1.scratch.readN (s1.scratchAt a) 8
       let h := s1.me.narrowIf (decide (3 ≤ f.fn.toNat))
       s1.me.guardOn f.g f.gn = true → s1.me.viq = [] → s1.ownScratch a 8 → a % 8 = 0 → s1.plainScratch (s1.scratchAt a) 8 →
       exec (.watermarkPass k) s = .next { (if (s1.me.getX f.rs2.toNat).toNat ≤ v then
           s1.after (h.setX f.rd.toNat (BitVec.ofNat 64 v)) 4 else s1.putHart s1.cur h) with cur := s.cur })))

/-- R345, R365 to R370, R436: LAUNCH appends a checked copy of its record to a queue open to it and gives its ticket, gives −1
when the ring is full, and traps 0x07 for a queue closed to it; PREEMPT gives the gangs it stops, zero at once for an idle core,
and traps 0x06 for a core that does not exist; a request is merged with the one under way, a halted core's gangs are saved and
its request is over. The ticket and the counts are written over what the queue was to write there, by the model’s choice (R108;
log 21); the counts of PREEMPT, and the end of the task whose context save faults, are its reading (log 19). A SYSTEM scope
sends every dirty copy of the pool there, by its reading too (log 6). -/
def Obligations.LaunchAndPreempt : Prop :=
  (∀ (f : SForm) (s s1 : State) (r : Nat), s.me.guardOn f.g f.gn = true → s.me.viq = [] →
    let h := s.me
    let q := (h.getX f.rs2.toNat).toNat % 64
    load (s.ctx s.cur) (h.getX f.rs1.toNat).toNat 128 128 s = .ok r s1 →
    let x := s1.queue q
    let full := ringRecords x.qring ≤ x.qtail.toNat - x.qhead.toNat
    (x.devlaunch = false → s1.me.catches → exec (.launch f) s = .next (s1.trapped 0x07 0 (BitVec.ofNat 64 q))) ∧
    (x.devlaunch = true → full → exec (.launch f) s = .next (s1.after (s1.me.setX f.rd.toNat (-1)) 4)) ∧
    (x.devlaunch = true → ¬full → ∀ s0 s2, atScope (f.fn.toNat % 8) s1 = .ok () s0 →
      writeOwn (slotPa x.qring x.qtail.toNat) 128 (if h.isS then r
        else setBits (setBits r 0x120 16 h.asid.toNat) 0x140 64 h.keydom.toNat) s0 = .ok () s2 →
      exec (.launch f) s = .next (State.after { s2 with port := { s2.port with
        queues := Tab.put {} s2.port.queues q { s2.queue q with qtail := (s2.queue q).qtail + 1 } } }
        (s2.me.setX f.rd.toNat (BitVec.ofNat 64 (q + 64 * x.qtail.toNat))) 4))) ∧
  (∀ (f : SForm) (s : State), s.me.guardOn f.g f.gn = true → s.me.ready f.regs = true → s.me.isS = true →
    let h := s.me
    let core := (h.getX f.rs1.toNat).toNat
    let n := (s.gangsOn core).length
    let spill := f.fn.getLsbD 0
    (∀ k, h.answer = some k → exec (.preempt f) s =
      .next (s.after (({ h with answer := none } : Hart).setXNow f.rd.toNat (BitVec.ofNat 64 k)) 4)) ∧
    (h.answer = none → 383 < core → h.catches → exec (.preempt f) s = .next (s.trapped 0x06 0 (h.getX f.rs1.toNat))) ∧
    (h.answer = none → core ≤ 383 → n = 0 → exec (.preempt f) s = .next (s.after (h.setXNow f.rd.toNat 0) 4)) ∧
    (h.answer = none → core ≤ 383 → n ≠ 0 → core = s.cur / 8 → ∀ s1, requestPreempt core spill [] s = .ok () s1 →
      exec (.preempt f) s = .next (s1.after (h.setXNow f.rd.toNat (BitVec.ofNat 64 n)) 4)) ∧
    (h.answer = none → core ≤ 383 → n ≠ 0 → core ≠ s.cur / 8 → Tab.find s.preempts core = none →
      exec (.preempt f) s = .next { s with preempts := Tab.set s.preempts core { spill := spill, waiters := [s.cur] } })) ∧
  (∀ (core : Nat) (spill : Bool) (s : State), core ≤ 383 → s.gangsOn core ≠ [] →
    let p := (Tab.find s.preempts core).getD {}
    let t := { s with preempts := Tab.set s.preempts core { p with spill := p.spill || spill } }
    exec (.preemptionRequest core spill) s = .next t ∧
    (s.port.state = 1 → s.port.cmds = [] → ∀ v : Word, v.toNat = core + (if spill then 512 else 0) → exec (.hostPreempt v) s =
      .next { t with port := { t.port with cdone := t.port.cdone + 1 } })) ∧
  (∀ (core : Nat) (p : Preempting) (s : State), Tab.find s.preempts core = some p → p.halted = none → ∃ t,
    exec (.preemptionHalt core) s = .next t ∧ ((Tab.find t.preempts core).bind (·.halted)).isSome = true ∧
    (Tab.find t.preempts core).map (·.waiters) = some [] ∧
    (∀ x ∈ t.harts, x.1 / 8 = core → x.2.run ≠ .woken ∧ (∀ l u, x.2.run ≠ .asleep l u) ∧ ∀ u, x.2.run ≠ .yielding u) ∧
    -- with nothing queued on the core
    ((∀ k, k / 8 = core → (s.hart k).viq = []) → (Tab.find t.preempts core).bind (·.halted) = some (s.gangsOn core).length ∧
      t.mem = s.mem ∧ t.scratch = s.scratch ∧ t.gangs = s.gangs ∧ t.harts = s.harts.map fun (k, h) =>
        if k / 8 = core then (k, h.atHalt)
        else if p.waiters.contains k && h.run = .running then (k, { h with answer := some (s.gangsOn core).length })
        else (k, h))) ∧
  (∀ (core n : Nat) (p : Preempting) (s s1 : State), Tab.find s.preempts core = some p → p.halted = some n →
    forAll (s.gangsOn core) (saveGang core p.spill) s = .ok () s1 →
    exec (.contextSave core) s = .next { s1 with preempts := Tab.erase s1.preempts core }) ∧
  (∀ (core key : Nat) (spill : Bool) (s s0 s1 : State) (t : Task), s.gang key ≠ {} → Tab.find s.tasks (s.gang key).task = some t →
    -- the PROG that paused jobs owe is stored first
    forAll ((s.gangHarts key).flatMap fun k => (s.streamsOf k).map (·.1)) (fun k => do let _ ← caught (storeProg k)) s = .ok () s0 →
    let g := s.gang key
    let hs := (s0.gangHarts key).map fun k => (k, s0.hart k)
    let cols := s0.columns core (laneMask (hs.map (·.2)))
    (∀ e, storeImage (t.ctx g.task) (g.imageBase t spill) g spill hs cols.1 s0 = .error e s1 →
      saveGang core spill key s = endTask g.task 4 s1) ∧
    (∀ image, storeImage (t.ctx g.task) (g.imageBase t spill) g spill hs cols.1 s0 = .ok image s1 →
    ∃ t', saveGang core spill key s = .ok () t' ∧ (t'.gang key).suspended = true ∧ (t'.gang key).spilled = spill ∧
      (t'.gang key).since = s1.clock ∧ (t'.gang key).tile = cols.1 ∧ (t'.gang key).image = image ∧
      (t'.gang key).saved.map (fun x => (x.ctx, x.hart)) = hs.map (fun (k, h) => (k % 8, { h with splits := [] })) ∧
      ∀ k ∈ s0.gangHarts key, t'.hart k = {}))

/-! ### Keys, counts and translations -/

/-- R393, R394: KDNEW makes the lowest FREE slot LIVE with fresh keys at the next generation and gives its KEYDOM, or −1;
KDNEW.RECYCLE makes a SPENT slot LIVE at generation 1; KDEND ends the domain it names, whose copies and translations go once
the commands, collectives and page moves under it have drained, with result 0, or gives 1 for a domain that is not LIVE and 2
for slot 0. -/
def Obligations.KeyDomainResult : Prop := ∀ (f : SForm) (s : State),
  s.me.guardOn f.g f.gn = true → s.me.viq = [] → s.me.isS = true →
  let h := s.me
  let v := (h.getX f.rs1.toNat).toNat
  let live (n gen : Nat) : State := { s.putSlot n { state := .live, gen := BitVec.ofNat 4 gen, key := s.keys } with keys := s.keys + 1 }
  (∀ n, (List.range 4096).find? (fun n => n ≠ 0 && (s.keySlot n).state = .free) = some n →
    let gen := (s.keySlot n).gen.toNat + 1
    exec (.kdnew f) s = .next ((live n gen).after (h.setX f.rd.toNat (BitVec.ofNat 64 (n + 4096 * gen))) 4)) ∧
  ((∀ n < 4096, n ≠ 0 → (s.keySlot n).state ≠ .free) → exec (.kdnew f) s = .next (s.after (h.setX f.rd.toNat (-1)) 4)) ∧
  (v < 4096 → (s.keySlot v).state = .spent → exec (.kdnewRecycle f) s =
    .next ((live v 1).after (h.setX f.rd.toNat (BitVec.ofNat 64 (v + 4096))) 4)) ∧
  (v < 4096 → (s.keySlot v).state ≠ .spent → exec (.kdnewRecycle f) s = .next (s.after (h.setX f.rd.toNat (-1)) 4)) ∧
  (h.ending = none → v < 2 ^ 16 → v % 4096 = 0 → exec (.kdend f) s = .next (s.after (h.setX f.rd.toNat 2) 4)) ∧
  (h.ending = none → v < 2 ^ 16 → v % 4096 ≠ 0 →
    (s.keySlot (v % 4096)).state ≠ .live ∨ (s.keySlot (v % 4096)).gen.toNat ≠ v / 4096 →
    exec (.kdend f) s = .next (s.after (h.setX f.rd.toNat 1) 4)) ∧
  (let n := v % 4096
   let key := s.pkg * 4096 + n
   let started := (s.putSlot n { s.keySlot n with state := .ending }).putHart s.cur { h with ending := some f }
   let ends (gen : Nat) : Prop := ∃ t : State, exec (.kdend f) s = .next (t.after (({ h with ending := none } : Hart).setX f.rd.toNat 0) 4) ∧
      (t.keySlot n).state = (if gen = 15 then .spent else .free) ∧
      (∀ x ∈ t.tlb, x.key ≠ key) ∧ (∀ x ∈ t.sectors, x.2.domain.kslot ≠ key) ∧
      (∀ m < 4096, m ≠ n → t.keySlot m = s.keySlot m) ∧ t.mem = s.mem ∧ (∀ k ≠ s.cur, t.hart k = s.hart k) ∧ t.keys = s.keys
   (h.ending = none → v < 2 ^ 16 → n ≠ 0 → (s.keySlot n).state = .live → (s.keySlot n).gen.toNat = v / 4096 →
      (started.keyHeld key = true → exec (.kdend f) s = .next started) ∧ (started.keyHeld key = false → ends (v / 4096))) ∧
   (∀ f', h.ending = some f' →
      (s.keyHeld key = true → exec (.kdend f) s = .next s) ∧ (s.keyHeld key = false → ends (s.keySlot n).gen.toNat)))

/-- R386, R389: PGREF adds one to a frame's COUNT and gives it, −1 at the top; PGREF.NEW and PGREF.SEAL take a frame of COUNT 0
with a seal and give the seal, else −1; PGUNREF lowers the COUNT and gives it, −1 at 0, where the entry, and the free-frame
queue that takes a frame of COUNT 1, read without a data error (R400; log 15); a frame not covered by a census is an address
fault. The result is written over what the queue was to write there, by the model’s choice (R108; log 21). -/
def Obligations.PageCountResult : Prop := ∀ (f : SForm) (s s0 s1 s2 s3 s4 : State) (c : Nat),
  s.me.guardOn f.g f.gn = true → s.me.ready f.regs = true → s.me.isS = true →
  let v := s.me.getX f.rs1.toNat
  let pa := v.toNat
  let ok := pa < 2 ^ 52 ∧ s.present (paPkg pa) = true ∧ s.covered pa = true
  let done (t : State) (r : Word) := Host.Outcome.next (φ := Fault) (ρ := Refusal) (t.after (t.me.setXNow f.rd.toNat r) 4)
  (¬ok → s.me.catches → ∀ op ∈ [Instr.pgref, .pgrefNew, .pgrefSeal, .pgunref], exec (op f) s = .next (s.trapped 0x04 0 v)) ∧
  (ok → checkCount (s.ctx s.cur) pa pa s = .ok () s0 → readCount pa s0 = .ok c s1 →
    (c ≠ 2 ^ 32 - 1 → writeCount pa (c + 1) s1 = .ok () s2 → exec (.pgref f) s = done s2 (BitVec.ofNat 64 (c + 1))) ∧
    (c = 2 ^ 32 - 1 → exec (.pgref f) s = done s1 (-1)) ∧
    (c = 0 → writeCount pa 1 s1 = .ok () s2 → writeSeal pa ((s.me.getX f.rs2.toNat).toNat % 2 ^ 32) s2 = .ok () s3 →
      exec (.pgrefSeal f) s = done s3 (BitVec.ofNat 64 ((s.me.getX f.rs2.toNat).toNat % 2 ^ 32))) ∧
    (c ≠ 0 → exec (.pgrefSeal f) s = done s1 (-1)) ∧
    (c = 0 → exec (.pgunref f) s = done s1 (-1)) ∧
    (c ≠ 0 → (if c = 1 then checkFreeq (s1.ctx s1.cur) pa (paPkg pa) else pure ()) s1 = .ok () s4 → dropCount pa s4 = .ok () s2 →
      exec (.pgunref f) s = done s2 (BitVec.ofNat 64 (c - 1)))) ∧
  (ok → checkCount (s.ctx s.cur) pa pa s = .ok () s0 → readCount pa { s0 with fresh := s0.fresh + 1 } = .ok c s1 →
    (c = 0 → writeCount pa 1 s1 = .ok () s2 → writeSeal pa (Config.drbgSeal s0.fresh).toNat s2 = .ok () s3 →
      exec (.pgrefNew f) s = done s3 ((Config.drbgSeal s0.fresh).setWidth 64)) ∧
    (c ≠ 0 → exec (.pgrefNew f) s = done s1 (-1)))

/-- R379, R387, R388, R390, R396 to R398, R436: TLBINV and INVPAGE remove the translations they name and no other, once nothing
under way holds them; PTSET writes its entry when it holds the expected value, gives what it held, and removes the translations
of its region. MIGR checks the leaf and the frame, then the counts, holds the page by a compare-and-swap, copies its ciphertext
and its seal, moves its count and rewrites the leaf, with the result codes of R390. A copy-on-write page with its only owner is
rewritten in place; else a free frame takes a count, a seal and a copy, and the leaf is rewritten by compare-and-swap: one count
goes with the old frame, or the new frame is given back; the page's translations go. All of it is where the census and the
free-frame queue read without a data error (R400; log 15), and once nothing under way holds a translation to the frame, of
whichever address space. MIGR and PTSET write over what the queue was to write there, by the model’s choice (R108; log 21). -/
def Obligations.TranslationControl : Prop :=
  (∀ (f : SForm) (s : State), s.me.guardOn f.g f.gn = true → s.me.viq = [] → s.me.isS = true →
    let a := (s.me.getX f.rs1.toNat).toNat
    let va := (s.me.getX f.rs2.toNat).toNat
    let without (p : TlbEntry → Bool) : State := { s with tlb := s.tlb.filter fun t => !p t }
    (a < 2 ^ 16 → s.xlatHeld (fun x => x.toNat = a) (fun x v => x.toNat = a && pageOf true v = pageOf true va) = false →
      exec (.tlbinvPage f) s = .next ((without fun t =>
        t.asid.toNat = a && t.page = va % 2 ^ 56 / 2 ^ (if t.big then 29 else 16)).after s.me 4)) ∧
    (a < 2 ^ 16 → s.xlatHeld (fun x => x.toNat = a) (fun x _ => x.toNat = a) = false →
      exec (.tlbinvAsid f) s = .next ((without fun t => t.asid.toNat = a).after s.me 4)) ∧
    (s.xlatHeld (fun _ => true) (fun _ _ => true) = false →
      exec (.tlbinvAll f) s = .next (State.after { s with tlb := [] } s.me 4)) ∧
    (s.xlatHeld (fun _ => true) (fun _ _ => true) = true → exec (.tlbinvAll f) s = .next s)) ∧
  (∀ (asid va pod : Word) (s : State), s.port.state = 1 → s.port.cmds = [] → asid.toNat < 2 ^ 16 → pod.toNat < 2 →
    let held := s.xlatHeld (fun x => x.toNat = asid.toNat) fun x v => x.toNat = asid.toNat && pageOf true v = pageOf true va.toNat
    ∃ t, exec (.invpage asid va pod) s = .next t ∧ t.harts = s.harts ∧ t.mem = s.mem ∧ t.sectors = s.sectors ∧
      (held = false → t.tlb = s.tlb.filter (fun t => !t.covers asid.toNat va.toNat) ∧ t.port.cdone = s.port.cdone + 1) ∧
      (held = true → t.tlb = s.tlb ∧ t.port.cdone = s.port.cdone ∧ t.port.cmds = [(0x030, pod)])) ∧
  (∀ (f : SForm) (s s1 s2 s3 s4 : State) (b old : Nat) (acc : Access), s.me.guardOn f.g f.gn = true → s.me.viq = [] →
    s.me.isS = true →
    let c := s.ctx s.cur
    let level := bits b 215 208
    let asid := bits b 207 192
    let entry := bits b 127 64
    let region (v : Nat) := v % 2 ^ 56 / 2 ^ regionLog level
    load c (s.me.getX f.rs1.toNat).toNat 32 32 s = .ok b s1 → 1 ≤ level → level ≤ 3 → b / 2 ^ 216 = 0 →
    ptsetPlace c (b % 2 ^ 64) s1 = .ok acc s2 → s2.me.viq = [] → readAccess c true true acc s2 = .ok old s3 →
    (old ≠ (s3.me.getX f.rd.toNat).toNat →
      exec (.ptset f) s = .next (s3.after (s3.me.setXNow f.rd.toNat (BitVec.ofNat 64 old)) 4)) ∧
    (old = (s3.me.getX f.rd.toNat).toNat →
      s3.xlatHeld (fun x => x.toNat = asid) (fun x v => x.toNat = asid && region v = region (bits b 191 128)) = false →
      writeAccess c true false entry acc s3 = .ok () s4 → exec (.ptset f) s =
      .next (State.after { s4 with tlb := s4.tlb.filter fun t => !t.inRegion asid level (bits b 191 128) }
        (s4.me.setXNow f.rd.toNat (BitVec.ofNat 64 old)) 4))) ∧
  -- MIGR
  ((∀ (f : SForm) (s s1 : State) (r : Nat), s.me.guardOn f.g f.gn = true → s.me.viq = [] → s.me.isS = true →
      let va := s.me.getX f.rs1.toNat
      canonical va.toNat = true → inScratchRegion va.toNat = false →
      migrBody (s.ctx s.cur) f va.toNat ((s.me.getX f.rs2.toNat).toNat / 65536 * 65536) s = .ok r s1 →
      exec (.migr f) s = .next (s1.after (({ s1.me with move := none } : Hart).setXNow f.rd.toNat (BitVec.ofNat 64 r)) 4)) ∧
    (∀ (f : SForm) (s : State), s.me.guardOn f.g f.gn = true → s.me.viq = [] → s.me.isS = true → s.me.move = none →
      let va := (s.me.getX f.rs1.toNat).toNat
      let dst := (s.me.getX f.rs2.toNat).toNat / 65536 * 65536
      let c := s.ctx s.cur
      let ends (r : Nat) (t : State) : Prop :=
        exec (.migr f) s = .next (t.after (({ t.me with move := none } : Hart).setXNow f.rd.toNat (BitVec.ofNat 64 r)) 4)
      canonical va = true → inScratchRegion va = false →
      (∀ d a v p w x s1, walk c va .read s = .error (.park 0x10 d a v p w x) s1 → ends 1 s1) ∧
      (∀ fd s1, walk c va .read s = .ok fd s1 →
        let src := leafFrame fd.leaf * 65536
        let leafOk := fd.big = false ∧ leafTier fd.leaf ≠ 2 ∧ leafBit fd.leaf 5 = false ∧ s1.leafForm false fd.leaf va = true
        let dstOk := dst < 2 ^ 52 ∧ s1.covered dst = true ∧ paPkg dst = paPkg src
        (¬leafOk → ends 1 s1) ∧ (leafOk → ¬dstOk → ends 4 s1) ∧
        (leafOk → dstOk → ∀ t1, checkCount c va src s1 = .ok () t1 → ∃ a s2, readCount src t1 = .ok a s2 ∧ (a ≠ 1 → ends 2 s2) ∧
          (a = 1 → ∀ t2, checkCount c va dst s2 = .ok () t2 → ∃ b s3, readCount dst t2 = .ok b s3 ∧ (b ≠ 0 → ends 4 s3) ∧
            (b = 0 → ∀ t3, checkFreeq c va (paPkg src) s3 = .ok () t3 →
              ∃ o s4, casOwn fd.at_ fd.leaf (setBits fd.leaf 5 1 1) t3 = .ok o s4 ∧ (o = false → ends 3 s4) ∧
              (o = true →
                let m : Move := ⟨f, va, setBits fd.leaf 5 1 1, fd.at_, src, dst⟩
                let s5 := State.putHart { s4 with tlb := s4.tlb.filter fun t => !(t.leafPa = fd.at_ || t.covers c.h.asid.toNat va) }
                  s4.cur { s4.me with move := some m }
                s4.plan.hold = [] → s5.frameHeld src = false →
                ∃ r s6, finishMove c.who m s5 = .ok r s6 ∧ ends r s6)))))) ∧
    (∀ (w : Who) (m : Move) (s : State), s.frameHeld m.src = false → ∃ s1 s2 s3 s4 s5 o s7,
      (forAll (List.range 512) fun i => maintLine .cflr (m.src / 128 + i)) s = .ok () s1 ∧
      (let d := { s1.domainAt (s1.leafKeySlot false m.leaf m.va) m.src with sealv := s1.sealOf m.src }
       (forAll (List.range 2048) fun i => do
         moveGranule w (m.src / 32 + i) (m.dst / 32 + i)
         copyViews (m.src / 32 + i) (m.dst / 32 + i) d d) s1 = .ok () s2) ∧
      writeCount m.dst 1 s2 = .ok () s3 ∧ writeSeal m.dst (s1.sealOf m.src) s3 = .ok () s4 ∧ writeCount m.src 0 s4 = .ok () s5 ∧
      casOwn m.at_ m.leaf (setBits (setBits (setBits m.leaf 16 36 (m.dst / 2 ^ 16)) 6 2 (paPool m.dst)) 5 1 0) s5 = .ok o s7 ∧
      (o = true → ∃ s8, addFree m.src s7 = .ok () s8 ∧ finishMove w m s = .ok 0 s8) ∧
      (o = false → ∃ s8 s9, writeCount m.dst 0 s7 = .ok () s8 ∧ writeCount m.src 1 s8 = .ok () s9 ∧ finishMove w m s = .ok 3 s9)) ∧
    (∀ (w : Who) (src dst : Nat) (s : State), Tab.get .none s.dram src = .none → ∃ t, moveGranule w src dst s = .ok () t ∧
      t.mem.readN (dst * 32) 32 = s.mem.readN (src * 32) 32 ∧ (dst ∈ t.poison ↔ src ∈ s.poison) ∧
      Tab.find t.domains dst = Tab.find s.domains src ∧ t.sectors = s.sectors ∧
      ∀ b, b < dst * 32 ∨ dst * 32 + 32 ≤ b → t.mem.read b = s.mem.read b) ∧
    (∀ (pa old new : Nat) (s : State), ∃ v s1, readOwn pa 8 s = .ok v s1 ∧ (v ≠ old → casOwn pa old new s = .ok false s1) ∧
      (v = old → ∃ s2, writeOwn pa 8 new s1 = .ok () s2 ∧ casOwn pa old new s = .ok true s2))) ∧
  -- the copy-on-write sequence
  ((∀ (k : Nat) (va : Word) (s : State), ∃ t, exec (.copyOnWrite k va) s = .next t) ∧
    (∀ (k : Nat) (va : Word) (fd : Found) (s s1 s2 : State), canonical va.toNat = true → inScratchRegion va.toNat = false →
      findLeaf (s.ctx k) va.toNat .write s = .ok fd s1 → checkLeaf (s.ctx k) va.toNat .write fd s1 = .ok () s1 →
      leafTier fd.leaf ≠ 2 → leafBit fd.leaf 4 = true → fd.big = false → leafBit fd.leaf 5 = false →
      copyOnWrite (s.ctx k) va.toNat fd s1 = .ok () s2 → exec (.copyOnWrite k va) s = .next s2) ∧
    (∀ (k : Nat) (va : Word) (x : TlbEntry) (s : State), canonical va.toNat = true → inScratchRegion va.toNat = false →
      let c := s.ctx k
      let a := va.toNat
      let l := x.leaf.toNat
      let fd : Found := ⟨false, l, x.leafPa, x.sealv, .core⟩
      let old := leafFrame l * 65536
      let own := s.pkg * 4096 + c.h.keydom.toNat % 4096
      let gen := c.h.keydom.toNat / 4096
      let same := s.leafKeySlot false l a = own ∧ leafGen l = gen
      let alone := setBits (setBits l 4 1 0) 1 1 1
      let ends (t : State) : Prop := exec (.copyOnWrite k va) s =
        .next { t with tlb := t.tlb.filter fun y => !(y.leafPa = x.leafPa || y.covers c.h.asid.toNat a) }
      s.tlb.find? (fun t => t.hits (k / 8) c.h.asid a) = some x → x.big = false → checkLeaf c a .write fd s = .ok () s →
      leafTier l ≠ 2 → leafBit l 4 = true → leafBit l 5 = false → s.frameHeld old = false →
      ∀ t0, checkCount c a old s = .ok () t0 → ∃ cnt s1, readCount old t0 = .ok cnt s1 ∧
        (cnt = 1 ∧ same → ∃ o s2, casOwn x.leafPa l alone s1 = .ok o s2 ∧ ends s2) ∧
        (¬(cnt = 1 ∧ same) → ∀ t1, (do checkFreeq c a s.pkg; if cnt = 1 then checkFreeq c a (paPkg old)) s1 = .ok () t1 →
          ∃ r s2, takeFree s.pkg t1 = .ok r s2 ∧ (r = none → exec (.copyOnWrite k va) s = .next s2) ∧
          ∀ n, r = some n → ∃ s3 s4 s5 o s6, writeCount n 1 s2 = .ok () s3 ∧
            writeSeal n (Config.drbgSeal s3.fresh).toNat { s3 with fresh := s3.fresh + 1 } = .ok () s4 ∧
            copyFrame c a old n (s4.foundDomain fd a) (s4.domainAt own n) s4 = .ok () s5 ∧
            casOwn x.leafPa l (setBits (setBits (setBits alone 16 36 (n / 2 ^ 16)) 52 12 (own % 4096)) 8 4 gen) s5 = .ok o s6 ∧
            (o = true → ∃ s7, dropCount old s6 = .ok () s7 ∧ ends s7) ∧
            (o = false → ∃ s7 s8, writeCount n 0 s6 = .ok () s7 ∧ addFree n s7 = .ok () s8 ∧ ends s8))))

/-- R373, R411: below S level every S-level instruction is illegal, and changes nothing but what taking the trap does. -/
def Obligations.PrivilegedInstructionsTrap : Prop := ∀ (f : SForm) (s : State),
  s.me.guardOn f.g f.gn = true → s.me.catches → s.me.isS = false →
  (∀ op ∈ [Instr.kdnew, .kdnewRecycle, .kdend, .pgref, .pgrefNew, .pgrefSeal, .pgunref, .tlbinvPage, .tlbinvAsid, .tlbinvAll,
    .preempt, .fqdone, .migr, .ptset], exec (op f) s = .next (s.trapped 0x01 0 (illegalValue (op f)))) ∧
  (∀ r : SrForm, 0x100 ≤ r.num.toNat → exec (.srd r) s = .next (s.trapped 0x01 0 (illegalValue (.srd r))) ∧
    exec (.swr r) s = .next (s.trapped 0x01 0 (illegalValue (.swr r))))

/-! ### The Yarder and the boundary -/

/-- R16, R53, R342 to R344, R347 to R349, R351, R369: a record is counted as it is taken; one that fails its checks is refused,
and one that passes becomes a live task at the head; a head whose watermarks have passed becomes a candidate; candidates age by
their wait; one that no other goes before is placed. Placing a gang gives it free contexts, lanes and scratchpad, all zero, its
core's L1I emptied, and each hart the registers of its record; a suspended gang whose image has not changed comes back as it was
halted. A grant changes at most once in 65,536 clocks and in the order of priority. The contexts, the lowest that are free, and
the shift of a gang at its placement are the model’s choices (log 7); that FIXID comes before the checks, and that a watermark
whose read faults refuses its record, are its readings (log 19). -/
def Obligations.YarderResult : Prop :=
  (∀ (q v : Nat) (s s1 : State), q < 64 → s.port.state = 1 → (s.queue q).en = true → (s.queue q).head = none →
    (s.queue q).qhead ≠ (s.queue q).qtail → (∀ x ∈ s.statuses, x.task.queue ≠ q) →
    readOwn (slotPa (s.queue q).qring (s.queue q).qhead.toNat) 128 s = .ok v s1 →
    let x := s.queue q
    let id := (q + 64 * x.qhead.toNat) % 2 ^ 64
    let t := x.taskOf q v
    let put (u : State) (y : Queue) : State := { u with port := { u.port with queues := Tab.put {} u.port.queues q y } }
    let taken := put s1 { s1.queue q with qhead := (s1.queue q).qhead + 1 }
    (t.record.ok = false → ∃ s2, refuseRecord t id taken = .ok () s2 ∧ exec (.launchRecordCheck q) s = .next s2) ∧
    (t.record.ok = true →
      (∀ e s2, marksPassed (t.ctx id) t.record.wms taken = .error e s2 →
        ∃ s3, refuseRecord t id s2 = .ok () s3 ∧ exec (.launchRecordCheck q) s = .next s3) ∧
      (∀ b s2, marksPassed (t.ctx id) t.record.wms taken = .ok b s2 →
        let h : Head := { record := t.record, task := id, since := if b then some s2.clock else none, level := t.record.prio }
        exec (.launchRecordCheck q) s = .next (put { s2 with tasks := Tab.set s2.tasks id t } { s2.queue q with head := some h })))) ∧
  (∀ (q : Nat) (h : Head) (t : Task) (s s1 : State), (s.queue q).head = some h → Tab.find s.tasks h.task = some t →
    h.since = none →
    let put (y : Queue) : State := { s1 with port := { s1.port with queues := Tab.put {} s1.port.queues q y } }
    (marksPassed (t.ctx h.task) h.record.wms s = .ok true s1 → exec (.watermarkRecheck q) s =
      .next (put { s1.queue q with head := some { h with since := some s1.clock, level := h.record.prio } })) ∧
    (marksPassed (t.ctx h.task) h.record.wms s = .ok false s1 → exec (.watermarkRecheck q) s = .next s1) ∧
    (∀ e, marksPassed (t.ctx h.task) h.record.wms s = .error e s1 → ∃ s2,
      refuseRecord t h.task { put { s1.queue q with head := none } with tasks := Tab.erase s1.tasks h.task } = .ok () s2 ∧
      exec (.watermarkRecheck q) s = .next s2)) ∧
  (∀ (cluster : Nat) (s : State), ∃ t, exec (.priorityAging cluster) s = .next t ∧ t.harts = s.harts ∧ t.mem = s.mem ∧
    t.tasks = s.tasks ∧
    (∀ q x, (q, x) ∈ t.port.queues → ∃ y, (q, y) ∈ s.port.queues ∧ { x with head := y.head } = y ∧
      (q / 32 ≠ cluster → x = y) ∧
      ∀ h t0, q / 32 = cluster → y.head = some h → h.since = some t0 →
        x.head = some { h with level := min 7 (h.record.prio + (s.clock - t0) / 65536) }) ∧
    (∀ k g, (k, g) ∈ t.gangs → ∃ g', (k, g') ∈ s.gangs ∧ { g with level := g'.level } = g' ∧
      (g'.suspended = true → g'.core / 192 = cluster → ∀ r, Tab.find s.tasks g'.task = some r →
        g.level = min 7 (r.record.prio + (s.clock - g'.since) / 65536)))) ∧
  (∀ (cluster core gangId : Nat) (s s1 : State), core ≤ 383 → core / 192 = cluster → age cluster s = .ok () s1 →
    (topOf (s1.waiting cluster) = [] → exec (.gangPlacement cluster core gangId) s = .next s1) ∧
    (topOf (s1.waiting cluster) ≠ [] → ∃ c ∈ topOf (s1.waiting cluster),
      (∀ h t t1, c.head = true → (s1.queue c.key).head = some h → Tab.find s1.tasks h.task = some t →
        placeNew c.key core gangId h t { s1 with fresh := s1.fresh + 1 } = .ok () t1 →
        exec (.gangPlacement cluster core gangId) s = .next t1) ∧
      (∀ t1, c.head = false → resumeGang c.key core { s1 with fresh := s1.fresh + 1 } = .ok () t1 →
        exec (.gangPlacement cluster core gangId) s = .next t1))) ∧
  (∀ (q core gangId : Nat) (h : Head) (t : Task) (s : State), s.fits core h.record = true → h.record.ok = true →
    t.record = h.record → gangId < 2 ^ 16 →
    (∀ p ∈ s.gangs, p.2.core / 192 ≠ core / 192 ∨ p.2.gangid.toNat ≠ gangId) →
    let r := h.record
    let cs := (s.freeContexts core).take r.harts
    ∃ (t1 : State) (key : Nat) (fs : List Nat), placeNew q core gangId h t s = .ok () t1 ∧ t1.mem = s.mem ∧ t1.sectors = s.sectors ∧
      (∀ p ∈ t1.l1i, p.1 / 2 ^ 47 ≠ core) ∧ (∀ k, k / 8 ≠ core → t1.hart k = s.hart k) ∧
      (t1.queue q).head = (if h.placed + 1 = r.gangs then none else some { h with placed := h.placed + 1 }) ∧
      (let g := t1.gang key
       g.task = h.task ∧ g.index = h.placed ∧ g.gangid.toNat = gangId ∧ g.core = core ∧ g.suspended = false ∧
       g.sphi = g.splo + BitVec.ofNat 64 r.scratch ∧ g.splo.toNat ∈ s.freeRanges core r.scratch ∧ g.code = s.view ∧
       g.gbar = { expect := BitVec.ofNat 4 r.harts, next := BitVec.ofNat 4 r.harts } ∧
       (s.port.narrowed = false → g.gshift = 0) ∧
       (∀ b, t1.scratch.read b = if g.scratchPlaces.1 ≤ b ∧ b < g.scratchPlaces.2 then 0 else s.scratch.read b) ∧
       fs.length = r.harts ∧ fs.Nodup ∧ (∀ f ∈ fs, f ∈ s.freeGroups core r.lanes) ∧
       (∀ row < 128, ∀ f ∈ fs, ∀ i, f ≤ i → i < f + r.lanes → elemAt (Tab.get 0 t1.tiles (core * 128 + row)) i 512 = 0) ∧
       ∀ i c f, cs[i]? = some c → fs[i]? = some f → ∃ l,
         (∀ n, Hart.getX { x := l } n = match n with
           | 2 => g.sphi | 3 => g.splo | 4 => r.arg | 5 => BitVec.ofNat 64 i | _ => 0) ∧
         t1.hart (core * 8 + c) = {
           run := .running, gang := key, pc := r.entry, vcp0 := r.entry, vcfg := BitVec.ofNat 2 r.vcfg, gshift := g.gshift
           first := BitVec.ofNat 5 f, count := BitVec.ofNat 6 r.lanes, tstat := { lvl := t.slevel }, asid := r.asid
           ptbase := t.ptbase, fqbase := t.fqbase, keydom := t.keydom, index := i, x := l })) ∧
  (∀ (key core : Nat) (t : Task) (s s1 : State),
    let g := s.gang key
    let lanes := lanesOf (laneMask (g.saved.map (·.hart)))
    Tab.find s.tasks g.task = some t → core = g.core → s.takesGangs core = true →
    (∀ x ∈ g.saved, (s.hart (core * 8 + x.ctx)).run = .free ∧ s.laneHolders core x.hart.first.toNat x.hart.count.toNat = []) →
    g.spilled = false → (g.saved.map (·.ctx)).Nodup → g.saved.length ≤ g.image.length →
    (each (imageParts (g.imageBase t false) t.record.scratch false (g.saved.map (·.ctx)) lanes) fun (a, n) => do
      readAccess (t.ctx g.task) false false (← imageAccess (t.ctx g.task) a n .read)) s = .ok g.image s1 →
    ∃ t1, resumeGang key core s = .ok () t1 ∧ (∀ x ∈ g.saved, t1.hart (core * 8 + x.ctx) = x.hart) ∧
      (t1.gang key).suspended = false ∧ (t1.gang key).saved = [] ∧ t1.mem = s1.mem ∧ t1.scratch = s1.scratch ∧
      (∀ p ∈ t1.l1i, p.1 / 2 ^ 47 ≠ core)) ∧
  (∀ (gang shift : Nat) (s : State),
    let g := s.gang gang
    ((gang, g) ∈ s.gangs → shift ≤ 3 → g.gshift.toNat ≠ shift →
      let set := s.putGang gang { g with gshift := BitVec.ofNat 2 shift, grantAt := some s.clock }
      ((∀ t, g.grantAt = some t → t + 65536 ≤ s.clock) →
        (∀ p ∈ s.gangs, if g.gshift.toNat < shift then s.gangPrio g ≤ s.gangPrio p.2 ∨ p.2.gshift ≠ 0
          else s.gangPrio p.2 ≤ s.gangPrio g ∨ p.2.gshift = 0) →
        exec (.grantNarrowing gang shift) s =
          .next { set with port := { set.port with narrowed := set.gangs.any fun p => p.2.gshift ≠ 0 } }) ∧
      (∀ t, g.grantAt = some t → s.clock < t + 65536 → exec (.grantNarrowing gang shift) s = .next s)) ∧
    ((∀ p ∈ s.gangs, p.1 ≠ gang) → (shift = 0 → ∀ p ∈ s.gangs, p.2.gshift = 0) →
      exec (.grantNarrowing gang shift) s = .next { s with port := { s.port with narrowed := shift ≠ 0 } }))

/-- R429, R431 to R434, R436, R438, R458: the host window's registers: PCAP is clamped; QRING sets a disabled queue's ring
afresh; a doorbell moves QTAIL or sets ERR; the other words keep their values while the queue or aperture is enabled; a counter
written is zero; END and FQCOMP act as their commands; before the window opens nothing but PCAP is written. The host reads the
device page at any time, and the words of the queues, apertures and commands once the window is open. The counters’ places, and
a write making one zero, are the model’s choice (log 14), and so is keeping only the defined bits of QPTBASE and QFQBASE (log
17). -/
def Obligations.HostWindowWritten : Prop :=
  -- the counter at word n of the report window: a stack's or a Landing's is this package's own
  let counter (n : Nat) (s : State) : Nat :=
    let i := n % 512
    let first := if n / 512 ≤ 1 then 0 else 384
    n / 512 * 4096 + if n / 512 ≤ 3 ∧ first ≤ i then (if i < first + 8 then s.pkg * 8 + i else 2048 + i) else i
  (∀ (v : Word) (s : State), exec (.pcap v) s =
    .next { s with port := { s.port with pcap := BitVec.ofNat 12 (max 600 (min 2400 v.toNat)) } }) ∧
  (∀ (q : Nat) (v : Word) (s : State), q < 64 → s.port.state = 1 →
    let x := s.queue q
    let put (y : Queue) : State := { s with port := { s.port with queues := Tab.put {} s.port.queues q y } }
    (x.en = false → exec (.qring q v) s = .next (put { x with qring := v &&& 0x000FFFFFFFFFFF9F, qhead := 0, qtail := 0, head := none })) ∧
    (x.en = true → exec (.qring q v) s = .next (put x)) ∧
    (x.en = true → x.devlaunch = false → x.qtail.toNat ≤ v.toNat → v.toNat ≤ x.qhead.toNat + 2 ^ (x.qring.toNat % 32) →
      exec (.doorbell q v) s = .next (put { x with qtail := v })) ∧
    (x.en = false ∨ x.devlaunch = true ∨ v.toNat < x.qtail.toNat ∨ x.qhead.toNat + 2 ^ (x.qring.toNat % 32) < v.toNat →
      exec (.doorbell q v) s = .next (put { x with err := true })) ∧
    exec (.hostRegisterWrite (0x10000 + 64 * q + 8) v) s = .next (put { x with
      en := v.getLsbD 0, devlaunch := v.getLsbD 1, slevel := v.getLsbD 2, fixid := v.getLsbD 3, err := x.err && !v.getLsbD 4,
      fqvec := v.extractLsb' 16 8, stvec := v.extractLsb' 24 8 }) ∧
    (x.en = true → ∀ off ∈ [0x10, 0x18, 0x20], exec (.hostRegisterWrite (0x10000 + 64 * q + off) v) s = .next (put x)) ∧
    (x.en = false →
      exec (.hostRegisterWrite (0x10000 + 64 * q + 0x10) v) s = .next (put { x with qptbase := v &&& 0x000FFFFFFFFE0000 }) ∧
      exec (.hostRegisterWrite (0x10000 + 64 * q + 0x18) v) s = .next (put { x with qfqbase := v &&& 0x000FFFFFFFFFF01F }) ∧
      exec (.hostRegisterWrite (0x10000 + 64 * q + 0x20) v) s = .next (put { x with qid := v.setWidth 32 }))) ∧
  (∀ (a : Nat) (v : Word) (s : State), a < 16 → s.port.state = 1 →
    let x : Aperture := Tab.get {} s.port.apertures a
    let put (y : Aperture) : State := { s with port := { s.port with apertures := Tab.put {} s.port.apertures a y } }
    let word (off : Nat) (y : Aperture) := exec (.hostRegisterWrite (0x20000 + 32 * a + off) v) s = .next (put y)
    (x.en = true → word 0x00 x ∧ word 0x08 x ∧ word 0x10 { x with en := v.getLsbD 18 }) ∧
    (x.en = false → word 0x00 { x with base := v.extractLsb' 16 36 } ∧ word 0x08 { x with size := v.extractLsb' 16 21 } ∧
      word 0x10 { x with wr := v.getLsbD 19, en := v.getLsbD 18, raw := v.getLsbD 16, gen := v.extractLsb' 12 4,
                         slot := v.setWidth 12 })) ∧
  (∀ (n : Nat) (v : Word) (s : State), n < 0x1000 → s.port.state = 1 → exec (.hostRegisterWrite (0x208000 + 8 * n) v) s =
    .next { s with port := { s.port with counters := Tab.put 0 s.port.counters (counter n s) 0 } }) ∧
  (∀ (off : Nat) (v : Word) (s : State), s.port.state ≠ 1 → off ≠ 8 → exec (.hostRegisterWrite off v) s = .next s) ∧
  (∀ (id : Word) (s : State), s.port.state = 1 → s.port.cmds = [] →
    ∃ s1, endTask id.toNat 3 { s with port := { s.port with cmds := [(0, id)] } } = .ok () s1 ∧
      exec (.endTask id) s = .next { s1 with port := { s1.port with cdone := s1.port.cdone + 1, cmds := [] } }) ∧
  (∀ (id code : Nat) (t : Task) (s s1 : State), Tab.find s.tasks id = some t → endTask id code s = .ok () s1 →
    Tab.find s1.tasks id = none ∧ (∀ g ∈ s.gangs, g.2.task = id → s1.gang g.1 = {} ∧ s1.gangHarts g.1 = []) ∧
    (t.record.status = 0 → ∀ p ∈ s1.pending, p.entry.taskid ≠ id)) ∧
  (∀ (b n c v : Word) (s : State), s.port.state = 1 → s.port.cmds = [] →
    let s0 : State := { s with port := { s.port with
      latch := Tab.put 0 (Tab.put 0 (Tab.put 0 s.port.latch 0x040 b) 0x048 n) 0x050 c } }
    (b &&& 0x000FFFFFFFFFF01F = b → c.toNat ≤ 4 → ∃ r s1,
      completeSeq b n.toNat c.toNat v { s0 with port := { s0.port with cmds := [(0x058, v)] } } = .ok r s1 ∧
      exec (.fqcomp b n c v) s = .next { s1 with port := { s1.port with
        cres := BitVec.ofNat 64 r, cdone := s1.port.cdone + 1, cmds := [] } }) ∧
    (4 < c.toNat → exec (.fqcomp b n c v) s = .next { s0 with port := { s0.port with cdone := s0.port.cdone + 1 } })) ∧
  (∀ (p : Nat) (s : State), s.port.state = 1 → p < 128 →
    (∃ t, exec (.podTableUpdate p true) s = .next t ∧ (∀ x, x ∈ t.port.podTable ↔ x = p ∨ x ∈ s.port.podTable) ∧
      { t with port := s.port } = s) ∧
    (∃ t, exec (.podTableUpdate p false) s = .next t ∧ (∀ x, x ∈ t.port.podTable ↔ x ≠ p ∧ x ∈ s.port.podTable) ∧
      { t with port := s.port } = s)) ∧
  -- what the host reads
  (∀ (s : State),
    let w (n : Nat) : Word := BitVec.ofNat 64 n
    let bit (b : Bool) (i : Nat) : Nat := if b then 2 ^ i else 0
    (∀ n < 512, s.hostRead (8 * n) = some (match n with
      | 0 => s.port.podId.setWidth 64 | 1 => s.port.pcap.setWidth 64 | 2 => w (s.port.state.toNat + 256 * s.port.reason.toNat)
      | _ => 0)) ∧
    (s.port.state ≠ 1 → ∀ off, 0x1000 ≤ off → off < 0x300000 → s.hostRead off = none) ∧
    (s.port.state = 1 → s.hostRead 0x30100 = some s.port.cdone ∧ s.hostRead 0x30108 = some s.port.cres ∧
      (∀ q < 64, let x := s.queue q
        (∀ off v, (off, v) ∈ [(0x00, x.qring), (0x08, w (bit x.en 0 + bit x.devlaunch 1 + bit x.slevel 2 + bit x.fixid 3 +
            bit x.err 4 + 2 ^ 16 * x.fqvec.toNat + 2 ^ 24 * x.stvec.toNat)), (0x10, x.qptbase), (0x18, x.qfqbase),
            (0x20, x.qid.setWidth 64), (0x28, x.qhead), (0x30, x.qtail), (0x38, 0)] →
          s.hostRead (0x10000 + 64 * q + off) = some v) ∧
        s.hostRead (0x100000 + 0x1000 * q + 8) = some x.qhead) ∧
      (∀ a < 16, let x : Aperture := Tab.get {} s.port.apertures a
        ∀ off v, (off, v) ∈ [(0x00, w (x.base.toNat * 2 ^ 16)), (0x08, w (x.size.toNat * 2 ^ 16)),
            (0x10, w (x.slot.toNat + 2 ^ 12 * x.gen.toNat + bit x.raw 16 + bit x.en 18 + bit x.wr 19)), (0x18, 0)] →
          s.hostRead (0x20000 + 32 * a + off) = some v) ∧
      (∀ n < 0x1000, s.hostRead (0x208000 + 8 * n) = some (w (Tab.get 0 s.port.counters (counter n s))))))

/-- R231, R233, R430, R432: an access outside an enabled aperture, or a write through a read-only one, is an unsupported request
and touches no memory; one that no frame of the pod answers, or under a domain that is not LIVE, is aborted or returns poison; a
coherent read gives the bytes, or poison, and a coherent write is made at the home of its lines at SYSTEM scope, neither
bringing a line into a cache; a RAW access works on ciphertext. Aborting or poisoning for an absent package and beyond 2^52, and
a RAW access that checks no key, are the model’s readings (log 17), and the form of ciphertext is its choice (log 13). SYSTEM
scope sends every dirty copy of the pool there, by its reading too (log 6). -/
def Obligations.ApertureResult : Prop := ∀ (a off n : Nat) (data : Option (List Byte)) (s : State),
  let ap : Aperture := Tab.get {} s.port.apertures a
  let k := match data with | some l => l.length | none => n
  let pa := ap.base.toNat * 2 ^ 16 + off
  let open_ := s.port.state = 1 ∧ a < 16 ∧ ap.en = true ∧ off + k ≤ ap.size.toNat * 2 ^ 16 ∧ off + k ≤ 2 ^ 36 ∧
    (data = none ∨ ap.wr = true)
  let ends (r : PortReply) (t : State) : State := { t with port := { t.port with reply := r } }
  let failed : PortReply := if data = none ∧ Config.cxlMem = true then .poisoned else .aborted
  let d := s.domainAt (ap.kslot pa) pa
  (¬open_ → exec (.apertureAccess a off n data) s = .next (ends .unsupported s) ∧
    exec (.rawApertureAccess a off n data) s = .next (ends .unsupported s)) ∧
  (open_ → 0 < k → s.reaches pa k = false → exec (.apertureAccess a off n data) s = .next (ends failed s)) ∧
  (open_ → 0 < k → s.reaches pa k = true → ap.raw = false → pa / 65536 = (pa + k - 1) / 65536 →
    (s.domainLive (ap.kslot pa) ap.gen.toNat = false → exec (.apertureAccess a off n data) s = .next (ends failed s)) ∧
    (s.domainLive (ap.kslot pa) ap.gen.toNat = true →
      (data = none → ∃ v e s1, readPhys {} d false 0 pa k s = .ok (v, e) s1 ∧
        exec (.apertureAccess a off n data) s = .next (ends (if e = 0 then .data (toBytes v k) else failed) s1)) ∧
      (∀ l, data = some l → ∃ s1 s2 s3, writeHome {} d pa k (ofBytes l) s = .ok () s1 ∧ flushPool s1 = .ok () s2 ∧
        wakeRange pa (pa + k - 1) s2 = .ok () s3 ∧ exec (.apertureAccess a off n data) s = .next (ends .done s3)))) ∧
  (open_ → 0 < k → s.reaches pa k = true → ap.raw = true →
    (data = none → ∃ v s1, rawRead pa k s = .ok v s1 ∧
      exec (.rawApertureAccess a off n data) s = .next (ends (.data (toBytes v k)) s1)) ∧
    (∀ l, data = some l → ∃ s1, rawWrite pa k (ofBytes l) s = .ok () s1 ∧
      exec (.rawApertureAccess a off n data) s = .next (ends .done s1)))

/-- R391, R432: what a whole granule's coherent write leaves in memory reads back under the same domain, and under another
domain the plaintext found is free bytes, not the ones written; so is that of a granule nothing has written. -/
def Obligations.DomainIsolation : Prop := ∀ (d d' : Domain) (g data : Nat) (s : State),
  let free (u : State) : Nat :=
    (List.range 32).foldr (fun i acc => (Config.foreignByte u.fresh d'.key (g * 32 + i)).toNat + 256 * acc) 0
  (∃ t, putBacking d g data s = .ok () t ∧ backingData d g t = .ok (data % 2 ^ 256) t ∧
    (d ≠ d' → d ≠ Domain.raw → backingData d' g t = .ok (free t) { t with fresh := t.fresh + 1 })) ∧
  (Tab.find s.domains g = none → backingData d' g s = .ok (free s) { s with fresh := s.fresh + 1 })

/-- R201, R241, R319 to R321, R325, R336, R338, R427 to R430, R438, R439: link errors are counted by link and direction; a retrained link is back in
use, a lost Landing stops the package, lost packages are recorded once each. A request of a package of the pod table for this
one is served: bytes read and written at their home, an atomic in one action with the old value as its reply, a context leased,
given back, read (once a YIRED into the register is done, R321, R325) or written, a bank-level command accepted, a member of a
collective taken through its later phases (R336, R338); of another package it is dropped and recorded. The contexts, keys and
copies of a package that was reset are gone. What a request of the pod holds and what its reply is are the model's (log 14), and
so are the class of a dropped request and what it keeps for a package that was reset (log 15). -/
def Obligations.LinkAndPodResult : Prop :=
  (∀ (link dir n : Nat) (s : State), dir < 2 →
    (link < 8 → exec (.linkCrcReplay link dir n) s = .next (s.count 4 (link * 2 + dir) 32 n)) ∧
    (8 ≤ link → link < 24 → exec (.linkCrcReplay link dir n) s = .next (s.count 5 ((link - 8) * 2 + dir) 32 n)) ∧
    (s.count 4 (link * 2 + dir) 32 n).port.counters = Tab.put 0 s.port.counters (4 * 4096 + (link * 2 + dir))
      (min (2 ^ 32 - 1) (Tab.get 0 s.port.counters (4 * 4096 + (link * 2 + dir)) + n))) ∧
  (∀ (link : Nat) (back : List Nat) (s : State), link < 24 → ∃ t, exec (.linkRetrain link (.retrained back)) s = .next t ∧
    t.port.lostPkgs = (if link < 8 then s.port.lostPkgs else s.port.lostPkgs.filter fun p => !back.contains p) ∧
    t.port.counters = (s.count 6 link 8 1).port.counters ∧ { t with port := s.port } = s) ∧
  (∀ (link : Nat) (s : State), link < 8 → ∃ s1, stopPackage s = .ok () s1 ∧ exec (.linkRetrain link .landingLost) s = .next s1 ∧
    s1.stopped = true) ∧
  (∀ (link p : Nat) (s : State), 8 ≤ link → link < 24 → p < 128 → p ≠ s.pkg → p ∉ s.port.lostPkgs → ∃ t e,
    exec (.linkRetrain link (.packagesLost [p])) s = .next t ∧ t.port.lostPkgs = s.port.lostPkgs ++ [p] ∧
    t.port.errLog = s.port.errLog ++ [e] ∧ e.code = 0x20 ∧ e.detail = 5 ∧
    -- a live round with a member there is aborted, and the member is waited for no more
    ∀ key, let r := s.round key
      (r.ended = false → (∃ x ∈ r.parts, x.remote = true ∧ x.pkg = p) →
        (t.round key).aborted = true ∧ ∀ x ∈ (t.round key).parts, x.remote = true → x.pkg = p → x.trapped = true) ∧
      (r.ended = true ∨ (∀ x ∈ r.parts, x.remote = true → x.pkg ≠ p) → t.round key = r)) ∧
  -- requests of other packages
  ((∀ (pkg : Nat) (r : UaRequest) (s : State), (∃ t, exec (.ualinkRequest pkg r) s = .next t) ∧
      (pkg ∉ s.port.podTable → ∃ t e, exec (.ualinkRequest pkg r) s = .next t ∧ t.mem = s.mem ∧ t.sectors = s.sectors ∧
        t.harts = s.harts ∧ t.port.errLog = s.port.errLog ++ [e] ∧ e.code = 0x20 ∧ 1 ≤ e.detail ∧ e.detail ≤ 5) ∧
      (pkg ∈ s.port.podTable → pkg ≠ s.pkg → (∀ a ∈ requestHomes r, paPkg a ≠ s.pkg) → exec (.ualinkRequest pkg r) s = .next s)) ∧
    (∀ (pkg : Nat) (s : State), pkg ∈ s.port.podTable → pkg ≠ s.pkg →
      let ends (r : UaRequest) (p : PortReply) (t : State) : Prop := paPkg (requestAddr r) = s.pkg → requestAddr r < 2 ^ 52 →
        exec (.ualinkRequest pkg r) s = .next { t with port := { t.port with reply := p } }
      (∀ pa n slot : Nat, 0 < n → pa / 65536 = (pa + n - 1) / 65536 →
        let d := s.domainAt (s.pkg * 4096 + slot % 4096) pa
        ∃ v e s1, readPhys {} d false 0 pa n s = .ok (v, e) s1 ∧
          ends (.read pa n slot) (if e = 0 then .data (toBytes v n) else .poisoned) s1 ∧
          let old := ofBytes (toBytes v n)
          let rmw (r : UaRequest) (g : Option Nat) : Prop :=
            (e ≠ 0 → ends r .poisoned s1) ∧ (e = 0 → g = none → ends r (.data (toBytes v n)) s1) ∧
            ∀ x, e = 0 → g = some x → ∃ s2 s3,
              writeHome {} (s1.domainAt (s1.pkg * 4096 + slot % 4096) pa) pa n (ofBytes (toBytes (x % 2 ^ (8 * n)) n)) s1 = .ok () s2 ∧
              wakeRange pa (pa + n - 1) s2 = .ok () s3 ∧ ends r (.data (toBytes v n)) s3
          (∀ b, rmw (.atomicAdd pa n b slot) (some (old + b))) ∧
          (∀ op b, rmw (.atomic op pa n b slot) (some (amoResult op n old (b % 2 ^ (8 * n))))) ∧
          ∀ x b, rmw (.compareSwap pa n x b slot) (if old = x then some b else none)) ∧
      (∀ (pa slot : Nat) (l : List Byte), l ≠ [] → pa / 65536 = (pa + l.length - 1) / 65536 → ∃ s1 s2,
        writeHome {} (s.domainAt (s.pkg * 4096 + slot % 4096) pa) pa l.length (ofBytes l) s = .ok () s1 ∧
        wakeRange pa (pa + l.length - 1) s1 = .ok () s2 ∧ ends (.write pa l slot) .done s2) ∧
      (∀ landing : Nat, (((List.range 256).filter (s.freeFar landing) = [] ∨ Tab.get [] s.leaseq landing ≠ []) →
          ends (.lease landing) .none s) ∧
        ((List.range 256).filter (s.freeFar landing) ≠ [] → Tab.get [] s.leaseq landing = [] →
          ∃ c < 256, s.freeFar landing c = true ∧ ends (.lease landing) (.data (toBytes (landing * 256 + c) 4))
            (State.putFar { s with fresh := s.fresh + 1 } (landing * 256 + c) { leased := true }))) ∧
      -- a collective phase after the arrival
      (∀ (desc : UaSpan) (buf : List UaSpan) (hart rank op fmt vl nmem active : Nat) (values : List Nat) (step : Nat), 2 ≤ step →
        let r := s.round desc.1
        let req : UaRequest := .phase desc buf hart rank op fmt vl nmem active values step
        let who (p : Contribution) : Prop := p.remote = true ∧ p.hart = hart ∧ p.pkg = pkg
        let later : State := { s with fresh := s.fresh + 1 }
        ((∀ p ∈ r.parts, ¬who p) → ends req .aborted later) ∧
        ((∃ p ∈ r.parts, who p) → r.aborted = true → ∃ t, ends req .aborted t ∧ ∀ p ∈ (t.round desc.1).parts, who p → p.trapped = true) ∧
        ((∃ p ∈ r.parts, who p) → r.aborted = false →
          (r.parts.length ≠ r.nmem ∨ (step ≠ 2 ∧ ∃ p ∈ r.parts, p.added = false) → ends req .none later) ∧
          (r.parts.length = r.nmem → step ≠ 2 → (∀ p ∈ r.parts, p.added = true) → ∃ l t, ends req (.data l) t ∧
            ∃ p ∈ (t.round desc.1).parts, who p ∧ p.read = true))) ∧
      (∀ ctx : Nat,
        (s.slotQuiet ctx = true → ∃ s1, freeLease ctx s = .ok () s1 ∧ s1.farCtx ctx = {} ∧ ends (.release ctx) .done s1) ∧
        (s.slotQuiet ctx = false → ends (.release ctx) .none s) ∧
        ((s.farCtx ctx).leased = false → (∀ w q, ends (.far ctx w q) .unsupported s) ∧
          (∀ r w l, ends (.farLoad ctx r w l) .unsupported s) ∧ (∀ r w b l, ends (.farStore ctx r w b l) .unsupported s) ∧
          (∀ r, ends (.farRead ctx r) .unsupported s) ∧ (∀ r v, ends (.farWrite ctx r v) .unsupported s)) ∧
        ((s.farCtx ctx).leased = true →
          (∀ reg, let x := s.farCtx ctx
            let busy := ∃ b ∈ s.banks, b.ctx = ctx ∧ b.raised = false ∧ ∃ op fmt rm m rows dst cw, b.op = .yired op fmt rm m rows dst (some reg) cw
            let bad := ∃ w < yBytes / 8, (reg, w) ∈ x.marks ++ x.bady
            (busy → ends (.farRead ctx reg) .none s) ∧ (¬busy → bad → ends (.farRead ctx reg) .poisoned s) ∧
            (¬busy → ¬bad → ends (.farRead ctx reg) (.data (toBytes (Tab.get 0 x.y reg) yBytes)) s)) ∧
          (∀ reg v, ∃ t, ends (.farWrite ctx reg v) .done t ∧
            (∀ r, Tab.get 0 (t.farCtx ctx).y r = if r = reg then v % 2 ^ (8 * yBytes) else Tab.get 0 (s.farCtx ctx).y r) ∧
            t.mem = s.mem ∧ t.harts = s.harts ∧ ∀ k, k ≠ ctx → t.farCtx k = s.farCtx k) ∧
          (∀ op fmt rm m a b c, ∃ e : BankCmd, e.ctx = ctx ∧
            e.op = .ybop op fmt rm m (s.guestSpans a) (s.guestSpans b) (s.guestSpans c) [] ∧
            ends (.combine ctx op fmt rm m a b c) .done { s with fresh := s.fresh + 1, banks := s.banks ++ [e] }) ∧
          (∀ op fmt rm m rows dst yd cw, ∃ e : BankCmd, e.ctx = ctx ∧
            e.op = .yired op fmt rm m (rows.map s.guestSpans) (s.guestSpans dst) yd (cw.map s.guestSpan) ∧
            ends (.reduce ctx op fmt rm m rows dst yd cw) .done { s with fresh := s.fresh + 1, banks := s.banks ++ [e] }))))) ∧
  (∀ (p : Nat) (s : State), p < 128 → p ≠ s.pkg → ∃ t, exec (.remotePackageReset p) s = .next t ∧
    (∀ k, k / 2048 = p → t.farCtx k = {}) ∧ (∀ k, k / 4096 = p → Tab.get ({} : KeySlot) t.slots k = {}) ∧
    (∀ c ∈ t.sectors, paPkg (c.1 * 32) ≠ p) ∧ (∀ x ∈ t.tlb, x.key / 4096 ≠ p) ∧ t.mem = s.mem ∧ t.scratch = s.scratch ∧
    (∀ b ∈ t.banks, b.ctx / 2048 ≠ p))

/-- R385, R440 to R444: device reset keeps memory and the fuses, forgets the rest, and opens the window only with an image that
passes the boot ROM's four checks, with the image's CENSUS and FREEQ in their fields; else it reports the first check that
fails; a raise of the security version needs both signatures and never lowers it; the evidence holds its header, the nonce, the
four measurements and the fused version. What device reset keeps beyond the rules, and a PLOG out of range, are the model’s
choices (log 3), and so is the byte form of what is measured (log 13); the order of rejection, and that states 1 and 2 answer an
attestation, are its readings (log 19). -/
def Obligations.BootResult : Prop :=
  (∀ (i : FwImage) (s : State), ∃ t, exec (.deviceReset i) s = .next t ∧ t.mem = s.mem ∧ t.domains = s.domains ∧
    t.port.fused = s.port.fused ∧ t.harts = [] ∧ t.tasks = [] ∧ t.sectors = [] ∧ t.tlb = [] ∧ t.stopped = false ∧
    (let pass := i.malformed = false ∧ Config.rsaVerifies i.body i.rsaSig = true ∧ Config.slhVerifies i.body i.slhSig = true ∧
      s.port.fused ≤ i.version
     let c := Tab.get 0 t.census i.podId.toNat
     (pass → t.port.state = 1 ∧ t.port.podId = i.podId ∧ t.port.podTable = i.podTable ∧
       c &&& ~~~0x000FFFFFFFFFF1F1 = 0 ∧ (c.extractLsb' 4 5).toNat ≤ 28 ∧
       ((i.census.extractLsb' 4 5).toNat ≤ 28 → c = i.census &&& 0x000FFFFFFFFFF1F1) ∧
       Tab.get 0 t.freeq i.podId.toNat = i.freeq &&& 0x000FFFFFFFFFFFC0 ∧
       (Tab.get ({} : KeySlot) t.slots (i.podId.toNat * 4096)).state = .live) ∧
     (¬pass → t.port.state = 2 ∧ t.port.reason = (if i.malformed then 4 else if !Config.rsaVerifies i.body i.rsaSig then 1
       else if !Config.slhVerifies i.body i.slhSig then 2 else 3)))) ∧
  (∀ (i : FwImage) (s : State), ∃ t, exec (.securityVersionRaise i) s = .next t ∧ { t with port := s.port } = s ∧
    s.port.fused ≤ t.port.fused ∧
    (t.port.fused ≠ s.port.fused → Config.rsaVerifies i.body i.rsaSig = true ∧ Config.slhVerifies i.body i.slhSig = true) ∧
    (s.port.state = 1 → i.malformed = false → Config.rsaVerifies i.body i.rsaSig = true →
      Config.slhVerifies i.body i.slhSig = true → t.port.fused = max s.port.fused i.version)) ∧
  (∀ (n : BitVec 256) (s : State), s.port.state = 1 ∨ s.port.state = 2 → ∃ v,
    (let field (off bytes : Nat) : Nat := v / 2 ^ (8 * off) % 2 ^ (8 * bytes)
     field 0x000 16 = 0x01454E5A ∧ field 0x010 32 = n.toNat ∧ field 0x030 16 = Config.serial % 2 ^ 128 ∧
     field 0x040 48 = measureNat Config.bootRom % 2 ^ 384 ∧ field 0x070 48 = measureNat s.port.image % 2 ^ 384 ∧
     field 0x0A0 48 = measureNat s.port.config % 2 ^ 384 ∧ field 0x0D0 48 = measureTable s.port.podTable % 2 ^ 384 ∧
     field 0x100 8 = s.port.fused % 2 ^ 64 ∧ field 0x108 24 = 0 ∧
     field 0x120 384 = Config.rsaSign (v % 2 ^ 2304) % 2 ^ 3072 ∧ field 0x2A0 16224 = Config.slhSign (v % 2 ^ 2304) % 2 ^ 129792) ∧
    exec (.attestationRequest n false) s = .next { s with port := { s.port with mailbox := .evidence v } } ∧
    exec (.attestationRequest n true) s = .next { s with port := { s.port with mailbox := .certificates Config.certificates } })

/-! ### Vector arithmetic -/

/-- R139, R142, R146, R147, R149, R151: VINT, VMUL, VABSD, VBITC, VMULW and VADDW write to each active element from VSTART the
function of its operands, in the hart's registers or with P = 1 in those of the far context, and nothing else changes but the
queue's numbering, VSTART and the PC. -/
def Obligations.VectorIntegerResult : Prop := ∀ (f : VForm) (s : State), s.calm f → f.fmt.toNat < 4 →
  let fmt := f.fmt.toNat
  let fn := f.fn.toNat
  let w := fmtWidth fmt
  let d := s.side f
  let vd := f.vd.toNat
  let vs1 := f.vs1.toNat
  let els := s.me.actives f
  let a (i : Nat) : BitVec w := BitVec.ofNat w (elemAt (d.reg vs1) i w)
  let b (i : Nat) : BitVec w := BitVec.ofNat w (s.operand2 f w i)
  let old (i : Nat) : BitVec w := BitVec.ofNat w (elemAt (d.reg vd) i w)
  let one (op : Instr) (r : Nat → BitVec w) : Prop := ∃ V, Spec.elements V (d.reg vd) w els (fun i => (r i).toNat) ∧
    exec op s = .next ((s.vecDone op f id).putGroup f vd 1 V)
  let wide (op : Instr) (r : Nat → BitVec (2 * w)) : Prop :=
    ∃ V, Spec.elements V (d.group vd 2) (2 * w) els (fun i => (r i).toNat) ∧
      exec op s = .next ((s.vecDone op f id).putGroup f vd 2 V)
  (s.vlOk f fmt (twoRegs f) → one (.vint f) (fun i => Spec.vint fn (a i) (b i)) ∧
    (fn < 6 → one (.vmul f) (fun i => Spec.vmul fn (a i) (b i) (old i))) ∧
    (fn < 4 → one (.vabsd f) (fun i => Spec.vabsd fn (a i) (b i) (old i)))) ∧
  (s.vlOk f fmt [vd, vs1] → (fn = 4 → one (.vabsd f) (fun i => Spec.vabsd fn (a i) 0 0)) ∧
    (fn < 5 → ∃ r : Nat → BitVec w, (∀ i, Spec.vbitc fn (a i) (r i)) ∧ one (.vbitc f) r)) ∧
  (fmt < 3 → d.groupOk vd 2 → s.vlOk f fmt ((twoRegs f).drop 1) → fn < 6 →
    wide (.vmulw f) (fun i => Spec.vmulw fn (a i) (b i) (BitVec.ofNat (2 * w) (elemAt (d.group vd 2) i (2 * w))))) ∧
  (fmt < 3 → d.groupOk vd 2 → s.vlOk f fmt ((twoRegs f).drop 2) → d.groupOk vs1 (if 4 ≤ fn then 2 else 1) → fn < 6 →
    wide (.vaddw f) (fun i => Spec.vaddw fn (a i) (b i) (BitVec.ofNat (2 * w) (elemAt (d.group vs1 2) i (2 * w)))))

/-- R105, R106, R148, R150: VSAT and VNARROW clamp each active element and set FLAGS.SAT when a clamp changed one; their rounding
functions, and VFALU, VFMA, VFDIV, VFSQRT, VFEXP2 of R152, go through the active elements in order and raise their flags, and
the first enabled condition stops at its element in the handler with the elements before it kept. R153: VFCLASS writes each
element's class. -/
def Obligations.VectorArithmeticResult : Prop := ∀ (f : VForm) (s : State), s.calm f →
  let fmt := f.fmt.toNat
  let fn := f.fn.toNat
  let w := fmtWidth fmt
  let d := s.side f
  let vd := f.vd.toNat
  let vs1 := f.vs1.toNat
  let rm := s.me.mode f
  let els := s.me.actives f
  let a (i : Nat) : Nat := elemAt (d.reg vs1) i w
  let a2 (i : Nat) : Nat := elemAt (d.group vs1 2) i (2 * w)
  let b (i : Nat) : Nat := s.operand2 f w i
  let bv (n : Nat) : BitVec w := BitVec.ofNat w n
  let val (n : Nat) : Fp.Val := Fp.decode fmt n
  let clamped (op : Instr) (r : Nat → BitVec w × Bool) : Prop :=
    ∃ V, Spec.elements V (d.reg vd) w els (fun i => (r i).1.toNat) ∧
      exec op s = .next ((s.vecDone op f (·.satIf (els.any fun i => (r i).2))).putGroup f vd 1 V)
  let ends (op : Instr) (g : Nat → Nat → Fm Nat) : Prop := s.endsAs op f vd 1 (s.inOrder f els vd 1 w g) (exec op s)
  (s.vlOk f fmt (twoRegs f) →
    (fmt < 4 → fn < 6 → clamped (.vsat f) (fun i => Spec.vsat fn (bv (a i)) (bv (b i)))) ∧
    (fmt < 4 → 6 ≤ fn → ends (.vsat f) (fun i _ => satF fn w rm (a i) (b i))) ∧
    ends (.vfalu f) (fun i _ => vfaluF fn fmt rm (a i) (b i)) ∧
    (fn ≠ 4 → ends (.vfma f) (fun i old => roundF fmt rm
      (Fp.fma rm (fn = 2 || fn = 3) (fn = 1 || fn = 2) (val (a i)) (val (b i)) (val old)))) ∧
    (fn = 0 → ends (.vfdiv f) (fun i _ => roundF fmt rm (Fp.div (val (a i)) (val (b i))))) ∧
    (fn = 1 → ends (.vfdiv f) (fun i _ => roundF fmt rm (Fp.div (val (b i)) (val (a i))))) ∧
    (fn ≠ 0 → ends (.vfexp2 f) (fun i _ => roundF fmt rm (exp2sub rm (val (a i)) (val (b i)))))) ∧
  (s.vlOk f fmt [vd, vs1] →
    (fn = 2 → ends (.vfdiv f) (fun i _ => roundF fmt rm (Fp.div (.num false 1 0 false) (val (a i))))) ∧
    ends (.vfsqrt f) (fun i _ => roundF fmt rm (if fn = 0 then Fp.sqrt (val (a i)) else Fp.rsqrt (val (a i)))) ∧
    (fn = 0 → ends (.vfexp2 f) (fun i _ => roundF fmt rm (Fp.exp2 (val (a i))))) ∧
    (4 ≤ fmt → fmt < 10 → ∃ V, Spec.elements V (d.reg vd) w els (fun i => Fp.classOf fmt (a i) % 2 ^ w) ∧
      exec (.vfclass f) s = .next ((s.vecDone (.vfclass f) f id).putGroup f vd 1 V))) ∧
  (d.groupOk vd 2 → s.vlOk f fmt ((twoRegs f).drop 1) → fn = 4 →
    s.endsAs (.vfma f) f vd 2 (s.inOrder f els vd 2 (2 * w) fun i old => roundF (if fmt = 8 then 9 else 8) rm
      (Fp.fma rm false false (val (a i)) (val (b i)) (Fp.decode (if fmt = 8 then 9 else 8) old))) (exec (.vfma f) s)) ∧
  (fmt < 3 → d.groupOk vs1 2 →
    (fn < 4 → s.vlOk f fmt [vd] → clamped (.vnarrow f) (fun i => Spec.vnarrow fn (BitVec.ofNat (2 * w) (a2 i)))) ∧
    (4 ≤ fn → s.vlOk f fmt (vd :: if f.xs = 1 then [] else [f.vs2.toNat]) →
      ends (.vnarrow f) (fun i _ => narrowF fn w rm (a2 i) (b i))))

/-- R154 to R157: VCMP writes one mask bit for each active element, raising invalid as its condition says for floating point;
VMLOG writes bits 0 to VL − 1 of its mask; VMPOP counts or finds bits into an x register; VSEL copies from one of its sources
by the mask. -/
def Obligations.MaskResult : Prop := ∀ (f : VForm) (s : State), s.calm f →
  let fmt := f.fmt.toNat
  let fn := f.fn.toNat
  let w := fmtWidth fmt
  let d := s.side f
  let h := s.me
  let vd := f.vd.toNat
  let vl := h.vl.toNat
  let els := h.actives f
  let a (i : Nat) : Nat := elemAt (d.reg f.vs1.toNat) i w
  let b (i : Nat) : Nat := s.operand2 f w i
  let bv (n : Nat) : BitVec w := BitVec.ofNat w n
  let bit (m : Nat) (i : Nat) : Bool := bitAt (h.getM m) i
  (s.vlOk f fmt ((twoRegs f).drop 1) →
    (fmt < 4 → ∃ M, (∀ i, bitAt M i = if i ∈ els then Spec.vcmp fn (bv (a i)) (bv (b i)) else bit vd i) ∧
      exec (.vcmp f) s = .next (s.vecDone (.vcmp f) f (·.setM vd M))) ∧
    (let l := runElems 1 (fun i _ => (fun c : Bool => if c then 1 else 0) <$> vcmpF fn fmt (a i) (b i)) els
      { dst := h.getM vd, fs := h.fstate, done := [], stop := none }
     (l.stop = none → exec (.vcmp f) s = .next (s.vecDone (.vcmp f) f fun h => (h.setM vd l.dst).withF l.fs)) ∧
     (∀ j c, l.stop = some (j, c) → h.catches → exec (.vcmp f) s = .next (s.vecTrapped (.vcmp f) f
       (fun h => { (h.setM vd l.dst).withF l.fs with vstart := BitVec.ofNat 16 j }) 0x03 c 0)))) ∧
  (h.vstart = 0 →
    (∃ M, (∀ i, vl ≤ i → bitAt M i = bit vd i) ∧
      (∀ i < vl, bitAt M i = true ↔ Spec.vmlog fn vl (bit f.vs1.toNat) (bit f.vs2.toNat) i) ∧
      exec (.vmlog f) s = .next (s.vecDone (.vmlog f) f (·.setM vd M))) ∧
    (let set := (List.range vl).filter fun i => bit f.vs1.toNat i && bit f.vm.toNat i
     exec (.vmpop f) s = .next (s.vecDone (.vmpop f) f (·.setX vd (match fn with
       | 0 => BitVec.ofNat 64 set.length
       | 1 => match set.head? with | some i => BitVec.ofNat 64 i | none => -1
       | _ => match set.getLast? with | some i => BitVec.ofNat 64 i | none => -1))))) ∧
  (s.vlOk f fmt (twoRegs f) →
    ∃ V, Spec.elements V (d.reg vd) w h.fromStart (fun i => if bit f.vm.toNat i then a i else b i) ∧
      exec (.vsel f) s = .next ((s.vecDone (.vsel f) f id).putGroup f vd 1 V))

/-- R161 to R165: VPERM and VPERMB gather by index, VSLIDE shifts and rotates elements, VCOMPRESS and VEXPAND pack and unpack
by the mask, VSPLAT copies one value, VMVX moves one element to or from an x register whatever VL and masks, VMVV copies a
register, VIOTA writes counts; elements not named keep their values. -/
def Obligations.VectorMoveResult : Prop := ∀ (f : VForm) (s : State), s.calm f → f.fmt.toNat < 10 →
  let fmt := f.fmt.toNat
  let fn := f.fn.toNat
  let w := fmtWidth fmt
  let d := s.side f
  let h := s.me
  let vd := f.vd.toNat
  let vs1 := f.vs1.toNat
  let vl := h.vl.toNat
  let els := h.actives f
  let a (i : Nat) : Nat := elemAt (d.reg vs1) i w
  let sc : Nat := (h.getX (f.vs3.toNat % 32)).toNat
  let bit (m : Nat) (i : Nat) : Bool := bitAt (h.getM m) i
  let rank (i : Nat) : Nat := (List.range i).countP (bit f.vm.toNat)
  let upTo (n : Nat) : Nat := (List.range n).countP fun i => bit vs1 i && bit f.vm.toNat i
  let one (op : Instr) (l : List Nat) (val : Nat → Nat) : Prop := ∃ V, Spec.elements V (d.reg vd) w l val ∧
    exec op s = .next ((s.vecDone op f id).putGroup f vd 1 V)
  (s.vlOk f fmt [vd, vs1] →
    (f.vs2.toNat < d.nregs → one (.vperm f) els (fun i =>
      let j := elemAt (d.reg f.vs2.toNat) i w
      if j < vl then a j else 0)) ∧
    (fn = 0 → one (.vslide f) (els.filter (sc ≤ ·)) (fun i => a (i - sc))) ∧
    (fn = 1 → one (.vslide f) els (fun i => if i + sc < vl then a (i + sc) else 0)) ∧
    (fn = 2 → one (.vslide f) els (fun i => if i = 0 then sc % 2 ^ w else a (i - 1))) ∧
    (fn = 3 → one (.vslide f) els (fun i => if i + 1 < vl then a (i + 1) else sc % 2 ^ w)) ∧
    (fn = 4 → one (.vslide f) els (fun i => a ((i + sc) % vl))) ∧
    (∃ V, (∀ i ∈ els, elemAt V (rank i) w = a i) ∧
      (fn = 1 → ∀ k, h.vstart.toNat < vl → rank vl ≤ k → k < vl → elemAt V k w = 0) ∧
      (∀ k, (∀ i ∈ els, rank i ≠ k) → ¬(fn = 1 ∧ h.vstart.toNat < vl ∧ rank vl ≤ k ∧ k < vl) →
        elemAt V k w = elemAt (d.reg vd) k w) ∧
      exec (.vcompress f) s = .next ((s.vecDone (.vcompress f) f id).putGroup f vd 1 V)) ∧
    one (.vexpand f) (h.fromStart.filter fun i => bit f.vm.toNat i || fn = 1)
      (fun i => if bit f.vm.toNat i then a (rank i) else 0) ∧
    (fn ≠ 0 → one (.vsplat f) els (fun _ => if sc < vl then a sc else 0)) ∧
    (fn = 0 → one (.vmvv f) els a)) ∧
  (s.vlOk f fmt [vd] → (fn = 0 → one (.vsplat f) els (fun _ => sc % 2 ^ w)) ∧
    one (.viota f) els (fun i => (match fn with
      | 0 => upTo i
      | 1 => i
      | _ => upTo vl - upTo (i + 1)) % 2 ^ w)) ∧
  (vd < d.nregs → vs1 < d.nregs → fn ≠ 0 → exec (.vmvv f) s = .next ((s.vecDone (.vmvv f) f id).putGroup f vd 1 (d.reg vs1))) ∧
  (fn = 2 → vd < d.nregs → exec (.vmvx f) s = .next (if sc < vlmaxOf fmt d.bytes
      then (s.vecDone (.vmvx f) f id).putGroup f vd 1 (elemSet (d.reg vd) sc w (h.getX (vs1 % 32)).toNat) else s.vecDone (.vmvx f) f id)) ∧
  (fn ≠ 2 → vs1 < d.nregs → exec (.vmvx f) s = .next (s.vecDone (.vmvx f) f (·.setX vd (if vlmaxOf fmt d.bytes ≤ sc then 0
    else if fn = 0 ∧ fmt < 4 then (BitVec.ofNat w (a sc)).signExtend 64 else BitVec.ofNat 64 (a sc))))) ∧
  (fmt = 0 → s.vlOk f 0 [vd, vs1, f.vs2.toNat, f.vs3.toNat] → one (.vpermb f) els (fun j =>
    let t := elemAt (d.reg f.vs2.toNat) (if fn = 1 then j % 64 else j) 8
    let k := j / 64 * 64 + t % 64
    if 128 ≤ t ∨ vl ≤ k then 0 else if 64 ≤ t then elemAt (d.reg f.vs3.toNat) k 8 else a k))

/-- R166 to R169: VRED and VREDO combine the start value with the active elements, by the fixed tree and in order, into element
0; VSCAN and VRECUR write the running results; for integers the result is the plain fold. VTOPK writes the indices of the k
greatest scores, the lower index first among equals. A start value that no operation takes in is written bit for bit, by the
model’s choice (R89; log 21). -/
def Obligations.ReductionResult : Prop := ∀ (f : VForm) (s : State), s.calm f → f.fmt.toNat < 10 →
  let fmt := f.fmt.toNat
  let fn := f.fn.toNat
  let w := fmtWidth fmt
  let d := s.side f
  let h := s.me
  let vd := f.vd.toNat
  let vl := h.vl.toNat
  let rm := h.mode f
  let els := h.actives f
  let a (i : Nat) : Nat := elemAt (d.reg f.vs1.toNat) i w
  let av (i : Nat) : BitVec w := BitVec.ofNat w (a i)
  let start : Nat := s.operand2 f w 0
  let fold (l : List Nat) : BitVec w := l.foldl (fun k i => Spec.red (fn % 8) k (av i)) (BitVec.ofNat w start)
  let first (t : State) (v : Nat) : State := t.putGroup f vd 1 (elemSet (d.reg vd) 0 w v)
  let n := treeDepth vl
  let tree : Fm Nat := do redF fn fmt rm start (← treeUp (redF fn fmt rm) n
    ((List.range (2 ^ n)).map fun j => if j ∈ els then a j else redIdentity fn fmt))
  let put (op : Instr) (r : Nat × LoopState) : Prop := s.endsAs op f vd 1 r.2 (exec op s)
  let run (k : Nat) (g : Nat → Nat → Fm (Nat × Nat)) (dst : Nat) (l : List Nat) : Nat × LoopState :=
    runCarry w g l k { dst := dst, fs := h.fstate, done := [], stop := none }
  (s.vlOk f fmt (twoRegs f) → h.vstart = 0 →
    (fmt < 4 → fn < 8 → exec (.vred f) s = .next (first (s.vecDone (.vred f) f id) (fold els).toNat) ∧
      exec (.vredo f) s = .next (first (s.vecDone (.vredo f) f id) (fold els).toNat)) ∧
    (vl = 0 → exec (.vred f) s = .next (first (s.vecDone (.vred f) f id) start)) ∧
    (vl ≠ 0 → let r := tree h.fstate
      (r.2.hit = none → exec (.vred f) s = .next (first (s.vecDone (.vred f) f (·.withF r.2)) r.1)) ∧
      (∀ c, r.2.hit = some c → h.catches → exec (.vred f) s = .next (s.vecTrapped (.vred f) f id 0x03 c 0))) ∧
    (fmt < 4 → fn < 16 → vl ≠ 0 → ∃ V, Spec.elements V (d.reg vd) w h.fromStart
        (fun i => (fold (els.filter fun j => j < i ∨ (fn < 8 ∧ j = i))).toNat) ∧
      exec (.vscan f) s = .next ((s.vecDone (.vscan f) f id).putGroup f vd 1 V))) ∧
  (s.vlOk f fmt (twoRegs f) → h.vstart.toNat < vl ∨ vl = 0 →
    let r := run (if h.vstart = 0 then start else elemAt (d.reg vd) 0 w)
      (fun i k => (fun v => (v, v)) <$> redF fn fmt rm k (a i)) 0 els
    (r.2.stop = none → exec (.vredo f) s = .next (first (s.vecDone (.vredo f) f (·.withF r.2.fs)) r.1)) ∧
    (∀ j c, r.2.stop = some (j, c) → h.catches →
      let t := s.vecTrapped (.vredo f) f (fun h => { h.withF r.2.fs with vstart := BitVec.ofNat 16 j }) 0x03 c 0
      exec (.vredo f) s = .next (if j = 0 then t else first t r.1))) ∧
  (s.vlOk f fmt (twoRegs f) → h.vstart.toNat < vl → h.vstart = 0 ∨ fn < 8 →
    put (.vscan f) (run (if h.vstart = 0 then start else elemAt (d.reg vd) (h.vstart.toNat - 1) w) (fun i k =>
      (fun k' => (if 8 ≤ fn then k else k', k')) <$> if i ∈ els then redF (fn % 8) fmt rm k (a i) else pure k)
      (d.group vd 1) h.fromStart)) ∧
  (s.vlOk f fmt (twoRegs f ++ [f.vs3.toNat]) → f.xs = 0 → h.vstart.toNat < vl →
    let k0 := if h.vstart = 0 then elemAt (d.reg f.vs3.toNat) 0 w else elemAt (d.reg vd) (h.vstart.toNat - 1) w
    let b (i : Nat) : Nat := elemAt (d.reg f.vs2.toNat) i w
    (fmt < 4 → ∃ V, Spec.elements V (d.reg vd) w h.fromStart (fun i => ((els.filter (· ≤ i)).foldl
        (fun k j => av j * k + BitVec.ofNat w (b j)) (BitVec.ofNat w k0)).toNat) ∧
      exec (.vrecur f) s = .next ((s.vecDone (.vrecur f) f id).putGroup f vd 1 V)) ∧
    put (.vrecur f) (run k0 (fun i k => (fun v => (v, v)) <$> if i ∈ els then recurF fmt rm (a i) k (b i) else pure k)
      (d.group vd 1) h.fromStart)) ∧
  (let g := groupSize (vlmaxOf fmt d.bytes) 32 d.bytes
   let lt (i j : Nat) : Bool := scoreLt fmt (fn = 1) (a i) (a j)
   let nan := decide (4 ≤ fmt) && els.any fun i => (Fp.decode fmt (a i)).isSig
   s.vlOk f fmt [f.vs1.toNat] → d.groupOk vd g → h.vstart = 0 →
   (nan = false ∨ h.tstat.nve = false → ∃ (l : List Nat) (V : Nat),
     l.length = min (h.getX (f.vs3.toNat % 32)).toNat els.length ∧ (∀ i ∈ l, i ∈ els) ∧
     l.Pairwise (fun i j => lt j i = true ∨ (lt i j = false ∧ i < j)) ∧
     (∀ j ∈ els, j ∉ l → ∀ i ∈ l, lt j i = true ∨ (lt i j = false ∧ i < j)) ∧
     (∀ k, elemAt V k 32 = if k < l.length then l.getD k 0 else elemAt (d.group vd g) k 32) ∧
     exec (.vtopk f) s = .next ((s.vecDone (.vtopk f) f fun h => if nan then { h with flags := h.flags ||| 1 } else h).putGroup f vd g V)) ∧
   (nan = true → h.tstat.nve = true → h.catches →
     exec (.vtopk f) s = .next (s.vecTrapped (.vtopk f) f id 0x03 0 0)))

/-- R103, R104, R142, R158: VCVT converts each active element in order by its formats, mode and bits; between integers the value
is extended, reduced or clamped; a block source is converted record by record, each wholly on or off. R159: VQUANT builds each
record from its elements, with the NaN record, the scale and the codes that R103 gives. An enabled condition inside a record of
a block source leaves its element in VSTART, by the model’s choice (R144; log 21); the zero point of an asymmetric record of
scale 0 is a free value (log 15). -/
def Obligations.ConversionResult : Prop := ∀ (f : VForm) (s : State), s.calm f →
  let fmt := f.fmt.toNat
  let src := f.fn.toNat
  let d := s.side f
  let h := s.me
  let vd := f.vd.toNat
  let vs1 := f.vs1.toNat
  let vl := h.vl.toNat
  let rm := h.mode f
  let els := h.actives f
  let bit (i : Nat) : Bool := f.vs3.getLsbD i
  let on (first n : Nat) : Bool := (List.range n).all fun j => bitAt (h.governing f.vm.toNat h.vl.toNat) (first + j)
  let off (first n : Nat) : Bool := (List.range n).all fun j => !bitAt (h.governing f.vm.toNat h.vl.toNat) (first + j)
  (let ref := if 10 ≤ src then src else if fmtWidth src < fmtWidth fmt then src else fmt
   let gd := groupSize (vlmaxOf ref d.bytes) (fmtWidth fmt) d.bytes
   let gs := groupSize (vlmaxOf ref d.bytes) (fmtWidth src) d.bytes
   vl ≤ s.longest f ref → d.groupOk vd gd → fmt < 10 →
   (src < 10 → d.groupOk vs1 gs →
     let a (i : Nat) : Nat := elemAt (d.group vs1 gs) i (fmtWidth src)
     (s.endsAs (.vcvt f) f vd gd (s.inOrder f els vd gd (fmtWidth fmt) fun i _ =>
       cvtF fmt src rm (bit 0) (bit 1) (bit 2) (bit 3) (a i)) (exec (.vcvt f) s)) ∧
     (fmt < 4 → src < 4 →
       let v (i : Nat) : Int := if bit 0 then (a i : Int) else (BitVec.ofNat (fmtWidth src) (a i)).toInt
       let w := fmtWidth fmt
       let r (i : Nat) : BitVec w × Bool :=
         if bit 3 = true ∧ w < fmtWidth src then
           if bit 1 then Spec.clamp 0 (2 ^ w - 1) (v i) else Spec.clamp (-2 ^ (w - 1)) (2 ^ (w - 1) - 1) (v i)
         else (BitVec.ofInt w (v i), false)
       ∃ V, Spec.elements V (d.group vd gd) w els (fun i => (r i).1.toNat) ∧
         exec (.vcvt f) s = .next ((s.vecDone (.vcvt f) f (·.satIf (els.any fun i => (r i).2))).putGroup f vd gd V))) ∧
   (10 ≤ src → src < 15 → vs1 < d.nregs →
     let walk := walkReg src d.bytes vl (d.reg vs1)
     let rec_ (i : Nat) : Rec := (walk.1.find? fun r => i < r.first + r.b).getD { k := 0, first := 0, b := 32, off := 0, size := 0, hdr := 0 }
     (walk.2 = none → (∀ r ∈ walk.1, Fp.hdrOk src r.hdr = true ∧
         (on r.first (min r.b (vl - r.first)) = true ∨ off r.first (min r.b (vl - r.first)) = true)) → els ≠ [] →
       let l := s.inOrder f els vd gd (fmtWidth fmt) fun i _ =>
         let r := rec_ i
         convertF fmt rm (bit 1) (bit 2) (Fp.codeValue src r.hdr (Fp.codeAt src (bytesAt (d.reg vs1) r.off r.size) (i - r.first)))
       (l.stop = none → ∃ v, d.reads vd gd l.dst v ∧ exec (.vcvt f) s = .next ((s.vecDone (.vcvt f) f (·.withF l.fs)).putRegs f v)) ∧
       (∀ j c, l.stop = some (j, c) → h.catches → ∃ v, d.reads vd gd l.dst v ∧ exec (.vcvt f) s = .next ((s.vecTrapped (.vcvt f) f
         (fun h => { h.withF l.fs with vstart := BitVec.ofNat 16 j }) 0x03 c 0).putRegs f v))) ∧
     (h.vstart.toNat < vl → (walk.1 = [] ∨ ∃ r, walk.1.head? = some r ∧ h.vstart.toNat < r.b ∧ Fp.hdrOk src r.hdr = false) →
       h.catches → exec (.vcvt f) s = .next (s.vecTrapped (.vcvt f) f (fun h => { h with vstart := 0 }) 0x02 0 0)))) ∧
  (let sfmt := match src % 4 with | 0 => 6 | 1 => 7 | _ => 8
   let gs := groupSize (vlmaxOf fmt d.bytes) (fmtWidth sfmt) d.bytes
   let b := 32 * 2 ^ (f.vs3.toNat % 4)
   let size := Fp.recBytes fmt b
   let n := (vl + b - 1) / b
   let val (i : Nat) : Fp.Val := Fp.decode sfmt (elemAt (d.group vs1 gs) i (fmtWidth sfmt))
   let chosen := (List.range n).filter fun k => on (k * b) (min b (vl - k * b))
   let quant (k j : Nat) : Fm Nat := quantRecord fmt (src / 4 % 2) (f.vs3.toNat % 4) rm (8 ≤ src) (Config.free (s.fresh + j))
     ((List.range (min b (vl - k * b))).map fun i => val (k * b + i))
   let all : Fm Nat := chosen.zipIdx.foldlM (fun v (k, j) => setBits v (8 * (k * size)) (8 * size) <$> quant k j) (d.reg vd)
   let r := all h.fstate
   f.p = 0 → 10 ≤ fmt → fmt < 15 → f.vs3.toNat < 3 → vl ≤ s.longest f fmt → vd < d.nregs → d.groupOk vs1 gs → h.vstart = 0 →
   n * size ≤ d.bytes → (∀ k < n, k ∈ chosen ∨ off (k * b) (min b (vl - k * b)) = true) →
   (r.2.hit = none → chosen ≠ [] → exec (.vquant f) s =
     .next (State.putGroup { s.vecDone (.vquant f) f (·.withF r.2) with fresh := s.fresh + chosen.length } f vd 1 r.1)) ∧
   (chosen = [] → exec (.vquant f) s = .next (s.vecDone (.vquant f) f id)) ∧
   (∀ c, n = 1 → r.2.hit = some c → h.catches → exec (.vquant f) s =
     .next { s.vecTrapped (.vquant f) f (fun h => { h with vstart := 0 }) 0x03 c 0 with fresh := s.fresh + 1 }))

/-- R95, R97, R160 to R162, R165: VBLKHDR reads the header words of the records that cover VL, replaces those of the selected
records with their BSIZE kept, or lays out records of zeros; VMVV copies the selected records of a block register whole, and
VPERM the record its index names; a header that is reserved or cannot be located is a trap with the record's number. -/
def Obligations.BlockRecordResult : Prop := ∀ (f : VForm) (s : State), s.calm f → f.p = 0 → 10 ≤ f.fmt.toNat → f.fmt.toNat < 15 →
  let fmt := f.fmt.toNat
  let fn := f.fn.toNat
  let d := s.side f
  let h := s.me
  let vd := f.vd.toNat
  let vs1 := f.vs1.toNat
  let vl := h.vl.toNat
  let g := groupSize (vlmaxOf fmt d.bytes) 32 d.bytes
  let set (r : Rec) : Bool := (List.range (min r.b (vl - r.first))).all fun j => bitAt (h.governing f.vm.toNat h.vl.toNat) (r.first + j)
  let whole (l : List Rec) : Prop := ∀ r ∈ l, set r = true ∨
    (List.range (min r.b (vl - r.first))).all (fun j => !bitAt (h.governing f.vm.toNat h.vl.toNat) (r.first + j)) = true
  let put (op : Instr) (V : Nat) : State := (s.vecDone op f id).putGroup f vd 1 V
  let reserved (op : Instr) (k : Nat) : State := s.vecTrapped op f (fun h => { h with vstart := 0 }) 0x02 0 (BitVec.ofNat 64 k)
  vl ≤ s.longest f fmt → h.vstart = 0 →
  (fn = 0 → vs1 < d.nregs → d.groupOk vd g →
    let walk := walkReg fmt d.bytes vl (d.reg vs1)
    (walk.2 = none → ∃ V, Spec.elements V (d.group vd g) 32 (List.range walk.1.length)
        (fun k => (walk.1.getD k { k := 0, first := 0, b := 0, off := 0, size := 0, hdr := 0 }).hdr) ∧
      exec (.vblkhdr f) s = .next ((s.vecDone (.vblkhdr f) f id).putGroup f vd g V)) ∧
    (∀ k first, walk.2 = some (k, first) → h.catches → exec (.vblkhdr f) s = .next (reserved (.vblkhdr f) k))) ∧
  (fn = 1 → vd < d.nregs → d.groupOk f.vs2.toNat g →
    let walk := walkReg fmt d.bytes vl (d.reg vd)
    let hdr (r : Rec) : Nat := setBits (elemAt (d.group f.vs2.toNat g) r.k 32) 24 2 (r.hdr / 2 ^ 24 % 4)
    walk.2 = none → whole walk.1 →
    ((∀ r ∈ walk.1, set r = true → Fp.hdrOk fmt (hdr r) = true) → walk.1.any set = true → exec (.vblkhdr f) s =
      .next (put (.vblkhdr f) ((walk.1.filter set).foldl (fun v r => setBits v (8 * r.off) 32 (hdr r)) (d.reg vd)))) ∧
    (∀ r, walk.1.head? = some r → set r = true → Fp.hdrOk fmt (hdr r) = false → h.catches →
      exec (.vblkhdr f) s = .next (reserved (.vblkhdr f) 0))) ∧
  (2 ≤ fn → vd < d.nregs → vl ≠ 0 →
    let hdr := (h.getX (f.vs3.toNat % 32)).toNat % 2 ^ 32
    let b := Fp.blockSize (hdr / 2 ^ 24 % 4)
    let size := Fp.recBytes fmt b
    (Fp.hdrOk fmt hdr = true → (vl + b - 1) / b * size ≤ d.bytes → ∀ q s1, zeroCode fmt hdr s = .ok q s1 →
      exec (.vblkhdr f) s = .next ((s1.vecDone (.vblkhdr f) f id).putGroup f vd 1 ((List.range ((vl + b - 1) / b)).foldl
        (fun v k => setBits v (8 * (k * size)) (8 * size) (buildRecord fmt hdr b q [])) (d.reg vd)))) ∧
    (Fp.hdrOk fmt hdr = false → h.catches → exec (.vblkhdr f) s = .next (reserved (.vblkhdr f) 0))) ∧
  (vs1 < d.nregs → vd < d.nregs →
    let reg := d.reg vs1
    let walk := walkReg fmt d.bytes vl reg
    (fn = 0 → walk.2 = none → whole walk.1 → walk.1.any set = true → exec (.vmvv f) s =
      .next (put (.vmvv f) ((walk.1.filter set).foldl (fun v r => setBits v (8 * r.off) (8 * r.size) (bytesAt reg r.off r.size)) (d.reg vd)))) ∧
    (let gi := groupSize (vlmaxOf fmt d.bytes) 16 d.bytes
     let idx := d.group f.vs2.toNat gi
     d.groupOk f.vs2.toNat gi → vl ≠ 0 →
     (∀ r, walk.1[elemAt idx 0 16]? = some r → vl ≤ r.b → set { r with first := 0 } = true →
       exec (.vperm f) s = .next (put (.vperm f) (setBits (d.reg vd) 0 (8 * r.size) (bytesAt reg r.off r.size)))) ∧
     (∀ t, (s.calmCtx (.vperm f) f).permRecords fmt idx reg walk (vl / 32 + 1) 0 0 0 (s.entered (.vperm f) f) = .ok () t →
       exec (.vperm f) s = .next (t.leave (.vperm f) f))))

/-! ### Vector memory -/

/-- R39, R218, R228, R269, R270, R282 to R287: the near loads read each active element at its address, from the hart's own scratchpad its
bytes there; the fault-only-first forms leave VL as it was, or trimmed to the first element past VSTART that fails; of the
others, the lowest failing element is the trap, with the elements before it loaded. From any memory, near or far, a load whose
elements are all read completes with them in VD. A block form loads whole records. -/
def Obligations.VectorLoadResult : Prop := ∀ (f : VForm) (s : State), s.calm f →
  let fmt := f.fmt.toNat
  let w := fmtWidth fmt
  let n := w / 8
  let d := s.side f
  let h := s.me
  let vd := f.vd.toNat
  let vl := h.vl.toNat
  let els := h.actives f
  let scope := f.rm.toNat
  let narrowed (l : List Nat) (h : Hart) : Hart := h.narrowIf (decide (3 ≤ scope) && !l.isEmpty)
  let val (addr : Nat → Int) (i : Nat) : Nat := s.scratch.readN (s.scratchAt (addr i).toNat) n
  let trim (k : Nat) (h : Hart) : Hart := { h with vvl := k, vl := BitVec.ofNat 16 k }
  let loads (op : Instr) (addr : Nat → Int) (l : List Nat) (g : Hart → Hart) : Prop :=
    ∃ V, Spec.elements V (d.reg vd) w l (val addr) ∧
      exec op s = .next ((s.vecDone op f fun h => g (narrowed l h)).putGroup f vd 1 V)
  (f.p = 0 → fmt < 10 → s.vlOk f fmt [vd] →
    (s.scratchEls els (s.linearAddr f n) n → loads (.vld f) (s.linearAddr f n) els id ∧
      loads (.vldff f) (s.linearAddr f n) els (trim vl)) ∧
    (s.indexOk f → s.scratchEls els (s.indexAddr f n) n →
      loads (.vldx f) (s.indexAddr f n) els (if f.fn.getLsbD 1 then trim vl else id)) ∧
    (∀ i b, els.find? (fun j => (Machine.outOfBounds (s.ctx s.cur) (s.linearAddr f n j).toNat n).isSome) = some i →
      let l := els.filter (· < i)
      s.scratchEls l (s.linearAddr f n) n → addrOk (s.linearAddr f n i) n = true → s.linearAddr f n i % n = 0 →
      Machine.outOfBounds (s.ctx s.cur) (s.linearAddr f n i).toNat n = some b →
      (h.catches → ∃ V, Spec.elements V (d.reg vd) w l (val (s.linearAddr f n)) ∧ exec (.vld f) s =
        .next ((s.vecTrapped (.vld f) f (fun h => { narrowed l h with vstart := BitVec.ofNat 16 i }) 0x05 0
          (BitVec.ofNat 64 b)).putGroup f vd 1 V)) ∧
      (h.vstart.toNat < i → loads (.vldff f) (s.linearAddr f n) l (trim i)))) ∧
  (fmt < 10 → s.vlOk f fmt [vd] →
    (∀ vals t t', (s.calmCtx (.vld f) f).fetch scope els
        (fun i => .mem <$> checkAccess (s.entryCtx (.vld f) f) (s.linearAddr f n i) n n .read) (s.entered (.vld f) f) = .ok (vals, none) t →
      (s.calmCtx (.vld f) f).putEls vd w vals t = .ok () t' → exec (.vld f) s = .next (t'.leave (.vld f) f)) ∧
    (f.fn.getLsbD 1 = false → s.indexOk f → ∀ vals t t', (s.calmCtx (.vldx f) f).fetch scope els
        (fun i => do
          (s.calmCtx (.vldx f) f).cleanAt [(f.vs2.toNat, indexWidth f, i)]
          return .mem (← checkAccess (s.entryCtx (.vldx f) f) (s.indexAddr f n i) n n .read)) (s.entered (.vldx f) f) = .ok (vals, none) t →
      (s.calmCtx (.vldx f) f).putEls vd w vals t = .ok () t' → exec (.vldx f) s = .next (t'.leave (.vldx f) f))) ∧
  (f.p = 0 → 10 ≤ fmt → fmt < 15 → s.vlOk f fmt [vd] → h.vstart.toNat < vl →
    (∀ l t t', (s.calmCtx (.vld f) f).scanRecords (s.entryCtx (.vld f) f) fmt (f.xs = 0) (s.calmCtx (.vld f) f).linear (fun _ => [])
        (d.reg vd) (vl / 32 + 1) 0 0 0 (s.entered (.vld f) f) = .ok (l, none) t →
      (forAll l fun (off, size, v) => putBytes d.bytes vd off size v) t = .ok () t' → exec (.vld f) s = .next (t'.leave (.vld f) f)) ∧
    (let a := (h.getX (f.vs1.toNat % 32)).toNat
     let hdr := s.scratch.readN (s.scratchAt a) 4
     let b := Fp.blockSize (hdr / 2 ^ 24 % 4)
     let size := Fp.recBytes fmt b
     f.xs = 0 → h.vstart = 0 → vl ≤ b → f.vm = 0 → vl ≤ h.maskLen → Fp.hdrOk fmt hdr = true → s.ownScratch a size → a % 4 = 0 →
     s.plainScratch (s.scratchAt a) size → size ≤ d.bytes →
     exec (.vld f) s = .next ((s.vecDone (.vld f) f fun h => h.narrowIf (decide (3 ≤ scope))).putGroup f vd 1
       (setBits (d.reg vd) 0 (8 * size) (s.scratch.readN (s.scratchAt a) size)))))

/-- R228, R269, R270, R284, R288, R289: the near stores write each active element at its address, in increasing order for VST and
the ordered VSTX, so that the highest element wins at a common byte; at a byte that several elements of an unordered VSTX
write, one of them survives; VSTXA adds each element to the memory word in turn. To any memory, near or far, a store whose
elements all pass their checks completes when they are written. A block form stores whole records, unchecked. -/
def Obligations.VectorStoreResult : Prop := ∀ (f : VForm) (s : State), s.calm f →
  let fmt := f.fmt.toNat
  let w := fmtWidth fmt
  let n := w / 8
  let d := s.side f
  let h := s.me
  let vd := f.vd.toNat
  let vl := h.vl.toNat
  let els := h.actives f
  let scope := f.rm.toNat
  let narrowed (l : List Nat) (h : Hart) : Hart := h.narrowIf (decide (3 ≤ scope) && !l.isEmpty)
  let val (i : Nat) : Nat := elemAt (d.reg vd) i w
  let place (addr : Nat → Int) (i : Nat) : Nat := s.scratchAt (addr i).toNat
  let stored (addr : Nat → Int) : State := els.foldl (fun t i => t.storeScratch (place addr i) n (val i)) s
  let ordered := f.fn.toNat / 2 % 2 = 1
  let check (op : Instr) (addr : Nat → Int) (extra : Nat → List (Nat × Nat × Nat)) (i : Nat) : Exec (Option Access) := do
    let acc ← checkAccess (s.entryCtx op f) (addr i) n n .write
    (s.calmCtx op f).cleanAt ((vd, w, i) :: extra i)
    return some acc
  (f.p = 0 → fmt < 10 → scope ≠ 5 → s.vlOk f fmt [vd] →
    (s.scratchEls els (s.linearAddr f n) n →
      exec (.vst f) s = .next ((stored (s.linearAddr f n)).vecDone (.vst f) f (narrowed els))) ∧
    (s.indexOk f → s.scratchEls els (s.indexAddr f n) n →
      (ordered → exec (.vstx f) s = .next ((stored (s.indexAddr f n)).vecDone (.vstx f) f (narrowed els))) ∧
      (¬ordered → s.inv → ∃ m : Memory,
        (∀ b, (∃ i ∈ els, place (s.indexAddr f n) i ≤ b ∧ b < place (s.indexAddr f n) i + n ∧
            (m.read b).toNat = elemAt (val i) (b - place (s.indexAddr f n) i) 8) ∨
          (m.read b = s.scratch.read b ∧ ∀ i ∈ els, b < place (s.indexAddr f n) i ∨ place (s.indexAddr f n) i + n ≤ b)) ∧
        exec (.vstx f) s = .next (State.vecDone { s with scratch := m, fresh := s.fresh + 1 } (.vstx f) f (narrowed els))) ∧
      (fmt < 4 → exec (.vstxa f) s = .next ((els.foldl (fun t i => t.storeScratch (place (s.indexAddr f n) i) n
        ((t.scratch.readN (place (s.indexAddr f n) i) n + val i) % 2 ^ w)) s).vecDone (.vstxa f) f (narrowed els)))) ∧
    (∀ i b, els.find? (fun j => (Machine.outOfBounds (s.ctx s.cur) (s.linearAddr f n j).toNat n).isSome) = some i →
      let l := els.filter (· < i)
      s.scratchEls l (s.linearAddr f n) n → addrOk (s.linearAddr f n i) n = true → s.linearAddr f n i % n = 0 →
      Machine.outOfBounds (s.ctx s.cur) (s.linearAddr f n i).toNat n = some b → h.catches →
      exec (.vst f) s = .next ((l.foldl (fun t i => t.storeScratch (place (s.linearAddr f n) i) n (val i)) s).vecTrapped (.vst f) f
        (fun h => { narrowed l h with vstart := BitVec.ofNat 16 i }) 0x05 0 (BitVec.ofNat 64 b)))) ∧
  (fmt < 10 → s.vlOk f fmt [vd] →
    (∀ t, (s.calmCtx (.vst f) f).storeEls scope (f.fn = 1) true els (check (.vst f) (s.linearAddr f n) fun _ => []) val
        (s.entered (.vst f) f) = .ok none t → exec (.vst f) s = .next (t.leave (.vst f) f)) ∧
    (s.indexOk f → ∀ t, (s.calmCtx (.vstx f) f).storeEls scope (f.vs3.getLsbD 1) ordered els
        (check (.vstx f) (s.indexAddr f n) fun i => [(f.vs2.toNat, indexWidth f, i)]) val (s.entered (.vstx f) f) = .ok none t →
      exec (.vstx f) s = .next (t.leave (.vstx f) f))) ∧
  (f.p = 0 → 10 ≤ fmt → fmt < 15 → s.vlOk f fmt [vd] → h.vstart.toNat < vl →
    (∀ t, (s.calmCtx (.vst f) f).storeBlock (f.fn = 1) true (s.calmCtx (.vst f) f).linear (fun _ => []) (s.entered (.vst f) f) =
      .ok none t → exec (.vst f) s = .next (t.leave (.vst f) f)) ∧
    (let a := (h.getX (f.vs1.toNat % 32)).toNat
     ∀ r, walkReg fmt d.bytes vl (d.reg vd) = ([r], none) → f.xs = 0 → h.vstart = 0 → f.vm = 0 → vl ≤ h.maskLen → scope ≠ 5 →
     s.ownScratch a r.size → a % 4 = 0 → s.plainScratch (s.scratchAt a) r.size →
     exec (.vst f) s = .next ((s.storeScratch (s.scratchAt a) r.size (bytesAt (d.reg vd) 0 r.size)).vecDone (.vst f) f
       fun h => h.narrowIf (decide (3 ≤ scope)))))

/-- R295, R298 to R301: VLDH and VSTH address element i of a handle at its coordinates, moved along the chosen dimension, by
the layout of its tag; an element outside the extents loads the pad and stores nothing; VLDH leaves VL one past the highest
element inside. A handle of another format, or a conversion that is not there, is a trap with the register's number. -/
def Obligations.HandleAccessResult : Prop := ∀ (f : VForm) (s : State), s.calm f → f.p = 0 →
  let fmt := f.fmt.toNat
  let w := fmtWidth fmt
  let n := w / 8
  let d := s.side f
  let h := s.me
  let vd := f.vd.toNat
  let vl := h.vl.toNat
  let els := h.actives f
  let scope := f.rm.toNat
  let k := f.vs1.toNat
  let x : Handle := Tab.get {} h.h (k % 16)
  let xa := (h.getX (f.vs2.toNat % 32)).toNat
  let xb := (h.getX (f.vs3.toNat % 32)).toNat
  let base (j : Nat) : Nat := ([xa % 2 ^ 32, xa / 2 ^ 32, xb % 2 ^ 32, xb / 2 ^ 32] : List Nat).getD j 0
  let at_ (i j : Nat) : Nat := base j + if j = f.fn.toNat % 4 then i else 0
  let inside (i : Nat) : Prop := ∀ j < 4, at_ i j < 2 ^ 32 ∧ x.goff j ≤ at_ i j ∧ at_ i j < x.goff j + x.ext j
  let l (i j : Nat) : Nat := at_ i j - x.goff j
  let tile (t i : Nat) : Nat :=
    n * (t * t * (((x.ext 1 + t - 1) / t * ((x.ext 0 + t - 1) / t)) * (l i 3 * x.ext 2 + l i 2) +
      l i 1 / t * ((x.ext 0 + t - 1) / t) + l i 0 / t) + t * (l i 1 % t) + l i 0 % t)
  let outer (i : Nat) : Nat := l i 2 * x.pitch2.toNat + l i 3 * x.pitch2.toNat * x.ext 2
  let addr (i : Nat) : Int := (x.base.toNat + match x.tag.toNat with
    | 0 => l i 0 * n + l i 1 * x.pitch1.toNat + outer i
    | 1 => l i 1 * n + l i 0 * x.pitch1.toNat + outer i
    | 2 => tile 128 i
    | _ => tile 32 i : Nat)
  let pad : Nat := if x.pad = 1 then x.padv.toNat % 2 ^ w else 0
  let narrowed (l : List Nat) (h : Hart) : Hart := h.narrowIf (decide (3 ≤ scope) && !l.isEmpty)
  vl ≤ s.longest f fmt → vd < d.nregs → h.badh.contains k = false →
  (fmt < 10 → x.fmt = f.fmt → x.impid = 0 → x.tag.toNat < 4 → ∀ inner : List Nat, (∀ i, i ∈ inner ↔ i ∈ els ∧ inside i) →
    inner.Pairwise (· < ·) → s.scratchEls inner addr n →
    (∀ m, m ≤ vl → (∀ i < vl, m ≤ i → ¬inside i) → (m = 0 ∨ inside (m - 1)) →
      ∃ V, (∀ i, (i ∈ inner → elemAt V i w = s.scratch.readN (s.scratchAt (addr i).toNat) n) ∧
          (i ∈ els → i ∉ inner → elemAt V i w = pad) ∧ (i ∉ els → elemAt V i w = elemAt (d.reg vd) i w)) ∧
        exec (.vldh f) s = .next ((s.vecDone (.vldh f) f fun h => { narrowed inner h with vvl := m, vl := BitVec.ofNat 16 m }).putGroup f vd 1 V)) ∧
    (scope ≠ 5 → exec (.vsth f) s = .next ((inner.foldl (fun t i => t.storeScratch (s.scratchAt (addr i).toNat) n (elemAt (d.reg vd) i w)) s).vecDone (.vsth f) f
      (narrowed inner)))) ∧
  (x.fmt = f.fmt → (x.tag = 4 → f.fn.toNat % 4 = 0 ∧ base 0 % 128 = 0) → (x.impid = 0 ∨ (Tab.find s.convs x.impid.toNat).isSome) →
    let cl := s.calmCtx (.vldh f) f
    let cs := s.calmCtx (.vsth f) f
    let s1 := s.entered (.vldh f) f
    let s2 := s.entered (.vsth f) f
    (fmt < 10 → (∀ vals t t1 t2, cl.fetch scope els (fun i => do
        match ← cl.handleAddr (s.entryCtx (.vldh f) f) i with
        | none => return .value pad
        | some a => return .mem (← checkAccess (s.entryCtx (.vldh f) f) a n n .read)) s1 = .ok (vals, none) t →
        cl.putEls vd w vals t = .ok () t1 → trimVl cl.insideVl t1 = .ok () t2 → exec (.vldh f) s = .next (t2.leave (.vldh f) f)) ∧
      (∀ t, cs.storeEls scope (f.fn.getLsbD 2) true els (fun i => do
        match ← cs.handleAddr (s.entryCtx (.vsth f) f) i with
        | none => return none
        | some a => do
          let acc ← checkAccess (s.entryCtx (.vsth f) f) a n n .write
          cs.cleanAt [(vd, w, i)]
          return some acc) (fun i => elemAt (d.reg vd) i w) s2 = .ok none t → exec (.vsth f) s = .next (t.leave (.vsth f) f))) ∧
    (10 ≤ fmt → fmt < 15 → (∀ t t1, cl.loadQ128 s1 = .ok none t → trimVl cl.insideVl t = .ok () t1 → exec (.vldh f) s = .next (t1.leave (.vldh f) f)) ∧
      (h.vstart.toNat < vl → ∀ t, cs.storeQ128 (f.fn.getLsbD 2) s2 = .ok none t → exec (.vsth f) s = .next (t.leave (.vsth f) f)))) ∧
  (h.vstart.toNat < vl → x.fmt ≠ f.fmt ∨ (x.tag = 4 ∧ (f.fn.toNat % 4 ≠ 0 ∨ base 0 % 128 ≠ 0)) ∨
      (x.impid ≠ 0 ∧ Tab.find s.convs x.impid.toNat = none) → h.catches →
    exec (.vsth f) s = .next (s.vecTrapped (.vsth f) f (fun h => { h with vstart := 0 }) 0x02 0 (BitVec.ofNat 64 k)) ∧
    exec (.vldh f) s = .next (s.vecTrapped (.vldh f) f (fun h => { h with vstart := 0 }) 0x02 0 (BitVec.ofNat 64 k)))

/-! ### Vector length, the queue and convoys -/

/-- R22, R35, R136 to R138: SETVL and SETVLW take the gang's grant and give x(VD) and VL the least of the application length, VLMAX
and the granted part of VLMAX; SETVLW completes when its watermark is at least lo + vl and waits in the queue until then;
VCFG, after the vector side and outside a handler, sets the register count, invalidates the registers and leaves VL 0. -/
def Obligations.VectorLengthResult : Prop := ∀ (f : VForm) (s : State),
  s.alone → s.me.viq = [] → s.me.held.length < 64 → (s.me.tstat.inh = true → s.me.noRoom = false) → f.tpop = 0 → f.tpsh = 0 →
  let h := s.me
  let x (r : BitVec 6) : Word := h.getX (r.toNat % 32)
  let gs := (s.gangOf h).gshift
  let m := h.vlmax f.fmt.toNat
  let lanes := h.count.toNat
  let vl := min (x f.vs1).toNat (min m (m * max 1 (lanes / 2 ^ gs.toNat) / lanes))
  let h1 : Hart := { h.setX f.vd.toNat (BitVec.ofNat 64 vl) with gshift := gs, vl := BitVec.ofNat 16 vl, vlPending := false }
  let base (g : Hart → Hart) : State := s.putHart s.cur { g (h1.advance 8) with entered := h.entered + 1, vstart := 0 }
  exec (.setvl f) s = .next ((base id).passed (.setvl f) f) ∧
  (let a := (x f.vs2).toNat
   let narrowed (h : Hart) : Hart := h.narrowIf (decide (3 ≤ f.rm.toNat))
   s.ownScratch a 8 → a % 8 = 0 → s.plainScratch (s.scratchAt a) 8 →
   ((x f.vs3).toNat + vl ≤ s.scratch.readN (s.scratchAt a) 8 → exec (.setvlw f) s =
     .next ((base narrowed).passed (.setvlw f) f)) ∧
   (s.scratch.readN (s.scratchAt a) 8 < (x f.vs3).toNat + vl → exec (.setvlw f) s =
     .next ((base narrowed).putHart s.cur { (base narrowed).me with
       viq := [{ h.capture (.setvlw f) f with vl := some vl }] }))) ∧
  (h.tstat.inh = false → exec (.vcfg f) s = .next (State.passed (s.putHart s.cur { h.advance 8 with
    vl := 0, vlPending := false, vcfg := f.fn.setWidth 2, v := [], m := [], badv := [], entered := h.entered + 1, vstart := 0 })
    (.vcfg f) f))

/-- R65, R99, R107, R108, R315, R321, R352, R406: an instruction that finds others queued waits behind them with its operands
captured, and one that finds no free entry waits outside (in a handler it is illegal, even if one is freed later); a unit
class takes the head of the first hart in its round-robin order, which completes and moves the class's pointer past its hart,
or waits where it is; a far one executes in its context; with DYN 6 or 7 under RM = 6, an unbound slot, too long a VL or a
register that does not exist, it is illegal with DETAIL 1. A token is popped before issue and room for one is reserved; the
completion of an instruction that a pass waited for ends the pass (R134). The members of a true convoy enter together; a
false one is passed over, and a header whose fields are wrong is illegal. -/
def Obligations.QueueResult : Prop :=
  (∀ (f : VForm) (s : State),
    let h := s.me
    let ops := [Instr.vint, .vmul, .vsat, .vmulw, .vaddw, .vnarrow, .vabsd, .vbitc, .vfalu, .vfma, .vfdiv, .vfsqrt, .vfexp2,
      .vfclass, .vcmp, .vmlog, .vmpop, .vsel, .vcvt, .vquant, .vblkhdr, .vperm, .vpermb, .vslide, .vcompress, .vexpand, .vsplat,
      .vmvx, .vmvv, .viota, .vred, .vredo, .vscan, .vrecur, .vtopk, .vld, .vldff, .vldx, .vst, .vstx, .vstxa, .vldh, .vsth]
    (h.viq ≠ [] → h.held.length + h.viq.length < 64 → (h.tstat.inh = true → h.noRoom = false) →
      ∀ op ∈ ops, h.ready (xFieldsOf (op f) f) = true →
        exec (op f) s = .next (s.entered (op f) f) ∧
        (h.rep.active = false → s.entered (op f) f = s.putHart s.cur { h with
          pc := h.pc + 8, viq := h.viq ++ [h.capture (op f) f], entered := h.entered + 1,
          vlPending := h.vlPending || trims (op f), members := h.members.tail })) ∧
    (∀ op ∈ ops, h.ready (xFieldsOf (op f) f) = false → exec (op f) s = .next s) ∧
    (∀ op ∈ ops, h.ready (xFieldsOf (op f) f) = true →
      (h.tstat.inh = false → 64 ≤ h.held.length + h.viq.length → exec (op f) s = .next s) ∧
      (h.tstat.inh = true → h.noRoom = true ∨ 64 ≤ h.held.length + h.viq.length → h.viq ≠ [] →
        exec (op f) s = .next (s.putHart s.cur { h with noRoom := true }))) ∧
    (s.alone → h.viq = [] → h.held.length < 64 → h.vlPending = false → f.tpop = 0 → f.tpsh = 0 → h.catches →
      (f.rm = 6 ∧ 6 ≤ h.dyn.toNat) ∨ (f.p = 1 ∧ (h.slot f.slot.toNat).bound = false) →
      ∀ op ∈ ops, exec (op f) s = .next (s.vecTrapped (op f) f id 0x01 1 (illegalValue (op f)))) ∧
    (s.calm f → h.catches → ¬s.vlOk f f.fmt.toNat (twoRegs f) → ∀ op ∈ [Instr.vint, .vmul, .vsat, .vfalu],
      exec (op f) s = .next (s.vecTrapped (op f) f id 0x01 1 (illegalValue (op f))))) ∧
  (∀ (k j : Nat) (e : VEntry) (s t : State) (pre post : List Nat), s.headOf k = some e →
    let ofClass (t : State) (j : Nat) : Prop := t.headOf j ≠ none ∧ e.unit ∈ (t.hart j).headUnits
    (s.issueOrder (k / 8) e.unit = pre ++ j :: post → (∀ i ∈ pre, ¬ofClass s i) → ofClass s j →
      (issueOn j s = .ok true t → exec (.vectorIssue k) s = .next t) ∧
      (issueOn j s = .ok false t → (∀ i ∈ post, ¬ofClass t i) → exec (.vectorIssue k) s = .next t)) ∧
    (∀ b, e.isFar = true → issueOn k s = .ok b t → exec (.farExecute k) s = .next t) ∧
    (e.isFar = false → exec (.farExecute k) s = .next s)) ∧
  (∀ (k : Nat) (s : State), s.headOf k = none → exec (.vectorIssue k) s = .next s ∧ exec (.farExecute k) s = .next s) ∧
  (∀ (k : Nat) (e : VEntry) (s t : State), (s.hart k).viq.head? = some e → e.convoy = none → (∀ p ∈ s.plan.ahead, p.1 ≠ k) →
    (issueHead (issueBody e.instr) { s with cur := k } = .ok () t → issueOn k s = .ok true { t with
      cur := s.cur, issuePtr := Tab.put 0 t.issuePtr (t.cur / 8 * 8 + e.unit) ((t.cur % 8 + 1) % 8) }) ∧
    (issueHead (issueBody e.instr) { s with cur := k } = .error .wait t → issueOn k s = .ok false { t with cur := s.cur })) ∧
  (∀ (e : VEntry) (f : VForm) (s : State), s.me.viq.head? = some e → e.popped = false → e.reserved = false →
    let pk := popFifo e.instr f
    let qk := pushFifo e.instr f
    let h := s.me
    let c := h.getX h.rep.reg.toNat
    let c' := if c = 0 then 0 else c - 1
    (f.tpop = 1 → Tab.get 0 h.tokens pk = 0 → takeTokens e f s = .error .wait s) ∧
    (f.tpop = 0 → f.tpsh = 1 → 16 ≤ Tab.get 0 h.tokens qk + Tab.get 0 h.resv qk → takeTokens e f s = .error .wait s) ∧
    (f.tpop = 1 → f.tpsh = 0 → 0 < Tab.get 0 h.tokens pk → takeTokens e f s = .ok { e with popped := true } (s.putHart s.cur
      { h with tokens := Tab.put 0 h.tokens pk (Tab.get 0 h.tokens pk - 1), viq := { e with popped := true } :: h.viq.tail })) ∧
    (f.tpsh = 1 → h.rep.active && e.ends = false → completeHead e f .now s = .ok () (s.putHart s.cur { h with
      viq := h.viq.tail, vstart := 0, resv := Tab.put 0 h.resv qk (Tab.get 0 h.resv qk - 1),
      tokens := Tab.put 0 h.tokens qk (Tab.get 0 h.tokens qk + 1) })) ∧
    (f.tpsh = 0 → h.rep.active && e.ends = true → completeHead e f .now s = .ok () (s.putHart s.cur
      { h.setX h.rep.reg.toNat c' with
        viq := h.viq.tail, vstart := 0, rep := if c' = 0 then {} else { h.rep with pos := 0 },
        pc := if c' = 0 then h.pc else h.rep.start }))) ∧
  (∀ (f : CForm) (s s1 : State) (ms : List (Instr × VForm)),
    let n := f.n.toNat + 2
    let h := s1.me
    ((Instr.convoyHeader f).wf = false → s.me.catches →
      exec (.convoyHeader f) s = .next (s.trapped 0x01 0 (illegalValue (.convoyHeader f)))) ∧
    ((Instr.convoyHeader f).wf = true → each (List.range n) (checkMember (.convoyHeader f) f s.me.pc) s = .ok ms s1 →
      (s.me.rep.active = false ∨ s.me.rep.pos + n < s.me.rep.len) →
      (h.getG f.guard.toNat = true → exec (.convoyHeader f) s =
        .next (s1.putHart s1.cur (Hart.enterNow { h.advance 4 with members := ms, convoy := h.entered } n))) ∧
      (h.getG f.guard.toNat = false → exec (.convoyHeader f) s =
        .next (s1.putHart s1.cur (h.retire (n + 1) (h.pc + BitVec.ofNat 64 (4 + 8 * n))))))) ∧
  (∀ (ms : List (Instr × VForm)) (c : Nat) (h : Hart), h.rep.active = false → h.viq = [] → h.held = [] → h.vlPending = false →
    ms.length ≤ 6 → (∀ m ∈ ms, pendingX m.1 = none ∧ trims m.1 = false) →
    Hart.enterNow { h with members := ms, convoy := c } ms.length = { h with
      members := []
      convoy := c
      viq := ms.zipIdx.map fun (m, k) =>
        { h.capture m.1 m.2 with seq := h.entered + k, pc := h.pc + BitVec.ofNat 64 (8 * k), convoy := some c }
      entered := h.entered + ms.length
      pc := h.pc + BitVec.ofNat 64 (8 * ms.length) })

/-! ### Tiles and attention -/

/-- R173 to R183: VMMA, VMMAX and VMMAQ add to every selected accumulator of the window its G products in the order of k, one
rounding or one clamp each (two roundings for a block), with what arises in the tile flags and no trap; VMMAX reads its A rows
from the hart's own scratchpad, and a row outside it is a trap before any accumulator changes. -/
def Obligations.MatrixResult : Prop := ∀ (f : VForm) (s : State), s.calm f → f.p = 0 → s.badTile = [] →
  let fmt := f.fmt.toNat
  let fn := f.fn.toNat
  let h := s.me
  let d := s.side f
  let vs1 := f.vs1.toNat
  let vs2 := f.vs2.toNat
  let vl := h.vl.toNat
  let g := f.g.toNat + 1
  let tcol := f.vs3.toNat
  let lanes := h.count.toNat
  let cols := (List.range vl).filter (bitAt (h.governing f.vm.toNat h.vl.toNat))
  let p := (vl + 127) / 128
  let base := 512 * (h.first.toNat + tcol) / 32
  let key (m : Nat) : Nat := s.cur / 8 * 128 + m
  let cell (T : Tab Nat) (k j : Nat) : Nat := elemAt (Tab.get 0 T k) j 32
  let ks (n : Nat) : List Nat := (List.range g).filter fun k => h.vstart.toNat ≤ k * p + n / 128
  let sums (op : Instr) (step : Nat → Nat → Nat → Nat → Fm Nat) : Prop :=
    let acc (m n : Nat) : Nat × FState := ((ks n).foldlM (fun a k => step m n k a) (cell s.tiles (key m) (base + n)) : Fm Nat) { seed := h.srseed }
    ∃ T fl, (∀ m < 128, ∀ n ∈ cols, cell T (key m) (base + n) = (acc m n).1 % 2 ^ 32) ∧
      (∀ k j, (∀ m < 128, ∀ n ∈ cols, k ≠ key m ∨ j ≠ base + n) → cell T k j = cell s.tiles k j) ∧
      (∀ b < 6, bitAt fl b = true ↔ ∃ m < 128, ∃ n ∈ cols, bitAt (acc m n).2.flags b = true) ∧
      exec op s = .next { s.vecDone op f (fun h => { h with tflags := h.tflags ||| packTile fl }) with tiles := T }
  tcol < lanes → 4 * vl ≤ 64 * (lanes - tcol) → vs2 + g ≤ d.nregs →
  (let fb := if fn = 1 then (if fmt = 4 then 5 else if fmt = 5 then 4 else fmt) else fmt
   let w := fmtWidth fmt
   let wb := fmtWidth fb
   let step (a : Nat → Nat → Nat) (m n k acc : Nat) : Fm Nat :=
     let x := a m k
     let y := elemAt (d.reg (vs2 + k)) n wb
     if fmt = 0 then
       let x' : Int := if fn % 2 = 1 then (x : Int) else (BitVec.ofNat 8 x).toInt
       let y' : Int := if fn / 2 % 2 = 1 then (y : Int) else (BitVec.ofNat 8 y).toInt
       clampF 32 false ((BitVec.ofNat 32 acc).toInt + x' * y')
     else roundF 8 0 (Fp.fma 0 false false (Fp.decode fmt x) (Fp.decode fb y) (Fp.decode 8 acc))
   vl ≤ h.vlmax fb → fmt < 10 →
   (vs1 + g ≤ d.nregs → 128 ≤ h.vlmax fmt → sums (.vmma f) (step fun m k => elemAt (d.reg (vs1 + k)) m w)) ∧
   (let n := g * (w / 8)
    let row (m : Nat) : Nat := (h.getX (f.vd.toNat % 32)).toNat + elemAt (d.reg vs1) m 32
    let inside (m : Nat) : Prop := max windowBase (s.gangOf h).splo.toNat ≤ row m ∧ row m + n ≤ min (s.gangOf h).sphi.toNat (windowBase + 0x6000000)
    vs1 < d.nregs → 128 ≤ h.vlmax 2 → w / 8 ≠ 0 →
    ((∀ m < 128, inside m ∧ row m % (w / 8) = 0 ∧ s.plainScratch (s.scratchAt (row m)) n) →
      sums (.vmmax f) (step fun m k => elemAt (s.scratch.readN (s.scratchAt (row m)) n) k w)) ∧
    (h.vstart.toNat < g * p → ∀ m < 128, (∀ i < m, inside i ∧ row i % (w / 8) = 0) → addrOk (row m) n = true → row m % (w / 8) = 0 →
      ¬inside m → h.catches → exec (.vmmax f) s =
        .next (s.vecTrapped (.vmmax f) f (fun h => { h with vstart := 0 }) 0x05 0 (BitVec.ofNat 64 (row m)))))) ∧
  (let fb := match fn % 4 with | 0 => 6 | 1 => 7 | 2 => 4 | _ => 5
   let b := 32 * 2 ^ (fn / 4)
   let size := Fp.recBytes fmt b
   let hdr (k m : Nat) : Nat := bytesAt (d.reg (vs1 + k)) (m * size) 4
   let good (k m : Nat) : Prop := Fp.hdrOk fmt (hdr k m) = true ∧ hdr k m / 2 ^ 24 % 4 = fn / 4
   10 ≤ fmt → fmt < 15 → vs1 + g ≤ d.nregs → vl ≤ h.vlmax fb → b * vl ≤ h.vlmax fb → 128 * size ≤ d.bytes →
   ((∀ k < g, ∀ m < 128, good k m) → sums (.vmmaq f) fun m n k acc =>
     let r := bytesAt (d.reg (vs1 + k)) (m * size) size
     mmaqStep fmt (hdr k m) ((List.range b).map (Fp.codeAt fmt r))
       ((List.range b).map fun j => Fp.decode fb (elemAt (d.reg (vs2 + k)) (j * vl + n) (fmtWidth fb))) acc) ∧
   (h.vstart.toNat < g * p → ∀ k < g, ∀ m < 128, (∀ k' m', k' * 128 + m' < k * 128 + m → m' < 128 → good k' m') → ¬good k m → h.catches →
     exec (.vmmaq f) s = .next (s.vecTrapped (.vmmaq f) f (fun h => { h with vstart := 0 }) 0x02 0 (BitVec.ofNat 64 (k * 128 + m)))))

/-- R174, R178, R179, R187 to R190: TLD, TST, TMOV and TZERO move the rows of the row word from VSTART, row by row over the
selected columns, converting in that order when CVT is set; TFLAGS reads the tile flags, and with FN 0 clears them. -/
def Obligations.TileMoveResult : Prop := ∀ (f : VForm) (s : State), s.calm f → f.p = 0 → s.badTile = [] →
  let fmt := f.fmt.toNat
  let fn := f.fn.toNat
  let h := s.me
  let d := s.side f
  let vl := h.vl.toNat
  let tcol := f.vs3.toNat
  let lanes := h.count.toNat
  let w := fmtWidth fmt
  let e := w / 8
  let rw_ := (h.getX (f.vs2.toNat % 32)).toNat
  let row0 := rw_ % 128
  let n := rw_ / 256 % 256
  let cols := (List.range vl).filter (bitAt (h.governing f.vm.toNat h.vl.toNat))
  let l := ((List.range n).filter (h.vstart.toNat ≤ ·)).flatMap fun r => cols.map fun c => (r, c)
  let tw (cvt : Bool) : Nat := if cvt then 32 else w
  let key (r : Nat) : Nat := s.cur / 8 * 128 + row0 + r
  let col (cvt : Bool) (c : Nat) : Nat := 512 * (h.first.toNat + tcol) / tw cvt + c
  let cell (T : Tab Nat) (k j : Nat) (cvt : Bool) : Nat := elemAt (Tab.get 0 T k) j (tw cvt)
  let run (conv : Nat × Nat → Fm Nat) : List Nat × FState := (l.mapM conv : Fm (List Nat)) { seed := h.srseed }
  let flagged (q : FState) (h : Hart) : Hart := { h with srseed := q.seed, tflags := h.tflags ||| packTile q.flags }
  let tiles (T : Tab Nat) (cvt : Bool) (q : List Nat) : Prop :=
    (∀ k < l.length, cell T (key (l.getD k (0, 0)).1) (col cvt (l.getD k (0, 0)).2) cvt = q.getD k 0 % 2 ^ tw cvt) ∧
    (∀ k j, (∀ x ∈ l, k ≠ key x.1 ∨ j ≠ col cvt x.2) → cell T k j cvt = cell s.tiles k j cvt)
  let addr (x : Nat × Nat) : Int := (h.getX (f.vs1.toNat % 32)).toNat + x.1 * (h.getX (f.vd.toNat % 32)).toInt + (x.2 * e : Nat)
  let place (x : Nat × Nat) : Nat := s.scratchAt (addr x).toNat
  let near := ∀ x ∈ l, 0 ≤ addr x ∧ s.ownScratch (addr x).toNat e ∧ (addr x).toNat % e = 0 ∧ s.plainScratch (place x) e
  let narrowed (h : Hart) : Hart := h.narrowIf (decide (3 ≤ f.rm.toNat) && !l.isEmpty)
  let inn (rm v : Nat) : Fm Nat := intoTile fmt rm v
  let out (rm : Nat) (cvt : Bool) (x : Nat × Nat) : Fm Nat :=
    let v := cell s.tiles (key x.1) (col cvt x.2) cvt
    if cvt then outOfTile fmt rm v else pure v
  fmt < 10 → row0 + n ≤ 128 → tcol < lanes →
  (let cvt := fn % 2 = 1
   let rm := if fn / 2 = 6 then h.dyn.toNat else fn / 2
   (fn / 2 = 6 → h.dyn.toNat < 6) → vl ≤ h.vlmax fmt → vl * tw cvt / 8 ≤ 64 * (lanes - tcol) → near →
   (let q := run fun x => if cvt then inn rm (s.scratch.readN (place x) e) else pure (s.scratch.readN (place x) e)
    ∃ T, tiles T cvt q.1 ∧ exec (.tld f) s = .next { s.vecDone (.tld f) f (fun h => narrowed (flagged q.2 h)) with tiles := T }) ∧
   (let q := run (out rm cvt)
    f.rm ≠ 5 → exec (.tst f) s = .next (((l.zip q.1).foldl (fun t (x, v) => t.storeScratch (place x) e v) s).vecDone (.tst f) f
      fun h => narrowed (flagged q.2 h)))) ∧
  (let cvt := fn / 2 % 2 = 1
   let rm := h.mode f
   let pair (x : Nat × Nat) : Nat := if fn / 4 % 2 = 1 then x.2 * n + x.1 else x.1 * vl + x.2
   let g := groupSize (n * vl) w d.bytes
   vl ≤ h.vlmax fmt → vl * tw cvt / 8 ≤ 64 * (lanes - tcol) → vl ≠ 0 → h.vstart.toNat < n →
   (fn % 2 = 0 → d.groupOk f.vs1.toNat g →
     let q := run fun x => let v := elemAt (d.group f.vs1.toNat g) (pair x) w; if cvt then inn rm v else pure v
     ∃ T, tiles T cvt q.1 ∧ exec (.tmov f) s = .next { s.vecDone (.tmov f) f (flagged q.2) with tiles := T }) ∧
   (fn % 2 = 1 → d.groupOk f.vd.toNat g →
     let q := run (out rm cvt)
     ∃ V v, (∀ k < l.length, elemAt V (pair (l.getD k (0, 0))) w = q.1.getD k 0 % 2 ^ w) ∧
       (∀ j, (∀ x ∈ l, j ≠ pair x) → elemAt V j w = elemAt (d.group f.vd.toNat g) j w) ∧
       d.reads f.vd.toNat g V v ∧ exec (.tmov f) s = .next ((s.vecDone (.tmov f) f (flagged q.2)).putRegs f v))) ∧
  (vl ≤ h.vlmax 2 → 4 * vl ≤ 64 * (lanes - tcol) → ∃ T, tiles T true (l.map fun _ => 0) ∧
    exec (.tzero f) s = .next { s.vecDone (.tzero f) f id with tiles := T }) ∧
  (h.vstart = 0 →
    let t := h.tflags
    let v := (if t.getLsbD 0 then 1 else 0) + (if t.getLsbD 1 then 4 else 0) + (if t.getLsbD 2 then 8 else 0) + if t.getLsbD 3 then 32 else 0
    exec (.tflags f) s = .next (s.vecDone (.tflags f) f fun h =>
      let h := h.setX f.vd.toNat (BitVec.ofNat 64 v)
      if fn = 0 then { h with tflags := 0 } else h))

/-- R192 to R197: VSOFT folds the scores and value rows of its active elements, in order, into one attention slot: the new
maximum, the rescaled denominator pair and o values, the weights of the keys, and the count of weights that vanished; VSMERGE
combines the slots its mask selects, in rising order, into slot VD. -/
def Obligations.AttentionResult : Prop := ∀ (f : VForm) (s : State), s.calm f → f.p = 0 → s.badTile = [] → s.me.vstart = 0 →
  let fmt := f.fmt.toNat
  let h := s.me
  let r := s.side f
  let vl := h.vl.toNat
  let d := 16 * (f.g.toNat + 1)
  let w := fmtWidth fmt
  let els := h.actives f
  let tcol := f.vs3.toNat
  let base := 512 * (h.first.toNat + tcol) / 32
  let key (m : Nat) : Nat := s.cur / 8 * 128 + m
  let cell (T : Tab Nat) (k j : Nat) : Nat := elemAt (Tab.get 0 T k) j 32
  let slot (u : Nat) : Slot :=
    ⟨cell s.tiles (key 0) (base + u + 16), cell s.tiles (key 1) (base + u + 16), cell s.tiles (key 2) (base + u + 16),
      (List.range d).map fun j => cell s.tiles (key j) (base + u)⟩
  let wrote (T : Tab Nat) (u : Nat) (q : Slot) : Prop :=
    (∀ j < d, cell T (key j) (base + u) = q.o.getD j 0 % 2 ^ 32) ∧
    (∀ i v, (i, v) ∈ [(0, q.m), (1, q.hi), (2, q.lo)] → cell T (key i) (base + u + 16) = v % 2 ^ 32) ∧
    (∀ k j, (∀ i < d, k ≠ key i ∨ j ≠ base + u) → (∀ i < 3, k ≠ key i ∨ j ≠ base + u + 16) → cell T k j = cell s.tiles k j)
  tcol + 1 < h.count.toNat → f.vd.toNat < 16 →
  (let g := groupSize (vl * d) w r.bytes
   vl ≤ h.vlmax 8 → f.vs1.toNat < r.nregs → r.groupOk f.vs2.toNat g → overlaps f.vs2.toNat g f.vs1.toNat 1 = false → fmt < 10 →
   (vl = 0 → exec (.vsoft f) s = .next (s.vecDone (.vsoft f) f id)) ∧
   (vl ≠ 0 →
     let old : Slot := if f.fn.toNat % 2 = 1 then ⟨0xFF800000, 0, 0, List.replicate d 0⟩ else slot f.vd.toNat
     let keys := els.map fun i => (elemAt (r.reg f.vs1.toNat) i 32, (List.range d).map fun j => elemAt (r.group f.vs2.toNat g) (i * d + j) w)
     let q := softF fmt (f.fn.toNat / 2 = 1) d old keys { seed := h.srseed }
     ∃ T, wrote T f.vd.toNat q.1.1 ∧ exec (.vsoft f) s = .next { s.vecDone (.vsoft f) f (fun h => { h with
       srseed := q.2.seed, tflags := h.tflags ||| packTile q.2.flags
       ufcount := BitVec.ofNat 64 (min (h.ufcount.toNat + q.1.2) (2 ^ 64 - 1)) }) with tiles := T })) ∧
  (vl ≤ 16 →
    (els = [] → exec (.vsmerge f) s = .next (s.vecDone (.vsmerge f) f id)) ∧
    (∀ k l, els = k :: l →
      let q := ((l.map slot).foldlM (mergeF d) (slot k) : Fm Slot) { seed := h.srseed }
      ∃ T, wrote T f.vd.toNat q.1 ∧ exec (.vsmerge f) s = .next { s.vecDone (.vsmerge f) f (fun h => { h with
        srseed := q.2.seed, tflags := h.tflags ||| packTile q.2.flags }) with tiles := T }))

/-! ### Far contexts -/

/-- R319, R320, R322, R323, R364: FBIND waits in its Landing's queue until a context is granted and binds it to its slot, FREL
gives it back, YXFER moves active elements between near and far registers, FDONE reads the context's count, YSYNC completes;
LEASE GRANT gives the oldest waiting hart a free context with zero registers. -/
def Obligations.FarContextResult : Prop :=
  (∀ (f : VForm) (s : State), s.calm f →
    let h := s.me
    let slot := f.vd.toNat
    let k := h.slot slot
    let t := (h.getX (f.vs1.toNat % 32)).toNat
    let q := Tab.get [] s.leaseq t
    (k.bound = false → t < 1024 → s.present (t / 8) = true →
      (Tab.get 0 s.granted s.cur = 0 → exec (.fbind f) s = .next { s.entered (.fbind f) f with
        leaseq := if s.cur ∈ q then s.leaseq else Tab.put [] s.leaseq t (q ++ [s.cur]) }) ∧
      (∀ key, Tab.get 0 s.granted s.cur = key + 1 → exec (.fbind f) s = .next {
        s.vecDone (.fbind f) f (fun h => { h with fstk := Tab.put {} h.fstk slot {
          pkg := BitVec.ofNat 7 (key / 2048), stack := BitVec.ofNat 3 (key / 256), fctx := BitVec.ofNat 8 key, bound := true } }) with
        granted := Tab.put 0 s.granted s.cur 0 })) ∧
    (k.bound = false → 1024 ≤ t ∨ s.present (t / 8) = false → h.catches →
      exec (.fbind f) s = .next (s.vecTrapped (.fbind f) f id 0x06 0 (BitVec.ofNat 64 t))) ∧
    (k.bound = true → h.catches → exec (.fbind f) s = .next (s.vecTrapped (.fbind f) f id 0x01 1 (illegalValue (.fbind f)))) ∧
    (k.bound = false → k.lost = false → exec (.frel f) s = .next (s.vecDone (.frel f) f id)) ∧
    (k.lost = true → exec (.frel f) s = .next (s.vecDone (.frel f) f fun h => { h with fstk := Tab.put {} h.fstk slot {} })) ∧
    (k.bound = true → k.lost = false → s.slotQuiet k.key = true → ∀ s1, freeLease k.key (s.entered (.frel f) f) = .ok () s1 →
      exec (.frel f) s = .next (State.leave (s1.putHart s1.cur { s1.me with fstk := Tab.put {} s1.me.fstk slot {} }) (.frel f) f)) ∧
    (k.bound = true → k.lost = false → s.slotQuiet k.key = false → exec (.frel f) s = .next (s.entered (.frel f) f))) ∧
  (∀ (f : VForm) (s : State), s.calm f → f.p = 1 → s.me.badv = [] →
    let h := s.me
    let fmt := f.fmt.toNat
    let w := fmtWidth fmt
    let d := s.side f
    let els := h.actives f
    let near (r : Nat) : Nat := Tab.get 0 h.v r % 2 ^ (8 * h.regBytes)
    h.vl.toNat ≤ h.vlmax fmt → h.vl.toNat ≤ farLen w →
    (f.fn = 0 → f.vs1.toNat < h.nregs → f.vd.toNat < 8 → ∃ V,
      Spec.elements V (d.reg f.vd.toNat) w els (fun i => elemAt (near f.vs1.toNat) i w) ∧
      exec (.yxfer f) s = .next ((s.vecDone (.yxfer f) f id).putGroup f f.vd.toNat 1 V)) ∧
    (f.fn ≠ 0 → f.vd.toNat < h.nregs → f.vs1.toNat < 8 → ∃ V,
      Spec.elements V (near f.vd.toNat) w els (fun i => elemAt (d.reg f.vs1.toNat) i w) ∧
      exec (.yxfer f) s = .next (s.vecDone (.yxfer f) f fun h => { h with v := Tab.put 0 h.v f.vd.toNat (V % 2 ^ (8 * h.regBytes)) }))) ∧
  (∀ (f : VForm) (s : State), s.calm f → f.p = 1 →
    exec (.fdone f) s = .next (s.vecDone (.fdone f) f (·.setX f.vd.toNat (s.farCtx (s.me.slot f.slot.toNat).key).done)) ∧
    exec (.ysync f) s = .next (s.vecDone (.ysync f) f id)) ∧
  (∀ (t c k : Nat) (l : List Nat) (s : State),
    (Tab.get [] s.leaseq t = [] → exec (.leaseGrant t c) s = .next s) ∧
    (Tab.get [] s.leaseq t = k :: l → s.freeFar t c = true → exec (.leaseGrant t c) s = .next { s with
      far := Tab.put {} s.far (t * 256 + c) { leased := true }
      leaseq := Tab.put [] s.leaseq t l
      granted := Tab.put 0 s.granted k (1 + t * 256 + c) }) ∧
    (s.freeFar t c = false → exec (.leaseGrant t c) s = .next s))

/-- R248, R254, R324 to R326: YIRED and YBOP whose descriptor, ranges and size pass are accepted as commands of their Landings;
a descriptor that does not hold is a trap with its address, and more than 16 MiB one with D. A command that no earlier one of
its hart meets acts, its context's count and then its completion word rise by one, and its token is pushed; YIRED leaves in yd
the reduction of its rows, and zero from NELEM up, and YBOP the operation of its sources in D. A YBOP above 16 MiB names x(xD),
and a command of a freed context counts nowhere, by the model’s readings (log 17). -/
def Obligations.BankCommandResult : Prop :=
  (∀ (f : VForm) (s : State), s.calm f → f.p = 1 →
    let h := s.me
    let w := fmtWidth f.fmt.toNat
    let mem := f.fn.toNat / 4 % 2 = 1
    let x := s.entryCtx (.yired f) f
    let c := s.calmCtx (.yired f) f
    let da := (h.getX (f.vs1.toNat % 32)).toNat
    let s0 := (s.entered (.yired f) f).putHart s.cur { (s.entered (.yired f) f).me with vstart := 0 }
    let d := IredDesc.ofBytes (s.scratch.readN (s.scratchAt da) 64)
    (s.longest f f.fmt.toNat < h.vl.toNat → h.catches →
      exec (.yired f) s = .next (s.vecTrapped (.yired f) f id 0x01 1 (illegalValue (.yired f)))) ∧
    (h.vl.toNat ≤ s.longest f f.fmt.toNat → s.ownScratch da 64 → da % 64 = 0 → s.plainScratch (s.scratchAt da) 64 →
    (d.ok w mem f.vd.toNat = true → ∀ rows s1 dst s2 cw s3 t,
      each (List.range d.npkt) (packetRows x d (d.nelem * w / 8)) s0 = .ok rows s1 →
      (if mem then cmdRange x (d.dst : Nat) (d.nelem * w / 8) 32 .write else pure []) s1 = .ok dst s2 →
      (if d.cword ≠ 0 then cmdRange x (d.cword : Nat) 8 8 .write else pure []) s2 = .ok cw s3 →
      acceptCmd c (.yired (f.fn.toNat % 4) f.fmt.toNat (h.mode f) d.nelem rows.flatten dst (if mem then none else some f.vd.toNat)
        cw.head?) (rows.flatten.flatten ++ dst ++ cw) s3 = .ok () t →
      t.banks.length = s3.banks.length + 1 ∧ exec (.yired f) s = .next (t.leave (.yired f) f)) ∧
    (d.ok w mem f.vd.toNat = false → h.catches → exec (.yired f) s =
      .next (s.vecTrapped (.yired f) f (fun h => { h with vstart := 0 }) 0x02 0 (BitVec.ofNat 64 da))))) ∧
  (∀ (f : VForm) (s : State), s.calm f → f.p = 1 →
    let h := s.me
    let e := fmtWidth f.fmt.toNat / 8
    let x := s.entryCtx (.ybop f) f
    let c := s.calmCtx (.ybop f) f
    let r (y : BitVec 6) : Word := h.getX (y.toNat % 32)
    let n := (r f.vs3).toNat
    let s0 := (s.entered (.ybop f) f).putHart s.cur { (s.entered (.ybop f) f).me with vstart := 0 }
    let two := f.fn.toNat ≠ 5
    let vague := vagueRange (r f.vd).toNat (r f.vs1).toNat (n * e) e ++
      if two then vagueRange (r f.vd).toNat (r f.vs2).toNat (n * e) e else []
    let span (y : BitVec 6) (k : Kind) : Exec (List Span) := if n = 0 then pure [] else cmdRange x (r y).toNat (n * e) e k
    (s.longest f f.fmt.toNat < h.vl.toNat → h.catches →
      exec (.ybop f) s = .next (s.vecTrapped (.ybop f) f id 0x01 1 (illegalValue (.ybop f)))) ∧
    (h.vl.toNat ≤ s.longest f f.fmt.toNat →
    (n * e ≤ 2 ^ 24 → ∀ d s1 a s2 b s3 t,
      span f.vd .write s0 = .ok d s1 → span f.vs1 .read s1 = .ok a s2 →
      (if two then span f.vs2 .read else pure []) s2 = .ok b s3 →
      acceptCmd c (.ybop f.fn.toNat f.fmt.toNat (h.mode f) n d a b vague) (d ++ a ++ b) s3 = .ok () t →
      t.banks.length = s3.banks.length + 1 ∧ exec (.ybop f) s = .next (t.leave (.ybop f) f)) ∧
    (2 ^ 24 < n * e → h.catches → exec (.ybop f) s =
      .next (s.vecTrapped (.ybop f) f (fun h => { h with vstart := 0 }) 0x04 0 (r f.vd))))) ∧
  (∀ (id : Nat) (b : BankCmd) (s : State), s.banks.find? (·.id = id) = some b →
    let done (s : State) : State :=
      let t := { s with banks := s.banks.filter (·.id ≠ id) }
      match b.token with | some k => t.onHart b.hart b.gang (·.pushToken k) | none => t
    let count (s : State) : State :=
      if b.ctx = noCtx then s else s.putFar b.ctx { s.farCtx b.ctx with done := (s.farCtx b.ctx).done + 1 }
    let kept (b : BankCmd) (s : State) : State := { s with banks := s.banks.map fun a => if a.id = b.id then b else a }
    -- with no part left, yd is written, the count rises, and the command leaves, or stays for its add to CWORD
    let ends (b : BankCmd) (s : State) : Prop :=
      (∀ op fmt rm n d x y v, b.op = .ybop op fmt rm n d x y v → exec (.bankAction id) s = .next (done (count s))) ∧
      (∀ op fmt rm n rows dst yd cw s1, b.op = .yired op fmt rm n rows dst yd cw →
        (match yd with
          | none => pure ()
          | some y => putYd b y (iredRow op fmt rm n (b.rowPieces rows.length)) (n * fmtWidth fmt / 8)
              (badRow (b.rowPieces rows.length))) s = .ok () s1 →
        exec (.bankAction id) s = .next (if cw.isSome then kept { b with raised := true } (count s1) else done (count s1)))
    -- after the part of a Landing
    let acts (k : Nat) (s : State) : Prop := ∀ b' s1, bankPart b k s = .ok b' s1 → b'.todo ≠ [] →
      exec (.bankAction id) s = .next (kept b' s1)
    (s.bankReady b = false → exec (.bankAction id) s = .next s) ∧
    (s.bankReady b = true → b.raised = true → ∀ op fmt rm n rows dst yd sp s1, b.op = .yired op fmt rm n rows dst yd (some sp) →
      addCword b sp s = .ok () s1 → exec (.bankAction id) s = .next (done s1)) ∧
    (s.bankReady b = true → b.raised = false →
      (b.todo = [] → ends b s) ∧ (∀ k, b.todo = [k] → acts k s) ∧
      (∀ k op fmt rm n d x y v b' s1, b.todo = [k] → b.op = .ybop op fmt rm n d x y v → bankPart b k s = .ok b' s1 → b'.todo = [] →
        exec (.bankAction id) s = .next (done (count s1))) ∧
      (∀ k op fmt rm n rows dst yd cw b' s1 s2, b.todo = [k] → b.op = .yired op fmt rm n rows dst yd cw →
        bankPart b k s = .ok b' s1 → b'.todo = [] →
        (match yd with
          | none => pure ()
          | some y => putYd b' y (iredRow op fmt rm n (b'.rowPieces rows.length)) (n * fmtWidth fmt / 8)
              (badRow (b'.rowPieces rows.length))) s1 = .ok () s2 →
        exec (.bankAction id) s = .next (if cw.isSome then kept { b' with raised := true } (count s2) else done (count s2))) ∧
      (2 ≤ b.todo.length → ∃ k ∈ b.todo, ∀ b' s1, bankPart b k { s with fresh := s.fresh + 1 } = .ok b' s1 → b'.todo ≠ [] →
        exec (.bankAction id) s = .next (kept b' s1)))) ∧
  (∀ (b : BankCmd) (op fmt rm n y k : Nat) (ps : List (List Piece)) (s : State),
    let w := fmtWidth fmt
    let vals (j : Nat) : List Nat := ps.map fun p => elemAt (joinPieces p) j w
    let r := iredRow op fmt rm n ps
    (w ≠ 0 → (∀ j, elemAt r j w = if j < n then iredElem op fmt rm (vals j) % 2 ^ w else 0) ∧
      (fmt < 4 → op = 0 → ∀ j < n, elemAt r j w = (((vals j).map (BitVec.ofNat w)).sum).toNat)) ∧
    (b.ctx ≠ noCtx → ∃ t, putYd b y r k (badRow ps) s = .ok () t ∧ Tab.get 0 (t.farCtx b.ctx).y y = r ∧
      (∀ z, z ≠ y → Tab.get 0 (t.farCtx b.ctx).y z = Tab.get 0 (s.farCtx b.ctx).y z) ∧
      (∀ z ≠ b.ctx, t.farCtx z = s.farCtx z) ∧ t.mem = s.mem ∧ t.scratch = s.scratch)) ∧
  (∀ (op fmt rm a b n : Nat) (vague : List (Nat × Nat)) (s : State), fmtWidth fmt ≠ 0 →
    let w := fmtWidth fmt
    ∃ r t, ybopResult op fmt rm a b vague (List.range n) 0 s = .ok r t ∧ t = { s with fresh := t.fresh } ∧
      ∀ j < n, (∀ p ∈ vague, j < p.1 ∨ p.1 + p.2 ≤ j) →
        elemAt r j w = ybopElem op fmt rm (elemAt a j w) (elemAt b j w) % 2 ^ w) ∧
  (∀ (w : Who) (key n v : Nat) (d : Domain) (bad : Nat → Nat → Bool) (s : State), s.plainScratch key n →
    writeSpans w (2 ^ 10) v bad [{ pa := 2 ^ 64 + key, bytes := n, domain := d }] 0 s =
      .ok () (s.storeScratch key n (v % 2 ^ (8 * n))))

/-! ### Flume -/

/-- R254, R303 to R316: FLSTREAM, FLPAGED and FLCOPY start a job on their stream with its declared regions, behind the jobs of
the hart they meet, a live stream of the hart being stopped first; with all 16 streams of the core live they wait; a bad buffer
word, a buffer out of bounds, a bad block and a stream of another hart, a suspended one's too, are traps. VLS takes elements in
order and leaves VL at their number, parks on the entry of its job's pause, and is illegal on a free stream, a copy, another
format or with VSTART not 0; FLWAIT gives the count fetched, FLSTOP frees the stream, TKCLR empties the token queues; each waits
where its rule says. Which jobs a new one waits for is the model’s reading (log 18). -/
def Obligations.FlumeResult : Prop := ∀ (f : VForm) (s : State), s.calm f → f.p = 0 →
  let h := s.me
  let fmt := f.fmt.toNat
  let w := fmtWidth fmt
  let eb := w / 8
  let x (r : BitVec 6) : Word := h.getX (r.toNat % 32)
  let key := s.cur / 8 * 16 + f.fn.toNat
  let saved := s.gangs.flatMap fun (_, g) => g.saved.flatMap (·.streams)
  let free := Tab.find s.streams key = none ∧ ∀ p ∈ saved, p.1 ≠ key
  let room := (s.streams.filter fun (k, _) => k / 16 = s.cur / 8).length + (s.savedStreams (s.cur / 8)).length < 16
  let mine (st : Stream) : Prop := Tab.find s.streams key = some st ∧ st.owner = s.cur
  let v := (x f.vd).toNat
  let bn := v / 2 ^ 32 % 2 ^ 16
  let buf := windowBase + v % 2 ^ 32
  let wordOk := v / 2 ^ 48 = 0 ∧ 1 ≤ bn ∧ bn ≤ 8192 ∧ v % 64 = 0
  let inside := Machine.outOfBounds (s.ctx s.cur) buf (64 * bn) = none
  let begun (t : State) (y : Stream) : State := { t with
    fresh := t.fresh + 1, streams := Tab.set t.streams key { y with job := t.fresh, after := t.earlierJobs s.cur y.regions } }
  let zeroed (op : Instr) : State := (s.entered op f).putHart s.cur { (s.entered op f).me with vstart := 0 }
  let starts (op : Instr) (y : Stream) : Prop :=
    (free → room → exec op s = .next (begun (s.vecDone op f id) y)) ∧
    (∀ st t, mine st → room → stopStream key (zeroed op) = .ok () t → t.cur = s.cur →
      h.vstart = 0 → exec op s = .next ((begun t y).leave op f))
  let stream : Stream := {
    job := 0, owner := s.cur, kind := .stream, pc := h.pc, fmt := fmt, avl := (x f.vs2).toNat, buf := buf, cap := 64 * bn / eb
    base := (x f.vs1).toNat, stride := (x f.vs3).toInt
    regions := region buf (buf + 64 * bn : Nat) true ++ spanRegion (x f.vs1).toNat (x f.vs2).toNat (x f.vs3).toInt eb false }
  let kind : StreamKind := match f.g.toNat with | 0 => .copy | 1 => .foldo | _ => .foldu
  let copy : Stream := {
    job := 0, owner := s.cur, kind := kind, pc := h.pc, fmt := fmt, avl := (x f.vs2).toNat, base := (x f.vs1).toNat, stride := eb
    dst := v, op := f.vs3.toNat, rm := h.mode f
    regions := spanRegion (x f.vs1).toNat (x f.vs2).toNat eb eb false ++
      spanRegion v (if kind = .copy then (x f.vs2).toNat else min (x f.vs2).toNat 1) eb eb true }
  (wordOk → inside → starts (.flstream f) stream) ∧
  (kind = .copy ∨ h.mode f ≠ 5 → starts (.flcopy f) copy) ∧
  (free ∨ (∃ st, mine st) → ¬room → exec (.flstream f) s = .next (s.entered (.flstream f) f) ∧
    exec (.flcopy f) s = .next (s.entered (.flcopy f) f) ∧ exec (.flpaged f) s = .next (zeroed (.flpaged f))) ∧
  (free → room → ¬wordOk → h.catches →
    exec (.flstream f) s = .next (s.vecTrapped (.flstream f) f id 0x02 0 (BitVec.ofNat 64 (f.vd.toNat % 32)))) ∧
  (free → room → wordOk → ∀ b, Machine.outOfBounds (s.ctx s.cur) buf (64 * bn) = some b → h.catches →
    exec (.flstream f) s = .next (s.vecTrapped (.flstream f) f id 0x05 0 (BitVec.ofNat 64 b))) ∧
  (let xp := (x f.vs1).toNat
   let block (t : State) := PagedBlock.ofBytes (t.scratch.readN (s.scratchAt xp) 64)
   let place (p : PagedBlock) (i : Nat) : Nat := p.btab + 8 * (p.first + i)
   let paged (t : State) : Stream :=
    let p := block t
    let blocks := (List.range p.count).map fun i => t.scratch.readN (s.scratchAt (place p i)) 8
    {
     job := 0, owner := s.cur, kind := .paged, pc := h.pc, fmt := fmt, avl := (p.ntok - p.prog) * (p.rowb / eb)
     buf := buf, cap := 64 * bn / eb, blocks := blocks, bt := p.bt, tok := p.tok0 + p.prog, headOff := p.head * p.hstr
     rowElems := p.rowb / eb, progAddr := xp + 0x30, prog0 := p.prog
     regions := region xp (xp + 64 : Nat) false ++ region (xp + 0x30 : Nat) (xp + 0x38 : Nat) true ++
       region (p.btab + 8 * p.first : Nat) (p.btab + 8 * (p.first + p.count) : Nat) false ++ region buf (buf + 64 * bn : Nat) true ++
       blocks.flatMap fun b => if b = 0 then [] else
         region (b + p.head * p.hstr : Nat) (b + p.head * p.hstr + p.bt * p.rowb : Nat) false }
   let there (t : State) : Prop := t.ownScratch xp 64 ∧ t.plainScratch (s.scratchAt xp) 64
   let named (t : State) : Prop := (block t).ok eb = true ∧
     ∀ i < (block t).count, t.ownScratch (place (block t) i) 8 ∧ t.plainScratch (s.scratchAt (place (block t) i)) 8
   wordOk → inside → xp % 64 = 0 →
   (there s → named s → (∀ st, mine st → st.kind = .paged → st.rowsDone = st.progDone) → starts (.flpaged f) (paged s)) ∧
   (∀ st t1, mine st → room →
     (settleProg key (zeroed (.flpaged f)) = .error .wait t1 → exec (.flpaged f) s = .next t1) ∧
     (settleProg key (zeroed (.flpaged f)) = .ok () t1 → t1.cur = s.cur → there t1 → named t1 → ∀ t, stopStream key t1 = .ok () t →
       t.cur = s.cur → exec (.flpaged f) s = .next ((begun t (paged t1)).leave (.flpaged f) f))) ∧
   (free → room → there s → (block s).ok eb = false → h.catches → exec (.flpaged f) s =
     .next (s.vecTrapped (.flpaged f) f (fun h => { h with vstart := 0 }) 0x02 0 (x f.vs1)))) ∧
  ((∃ st, Tab.find s.streams key = some st ∧ st.owner ≠ s.cur) ∨ (Tab.find s.streams key = none ∧ ∃ p ∈ saved, p.1 = key) →
    h.catches → ∀ op ∈ [Instr.flstream, .flcopy, .flwait, .flstop, .vls],
    exec (op f) s = .next (s.vecTrapped (op f) f id 0x01 1 (illegalValue (op f)))) ∧
  (∀ st, mine st → h.vstart = 0 → s.vlOk f fmt [f.vd.toNat] → st.fmt = fmt → st.kind = .stream ∨ st.kind = .paged →
    let want := min (min h.vl.toNat (st.avl - st.consumed)) st.cap
    let n := min want (st.fetched - st.consumed)
    let place (i : Nat) : Nat := s.scratchAt (st.buf + (st.consumed + i) % st.cap * eb)
    let els := (List.range n).filter (bitAt (h.governing f.vm.toNat h.vl.toNat))
    (want ≤ st.fetched - st.consumed ∨ (st.stop ≠ .none ∧ n ≠ 0) → (∀ i ∈ els, s.badScratchIn (place i) eb = none) →
      ∃ V, Spec.elements V ((s.side f).reg f.vd.toNat) w els (fun i => s.scratch.readN (place i) eb % 2 ^ w) ∧
        exec (.vls f) s = .next (State.putGroup { s.vecDone (.vls f) f (fun h => { h with vvl := n, vl := BitVec.ofNat 16 n }) with
          streams := Tab.set s.streams key { st with consumed := st.consumed + n } } f f.vd.toNat 1 V)) ∧
    (st.fetched - st.consumed < want → st.stop = .none → exec (.vls f) s = .next (s.entered (.vls f) f)) ∧
    (n = 0 → want ≠ 0 →
      (∀ c d u, st.stop = .failure c d u → h.catches → exec (.vls f) s = .next (s.vecTrapped (.vls f) f id c d u)) ∧
      (∀ id, st.stop = .entry id → exec (.vls f) s = .next (State.putHart { s.entered (.vls f) f with
        pending := s.pending.map fun p => if p.id = id then { p with harts := p.harts ++ [s.cur] } else p } s.cur
        { (s.entered (.vls f) f).me with run := .parked id })))) ∧
  (free ∨ h.vstart ≠ 0 ∨ (∃ st, mine st ∧ (st.fmt ≠ fmt ∨ st.kind = .copy ∨ st.kind = .foldo ∨ st.kind = .foldu)) → h.catches →
    exec (.vls f) s = .next (s.vecTrapped (.vls f) f id 0x01 1 (illegalValue (.vls f)))) ∧
  (free → exec (.flwait f) s = .next (s.vecDone (.flwait f) f (·.setX f.vd.toNat 0)) ∧ exec (.flstop f) s = .next (s.vecDone (.flstop f) f id)) ∧
  (∀ st, mine st →
    (st.avl ≤ st.fetched → exec (.flwait f) s = .next {
      s.vecDone (.flwait f) f (fun h => { h.setX f.vd.toNat (BitVec.ofNat 64 st.fetched) with flags := h.flags ||| st.flags }) with
      streams := Tab.set s.streams key { st with flags := 0 } }) ∧
    (st.fetched < st.avl → (x f.vs1).toNat ≤ st.fetched → exec (.flwait f) s =
      .next (s.vecDone (.flwait f) f (·.setX f.vd.toNat (BitVec.ofNat 64 st.fetched)))) ∧
    (st.fetched < min (x f.vs1).toNat st.avl → ∀ c d u, st.stop = .failure c d u → h.catches →
      exec (.flwait f) s = .next (s.vecTrapped (.flwait f) f id c d u)) ∧
    (st.fetched < min (x f.vs1).toNat st.avl → (∀ c d u, st.stop ≠ .failure c d u) → exec (.flwait f) s = .next (s.entered (.flwait f) f)) ∧
    (∀ t, stopStream key (s.entered (.flstop f) f) = .ok () t → exec (.flstop f) s = .next (t.leave (.flstop f) f))) ∧
  (h.allPushed = true → exec (.tkclr f) s = .next (s.vecDone (.tkclr f) f fun h => { h with tokens := [] })) ∧
  (h.allPushed = false → exec (.tkclr f) s = .next (s.entered (.tkclr f) f))

/-- R254, R303, R307, R310, R311: FLUME FETCH puts the next element of a stream, at its stride or through its block table, into its
slot of the strip buffer while that has room; FLUME COPY ELEMENT copies the next element, or folds it into the accumulator, in
order or by the trees of its strips of 256, which the last one stores; a failed access stops the job before the element, with an
entry or a failure kept; with its last element in, a job's token is pushed. -/
def Obligations.FlumeMoves : Prop := ∀ (core sid : Nat) (x : Stream) (s : State), sid < 16 →
  let key := core * 16 + sid
  let eb := fmtWidth x.fmt / 8
  let w := fmtWidth x.fmt
  let i := x.fetched
  let put (t : State) (y : Stream) : State :=
    match x.token with
    | some k => if y.avl ≤ y.fetched then
        { t.putHart x.owner ((t.hart x.owner).pushToken k) with streams := Tab.set t.streams key { y with token := none } }
      else { t with streams := Tab.set t.streams key y }
    | none => { t with streams := Tab.set t.streams key y }
  let flows := x.kind = .stream ∨ x.kind = .paged
  -- a fault of the kind that is served gets an entry for the hart, which it does not park; any other is kept
  let stopped (o : Host.Outcome State Fault Refusal) (e : Stop) (s1 : State) : Prop :=
    let h := s1.hart x.owner
    match e with
    | .trap c d u => ∀ y, Tab.find s1.streams key = some y →
        o = .next { s1 with streams := Tab.set s1.streams key { y with stop := .failure c d u } }
    | .park c d a u p wr f => ∀ id s2 y,
        postJobEntry h h.fqbase {
          taskid := (s1.gangOf h).task, addr := a, val := u, pc := x.pc, pte := p, elem := i, hartid := s1.hartId x.owner
          asid := h.asid, code := c, detail := d, kind := kindByte (.vector x.pc false) wr f false, src := 2 + 8 * sid }
          (some x.job) none s1 = .ok id s2 →
        Tab.find s2.streams key = some y → o = .next { s2 with streams := Tab.set s2.streams key { y with stop := .entry id } }
    | _ => ∀ y, Tab.find s1.streams key = some y → o = .next { s1 with streams := Tab.set s1.streams key { y with stop := .none } }
  Tab.find s.streams key = some x →
  (s.streamFree key x = false → exec (.flumeFetch core sid) s = .next s ∧ exec (.flumeCopyElement core sid) s = .next s) ∧
  (s.streamFree key x = true →
    (flows → (x.kind = .paged → x.rowsDone = x.progDone) → i < x.avl → i < x.consumed + x.cap → ∀ v s1,
      (match x.addr i with | some a => jobRead (s.ctx x.owner) a eb | none => pure 0) s = .ok v s1 →
      let k := scratchKey (clusterOf x.owner) (x.buf + i % x.cap * eb)
      exec (.flumeFetch core sid) s = .next (put { s1 with
        scratch := s1.scratch.writeN k v eb
        badScratch := s1.badScratch.filter fun w => !(k ≤ w * 8 && w * 8 + 8 ≤ k + eb) } { x with fetched := i + 1 })) ∧
    (flows → (x.kind = .paged → x.rowsDone = x.progDone) → x.avl ≤ i ∨ x.consumed + x.cap ≤ i →
      exec (.flumeFetch core sid) s = .next s) ∧
    (x.kind = .copy → i < x.avl → x.dst = x.base ∨ x.dst + i * eb + eb ≤ x.base ∨ x.base + x.avl * eb ≤ x.dst + i * eb → ∀ v s1 s2,
      jobRead (s.ctx x.owner) (x.base + i * eb : Nat) eb s = .ok v s1 →
      jobWrite (s.ctx x.owner) (x.dst + i * eb : Nat) eb v s1 = .ok () s2 →
      exec (.flumeCopyElement core sid) s = .next (put s2 { x with fetched := i + 1 })) ∧
    (x.kind = .foldo → i < x.avl → ∀ acc s0 v s1,
      (if i = 0 then jobRead (s.ctx x.owner) x.dst eb else pure x.acc) s = .ok acc s0 →
      jobRead (s.ctx x.owner) (x.base + i * eb : Nat) eb s0 = .ok v s1 →
      let r := redOp x.op x.fmt x.rm 0 acc v
      let y : Stream := { x with fetched := i + 1, acc := r.1, strip := [], flags := x.flags ||| BitVec.ofNat 6 r.2 }
      (x.fmt < 4 → x.op < 8 → r.1 % 2 ^ w = (Spec.red x.op (BitVec.ofNat w acc) (BitVec.ofNat w v)).toNat ∨ 2 ^ w ≤ acc ∨ 2 ^ w ≤ v) ∧
      (i + 1 < x.avl → exec (.flumeCopyElement core sid) s = .next (put s1 y)) ∧
      (i + 1 = x.avl → ∀ s2, jobWrite (s.ctx x.owner) x.dst eb r.1 s1 = .ok () s2 →
        exec (.flumeCopyElement core sid) s = .next (put s2 y))) ∧
    (x.kind = .foldu → i < x.avl → ∀ acc s0 v s1,
      (if i = 0 then jobRead (s.ctx x.owner) x.dst eb else pure x.acc) s = .ok acc s0 →
      jobRead (s.ctx x.owner) (x.base + i * eb : Nat) eb s0 = .ok v s1 →
      -- the strip with this element; at its end its tree joins the accumulator
      let strip := v :: x.strip
      let whole := strip.length = 256 ∨ i + 1 = x.avl
      let n := treeDepth strip.length
      let tree := (treeUp (redF x.op x.fmt x.rm) n
        (strip.reverse ++ List.replicate (2 ^ n - strip.length) (redIdentity x.op x.fmt)) : Fm Nat) { seed := 1 }
      let r := redOp x.op x.fmt x.rm 0 acc tree.1
      let y : Stream := { x with
        fetched := i + 1, acc := if whole then r.1 else acc, strip := if whole then [] else strip
        flags := x.flags ||| if whole then BitVec.ofNat 6 (tree.2.flags ||| r.2) else 0 }
      (x.fmt < 4 → x.op < 8 → (∀ a ∈ strip, a < 2 ^ w) → tree.1 = (strip.reverse.foldl
        (fun k a => Spec.red x.op k (BitVec.ofNat w a)) (BitVec.ofNat w (redIdentity x.op x.fmt))).toNat) ∧
      (i + 1 < x.avl → exec (.flumeCopyElement core sid) s = .next (put s1 y)) ∧
      (i + 1 = x.avl → ∀ s2, jobWrite (s.ctx x.owner) x.dst eb r.1 s1 = .ok () s2 →
        exec (.flumeCopyElement core sid) s = .next (put s2 y))) ∧
    -- a failed access stops the job before the element
    (flows → (x.kind = .paged → x.rowsDone = x.progDone) → i < x.avl → i < x.consumed + x.cap → ∀ a e s1, x.addr i = some a →
      jobRead (s.ctx x.owner) a eb s = .error e s1 → stopped (exec (.flumeFetch core sid) s) e s1) ∧
    (x.kind = .copy → i < x.avl → ∀ e s1, jobRead (s.ctx x.owner) (x.base + i * eb : Nat) eb s = .error e s1 →
      stopped (exec (.flumeCopyElement core sid) s) e s1) ∧
    (x.kind = .copy → i < x.avl → x.dst = x.base ∨ x.dst + i * eb + eb ≤ x.base ∨ x.base + x.avl * eb ≤ x.dst + i * eb → ∀ v s1 e s2,
      jobRead (s.ctx x.owner) (x.base + i * eb : Nat) eb s = .ok v s1 →
      jobWrite (s.ctx x.owner) (x.dst + i * eb : Nat) eb v s1 = .error e s2 → stopped (exec (.flumeCopyElement core sid) s) e s2) ∧
    (x.kind = .foldo ∨ x.kind = .foldu → i < x.avl →
      (i = 0 → ∀ e s1, jobRead (s.ctx x.owner) x.dst eb s = .error e s1 → stopped (exec (.flumeCopyElement core sid) s) e s1) ∧
      (∀ acc s0, (if i = 0 then jobRead (s.ctx x.owner) x.dst eb else pure x.acc) s = .ok acc s0 → ∀ e s1,
        jobRead (s.ctx x.owner) (x.base + i * eb : Nat) eb s0 = .error e s1 → stopped (exec (.flumeCopyElement core sid) s) e s1)) ∧
    (x.kind = .foldo → i + 1 = x.avl → ∀ acc s0 v s1 e s2,
      (if i = 0 then jobRead (s.ctx x.owner) x.dst eb else pure x.acc) s = .ok acc s0 →
      jobRead (s.ctx x.owner) (x.base + i * eb : Nat) eb s0 = .ok v s1 →
      jobWrite (s.ctx x.owner) x.dst eb (redOp x.op x.fmt x.rm 0 acc v).1 s1 = .error e s2 →
      stopped (exec (.flumeCopyElement core sid) s) e s2)) ∧
  (∀ i : Nat, (x.kind = .stream → x.addr i = some (x.base + i * x.stride)) ∧
    (x.kind = .paged → let t := x.tok + i / x.rowElems
      let b := x.blocks.getD (t / x.bt - x.tok / x.bt) 0
      x.addr i = if b = 0 then none else
        some (b + x.headOff + t % x.bt * (x.rowElems * eb) + i % x.rowElems * eb : Nat)))

/-! ### Collator -/

/-- R202 to R220: CLSET installs a descriptor that is good and traps on one that is not; CLRUN starts a run over the named
segments; CLNEXT writes the items of the merge of the two streams in its registers and leaves VL at their number, and finishes
the run with the last; CLSPLIT finds the 33 points that cut the rest of a pair into equal parts; CLSAVE stores the cursor,
CLREST loads a good one. Each is illegal out of its place: VSTART not 0, a stream not set, no run; and each waits for the jobs
of the hart in flight that write what it reads, or touch what it writes (R214). Which jobs these waits are for, and DETAIL 1 of
a misaligned BASE, are the model’s readings (log 18). -/
def Obligations.CollatorResult : Prop := ∀ (f : VForm) (s : State), s.calm f → f.p = 0 →
  let h := s.me
  let d := s.side f
  let x (r : BitVec 6) : Word := h.getX (r.toNat % 32)
  let k := Cursor.ofNat h.cursor
  let a := (x f.vs1).toNat
  let place := s.scratchAt a
  let block (n al : Nat) : Prop := s.ownScratch a n ∧ a % al = 0 ∧ s.plainScratch place n
  let w := fmtWidth f.fmt.toNat
  let vd := f.vd.toNat
  let put (c : Cursor) (h : Hart) : Hart := { h with cursor := c.toNat, splits := [], skip := none }
  let trim (n : Nat) (h : Hart) : Hart := { h with vvl := n, vl := BitVec.ofNat 16 n }
  let illegal (op : Instr) : Prop := exec op s = .next (s.vecTrapped op f id 0x01 1 (illegalValue op))
  let waits (op : Instr) : Prop := exec op s = .next (s.entered op f)
  -- no job of the hart in flight meets a region
  let idle (r : Regions) : Prop := (s.earlierJobs s.cur r).all s.jobDone = true
  -- coordinates of 4 or 8 bytes in the hart's own plain scratchpad, n of them from unit u
  let fixed (e : ClDesc) (u n : Nat) : Prop := ClDesc.enc e ≤ 1 ∧ ∀ i < n,
    let p := ClDesc.base e + (u + i) * ClDesc.unit e
    s.ownScratch p (ClDesc.unit e) ∧ s.plainScratch (s.scratchAt p) (ClDesc.unit e)
  let crd (e : ClDesc) (i : Nat) : Nat := s.scratch.readN (s.scratchAt (ClDesc.base e + i * ClDesc.unit e)) (ClDesc.unit e)
  (h.vstart ≠ 0 → h.catches → illegal (.clset f) ∧ illegal (.clrun f) ∧ illegal (.clsplit f) ∧ illegal (.clsave f) ∧
    illegal (.clrest f)) ∧
  (h.vstart = 0 →
    (¬idle (region a (a + 32 : Nat) false) → waits (.clset f)) ∧ (k.cfg = 3 → ¬idle k.regions → waits (.clrun f)) ∧
    (2 ≤ k.state → f.fn ≠ 1 → ¬idle k.regions → waits (.clsplit f)) ∧
    (¬idle (region a (a + 512 : Nat) true) → waits (.clsave f)) ∧ (¬idle (region a (a + 512 : Nat) false) → waits (.clrest f))) ∧
  (h.vstart = 0 → block 32 32 → idle (region a (a + 32 : Nat) false) →
    let e : ClDesc := s.scratch.readN place 32
    let codes := ClDesc.enc e ≤ 3 ∧ ClDesc.stf e ≤ 2 ∧ ClDesc.reserved e = 0 ∧ (ClDesc.stf e < 2 → ClDesc.enc e ≤ 1)
    let al := if ClDesc.enc e = 1 then 8 else 4
    let within := rangeOk (ClDesc.base e) (ClDesc.len e * ClDesc.unit e) = true
    let table := ClDesc.nseg e = 0 ∨ rangeOk (ClDesc.segt e) ((ClDesc.nseg e + 1) * ClDesc.entry e) = true
    let bad (code detail : Nat) (v : Word) : Prop := h.catches → exec (.clset f) s = .next (s.vecTrapped (.clset f) f id code detail v)
    (codes → ClDesc.base e % al = 0 → within → table → exec (.clset f) s = .next (s.vecDone (.clset f) f (put
      (if f.fn = 0 then { k with adesc := e, cfg := k.cfg ||| 1, state := 1 } else { k with bdesc := e, cfg := k.cfg ||| 2, state := 1 })))) ∧
    (¬codes → bad 0x02 0 (x f.vs1)) ∧
    (codes → ClDesc.base e % al ≠ 0 → bad 0x04 1 (BitVec.ofNat 64 (ClDesc.base e))) ∧
    (codes → ClDesc.base e % al = 0 → ¬within → bad 0x04 0 (BitVec.ofNat 64 (ClDesc.base e))) ∧
    (codes → ClDesc.base e % al = 0 → within → ¬table → bad 0x04 0 (BitVec.ofNat 64 (ClDesc.segt e)))) ∧
  (h.vstart = 0 →
    let sa := max (ClDesc.nseg k.adesc) 1
    let sb := max (ClDesc.nseg k.bdesc) 1
    let bcast := f.fn.getLsbD 2 = true
    let last := min (x f.vs2).toNat sa
    (k.cfg = 3 → idle k.regions → bcast ∨ sa = sb → exec (.clrun f) s = .next (s.vecDone (.clrun f) f (put { k with
      mode := f.fn.toNat, seg := a, segend := last, segin := 0, emit := 0, fdet := 0, a := { k.a with flg := k.a.flg &&& 1 }
      b := { k.b with flg := k.b.flg &&& 1 }, state := if a < last then 2 else 3 }))) ∧
    (k.cfg ≠ 3 → h.catches → illegal (.clrun f)) ∧
    (k.cfg = 3 → idle k.regions → ¬bcast → sa ≠ sb → h.catches → exec (.clrun f) s = .next (s.vecTrapped (.clrun f) f id 0x02 0 0))) ∧
  (let n := 2 + f.fn.toNat % 2 + f.fn.toNat / 2 % 2
   let room := vd + n ≤ d.nregs
   (k.state < 2 ∨ ¬room → h.catches → illegal (.clnext f)) ∧
   (2 ≤ k.state → room → s.vlOk f f.fmt.toNat [] →
    (k.state ≠ 2 → exec (.clnext f) s = .next (s.vecDone (.clnext f) f (trim 0))) ∧
    (k.state = 2 → h.vl.toNat ≤ h.vstart.toNat → exec (.clnext f) s = .next (s.vecDone (.clnext f) f (trim h.vstart.toNat))) ∧
    (let la := ClDesc.len k.adesc
     let lb := ClDesc.len k.bdesc
     let coords (e : ClDesc) : List (Nat × Nat) := (List.range (ClDesc.len e)).map fun i => (i, crd e i)
     let sorted (e : ClDesc) : Prop := ∀ i, i + 1 < ClDesc.len e → crd e i ≤ crd e (i + 1)
     let all := Spec.pairItems (k.mode % 4) (la + lb) (coords k.adesc) (coords k.bdesc)
     let items := all.take h.vl.toNat
     let m := items.length
     let col (r : Nat) (it : Option Nat × Option Nat × Nat) : Nat :=
       let pos (p : Option Nat) : Nat := match p with | some q => q % 2 ^ w | none => 2 ^ w - 1
       if r = 0 then pos it.1 else if r = 1 then pos it.2.1 else if r = 2 ∧ f.fn.getLsbD 0 then it.2.2 % 2 ^ w else k.seg % 2 ^ w
     k.state = 2 → idle k.regions → k.segin = 0 → k.segend = k.seg + 1 → ClDesc.nseg k.adesc = 0 → ClDesc.nseg k.bdesc = 0 → h.vstart = 0 →
     0 < h.vl.toNat → fixed k.adesc 0 la → fixed k.bdesc 0 lb → sorted k.adesc → sorted k.bdesc →
     ∃ (V : Nat) (T : Tab Nat) (c : Cursor) (p : List (Nat × Nat)), (∀ r < n, Spec.elements (V / 2 ^ (8 * d.bytes * r) % 2 ^ (8 * d.bytes)) (d.reg (vd + r)) w (List.range m)
         fun i => col r (items.getD i (none, none, 0))) ∧ d.reads vd n V T ∧
       c.emit = (k.emit + m) % 2 ^ 64 ∧ c.adesc = k.adesc ∧ c.bdesc = k.bdesc ∧ c.mode = k.mode ∧ (all.length < h.vl.toNat → c.state = 3 ∧ p = []) ∧
       exec (.clnext f) s = .next (State.putRegs (s.vecDone (.clnext f) f fun h => { trim m h with cursor := c.toNat, splits := p }) f T)))) ∧
  (h.vstart = 0 →
    let out := f.fn = 1
    let room := 33 ≤ h.vlmax f.fmt.toNat ∧ vd + 1 < d.nregs
    let left (y : Side) : Nat := if bitAt y.flg 1 then 0 else y.end_ - y.unit
    let na := left k.a
    let nb := left k.b
    let n := na + nb
    (k.state < 2 ∨ (out ∧ ¬room) → h.catches → illegal (.clsplit f)) ∧
    (2 ≤ k.state → (out → room) → idle k.regions →
      (k.state ≠ 2 → exec (.clsplit f) s = .next (s.vecDone (.clsplit f) f (if out then trim 0 else id))) ∧
      (k.state = 2 → k.segin = 1 → 1 < ClDesc.enc k.adesc ∨ 1 < ClDesc.enc k.bdesc ∨ n = 0 → exec (.clsplit f) s =
        .next (s.vecDone (.clsplit f) f fun h => { (if out then trim 0 h else h) with cursor := k.toNat })) ∧
      (k.state = 2 → k.segin = 1 → n ≠ 0 → n < 2 ^ 64 → fixed k.adesc k.a.unit na → fixed k.bdesc k.b.unit nb →
        let ca (i : Nat) : Nat := crd k.adesc (k.a.unit + i)
        let cb (i : Nat) : Nat := crd k.bdesc (k.b.unit + i)
        (∀ i, i + 1 < na → ca i ≤ ca (i + 1)) → (∀ i, i + 1 < nb → cb i ≤ cb (i + 1)) →
        ∃ l, l.length = 33 ∧
          (∀ q < 33, let e := min (q * ((n + 31) / 32)) n
            ∃ i, l[q]? = some (k.a.ord + i, k.b.ord + (e - i)) ∧ i ≤ min e na ∧ e - i ≤ nb ∧
              (∀ j < i, e - nb ≤ j → ca j < cb (e - j - 1)) ∧ (i < min e na → cb (e - i - 1) ≤ ca i)) ∧
          (¬out → exec (.clsplit f) s = .next (s.vecDone (.clsplit f) f fun h => { h with cursor := k.toNat, splits := l })) ∧
          (out → ∃ V T, Spec.elements (V % 2 ^ (8 * d.bytes)) (d.reg vd) w (List.range 33) (fun q => (l.getD q (0, 0)).1 % 2 ^ w) ∧
            Spec.elements (V / 2 ^ (8 * d.bytes) % 2 ^ (8 * d.bytes)) (d.reg (vd + 1)) w (List.range 33)
              (fun q => (l.getD q (0, 0)).2 % 2 ^ w) ∧ d.reads vd 2 V T ∧
            exec (.clsplit f) s =
              .next (State.putRegs (s.vecDone (.clsplit f) f fun h => { trim 33 h with cursor := k.toNat, splits := l }) f T))))) ∧
  (h.vstart = 0 → block 512 64 →
    (idle (region a (a + 512 : Nat) true) →
      exec (.clsave f) s = .next ((s.vecDone (.clsave f) f id).storeScratch place 512 k.toNat)) ∧
    (let v := s.scratch.readN place 512
     idle (region a (a + 512 : Nat) false) →
     (blockOk v = true → exec (.clrest f) s = .next (s.vecDone (.clrest f) f fun h => { h with cursor := v, splits := [], skip := none })) ∧
     (blockOk v = false → h.catches → exec (.clrest f) s = .next (s.vecTrapped (.clrest f) f id 0x02 0 (x f.vs1)))))

/-! ### Imposition -/

/-- R303, R304, R328 to R331: IMPOSE checks the descriptor and both spans, writes the descriptor with a free IMPID, and has its
conversion accepted behind those of its bay and those its regions meet; a bad field, base or span is its trap, and it waits for
a free IMPID. IMPWAIT takes the IMPID out of the descriptor, waits for the conversion and frees it. TILE CONVERSION reads the
next elements of the next tile, or, with all of them read, writes the next of them, free values where the storages overlap; the
tile's last one makes it NEW, and the last tile ends the job; a failure leaves the tile OLD and stops the job. A failure for
good that traps at IMPWAIT, pitches cut to 32 bits, and a tile that a handle store has reached read in one move, are the model’s
readings (log 18); its moves of 128 elements are its choice (log 9). -/
def Obligations.ImpositionResult : Prop :=
  (∀ (f : VForm) (s : State), s.calm f → f.p = 0 →
    let h := s.me
    let n := f.vs1.toNat
    let o : Handle := Tab.get {} h.h n
    let base := h.getX (f.vs2.toNat % 32)
    let eb := o.elBytes
    let fill := f.fn.toNat ≤ 1 ∧ o.pitch1 = 0
    let p1 := eb * (if f.fn = 0 then o.ext 0 else o.ext 1)
    let g (id : Nat) : Handle := { o with
      oldTag := o.tag, oldBase := o.base, tag := f.fn, base := base, impid := BitVec.ofNat 16 id
      pitch1 := if fill then BitVec.ofNat 32 p1 else o.pitch1
      pitch2 := if fill then BitVec.ofNat 32 (p1 * if f.fn = 0 then o.ext 1 else o.ext 0) else o.pitch2 }
    let fields := o.impid = 0 ∧ o.tag.toNat < 4 ∧ o.fmt.toNat < 10 ∧ o.tiles ≤ 2 ^ 24
    let oldEnd := (g 0).spanEnd o.tag.toNat o.base.toNat
    let newEnd := (g 0).spanEnd f.fn.toNat base.toNat
    let within (a e : Nat) : Prop := Machine.outOfBounds (s.ctx s.cur) a (e - a) = none
    let spans := o.tiles = 0 ∨ (spanAddr o.base.toNat oldEnd = none ∧ spanAddr base.toNat newEnd = none ∧
      within o.base.toNat oldEnd ∧ within base.toNat newEnd)
    let imp := s.freeImpids.getD (Config.free s.fresh % s.freeImpids.length) 0
    let regions := if o.tiles = 0 then [] else region o.base.toNat oldEnd false ++ region base.toNat newEnd true
    let bay := s.convs.filterMap fun (_, d) =>
      if d.accepted && d.bay = coreOf s.cur / 8 && d.ndone < d.tiles then some d.job else none
    let c : Conv := {
      job := s.fresh + 1, old := o, new := g imp, tiles := o.tiles, accepted := true, bay := coreOf s.cur / 8, hart := s.cur
      pc := h.pc, task := (s.gangOf h).task, splo := (s.gangOf h).splo.toNat, sphi := (s.gangOf h).sphi.toNat
      asHart := { asid := h.asid, ptbase := h.ptbase, keydom := h.keydom, tstat := { lvl := h.isS }, gang := h.gang }
      regions := regions, after := (bay ++ s.earlierJobs s.cur regions).filter (· ≠ s.fresh + 1) }
    let failed (code detail : Nat) (v : Word) : Prop := h.catches → exec (.impose f) s =
      .next ((s.entered (.impose f) f).putHart s.cur (Hart.enterTrap { (s.entered (.impose f) f).me with
        viq := [{ h.capture (.impose f) f with handle := o, impFail := some (code, detail, v), imp := 0, again := true }] }
        (.vector h.pc false) code detail v))
    n ∉ h.badh →
    (fields → base.toNat % 64 = 0 → canonical base.toNat = true → spans →
      (s.freeImpids ≠ [] → exec (.impose f) s = .next { s.vecDone (.impose f) f (fun y => { y with h := Tab.put {} y.h n (g imp) }) with
        fresh := s.fresh + 2, convs := Tab.set s.convs imp c }) ∧
      (s.freeImpids = [] → exec (.impose f) s = .next s)) ∧
    (¬fields → failed 0x02 0 (BitVec.ofNat 64 n)) ∧
    (fields → base.toNat % 64 ≠ 0 → failed 0x04 1 base) ∧
    (fields → base.toNat % 64 = 0 → canonical base.toNat = false → failed 0x04 0 base) ∧
    (let flat := o.tag = 2 ∨ o.tag = 3
     let q : Handle := { o with
       impid := 0, oldBase := 0, oldTag := 0, pitch1 := if flat then 0 else o.pitch1, pitch2 := if flat then 0 else o.pitch2 }
     let k := o.impid.toNat % 4096
     let freed : State := s.vecDone (.impwait f) f fun y => { y with h := Tab.put {} y.h n q }
     let held : Hart := { (s.entered (.impwait f) f).me with
       h := Tab.put {} h.h n q, viq := [{ h.capture (.impwait f) f with imp := k }] }
     (o.impid = 0 → Tab.find s.convs 0 = none → exec (.impwait f) s = .next (s.vecDone (.impwait f) f id)) ∧
     (o.impid ≠ 0 → Tab.find s.convs k = none → exec (.impwait f) s = .next freed) ∧
     (∀ c, o.impid ≠ 0 → Tab.find s.convs k = some c →
       (c.tiles ≤ c.ndone → c.token = none → exec (.impwait f) s =
         .next (if c.task = (s.gangOf h).task then { freed with convs := Tab.erase s.convs k } else freed)) ∧
       (c.ndone < c.tiles → (∀ a b u, c.stop ≠ .failure a b u) → exec (.impwait f) s =
         .next ((s.entered (.impwait f) f).putHart s.cur held)) ∧
       (c.ndone < c.tiles → ∀ a b u, c.stop = .failure a b u → h.catches → exec (.impwait f) s =
         .next ((s.entered (.impwait f) f).putHart s.cur (held.enterTrap (.vector h.pc false) a b u)))))) ∧
  (∀ (imp : Nat) (s : State), (Tab.find s.convs imp = none → exec (.tileConversion imp) s = .next s) ∧
    ∀ c, Tab.find s.convs imp = some c →
      let ready := c.accepted = true ∧ c.stop = .none ∧ c.ndone < c.tiles ∧ ∀ j ∈ c.after, s.jobDone j = true
      let els := c.tileEls c.ndone
      let eb := c.new.elBytes
      (¬ready → exec (.tileConversion imp) s = .next s) ∧
      (ready → c.got.length < els.length → ∀ more t,
        each ((els.drop c.got.length).take (if c.ndone ∈ c.stored then els.length else 128)) (fun l => jobRead c.ctx (c.oldAddr l) eb) s =
          .ok more t →
        exec (.tileConversion imp) s = .next { t with convs := Tab.set t.convs imp { c with got := c.got ++ more } }) ∧
      (ready → els.length ≤ c.got.length →
        let part := ((els.zip c.got).drop c.put).take 128
        let d : Conv := if c.put + 128 < els.length then { c with put := c.put + 128 }
          else { c with got := [], put := 0, ndone := c.ndone + 1 }
        let wrote (u : State) : Prop := exec (.tileConversion imp) s = .next (if d.ndone = d.tiles then
            { u.convToken d with convs := Tab.set u.convs imp { d with token := none } }
          else { u with convs := Tab.set u.convs imp d })
        (c.overlaps els = false → ∀ u, forAll part (fun p => jobWrite c.ctx (c.newAddr p.1) eb p.2) s = .ok () u → wrote u) ∧
        (c.overlaps els = true → ∀ t u,
          forAll part (fun p => do jobWrite c.ctx (c.newAddr p.1) eb (← freeBits (8 * eb))) s = .ok () t →
          blurEls c c.oldAddr (part.map (·.1)) t = .ok () u → wrote u)) ∧
      (ready → ∀ e t, convertMove c els s = .error e t →
        (e = .wait → exec (.tileConversion imp) s = .next t) ∧
        (e ≠ .wait → ∀ u v, blurEls c c.newAddr els t = .ok () u → convFault imp { c with got := [], put := 0 } e u = .ok () v →
          exec (.tileConversion imp) s = .next v)) ∧
      (∀ k l, let o := c.new
        let t0 := (o.ext 0 + 127) / 128
        let t1 := (o.ext 1 + 127) / 128
        k < t0 * t1 * o.ext 2 * o.ext 3 → (l ∈ c.tileEls k ↔
          l.l0 < o.ext 0 ∧ l.l1 < o.ext 1 ∧ l.l2 < o.ext 2 ∧ l.l3 < o.ext 3 ∧
          k = l.l0 / 128 + t0 * (l.l1 / 128 + t1 * (l.l2 + o.ext 2 * l.l3)))))

/-! ### Collectives -/

/-- R198 to R200, R334 to R338: in a group of one member VCOLL goes through its phases at once, writes the result of its own
contribution, and leaves the group's descriptor and buffer ready; the first member of a larger group contributes and waits; a
bad group aborts the round with trap 0x08; a VCOLL that finds VSTART not 0 and no round of its own waits. COLLECTIVE PHASE
completes a waiting VCOLL once every member has contributed. COLLWAIT waits for the end of the round. Integer sums, maxima and
minima are those of the encodings, and the special cases of a floating-point sum are those of R199. That wait is the model’s
choice (R336; log 21); the free values in the descriptor, the map and the slots, and the abort before a round is full, are its
readings (log 18). -/
def Obligations.CollectiveResult : Prop :=
  (∀ (f : VForm) (s s1 : State) (da : Access) (g : GroupDesc), s.calm f → f.p = 0 → f.fn.toNat < 5 →
    let h := s.me
    let d := s.side f
    let op := f.fn.toNat
    let fmt := f.fmt.toNat
    let w := fmtWidth fmt
    let vl := h.vl.toNat
    let vd := f.vd.toNat
    let cg := Tab.get (0 : Word) h.cg (f.vs3.toNat % 4)
    let at_ := cgDesc cg
    let e : VEntry := { h.capture (.vcoll f) f with x3 := cg }
    let c : VCtx := { s.calmCtx (.vcoll f) f with e := e }
    let s0 : State := (s.entered (.vcoll f) f).putHart s.cur { (s.entered (.vcoll f) f).me with viq := [e] }
    let ctx (t : State) : Ctx := { t.ctx s.cur with pos := h.entered }
    let need := 512 + match op with | 3 => g.nmem * vl * (w / 8) | 4 => 16 * g.nmem * vl | _ => 16 * vl
    let key := groupKey da
    let r := s.round key
    let nsrc := if op = 4 then g.nmem * vl else vl
    let ndst := if op = 3 then g.nmem * vl else vl
    let gs := groupSize nsrc w d.bytes
    let gd := groupSize ndst w d.bytes
    let valid := g.zero = true ∧ 1 ≤ g.nmem ∧ g.nmem ≤ 4096 ∧ cgRank cg < g.nmem ∧ need ≤ g.size
    let regions := region at_ (at_ + 64 : Nat) true ++ region g.buf (g.buf + need : Nat) true
    let v (i : Nat) : Nat := elemAt (d.group f.vs1.toNat gs) i w
    let mask := h.governing f.vm.toNat h.vl.toNat
    -- an access leaves the hart and the rounds as they are
    let kept (t u : State) : Prop := u.cur = t.cur ∧ u.me = t.me ∧ u.rounds = t.rounds
    (h.vstart ≠ 0 → vl ≤ h.vlmax fmt → vd < d.nregs → f.vs1.toNat < d.nregs → Tab.find h.colls (f.vs3.toNat % 4) = none →
      exec (.vcoll f) s = .next s0) ∧
    (h.vstart = 0 → vl ≤ h.vlmax fmt → vd < d.nregs → f.vs1.toNat < d.nregs → groupAccess c (ctx s0) s0 = .ok (da, g) s1 →
    r.aborted = false → r.parts = [] ∨ r.ended = true →
    (valid → d.groupOk f.vs1.toNat gs → d.groupOk vd gd →
      ∀ ba s2 map s3, bufferAccess c (ctx s0) g s1 = .ok ba s2 → takeAccess (ctx s0) (ba.slice ba.start 512) s2 = .ok map s3 →
      kept s0 s3 → (s3.earlierJobs s.cur regions).all s3.jobDone = true → (op ≠ 3 → awaitBanks (ctx s0) ba s3 = .ok () s3) →
      let part (added read : Bool) : Contribution := {
        job := s3.fresh, rank := cgRank cg, hart := s.cur, gang := h.gang, active := mask, regions := regions
        values := (List.range nsrc).map v, added := added, read := read }
      let round (p : Contribution) : Round :=
        { serial := s3.fresh, op := op, fmt := fmt, vl := vl, nmem := g.nmem, parts := [p], task := (s.gangOf h).task,
          desc := da, buf := ba }
      let joined : State := { s3.putHart s3.cur { s3.me with
          viq := [{ e with coll := some (key, s3.fresh) }], vstart := 1
          colls := Tab.set s3.me.colls (f.vs3.toNat % 4) (key, s3.fresh) } with
        fresh := s3.fresh + 1, rounds := Tab.put {} s3.rounds key (round (part (op = 3) false)) }
      ∀ s4 s5, scribble (ctx s0) da ba false joined = .ok () s4 → scribbleSlots (ctx s0) op ba s4 = .ok () s5 → kept joined s5 →
      (1 < g.nmem → exec (.vcoll f) s = .next s5) ∧
      (g.nmem = 1 → ∀ s6 s7,
        -- step 2 of a reduction
        (if op = 3 then s6 = s5 else
          awaitBanks (ctx s5) ba s5 = .ok () s5 ∧ scribbleSlots (ctx s5) op ba { s5 with
              rounds := Tab.put {} s5.rounds key (round (part true false)) } = .ok () s6 ∧
            s6.cur = s5.cur ∧ s6.me = s5.me ∧ s6.rounds = Tab.put {} s5.rounds key (round (part true false))) →
        let added : State := if op = 3 then s6 else s6.putHart s6.cur { s6.me with vstart := 2 }
        let els := if 3 ≤ op then List.range vl else (List.range vl).filter (bitAt mask)
        let res (i : Nat) : Nat × Nat := if op = 3 then (v i, 0) else collCombine (if op = 4 then 0 else op) fmt [v i]
        let flags := els.foldl (fun a i => a ||| (res i).2) 0
        scribble (ctx added) da ba true added = .ok () s7 → kept added s7 →
        ∃ V, Spec.elements V (d.group vd gd) w els (fun i => (res i).1 % 2 ^ w) ∧
          exec (.vcoll f) s = .next (State.passed (State.putHart
            { s7 with rounds := Tab.put {} s7.rounds key (round (part true true)) } s7.cur
            { s7.me with v := setGroup s7.me.v d.bytes vd V gd, viq := [], vstart := 0
                         flags := s7.me.flags ||| BitVec.ofNat 6 flags }) (.vcoll f) f))) ∧
    (¬valid → h.catches → ∀ s2, scribbleDesc (ctx s0) da { s1 with
        fresh := s1.fresh + 1
        rounds := Tab.put {} s1.rounds key { serial := s1.fresh, task := (s.gangOf h).task } } = .ok () s2 → s2.cur = s.cur →
      s2.me = s0.me → s2.round key = { serial := s1.fresh, task := (s.gangOf h).task } →
      exec (.vcoll f) s = .next (State.putHart { s2 with
        rounds := Tab.put {} s2.rounds key { s2.round key with aborted := true } } s2.cur
        (Hart.enterTrap { s2.me with viq := [e], vstart := 0, colls := Tab.set s2.me.colls (f.vs3.toNat % 4) (key, s1.fresh) }
          (.vector h.pc false) 0x08 0 (BitVec.ofNat 64 at_)))))) ∧
  (∀ (f : VForm) (s : State), s.calm f → f.p = 0 →
    (Tab.find s.me.colls (f.vs3.toNat % 4) = none → exec (.collwait f) s = .next (s.vecDone (.collwait f) f id)) ∧
    (∀ key n, Tab.find s.me.colls (f.vs3.toNat % 4) = some (key, n) →
      ((s.round key).serial ≠ n ∨ (s.round key).ended = true →
        exec (.collwait f) s = .next (s.vecDone (.collwait f) f fun h => { h with colls := Tab.erase h.colls (f.vs3.toNat % 4) })) ∧
      ((s.round key).serial = n → (s.round key).ended = false → exec (.collwait f) s = .next (s.entered (.collwait f) f)))) ∧
  (∀ (k : Nat) (s : State), s.headOf k = none → exec (.collectivePhase k) s = .next s) ∧
  (∀ (k : Nat) (e : VEntry) (s : State), s.headOf k = some e →
    let h := s.hart k
    (e.isVcoll = false → exec (.collectivePhase k) s = .next s) ∧
    (∀ f key p vl, e.instr = .vcoll f → e.coll = some (key, (s.round key).serial) → f.p = 0 → f.tpop = 0 → f.tpsh = 0 →
      (f.rm = 6 → e.dyn.toNat < 6) → h.vlPending = false → e.vl = some vl → e.convoy = none → (∀ q ∈ s.plan.ahead, q.1 ≠ k) →
      h.rep.active && e.ends = false →
      let r := s.round key
      let w := fmtWidth r.fmt
      let mine (q : Contribution) : Bool := q.hart = k && q.gang = h.gang && !q.remote
      let seen := r.parts.map fun q => if mine q then { q with added := true } else q
      let marked : Round := { r with parts := seen.map fun q => if q.rank = p.rank then { q with read := true } else q }
      let all := r.op = 3 ∨ r.op = 4
      let n := if r.op = 3 then r.nmem * r.vl else r.vl
      let g := groupSize n w h.regBytes
      let els := if all then List.range n else (List.range n).filter (bitAt p.active)
      let res (i : Nat) : Nat × Nat :=
        if r.op = 3 then ((((r.parts.find? fun q => q.rank = i / r.vl).map (·.values)).getD []).getD (i % r.vl) 0, 0)
        else if r.op = 4 then collCombine 0 r.fmt (r.parts.map fun q => q.values.getD (p.rank * r.vl + i) 0)
        else collCombine r.op r.fmt ((r.parts.filter fun q => bitAt q.active i).map fun q => q.values.getD i 0)
      vl ≤ h.vlmax f.fmt.toNat → f.vd.toNat < h.nregs → f.vs1.toNat < h.nregs →
      r.aborted = false → r.parts.length = r.nmem → r.parts.find? mine = some p →
      (∀ q ∈ r.parts, q.added = true ∨ mine q = true) → marked.ended = false → e.early = 0 →
      -- step 2, where it is not yet made
      let t0 : State := State.putHart { s with cur := k } k h
      let x (t : State) : Ctx := { t.ctx k with pos := e.seq }
      ∀ s1, (if r.parts.any (fun q => mine q && !q.added) then
          awaitBanks (x t0) r.buf t0 = .ok () t0 ∧
            scribbleSlots (x t0) r.op r.buf { t0 with rounds := Tab.put {} s.rounds key { r with parts := seen } } = .ok () s1 ∧
            s1.cur = k ∧ s1.hart k = h ∧ s1.rounds = Tab.put {} s.rounds key { r with parts := seen }
        else s1 = t0) →
      ∃ V, Spec.elements V (groupVal h.v h.regBytes f.vd.toNat g) w els (fun i => (res i).1 % 2 ^ w) ∧
        ∀ t, (if e.flush = true then flushPool else pure ())
          (State.putHart { s1 with rounds := Tab.put {} s1.rounds key marked } k { h with
            v := setGroup h.v h.regBytes f.vd.toNat V g, viq := h.viq.tail, vstart := 0
            flags := h.flags ||| BitVec.ofNat 6 (els.foldl (fun a i => a ||| (res i).2) 0) }) = .ok () t →
        exec (.collectivePhase k) s = .next { t with
          cur := s.cur, issuePtr := Tab.put 0 t.issuePtr (k / 8 * 8 + e.unit) ((k % 8 + 1) % 8) })) ∧
  (∀ (fmt : Nat) (xs : List Nat), xs ≠ [] →
    let w := fmtWidth fmt
    let sg (x : Nat) : Int := (BitVec.ofNat w x).toInt
    (fmtIsInt fmt = true → (∀ x ∈ xs, x < 2 ^ w) → collCombine 0 fmt xs = (xs.sum % 2 ^ w, 0) ∧
      (∃ x ∈ xs, collCombine 1 fmt xs = (x, 0) ∧ ∀ y ∈ xs, sg y ≤ sg x) ∧
      (∃ x ∈ xs, collCombine 2 fmt xs = (x, 0) ∧ ∀ y ∈ xs, sg x ≤ sg y)) ∧
    (fmtIsInt fmt = false →
      let val (x : Nat) := Fp.decode fmt x
      let nan := (Fp.spec fmt).nan
      let up := ∃ x ∈ xs, (val x).isInf = true ∧ (val x).neg = false
      let down := ∃ x ∈ xs, (val x).isInf = true ∧ (val x).neg = true
      let nans := ∃ x ∈ xs, (val x).isNan = true
      (nans → (collCombine 0 fmt xs).1 = nan) ∧
      (nans → ¬(up ∧ down) → (collCombine 0 fmt xs).2 = if ∃ x ∈ xs, (val x).isSig = true then Fp.NV else 0) ∧
      (up → down → collCombine 0 fmt xs = (nan, Fp.NV)) ∧
      (¬nans → up → ¬down → collCombine 0 fmt xs = ((Fp.spec fmt).inf, 0)) ∧
      (¬nans → down → ¬up → collCombine 0 fmt xs = (Fp.signBit (Fp.spec fmt) true + (Fp.spec fmt).inf, 0))))

/-! ### The machine -/

/-- R23, R24, R106, R131, R405: what a scalar instruction that computes or transfers leaves alone. Whatever it does (its result,
a wait, a trap into the handler; inside a handler or without one, whatever does not park the hart), nothing outside its hart changes, and of its hart only its destination, a repeat's count
register, the guards, the flags and SRSEED, the PC, the repeat and the trap registers can; of its queued instructions only
whether one still writes its x register (R108) and whether a pass waits for it (R134). -/
def Obligations.ScalarFrame : Prop := ∀ (s t : State),
  (s.me.tvec.getLsbD 0 = true ∧ s.me.tstat.inh = false) ∨ (∀ id, t.me.run ≠ .parked id) →
  let kept (i : Instr) (dest : Nat) (guards : Bool) : Prop := exec i s = .next t → t = s ∨ ∃ h : Hart, t = s.putHart s.cur h ∧
    h = { s.me with x := h.x, g := h.g, flags := h.flags, srseed := h.srseed, pc := h.pc, rep := h.rep, tcause := h.tcause
                    tval := h.tval, tpc := h.tpc, tstat := h.tstat, viq := h.viq, members := h.members } ∧
    h.viq.map (fun e => { e with dead := false, ends := false }) = s.me.viq.map (fun e => { e with dead := false, ends := false }) ∧
    (h.members = s.me.members ∨ h.members = []) ∧
    (∀ r, r ≠ dest → r ≠ s.me.rep.reg.toNat → h.getX r = s.me.getX r) ∧ (guards = false → h.g = s.me.g)
  (∀ f : SForm, (∀ op ∈ [Instr.alu, .mul, .div, .bitc, .sel, .falu, .fma, .fsqrt, .fcvt], kept (op f) f.rd.toNat false) ∧
    kept (.glog f) f.rd.toNat true ∧ kept (.cmp f) 0 true ∧ kept (.fcmp f) 0 true) ∧
  (∀ f : IForm, (∀ op ∈ [Instr.addi, .andi, .ori, .xori, .shi, .lea, .jalr], kept (op f) f.rd.toNat false) ∧
    (∀ l, kept (.lit32 f l) f.rd.toNat false) ∧ (∀ l, kept (.lit64 f l) f.rd.toNat false) ∧ kept (.cmpi f) 0 true ∧
    (∀ op ∈ [Instr.cbr, .nop, .trap], kept (op f) 0 false)) ∧
  (∀ f : BForm, kept (.br f) 0 false) ∧ (∀ f : JForm, kept (.jal f) f.rd.toNat false)

/-- R5, R229, R231, R292: the bytes of memory. A completed read gives the coherent bytes of its parts in order and changes no
byte; a completed write leaves its own bytes in its parts and every other byte as it was. The backing value waits for the
write-back, but where the store is .wt, which leaves the coherent bytes of every granule it touches there; the device's own
write, which brings no line into a cache, is merged there. A scratchpad store changes its own bytes only. Premises: the parts lie
in lines of their own, no sector of which is under another domain (R391); the granules read or merged were last written under
this one; and no byte is of a collective's buffer in use (R252). -/
def Obligations.MemoryFrame : Prop :=
  (∀ (s t : State) (c : Ctx) (near wr wt : Bool) (v : Nat) (parts : List (Nat × Nat × Nat × Domain)),
    let acc : Access := parts.map fun (a, n, pa, d) => (a, n, .phys pa d)
    let first := (parts.headD (0, 0, 0, Domain.raw)).1
    let granule (g : Nat) : Prop := ∃ p ∈ parts, p.2.2.1 / 32 ≤ g ∧ g ≤ (p.2.2.1 + p.2.1 - 1) / 32
    parts.Pairwise (fun p q => (p.2.2.1 + p.2.1 - 1) / 128 < q.2.2.1 / 128 ∨ (q.2.2.1 + q.2.1 - 1) / 128 < p.2.2.1 / 128) →
    (∀ a n pa d, (a, n, pa, d) ∈ parts → 0 < n ∧ (∀ i < n, s.vague c.h.colls (pa + i) = false) ∧
      ∀ g x, Tab.find s.sectors g = some x → pa / 128 ≤ g / 4 → g / 4 ≤ (pa + n - 1) / 128 → x.domain = d) →
    let ours := ∀ a n pa d, (a, n, pa, d) ∈ parts → ∀ g, pa / 32 ≤ g → g ≤ (pa + n - 1) / 32 → Tab.find s.domains g = some d
    let written := (∀ a n pa d, (a, n, pa, d) ∈ parts → ∀ i < n, t.rawByte (pa + i) = elemAt v (a - first + i) 8) ∧
      (∀ b, (∀ a n pa d, (a, n, pa, d) ∈ parts → b < pa ∨ pa + n ≤ b) → t.rawByte b = s.rawByte b) ∧ t.scratch = s.scratch
    (c.probe = false → readAccess c near wr acc s = .ok v t → ours →
      v = parts.foldr (fun (_, n, pa, _) r => s.rawBytes pa n + 2 ^ (8 * n) * r) 0 ∧
      (∀ b, t.rawByte b = s.rawByte b) ∧ t.mem = s.mem ∧ t.scratch = s.scratch ∧ t.harts = s.harts) ∧
    (writeAccess c near wt v acc s = .ok () t →
      (c.keep = true → wt = false → written ∧ t.mem = s.mem) ∧
      (ours → written ∧ (∀ b, ¬granule (b / 32) → t.mem.read b = s.mem.read b) ∧
        (c.keep = true → wt = true → ∀ b, granule (b / 32) → (t.mem.read b).toNat = t.rawByte b)))) ∧
  (∀ (s : State) (k n v b : Nat), (s.storeScratch k n v).scratch.read b =
    if k ≤ b ∧ b < k + n then BitVec.ofNat 8 (elemAt v (b - k) 8) else s.scratch.read b)

/-- R49 to R51, R71, R72: with nothing else due, a step fetches at the PC of the hart whose turn it is, executes the instruction
that the parcels decode to at that state, and passes the turn; parcels that are no instruction there raise illegal instruction,
a failed fetch its fault; a member of a checked convoy is executed without a fetch (R51); a due input, move of a unit or event
of an array takes its place. The order of an event of an array, the agenda, a move of a unit and the hart’s turn is the model’s
choice (log 2), with what leaves a crowded array first (log 11) and a clock for each step (log 9). -/
def Obligations.StepRunsDecoded : Prop := ∀ (s t : State) (ps rest : List (BitVec 32)) (i : Instr),
  s.stopped = false →
  (∀ e, s.crowded = some e → step s = mapNext State.tick (eventStep (arrayStep e) s)) ∧
  (∀ e l, s.crowded = none → s.arrays = e :: l → step s = mapNext State.tick (eventStep (arrayStep e) { s with arrays := l })) ∧
  (s.crowded = none → s.arrays = [] →
  (s.agenda = [] → s.unitMove = none → s.runs s.cur = true → s.me.members = [] →
    let pc := s.me.pc.toNat
    let fetched := fetchParcels (s.ctx s.cur) pc s
    (fetched = .ok ps t →
      (decodeParcels ps = .ok (i, rest) → i.wf = true → placedRight (opcodeOf (ps.headD 0)).toNat pc = true →
        step s = mapNext State.turn (exec i t)) ∧
      (decodeParcels ps = .ok (i, rest) → i.wf = false ∨ placedRight (opcodeOf (ps.headD 0)).toNat pc = false →
        step s = mapNext State.turn (exec (.illegalInstruction (parcelValue ps)) t)) ∧
      (∀ e, decodeParcels ps = .error e → step s = mapNext State.turn (exec (.illegalInstruction (parcelValue ps)) t))) ∧
    (∀ e, fetched = .error e t → e ≠ .wait → step s = mapNext State.turn (exec .fetchFault s)) ∧
    (fetched = .error .wait t → step s = .next t.turn)) ∧
  (s.agenda = [] → s.unitMove = none → s.runs s.cur = true → ∀ f l, s.me.members = (i, f) :: l →
    step s = mapNext State.turn (exec i s)) ∧
  (s.agenda = [] → s.unitMove = none → s.runs s.cur = false → step s = .next s.turn) ∧
  (s.agenda = [] → s.unitMove = some i → step s = mapNext State.tick (exec i s)) ∧
  (∀ l, s.agenda = i :: l → step s = mapNext State.tick (exec i { s with agenda := l }))) ∧
  s.turn.clock = s.clock + 1

/-- R428 and the model's canonical form (the guide's; log 4): only a package that has stopped can have no next step, and
every step keeps the backing memory and the scratchpads in their canonical form. -/
def Obligations.InvariantKept : Prop :=
  ∀ s : State, s.inv → (s.stopped = false → ∃ t, step s = .next t) ∧ ∀ t, step s = .next t → t.inv

/-- The Reset columns of R31, R101, R105, R106, R385, R402, R403 and R458: what the registers hold at reset; and the model's
reset state has the canonical form, with nothing listed and no hart, gang or translation live (log 1, log 3). -/
def Obligations.InvariantAtReset : Prop :=
  State.reset.inv ∧ State.reset.mem = [] ∧ State.reset.gangs = [] ∧ State.reset.tlb = [] ∧ State.reset.stopped = false ∧
  State.reset.port.pcap = 2400 ∧ State.reset.port.state = 0 ∧ State.reset.port.reason = 0 ∧
  ∀ k, (State.reset.hart k).run = .free ∧ Tab.get (0 : Word) State.reset.census k = 0 ∧ Tab.get (0 : Word) State.reset.freeq k = 0 ∧
    let h := State.reset.hart k
    h.vl = 0 ∧ h.vstart = 0 ∧ h.flags = 0 ∧ h.dyn = 0 ∧ h.srseed = 1 ∧ h.tvec = 0 ∧ h.tcause = 0 ∧ h.tpc = 0 ∧ h.tval = 0 ∧
    h.tstat = {} ∧ h.asid = 0 ∧ h.ptbase = 0

/-- R49, R54, R60, R64, R67 to R70, R72: decoding the bytes of a well-formed instruction gives it back with every operand, and
what follows; and bytes that decode are the bytes of that instruction alone. -/
def Obligations.RoundTrip : Prop :=
  (∀ (i : Instr) (ps : List (BitVec 32)), i.wf = true → decode (encodeBytes i ++ ps.flatMap bytesOfParcel) = .ok (i, ps)) ∧
  (∀ (bs : List Byte) (i : Instr) (ps : List (BitVec 32)), decode bs = .ok (i, ps) → i.wf = true ∧ parcels bs = encode i ++ ps)

/-- R54, R60, R64, R67 to R70, R72: words written out from the encodings, one or more of every format, decode to what the spec
says they are; an unassigned opcode and a reserved bit are refused. -/
def Obligations.DecodedWords : Prop :=
  let word (ps : List (BitVec 32)) (i : Instr) : Prop := decode (ps.flatMap bytesOfParcel) = .ok (i, [])
  let s : SForm := { fn := 0, gn := 0, g := 0, rs2 := 0, rs1 := 0, rd := 0 }
  let m : IForm := { imm := 0, gn := 0, g := 0, rs1 := 0, rd := 0 }
  let v : VForm := { vd := 0, vs1 := 0, vs2 := 0, vm := 0, p := 0, vs3 := 0, fmt := 0, slot := 0, g := 0, rm := 0, tpop := 0
                     popu := 0, tpsh := 0, pshu := 0, fn := 0, xs := 0 }
  word [0x0000001B] (.nop m) ∧ word [0x0000004A] (.halt m) ∧
  word [0x0100A117] (.cbr { m with imm := 4, rs1 := 5, rd := 1 }) ∧ word [0x00C0AA52] (.hcall { m with imm := 3, rs1 := 5, rd := 10 }) ∧
  word [0x1818AA4B] (.launch { s with fn := 3, rs2 := 6, rs1 := 5, rd := 10 }) ∧
  word [0x1818A04C] (.wmpub { s with fn := 3, rs2 := 6, rs1 := 5 }) ∧
  word [0x2018AA59] (.fqdone { s with fn := 4, rs2 := 6, rs1 := 5, rd := 10 }) ∧
  word [0x00000C4E] (.srd { num := 0, rd := 12 }) ∧ word [0x0006194F] (.swr { num := 48, rd := 25 }) ∧
  word [0x00018780, 0x00000040] (.setvl { v with vd := 7, vs1 := 6, fmt := 1 }) ∧
  word [0x000108BA, 0x00000201] (.vcoll { v with vd := 8, vs1 := 4, vs3 := 1, fmt := 8 }) ∧
  word [0x007040D2, 0x10000000] (.impose { v with vs1 := 1, vs2 := 7, fn := 2 }) ∧
  word [0x000243C1, 0] (.fbind { v with vd := 3, vs1 := 9 }) ∧
  decode (bytesOfParcel 0x00000000) = .error .unassigned ∧
  decode ([0x80018780, 0x00000040].flatMap bytesOfParcel) = .error .reserved ∧ decode [0x80, 0x87, 0x01, 0x00] = .error .truncated
end

