-- ==== Sys2Proof/Laws/Exec.lean ====
section
/-! SUPPORT. How the computations of the model run: one equation for each way of building one. -/

namespace Sys2Proof.Machine

open Sys2Proof

variable {α β : Type}

@[simp] theorem run_pure (a : α) (s : State) : (pure a : Exec α) s = .ok a s := rfl

@[simp] theorem run_bind (m : Exec α) (k : α → Exec β) (s : State) :
    (m >>= k) s = match m s with | .ok a s' => k a s' | .error e s' => .error e s' := by
  show EStateM.bind m k s = _
  unfold EStateM.bind
  cases m s <;> rfl

@[simp] theorem run_map (m : Exec α) (f : α → β) (s : State) :
    (f <$> m) s = match m s with | .ok a s' => .ok (f a) s' | .error e s' => .error e s' := by
  show EStateM.map f m s = _
  unfold EStateM.map
  cases m s <;> rfl

@[simp] theorem run_throw (e : Stop) (s : State) : (throw e : Exec α) s = .error e s := rfl
@[simp] theorem run_get (s : State) : (get : Exec State) s = .ok s s := rfl
@[simp] theorem run_modify (f : State → State) (s : State) : (modify f : Exec Unit) s = .ok () (f s) := rfl
@[simp] theorem run_ask (f : State → α) (s : State) : ask f s = .ok (f s) s := rfl
@[simp] theorem run_trap (c d : Nat) (v : Word) (s : State) : (trap c d v : Exec α) s = .error (.trap c d v) s := rfl
@[simp] theorem run_nextFresh (s : State) : nextFresh s = .ok s.fresh { s with fresh := s.fresh + 1 } := rfl

theorem run_ite (c : Prop) [Decidable c] (m n : Exec α) (s : State) :
    (if c then m else n) s = if c then m s else n s := by split <;> rfl

theorem run_need (c : Bool) (e : Stop) (s : State) :
    need c e s = if c then .ok () s else .error e s := by unfold need; split <;> rfl

@[simp] theorem need_true (e : Stop) (s : State) : need true e s = .ok () s := rfl
@[simp] theorem need_false (e : Stop) (s : State) : need false e s = .error e s := rfl
@[simp] theorem await_true (s : State) : await true s = .ok () s := rfl
@[simp] theorem await_false (s : State) : await false s = .error .wait s := rfl

@[simp] theorem forAll_nil (f : α → Exec Unit) (s : State) : forAll [] f s = .ok () s := rfl
@[simp] theorem each_nil (f : α → Exec β) (s : State) : each [] f s = .ok [] s := rfl

theorem forAll_cons (a : α) (t : List α) (f : α → Exec Unit) (s : State) :
    forAll (a :: t) f s = match f a s with | .ok _ s' => forAll t f s' | .error e s' => .error e s' := by
  rw [forAll, run_bind]
  cases f a s <;> rfl

end Sys2Proof.Machine
end

