-- ==== Sys2Proof/Laws/Tab.lean ====
section
/-! SUPPORT. Sparse tables and memory: reads after writes, and that every write keeps the canonical form. -/

namespace Sys2Proof.Machine

namespace Tab

variable {α : Type} {d v : α} {k j : Nat} {t : Tab α}

@[simp] theorem get_nil : get d [] k = d := rfl

theorem get_erase_same : get d (t.erase k) k = d := by
  induction t with
  | nil => rfl
  | cons p t ih => obtain ⟨a, w⟩ := p; by_cases h : a = k <;> simp [erase, get, h, ih]

theorem get_erase_other (h : j ≠ k) : get d (t.erase k) j = get d t j := by
  induction t with
  | nil => rfl
  | cons p t ih =>
    obtain ⟨a, w⟩ := p
    by_cases ha : a = k
    · subst ha; simp [erase, get, ih, Ne.symm h]
    · by_cases hj : a = j
      · subst hj; simp [erase, get, ha]
      · simp [erase, get, ha, hj, ih]

theorem get_insert_same (h : get d t k = d) (hv : ∀ a w, (a, w) ∈ t → a ≠ k) : get d (t.insert k v) k = v := by
  induction t with
  | nil => simp [insert, get]
  | cons p t ih =>
    obtain ⟨a, w⟩ := p
    have ha : a ≠ k := hv a w (by simp)
    by_cases hk : k < a
    · simp [insert, get, hk]
    · simp only [insert, hk, if_false, get, ha]
      exact ih (by simpa [get, ha] using h) fun b u hb => hv b u (by simp [hb])

theorem get_insert_other (h : j ≠ k) : get d (t.insert k v) j = get d t j := by
  induction t with
  | nil => simp [insert, get, Ne.symm h]
  | cons p t ih =>
    obtain ⟨a, w⟩ := p
    by_cases hk : k < a
    · simp [insert, get, hk, Ne.symm h]
    · by_cases hj : a = j
      · subst hj; simp [insert, get, hk]
      · simp [insert, get, hk, hj, ih]

theorem not_mem_erase : ∀ a w, (a, w) ∈ t.erase k → a ≠ k := by
  induction t with
  | nil => simp [erase]
  | cons p t ih =>
    obtain ⟨b, u⟩ := p
    intro a w h
    by_cases hb : b = k
    · simp only [erase, hb, if_true] at h; exact ih a w h
    · simp only [erase, hb, if_false, List.mem_cons, Prod.mk.injEq] at h
      rcases h with ⟨rfl, -⟩ | h
      · exact hb
      · exact ih a w h

/-- A read after a write of the same key gives the value written. -/
@[simp] theorem get_put_same [DecidableEq α] : get d (t.put d k v) k = v := by
  unfold put
  split
  · next h => rw [get_erase_same, h]
  · exact get_insert_same get_erase_same not_mem_erase

/-- A write leaves every other key alone. -/
theorem get_put_other [DecidableEq α] (h : j ≠ k) : get d (t.put d k v) j = get d t j := by
  unfold put
  split
  · exact get_erase_other h
  · rw [get_insert_other h, get_erase_other h]

theorem get_put [DecidableEq α] : get d (t.put d k v) j = if j = k then v else get d t j := by
  split
  · next h => subst h; exact get_put_same
  · next h => exact get_put_other h

theorem erase_insert : (t.insert k v).erase k = t.erase k := by
  induction t with
  | nil => simp [insert, erase]
  | cons p t ih =>
    obtain ⟨a, w⟩ := p
    unfold insert
    split
    · simp [erase]
    · by_cases ha : a = k <;> simp [erase, ha, ih]

theorem erase_erase : (t.erase k).erase k = t.erase k := by
  induction t with
  | nil => rfl
  | cons p t ih => obtain ⟨a, w⟩ := p; by_cases ha : a = k <;> simp [erase, ha, ih]

/-- The later of two writes of a key is the one that stays. -/
theorem mem_of_mem_erase : ∀ p, p ∈ t.erase k → p ∈ t := by
  induction t with
  | nil => intro p h; exact h
  | cons a t ih =>
    intro p h
    unfold erase at h
    split at h
    · exact List.mem_cons_of_mem _ (ih p h)
    · rcases List.mem_cons.mp h with h | h
      · exact h ▸ List.mem_cons_self
      · exact List.mem_cons_of_mem _ (ih p h)

theorem mem_insert_or : ∀ p, p ∈ t.insert k v → p = (k, v) ∨ p ∈ t := by
  induction t with
  | nil => intro p h; exact Or.inl (by simpa [insert] using h)
  | cons a t ih =>
    intro p h
    unfold insert at h
    split at h
    · rcases List.mem_cons.mp h with h | h
      · exact Or.inl h
      · exact Or.inr h
    · rcases List.mem_cons.mp h with h | h
      · exact Or.inr (h ▸ List.mem_cons_self)
      · rcases ih p h with h | h
        · exact Or.inl h
        · exact Or.inr (List.mem_cons_of_mem _ h)

/-- What a table lists after a value is put: that value, or what it listed before. -/
theorem mem_put_or [DecidableEq α] : ∀ p, p ∈ t.put d k v → p = (k, v) ∨ p ∈ t := by
  intro p h
  unfold put at h
  split at h
  · exact Or.inr (mem_of_mem_erase p h)
  · rcases mem_insert_or p h with h | h
    · exact Or.inl h
    · exact Or.inr (mem_of_mem_erase p h)

@[simp] theorem put_put [DecidableEq α] (u : α) : (t.put d k v).put d k u = t.put d k u := by
  have h : (t.put d k v).erase k = t.erase k := by
    unfold put
    split
    · exact erase_erase
    · rw [erase_insert, erase_erase]
  show (if u = d then (t.put d k v).erase k else ((t.put d k v).erase k).insert k u) = _
  rw [h]
  rfl

/-! ### The canonical form -/

theorem above_mono (h : above j t = true) (hk : k ≤ j) : above k t = true := by
  cases t with
  | nil => rfl
  | cons p t => obtain ⟨a, w⟩ := p; simp only [above, decide_eq_true_eq] at *; omega

theorem above_erase [DecidableEq α] (h : above j t = true) (hw : wf d t = true) : above j (t.erase k) = true := by
  induction t with
  | nil => rfl
  | cons p t ih =>
    obtain ⟨a, w⟩ := p
    simp only [wf, Bool.and_eq_true, decide_eq_true_eq, above] at h hw
    by_cases ha : a = k
    · simp only [erase, ha, if_true]
      exact ih (above_mono hw.1.2 (by omega)) hw.2
    · simpa [erase, ha, above] using h

theorem wf_erase [DecidableEq α] (hw : wf d t = true) : wf d (t.erase k) = true := by
  induction t with
  | nil => rfl
  | cons p t ih =>
    obtain ⟨a, w⟩ := p
    have h := hw
    simp only [wf, Bool.and_eq_true] at h
    by_cases ha : a = k
    · simpa [erase, ha] using ih h.2
    · simp only [erase, ha, if_false, wf, Bool.and_eq_true]
      exact ⟨⟨h.1.1, above_erase h.1.2 h.2⟩, ih h.2⟩

theorem above_insert (h : above j t = true) (hk : j < k) : above j (t.insert k v) = true := by
  cases t with
  | nil => simpa [insert, above] using hk
  | cons p t =>
    obtain ⟨a, w⟩ := p
    simp only [above, decide_eq_true_eq] at h
    unfold insert
    split <;> simpa [above]

theorem wf_insert [DecidableEq α] (hw : wf d t = true) (hv : v ≠ d) (hk : ∀ a w, (a, w) ∈ t → a ≠ k) :
    wf d (t.insert k v) = true := by
  induction t with
  | nil => simpa [insert, wf, above] using hv
  | cons p t ih =>
    obtain ⟨a, w⟩ := p
    have h := hw
    simp only [wf, Bool.and_eq_true] at h
    have ha : a ≠ k := hk a w (by simp)
    unfold insert
    split
    · next hlt =>
      rw [wf, Bool.and_eq_true, Bool.and_eq_true, decide_eq_true_eq]
      exact ⟨⟨hv, by simpa [above] using hlt⟩, hw⟩
    · next hlt =>
      simp only [wf, Bool.and_eq_true]
      exact ⟨⟨h.1.1, above_insert h.1.2 (by omega)⟩, ih h.2 fun b u hb => hk b u (by simp [hb])⟩

/-- A write keeps the canonical form. -/
theorem wf_put [DecidableEq α] (hw : wf d t = true) : wf d (t.put d k v) = true := by
  unfold put
  split
  · exact wf_erase hw
  · next h => exact wf_insert (wf_erase hw) h not_mem_erase

end Tab

/-! ### Memory -/

variable {m : Memory} {a b n : Nat}

@[simp] theorem Memory.read_write_same (x : Byte) : Memory.read (Memory.write m a x) a = x := Tab.get_put_same

theorem Memory.read_write_other (x : Byte) (h : b ≠ a) : Memory.read (Memory.write m a x) b = Memory.read m b :=
  Tab.get_put_other h

theorem Memory.wf_write (x : Byte) (h : Memory.wf m = true) : Memory.wf (Memory.write m a x) = true := Tab.wf_put h

/-- A write of n bytes leaves every byte outside them alone. -/
theorem Memory.read_writeN_other (v : Nat) (h : b < a ∨ a + n ≤ b) : Memory.read (Memory.writeN m a v n) b = Memory.read m b := by
  induction n generalizing m a v with
  | zero => rfl
  | succ n ih =>
    rw [Memory.writeN, ih (v / 256) (by omega), Memory.read_write_other _ (by omega)]

/-- A write of n bytes keeps the canonical form. -/
theorem Memory.wf_writeN (v : Nat) (h : Memory.wf m = true) : Memory.wf (Memory.writeN m a v n) = true := by
  induction n generalizing m a v with
  | zero => exact h
  | succ n ih => exact ih _ (Memory.wf_write _ h)

/-- The bytes just written read back. -/
theorem Memory.readN_writeN (v : Nat) : Memory.readN (Memory.writeN m a v n) a n = v % 256 ^ n := by
  induction n generalizing m a v with
  | zero => simp [Memory.readN, Nat.mod_one]
  | succ n ih =>
    rw [Memory.readN, Memory.writeN, ih, Memory.read_writeN_other _ (Or.inl (by omega)), Memory.read_write_same]
    simp only [BitVec.toNat_ofNat, show (2 : Nat) ^ 8 = 256 from rfl]
    rw [Nat.pow_succ, Nat.mul_comm (256 ^ n), Nat.mod_mul]

/-- A read of bytes outside a write is unchanged. -/
theorem Memory.readN_writeN_other (v k : Nat) (h : b + k ≤ a ∨ a + n ≤ b) :
    Memory.readN (Memory.writeN m a v n) b k = Memory.readN m b k := by
  induction k generalizing b with
  | zero => rfl
  | succ k ih => rw [Memory.readN, Memory.readN, Memory.read_writeN_other v (by omega), ih (by omega)]

end Sys2Proof.Machine
end

