-- ==== Sys2Proof/Laws/State.lean ====
section
/-! SUPPORT. What each named update of the state changes, field by field, so that no proof unfolds a record update. -/

namespace Sys2Proof.Machine

open Sys2Proof

variable (s : State) (h h' : Hart) (k j : Nat)

/-! ### A hart replaced -/

@[simp] theorem putHart_gangs : (s.putHart k h).gangs = s.gangs := rfl
@[simp] theorem putHart_tasks : (s.putHart k h).tasks = s.tasks := rfl
@[simp] theorem putHart_statuses : (s.putHart k h).statuses = s.statuses := rfl
@[simp] theorem putHart_tiles : (s.putHart k h).tiles = s.tiles := rfl
@[simp] theorem putHart_badTile : (s.putHart k h).badTile = s.badTile := rfl
@[simp] theorem putHart_streams : (s.putHart k h).streams = s.streams := rfl
@[simp] theorem putHart_preempts : (s.putHart k h).preempts = s.preempts := rfl
@[simp] theorem putHart_mem : (s.putHart k h).mem = s.mem := rfl
@[simp] theorem putHart_domains : (s.putHart k h).domains = s.domains := rfl
@[simp] theorem putHart_poison : (s.putHart k h).poison = s.poison := rfl
@[simp] theorem putHart_dram : (s.putHart k h).dram = s.dram := rfl
@[simp] theorem putHart_sectors : (s.putHart k h).sectors = s.sectors := rfl
@[simp] theorem putHart_l1i : (s.putHart k h).l1i = s.l1i := rfl
@[simp] theorem putHart_scratch : (s.putHart k h).scratch = s.scratch := rfl
@[simp] theorem putHart_badScratch : (s.putHart k h).badScratch = s.badScratch := rfl
@[simp] theorem putHart_tlb : (s.putHart k h).tlb = s.tlb := rfl
@[simp] theorem putHart_slots : (s.putHart k h).slots = s.slots := rfl
@[simp] theorem putHart_keys : (s.putHart k h).keys = s.keys := rfl
@[simp] theorem putHart_census : (s.putHart k h).census = s.census := rfl
@[simp] theorem putHart_freeq : (s.putHart k h).freeq = s.freeq := rfl
@[simp] theorem putHart_far : (s.putHart k h).far = s.far := rfl
@[simp] theorem putHart_leaseq : (s.putHart k h).leaseq = s.leaseq := rfl
@[simp] theorem putHart_granted : (s.putHart k h).granted = s.granted := rfl
@[simp] theorem putHart_banks : (s.putHart k h).banks = s.banks := rfl
@[simp] theorem putHart_convs : (s.putHart k h).convs = s.convs := rfl
@[simp] theorem putHart_rounds : (s.putHart k h).rounds = s.rounds := rfl
@[simp] theorem putHart_issuePtr : (s.putHart k h).issuePtr = s.issuePtr := rfl
@[simp] theorem putHart_pending : (s.putHart k h).pending = s.pending := rfl
@[simp] theorem putHart_port : (s.putHart k h).port = s.port := rfl
@[simp] theorem putHart_stopped : (s.putHart k h).stopped = s.stopped := rfl
@[simp] theorem putHart_clock : (s.putHart k h).clock = s.clock := rfl
@[simp] theorem putHart_fresh : (s.putHart k h).fresh = s.fresh := rfl
@[simp] theorem putHart_agenda : (s.putHart k h).agenda = s.agenda := rfl
@[simp] theorem putHart_cur : (s.putHart k h).cur = s.cur := rfl
@[simp] theorem putHart_arrays : (s.putHart k h).arrays = s.arrays := rfl
@[simp] theorem putHart_plan : (s.putHart k h).plan = s.plan := rfl
@[simp] theorem putHart_resets : (s.putHart k h).resets = s.resets := rfl
@[simp] theorem hart_putHart_same : (s.putHart k h).hart k = h := Tab.get_put_same
theorem hart_putHart_other (hj : j ≠ k) : (s.putHart k h).hart j = s.hart j := Tab.get_put_other hj
theorem hart_putHart : (s.putHart k h).hart j = if j = k then h else s.hart j := Tab.get_put
@[simp] theorem me_putHart : (s.putHart s.cur h).me = h := hart_putHart_same s h s.cur
@[simp] theorem putHart_gang : (s.putHart k h).gang j = s.gang j := rfl
@[simp] theorem putHart_gangOf : (s.putHart k h).gangOf h' = s.gangOf h' := rfl
@[simp] theorem putHart_pkg : (s.putHart k h).pkg = s.pkg := rfl
@[simp] theorem putHart_farCtx : (s.putHart k h).farCtx j = s.farCtx j := rfl

theorem putHart_putHart_me : ((s.putHart s.cur h).putHart s.cur h').me = h' := me_putHart (s.putHart s.cur h) h'

/-! ### The free-value counter, a gang, a far context -/

@[simp] theorem fresh_me (n : Nat) : ({ s with fresh := n } : State).me = s.me := rfl
@[simp] theorem fresh_hart (n : Nat) : ({ s with fresh := n } : State).hart k = s.hart k := rfl
@[simp] theorem putGang_harts (g : Gang) : (s.putGang k g).harts = s.harts := rfl
@[simp] theorem putGang_tasks (g : Gang) : (s.putGang k g).tasks = s.tasks := rfl
@[simp] theorem putGang_statuses (g : Gang) : (s.putGang k g).statuses = s.statuses := rfl
@[simp] theorem putGang_tiles (g : Gang) : (s.putGang k g).tiles = s.tiles := rfl
@[simp] theorem putGang_badTile (g : Gang) : (s.putGang k g).badTile = s.badTile := rfl
@[simp] theorem putGang_streams (g : Gang) : (s.putGang k g).streams = s.streams := rfl
@[simp] theorem putGang_preempts (g : Gang) : (s.putGang k g).preempts = s.preempts := rfl
@[simp] theorem putGang_mem (g : Gang) : (s.putGang k g).mem = s.mem := rfl
@[simp] theorem putGang_domains (g : Gang) : (s.putGang k g).domains = s.domains := rfl
@[simp] theorem putGang_poison (g : Gang) : (s.putGang k g).poison = s.poison := rfl
@[simp] theorem putGang_dram (g : Gang) : (s.putGang k g).dram = s.dram := rfl
@[simp] theorem putGang_sectors (g : Gang) : (s.putGang k g).sectors = s.sectors := rfl
@[simp] theorem putGang_l1i (g : Gang) : (s.putGang k g).l1i = s.l1i := rfl
@[simp] theorem putGang_scratch (g : Gang) : (s.putGang k g).scratch = s.scratch := rfl
@[simp] theorem putGang_badScratch (g : Gang) : (s.putGang k g).badScratch = s.badScratch := rfl
@[simp] theorem putGang_tlb (g : Gang) : (s.putGang k g).tlb = s.tlb := rfl
@[simp] theorem putGang_slots (g : Gang) : (s.putGang k g).slots = s.slots := rfl
@[simp] theorem putGang_keys (g : Gang) : (s.putGang k g).keys = s.keys := rfl
@[simp] theorem putGang_census (g : Gang) : (s.putGang k g).census = s.census := rfl
@[simp] theorem putGang_freeq (g : Gang) : (s.putGang k g).freeq = s.freeq := rfl
@[simp] theorem putGang_far (g : Gang) : (s.putGang k g).far = s.far := rfl
@[simp] theorem putGang_leaseq (g : Gang) : (s.putGang k g).leaseq = s.leaseq := rfl
@[simp] theorem putGang_granted (g : Gang) : (s.putGang k g).granted = s.granted := rfl
@[simp] theorem putGang_banks (g : Gang) : (s.putGang k g).banks = s.banks := rfl
@[simp] theorem putGang_convs (g : Gang) : (s.putGang k g).convs = s.convs := rfl
@[simp] theorem putGang_rounds (g : Gang) : (s.putGang k g).rounds = s.rounds := rfl
@[simp] theorem putGang_issuePtr (g : Gang) : (s.putGang k g).issuePtr = s.issuePtr := rfl
@[simp] theorem putGang_pending (g : Gang) : (s.putGang k g).pending = s.pending := rfl
@[simp] theorem putGang_port (g : Gang) : (s.putGang k g).port = s.port := rfl
@[simp] theorem putGang_stopped (g : Gang) : (s.putGang k g).stopped = s.stopped := rfl
@[simp] theorem putGang_clock (g : Gang) : (s.putGang k g).clock = s.clock := rfl
@[simp] theorem putGang_fresh (g : Gang) : (s.putGang k g).fresh = s.fresh := rfl
@[simp] theorem putGang_agenda (g : Gang) : (s.putGang k g).agenda = s.agenda := rfl
@[simp] theorem putGang_cur (g : Gang) : (s.putGang k g).cur = s.cur := rfl
@[simp] theorem putGang_arrays (g : Gang) : (s.putGang k g).arrays = s.arrays := rfl
@[simp] theorem putGang_plan (g : Gang) : (s.putGang k g).plan = s.plan := rfl
@[simp] theorem putGang_resets (g : Gang) : (s.putGang k g).resets = s.resets := rfl
@[simp] theorem putGang_me (g : Gang) : (s.putGang k g).me = s.me := rfl
@[simp] theorem putGang_hart (g : Gang) : (s.putGang k g).hart j = s.hart j := rfl
@[simp] theorem gang_putGang_same (g : Gang) : (s.putGang k g).gang k = g := Tab.get_put_same
@[simp] theorem putFar_harts (c : FarCtx) : (s.putFar k c).harts = s.harts := rfl
@[simp] theorem putFar_gangs (c : FarCtx) : (s.putFar k c).gangs = s.gangs := rfl
@[simp] theorem putFar_tasks (c : FarCtx) : (s.putFar k c).tasks = s.tasks := rfl
@[simp] theorem putFar_statuses (c : FarCtx) : (s.putFar k c).statuses = s.statuses := rfl
@[simp] theorem putFar_tiles (c : FarCtx) : (s.putFar k c).tiles = s.tiles := rfl
@[simp] theorem putFar_badTile (c : FarCtx) : (s.putFar k c).badTile = s.badTile := rfl
@[simp] theorem putFar_streams (c : FarCtx) : (s.putFar k c).streams = s.streams := rfl
@[simp] theorem putFar_preempts (c : FarCtx) : (s.putFar k c).preempts = s.preempts := rfl
@[simp] theorem putFar_mem (c : FarCtx) : (s.putFar k c).mem = s.mem := rfl
@[simp] theorem putFar_domains (c : FarCtx) : (s.putFar k c).domains = s.domains := rfl
@[simp] theorem putFar_poison (c : FarCtx) : (s.putFar k c).poison = s.poison := rfl
@[simp] theorem putFar_dram (c : FarCtx) : (s.putFar k c).dram = s.dram := rfl
@[simp] theorem putFar_sectors (c : FarCtx) : (s.putFar k c).sectors = s.sectors := rfl
@[simp] theorem putFar_l1i (c : FarCtx) : (s.putFar k c).l1i = s.l1i := rfl
@[simp] theorem putFar_scratch (c : FarCtx) : (s.putFar k c).scratch = s.scratch := rfl
@[simp] theorem putFar_badScratch (c : FarCtx) : (s.putFar k c).badScratch = s.badScratch := rfl
@[simp] theorem putFar_tlb (c : FarCtx) : (s.putFar k c).tlb = s.tlb := rfl
@[simp] theorem putFar_slots (c : FarCtx) : (s.putFar k c).slots = s.slots := rfl
@[simp] theorem putFar_keys (c : FarCtx) : (s.putFar k c).keys = s.keys := rfl
@[simp] theorem putFar_census (c : FarCtx) : (s.putFar k c).census = s.census := rfl
@[simp] theorem putFar_freeq (c : FarCtx) : (s.putFar k c).freeq = s.freeq := rfl
@[simp] theorem putFar_leaseq (c : FarCtx) : (s.putFar k c).leaseq = s.leaseq := rfl
@[simp] theorem putFar_granted (c : FarCtx) : (s.putFar k c).granted = s.granted := rfl
@[simp] theorem putFar_banks (c : FarCtx) : (s.putFar k c).banks = s.banks := rfl
@[simp] theorem putFar_convs (c : FarCtx) : (s.putFar k c).convs = s.convs := rfl
@[simp] theorem putFar_rounds (c : FarCtx) : (s.putFar k c).rounds = s.rounds := rfl
@[simp] theorem putFar_issuePtr (c : FarCtx) : (s.putFar k c).issuePtr = s.issuePtr := rfl
@[simp] theorem putFar_pending (c : FarCtx) : (s.putFar k c).pending = s.pending := rfl
@[simp] theorem putFar_port (c : FarCtx) : (s.putFar k c).port = s.port := rfl
@[simp] theorem putFar_stopped (c : FarCtx) : (s.putFar k c).stopped = s.stopped := rfl
@[simp] theorem putFar_clock (c : FarCtx) : (s.putFar k c).clock = s.clock := rfl
@[simp] theorem putFar_fresh (c : FarCtx) : (s.putFar k c).fresh = s.fresh := rfl
@[simp] theorem putFar_agenda (c : FarCtx) : (s.putFar k c).agenda = s.agenda := rfl
@[simp] theorem putFar_cur (c : FarCtx) : (s.putFar k c).cur = s.cur := rfl
@[simp] theorem putFar_arrays (c : FarCtx) : (s.putFar k c).arrays = s.arrays := rfl
@[simp] theorem putFar_plan (c : FarCtx) : (s.putFar k c).plan = s.plan := rfl
@[simp] theorem putFar_resets (c : FarCtx) : (s.putFar k c).resets = s.resets := rfl
@[simp] theorem putFar_me (c : FarCtx) : (s.putFar k c).me = s.me := rfl
@[simp] theorem putFar_hart (c : FarCtx) : (s.putFar k c).hart j = s.hart j := rfl
@[simp] theorem farCtx_putFar_same (c : FarCtx) : (s.putFar k c).farCtx k = c := Tab.get_put_same

/-! ### Scalar and guard registers (R23, R24) -/

variable (r q : Nat) (v : Word) (b : Bool)

@[simp] theorem getX_zero : h.getX 0 = 0 := rfl
@[simp] theorem setX_zero : h.setX 0 v = h := rfl
theorem getX_setX_same (hr : r ≠ 0) : (h.setX r v).getX r = v := by simp [Hart.getX, Hart.setX, hr]
theorem getX_setX_other (hq : q ≠ r) : (h.setX r v).getX q = h.getX q := by
  by_cases hr : r = 0
  · simp [hr]
  · by_cases h0 : q = 0
    · simp [h0]
    · simp [Hart.getX, Hart.setX, hr, h0, Tab.get_put_other hq]
theorem getX_setX : (h.setX r v).getX q = if q = r ∧ r ≠ 0 then v else h.getX q := by
  by_cases hq : q = r
  · subst hq
    by_cases hr : q = 0
    · simp [hr]
    · simp [hr, getX_setX_same]
  · simp [hq, getX_setX_other _ _ _ _ hq]
@[simp] theorem getG_zero : h.getG 0 = true := rfl
@[simp] theorem setG_zero : h.setG 0 b = h := rfl

@[simp] theorem setX_run : (h.setX r v).run = h.run := by unfold Hart.setX; split <;> rfl
@[simp] theorem setX_gang : (h.setX r v).gang = h.gang := by unfold Hart.setX; split <;> rfl
@[simp] theorem setX_g : (h.setX r v).g = h.g := by unfold Hart.setX; split <;> rfl
@[simp] theorem setX_pc : (h.setX r v).pc = h.pc := by unfold Hart.setX; split <;> rfl
@[simp] theorem setX_v : (h.setX r v).v = h.v := by unfold Hart.setX; split <;> rfl
@[simp] theorem setX_m : (h.setX r v).m = h.m := by unfold Hart.setX; split <;> rfl
@[simp] theorem setX_h : (h.setX r v).h = h.h := by unfold Hart.setX; split <;> rfl
@[simp] theorem setX_vl : (h.setX r v).vl = h.vl := by unfold Hart.setX; split <;> rfl
@[simp] theorem setX_vvl : (h.setX r v).vvl = h.vvl := by unfold Hart.setX; split <;> rfl
@[simp] theorem setX_vlPending : (h.setX r v).vlPending = h.vlPending := by unfold Hart.setX; split <;> rfl
@[simp] theorem setX_vcfg : (h.setX r v).vcfg = h.vcfg := by unfold Hart.setX; split <;> rfl
@[simp] theorem setX_vstart : (h.setX r v).vstart = h.vstart := by unfold Hart.setX; split <;> rfl
@[simp] theorem setX_gshift : (h.setX r v).gshift = h.gshift := by unfold Hart.setX; split <;> rfl
@[simp] theorem setX_first : (h.setX r v).first = h.first := by unfold Hart.setX; split <;> rfl
@[simp] theorem setX_count : (h.setX r v).count = h.count := by unfold Hart.setX; split <;> rfl
@[simp] theorem setX_flags : (h.setX r v).flags = h.flags := by unfold Hart.setX; split <;> rfl
@[simp] theorem setX_nohint : (h.setX r v).nohint = h.nohint := by unfold Hart.setX; split <;> rfl
@[simp] theorem setX_dyn : (h.setX r v).dyn = h.dyn := by unfold Hart.setX; split <;> rfl
@[simp] theorem setX_srseed : (h.setX r v).srseed = h.srseed := by unfold Hart.setX; split <;> rfl
@[simp] theorem setX_fstk : (h.setX r v).fstk = h.fstk := by unfold Hart.setX; split <;> rfl
@[simp] theorem setX_vcp0 : (h.setX r v).vcp0 = h.vcp0 := by unfold Hart.setX; split <;> rfl
@[simp] theorem setX_tvec : (h.setX r v).tvec = h.tvec := by unfold Hart.setX; split <;> rfl
@[simp] theorem setX_tcause : (h.setX r v).tcause = h.tcause := by unfold Hart.setX; split <;> rfl
@[simp] theorem setX_tpc : (h.setX r v).tpc = h.tpc := by unfold Hart.setX; split <;> rfl
@[simp] theorem setX_tval : (h.setX r v).tval = h.tval := by unfold Hart.setX; split <;> rfl
@[simp] theorem setX_tstat : (h.setX r v).tstat = h.tstat := by unfold Hart.setX; split <;> rfl
@[simp] theorem setX_cg : (h.setX r v).cg = h.cg := by unfold Hart.setX; split <;> rfl
@[simp] theorem setX_ufcount : (h.setX r v).ufcount = h.ufcount := by unfold Hart.setX; split <;> rfl
@[simp] theorem setX_asid : (h.setX r v).asid = h.asid := by unfold Hart.setX; split <;> rfl
@[simp] theorem setX_ptbase : (h.setX r v).ptbase = h.ptbase := by unfold Hart.setX; split <;> rfl
@[simp] theorem setX_fqbase : (h.setX r v).fqbase = h.fqbase := by unfold Hart.setX; split <;> rfl
@[simp] theorem setX_keydom : (h.setX r v).keydom = h.keydom := by unfold Hart.setX; split <;> rfl
@[simp] theorem setX_rep : (h.setX r v).rep = h.rep := by unfold Hart.setX; split <;> rfl
@[simp] theorem setX_viq : (h.setX r v).viq = h.viq := by unfold Hart.setX; split <;> rfl
@[simp] theorem setX_entered : (h.setX r v).entered = h.entered := by unfold Hart.setX; split <;> rfl
@[simp] theorem setX_held : (h.setX r v).held = h.held := by unfold Hart.setX; split <;> rfl
@[simp] theorem setX_heldVl : (h.setX r v).heldVl = h.heldVl := by unfold Hart.setX; split <;> rfl
@[simp] theorem setX_heldVvl : (h.setX r v).heldVvl = h.heldVvl := by unfold Hart.setX; split <;> rfl
@[simp] theorem setX_heldPending : (h.setX r v).heldPending = h.heldPending := by unfold Hart.setX; split <;> rfl
@[simp] theorem setX_tokens : (h.setX r v).tokens = h.tokens := by unfold Hart.setX; split <;> rfl
@[simp] theorem setX_resv : (h.setX r v).resv = h.resv := by unfold Hart.setX; split <;> rfl
@[simp] theorem setX_cursor : (h.setX r v).cursor = h.cursor := by unfold Hart.setX; split <;> rfl
@[simp] theorem setX_splits : (h.setX r v).splits = h.splits := by unfold Hart.setX; split <;> rfl
@[simp] theorem setX_skip : (h.setX r v).skip = h.skip := by unfold Hart.setX; split <;> rfl
@[simp] theorem setX_member : (h.setX r v).member = h.member := by unfold Hart.setX; split <;> rfl
@[simp] theorem setX_parent : (h.setX r v).parent = h.parent := by unfold Hart.setX; split <;> rfl
@[simp] theorem setX_index : (h.setX r v).index = h.index := by unfold Hart.setX; split <;> rfl
@[simp] theorem setX_maint : (h.setX r v).maint = h.maint := by unfold Hart.setX; split <;> rfl
@[simp] theorem setX_fences : (h.setX r v).fences = h.fences := by unfold Hart.setX; split <;> rfl
@[simp] theorem setX_colls : (h.setX r v).colls = h.colls := by unfold Hart.setX; split <;> rfl
@[simp] theorem setX_tflags : (h.setX r v).tflags = h.tflags := by unfold Hart.setX; split <;> rfl
@[simp] theorem setX_badv : (h.setX r v).badv = h.badv := by unfold Hart.setX; split <;> rfl
@[simp] theorem setX_badh : (h.setX r v).badh = h.badh := by unfold Hart.setX; split <;> rfl
@[simp] theorem setX_callRd : (h.setX r v).callRd = h.callRd := by unfold Hart.setX; split <;> rfl
@[simp] theorem setX_answer : (h.setX r v).answer = h.answer := by unfold Hart.setX; split <;> rfl
@[simp] theorem setX_members : (h.setX r v).members = h.members := by unfold Hart.setX; split <;> rfl
@[simp] theorem setX_convoy : (h.setX r v).convoy = h.convoy := by unfold Hart.setX; split <;> rfl
@[simp] theorem setX_noRoom : (h.setX r v).noRoom = h.noRoom := by unfold Hart.setX; split <;> rfl
@[simp] theorem setX_dueAt : (h.setX r v).dueAt = h.dueAt := by unfold Hart.setX; split <;> rfl
@[simp] theorem setX_move : (h.setX r v).move = h.move := by unfold Hart.setX; split <;> rfl
@[simp] theorem setX_ending : (h.setX r v).ending = h.ending := by unfold Hart.setX; split <;> rfl
@[simp] theorem setG_run : (h.setG r b).run = h.run := by unfold Hart.setG; split <;> rfl
@[simp] theorem setG_gang : (h.setG r b).gang = h.gang := by unfold Hart.setG; split <;> rfl
@[simp] theorem setG_x : (h.setG r b).x = h.x := by unfold Hart.setG; split <;> rfl
@[simp] theorem setG_pc : (h.setG r b).pc = h.pc := by unfold Hart.setG; split <;> rfl
@[simp] theorem setG_v : (h.setG r b).v = h.v := by unfold Hart.setG; split <;> rfl
@[simp] theorem setG_m : (h.setG r b).m = h.m := by unfold Hart.setG; split <;> rfl
@[simp] theorem setG_h : (h.setG r b).h = h.h := by unfold Hart.setG; split <;> rfl
@[simp] theorem setG_vl : (h.setG r b).vl = h.vl := by unfold Hart.setG; split <;> rfl
@[simp] theorem setG_vvl : (h.setG r b).vvl = h.vvl := by unfold Hart.setG; split <;> rfl
@[simp] theorem setG_vlPending : (h.setG r b).vlPending = h.vlPending := by unfold Hart.setG; split <;> rfl
@[simp] theorem setG_vcfg : (h.setG r b).vcfg = h.vcfg := by unfold Hart.setG; split <;> rfl
@[simp] theorem setG_vstart : (h.setG r b).vstart = h.vstart := by unfold Hart.setG; split <;> rfl
@[simp] theorem setG_gshift : (h.setG r b).gshift = h.gshift := by unfold Hart.setG; split <;> rfl
@[simp] theorem setG_first : (h.setG r b).first = h.first := by unfold Hart.setG; split <;> rfl
@[simp] theorem setG_count : (h.setG r b).count = h.count := by unfold Hart.setG; split <;> rfl
@[simp] theorem setG_flags : (h.setG r b).flags = h.flags := by unfold Hart.setG; split <;> rfl
@[simp] theorem setG_nohint : (h.setG r b).nohint = h.nohint := by unfold Hart.setG; split <;> rfl
@[simp] theorem setG_dyn : (h.setG r b).dyn = h.dyn := by unfold Hart.setG; split <;> rfl
@[simp] theorem setG_srseed : (h.setG r b).srseed = h.srseed := by unfold Hart.setG; split <;> rfl
@[simp] theorem setG_fstk : (h.setG r b).fstk = h.fstk := by unfold Hart.setG; split <;> rfl
@[simp] theorem setG_vcp0 : (h.setG r b).vcp0 = h.vcp0 := by unfold Hart.setG; split <;> rfl
@[simp] theorem setG_tvec : (h.setG r b).tvec = h.tvec := by unfold Hart.setG; split <;> rfl
@[simp] theorem setG_tcause : (h.setG r b).tcause = h.tcause := by unfold Hart.setG; split <;> rfl
@[simp] theorem setG_tpc : (h.setG r b).tpc = h.tpc := by unfold Hart.setG; split <;> rfl
@[simp] theorem setG_tval : (h.setG r b).tval = h.tval := by unfold Hart.setG; split <;> rfl
@[simp] theorem setG_tstat : (h.setG r b).tstat = h.tstat := by unfold Hart.setG; split <;> rfl
@[simp] theorem setG_cg : (h.setG r b).cg = h.cg := by unfold Hart.setG; split <;> rfl
@[simp] theorem setG_ufcount : (h.setG r b).ufcount = h.ufcount := by unfold Hart.setG; split <;> rfl
@[simp] theorem setG_asid : (h.setG r b).asid = h.asid := by unfold Hart.setG; split <;> rfl
@[simp] theorem setG_ptbase : (h.setG r b).ptbase = h.ptbase := by unfold Hart.setG; split <;> rfl
@[simp] theorem setG_fqbase : (h.setG r b).fqbase = h.fqbase := by unfold Hart.setG; split <;> rfl
@[simp] theorem setG_keydom : (h.setG r b).keydom = h.keydom := by unfold Hart.setG; split <;> rfl
@[simp] theorem setG_rep : (h.setG r b).rep = h.rep := by unfold Hart.setG; split <;> rfl
@[simp] theorem setG_viq : (h.setG r b).viq = h.viq := by unfold Hart.setG; split <;> rfl
@[simp] theorem setG_entered : (h.setG r b).entered = h.entered := by unfold Hart.setG; split <;> rfl
@[simp] theorem setG_held : (h.setG r b).held = h.held := by unfold Hart.setG; split <;> rfl
@[simp] theorem setG_heldVl : (h.setG r b).heldVl = h.heldVl := by unfold Hart.setG; split <;> rfl
@[simp] theorem setG_heldVvl : (h.setG r b).heldVvl = h.heldVvl := by unfold Hart.setG; split <;> rfl
@[simp] theorem setG_heldPending : (h.setG r b).heldPending = h.heldPending := by unfold Hart.setG; split <;> rfl
@[simp] theorem setG_tokens : (h.setG r b).tokens = h.tokens := by unfold Hart.setG; split <;> rfl
@[simp] theorem setG_resv : (h.setG r b).resv = h.resv := by unfold Hart.setG; split <;> rfl
@[simp] theorem setG_cursor : (h.setG r b).cursor = h.cursor := by unfold Hart.setG; split <;> rfl
@[simp] theorem setG_splits : (h.setG r b).splits = h.splits := by unfold Hart.setG; split <;> rfl
@[simp] theorem setG_skip : (h.setG r b).skip = h.skip := by unfold Hart.setG; split <;> rfl
@[simp] theorem setG_member : (h.setG r b).member = h.member := by unfold Hart.setG; split <;> rfl
@[simp] theorem setG_parent : (h.setG r b).parent = h.parent := by unfold Hart.setG; split <;> rfl
@[simp] theorem setG_index : (h.setG r b).index = h.index := by unfold Hart.setG; split <;> rfl
@[simp] theorem setG_maint : (h.setG r b).maint = h.maint := by unfold Hart.setG; split <;> rfl
@[simp] theorem setG_fences : (h.setG r b).fences = h.fences := by unfold Hart.setG; split <;> rfl
@[simp] theorem setG_colls : (h.setG r b).colls = h.colls := by unfold Hart.setG; split <;> rfl
@[simp] theorem setG_tflags : (h.setG r b).tflags = h.tflags := by unfold Hart.setG; split <;> rfl
@[simp] theorem setG_badv : (h.setG r b).badv = h.badv := by unfold Hart.setG; split <;> rfl
@[simp] theorem setG_badh : (h.setG r b).badh = h.badh := by unfold Hart.setG; split <;> rfl
@[simp] theorem setG_callRd : (h.setG r b).callRd = h.callRd := by unfold Hart.setG; split <;> rfl
@[simp] theorem setG_answer : (h.setG r b).answer = h.answer := by unfold Hart.setG; split <;> rfl
@[simp] theorem setG_members : (h.setG r b).members = h.members := by unfold Hart.setG; split <;> rfl
@[simp] theorem setG_convoy : (h.setG r b).convoy = h.convoy := by unfold Hart.setG; split <;> rfl
@[simp] theorem setG_noRoom : (h.setG r b).noRoom = h.noRoom := by unfold Hart.setG; split <;> rfl
@[simp] theorem setG_dueAt : (h.setG r b).dueAt = h.dueAt := by unfold Hart.setG; split <;> rfl
@[simp] theorem setG_move : (h.setG r b).move = h.move := by unfold Hart.setG; split <;> rfl
@[simp] theorem setG_ending : (h.setG r b).ending = h.ending := by unfold Hart.setG; split <;> rfl
@[simp] theorem getX_setG : (h.setG r b).getX q = h.getX q := by simp [Hart.getX]
@[simp] theorem getG_setX : (h.setX r v).getG q = h.getG q := by simp [Hart.getG]

/-! ### The scalar side moving on (R134, R135) -/

variable (n : Nat) (next : Word)

@[simp] theorem setXNow_run : (h.setXNow r v).run = h.run := setX_run h r v
@[simp] theorem setXNow_gang : (h.setXNow r v).gang = h.gang := setX_gang h r v
@[simp] theorem setXNow_g : (h.setXNow r v).g = h.g := setX_g h r v
@[simp] theorem setXNow_pc : (h.setXNow r v).pc = h.pc := setX_pc h r v
@[simp] theorem setXNow_v : (h.setXNow r v).v = h.v := setX_v h r v
@[simp] theorem setXNow_m : (h.setXNow r v).m = h.m := setX_m h r v
@[simp] theorem setXNow_h : (h.setXNow r v).h = h.h := setX_h h r v
@[simp] theorem setXNow_vl : (h.setXNow r v).vl = h.vl := setX_vl h r v
@[simp] theorem setXNow_vvl : (h.setXNow r v).vvl = h.vvl := setX_vvl h r v
@[simp] theorem setXNow_vlPending : (h.setXNow r v).vlPending = h.vlPending := setX_vlPending h r v
@[simp] theorem setXNow_vcfg : (h.setXNow r v).vcfg = h.vcfg := setX_vcfg h r v
@[simp] theorem setXNow_vstart : (h.setXNow r v).vstart = h.vstart := setX_vstart h r v
@[simp] theorem setXNow_gshift : (h.setXNow r v).gshift = h.gshift := setX_gshift h r v
@[simp] theorem setXNow_first : (h.setXNow r v).first = h.first := setX_first h r v
@[simp] theorem setXNow_count : (h.setXNow r v).count = h.count := setX_count h r v
@[simp] theorem setXNow_flags : (h.setXNow r v).flags = h.flags := setX_flags h r v
@[simp] theorem setXNow_nohint : (h.setXNow r v).nohint = h.nohint := setX_nohint h r v
@[simp] theorem setXNow_dyn : (h.setXNow r v).dyn = h.dyn := setX_dyn h r v
@[simp] theorem setXNow_srseed : (h.setXNow r v).srseed = h.srseed := setX_srseed h r v
@[simp] theorem setXNow_fstk : (h.setXNow r v).fstk = h.fstk := setX_fstk h r v
@[simp] theorem setXNow_vcp0 : (h.setXNow r v).vcp0 = h.vcp0 := setX_vcp0 h r v
@[simp] theorem setXNow_tvec : (h.setXNow r v).tvec = h.tvec := setX_tvec h r v
@[simp] theorem setXNow_tcause : (h.setXNow r v).tcause = h.tcause := setX_tcause h r v
@[simp] theorem setXNow_tpc : (h.setXNow r v).tpc = h.tpc := setX_tpc h r v
@[simp] theorem setXNow_tval : (h.setXNow r v).tval = h.tval := setX_tval h r v
@[simp] theorem setXNow_tstat : (h.setXNow r v).tstat = h.tstat := setX_tstat h r v
@[simp] theorem setXNow_cg : (h.setXNow r v).cg = h.cg := setX_cg h r v
@[simp] theorem setXNow_ufcount : (h.setXNow r v).ufcount = h.ufcount := setX_ufcount h r v
@[simp] theorem setXNow_asid : (h.setXNow r v).asid = h.asid := setX_asid h r v
@[simp] theorem setXNow_ptbase : (h.setXNow r v).ptbase = h.ptbase := setX_ptbase h r v
@[simp] theorem setXNow_fqbase : (h.setXNow r v).fqbase = h.fqbase := setX_fqbase h r v
@[simp] theorem setXNow_keydom : (h.setXNow r v).keydom = h.keydom := setX_keydom h r v
@[simp] theorem setXNow_rep : (h.setXNow r v).rep = h.rep := setX_rep h r v
@[simp] theorem setXNow_entered : (h.setXNow r v).entered = h.entered := setX_entered h r v
@[simp] theorem setXNow_held : (h.setXNow r v).held = h.held := setX_held h r v
@[simp] theorem setXNow_heldVl : (h.setXNow r v).heldVl = h.heldVl := setX_heldVl h r v
@[simp] theorem setXNow_heldVvl : (h.setXNow r v).heldVvl = h.heldVvl := setX_heldVvl h r v
@[simp] theorem setXNow_heldPending : (h.setXNow r v).heldPending = h.heldPending := setX_heldPending h r v
@[simp] theorem setXNow_tokens : (h.setXNow r v).tokens = h.tokens := setX_tokens h r v
@[simp] theorem setXNow_resv : (h.setXNow r v).resv = h.resv := setX_resv h r v
@[simp] theorem setXNow_cursor : (h.setXNow r v).cursor = h.cursor := setX_cursor h r v
@[simp] theorem setXNow_splits : (h.setXNow r v).splits = h.splits := setX_splits h r v
@[simp] theorem setXNow_skip : (h.setXNow r v).skip = h.skip := setX_skip h r v
@[simp] theorem setXNow_member : (h.setXNow r v).member = h.member := setX_member h r v
@[simp] theorem setXNow_parent : (h.setXNow r v).parent = h.parent := setX_parent h r v
@[simp] theorem setXNow_index : (h.setXNow r v).index = h.index := setX_index h r v
@[simp] theorem setXNow_maint : (h.setXNow r v).maint = h.maint := setX_maint h r v
@[simp] theorem setXNow_fences : (h.setXNow r v).fences = h.fences := setX_fences h r v
@[simp] theorem setXNow_colls : (h.setXNow r v).colls = h.colls := setX_colls h r v
@[simp] theorem setXNow_tflags : (h.setXNow r v).tflags = h.tflags := setX_tflags h r v
@[simp] theorem setXNow_badv : (h.setXNow r v).badv = h.badv := setX_badv h r v
@[simp] theorem setXNow_badh : (h.setXNow r v).badh = h.badh := setX_badh h r v
@[simp] theorem setXNow_callRd : (h.setXNow r v).callRd = h.callRd := setX_callRd h r v
@[simp] theorem setXNow_answer : (h.setXNow r v).answer = h.answer := setX_answer h r v
@[simp] theorem setXNow_members : (h.setXNow r v).members = h.members := setX_members h r v
@[simp] theorem setXNow_convoy : (h.setXNow r v).convoy = h.convoy := setX_convoy h r v
@[simp] theorem setXNow_noRoom : (h.setXNow r v).noRoom = h.noRoom := setX_noRoom h r v
@[simp] theorem setXNow_dueAt : (h.setXNow r v).dueAt = h.dueAt := setX_dueAt h r v
@[simp] theorem setXNow_move : (h.setXNow r v).move = h.move := setX_move h r v
@[simp] theorem setXNow_ending : (h.setXNow r v).ending = h.ending := setX_ending h r v
@[simp] theorem getX_setXNow : (h.setXNow r v).getX q = (h.setX r v).getX q := rfl
@[simp] theorem getG_setXNow : (h.setXNow r v).getG q = h.getG q := getG_setX h r q v
/-- With nothing queued a scalar write of x(r) is the plain one. -/
theorem setXNow_idle (hv : h.viq = []) : h.setXNow r v = h.setX r v := by
  unfold Hart.setXNow; rw [hv]; rw [← setX_viq h r v] at hv; rw [List.map_nil, ← hv]
@[simp] theorem closePass_run : (h.closePass next).run = h.run := by
  unfold Hart.closePass; dsimp only; split_ifs <;> simp
@[simp] theorem closePass_gang : (h.closePass next).gang = h.gang := by
  unfold Hart.closePass; dsimp only; split_ifs <;> simp
@[simp] theorem closePass_g : (h.closePass next).g = h.g := by
  unfold Hart.closePass; dsimp only; split_ifs <;> simp
@[simp] theorem closePass_v : (h.closePass next).v = h.v := by
  unfold Hart.closePass; dsimp only; split_ifs <;> simp
@[simp] theorem closePass_m : (h.closePass next).m = h.m := by
  unfold Hart.closePass; dsimp only; split_ifs <;> simp
@[simp] theorem closePass_h : (h.closePass next).h = h.h := by
  unfold Hart.closePass; dsimp only; split_ifs <;> simp
@[simp] theorem closePass_vl : (h.closePass next).vl = h.vl := by
  unfold Hart.closePass; dsimp only; split_ifs <;> simp
@[simp] theorem closePass_vvl : (h.closePass next).vvl = h.vvl := by
  unfold Hart.closePass; dsimp only; split_ifs <;> simp
@[simp] theorem closePass_vlPending : (h.closePass next).vlPending = h.vlPending := by
  unfold Hart.closePass; dsimp only; split_ifs <;> simp
@[simp] theorem closePass_vcfg : (h.closePass next).vcfg = h.vcfg := by
  unfold Hart.closePass; dsimp only; split_ifs <;> simp
@[simp] theorem closePass_vstart : (h.closePass next).vstart = h.vstart := by
  unfold Hart.closePass; dsimp only; split_ifs <;> simp
@[simp] theorem closePass_gshift : (h.closePass next).gshift = h.gshift := by
  unfold Hart.closePass; dsimp only; split_ifs <;> simp
@[simp] theorem closePass_first : (h.closePass next).first = h.first := by
  unfold Hart.closePass; dsimp only; split_ifs <;> simp
@[simp] theorem closePass_count : (h.closePass next).count = h.count := by
  unfold Hart.closePass; dsimp only; split_ifs <;> simp
@[simp] theorem closePass_flags : (h.closePass next).flags = h.flags := by
  unfold Hart.closePass; dsimp only; split_ifs <;> simp
@[simp] theorem closePass_nohint : (h.closePass next).nohint = h.nohint := by
  unfold Hart.closePass; dsimp only; split_ifs <;> simp
@[simp] theorem closePass_dyn : (h.closePass next).dyn = h.dyn := by
  unfold Hart.closePass; dsimp only; split_ifs <;> simp
@[simp] theorem closePass_srseed : (h.closePass next).srseed = h.srseed := by
  unfold Hart.closePass; dsimp only; split_ifs <;> simp
@[simp] theorem closePass_fstk : (h.closePass next).fstk = h.fstk := by
  unfold Hart.closePass; dsimp only; split_ifs <;> simp
@[simp] theorem closePass_vcp0 : (h.closePass next).vcp0 = h.vcp0 := by
  unfold Hart.closePass; dsimp only; split_ifs <;> simp
@[simp] theorem closePass_tvec : (h.closePass next).tvec = h.tvec := by
  unfold Hart.closePass; dsimp only; split_ifs <;> simp
@[simp] theorem closePass_tcause : (h.closePass next).tcause = h.tcause := by
  unfold Hart.closePass; dsimp only; split_ifs <;> simp
@[simp] theorem closePass_tpc : (h.closePass next).tpc = h.tpc := by
  unfold Hart.closePass; dsimp only; split_ifs <;> simp
@[simp] theorem closePass_tval : (h.closePass next).tval = h.tval := by
  unfold Hart.closePass; dsimp only; split_ifs <;> simp
@[simp] theorem closePass_tstat : (h.closePass next).tstat = h.tstat := by
  unfold Hart.closePass; dsimp only; split_ifs <;> simp
@[simp] theorem closePass_cg : (h.closePass next).cg = h.cg := by
  unfold Hart.closePass; dsimp only; split_ifs <;> simp
@[simp] theorem closePass_ufcount : (h.closePass next).ufcount = h.ufcount := by
  unfold Hart.closePass; dsimp only; split_ifs <;> simp
@[simp] theorem closePass_asid : (h.closePass next).asid = h.asid := by
  unfold Hart.closePass; dsimp only; split_ifs <;> simp
@[simp] theorem closePass_ptbase : (h.closePass next).ptbase = h.ptbase := by
  unfold Hart.closePass; dsimp only; split_ifs <;> simp
@[simp] theorem closePass_fqbase : (h.closePass next).fqbase = h.fqbase := by
  unfold Hart.closePass; dsimp only; split_ifs <;> simp
@[simp] theorem closePass_keydom : (h.closePass next).keydom = h.keydom := by
  unfold Hart.closePass; dsimp only; split_ifs <;> simp
@[simp] theorem closePass_viq : (h.closePass next).viq = h.viq := by
  unfold Hart.closePass; dsimp only; split_ifs <;> simp
@[simp] theorem closePass_entered : (h.closePass next).entered = h.entered := by
  unfold Hart.closePass; dsimp only; split_ifs <;> simp
@[simp] theorem closePass_held : (h.closePass next).held = h.held := by
  unfold Hart.closePass; dsimp only; split_ifs <;> simp
@[simp] theorem closePass_heldVl : (h.closePass next).heldVl = h.heldVl := by
  unfold Hart.closePass; dsimp only; split_ifs <;> simp
@[simp] theorem closePass_heldVvl : (h.closePass next).heldVvl = h.heldVvl := by
  unfold Hart.closePass; dsimp only; split_ifs <;> simp
@[simp] theorem closePass_heldPending : (h.closePass next).heldPending = h.heldPending := by
  unfold Hart.closePass; dsimp only; split_ifs <;> simp
@[simp] theorem closePass_tokens : (h.closePass next).tokens = h.tokens := by
  unfold Hart.closePass; dsimp only; split_ifs <;> simp
@[simp] theorem closePass_resv : (h.closePass next).resv = h.resv := by
  unfold Hart.closePass; dsimp only; split_ifs <;> simp
@[simp] theorem closePass_cursor : (h.closePass next).cursor = h.cursor := by
  unfold Hart.closePass; dsimp only; split_ifs <;> simp
@[simp] theorem closePass_splits : (h.closePass next).splits = h.splits := by
  unfold Hart.closePass; dsimp only; split_ifs <;> simp
@[simp] theorem closePass_skip : (h.closePass next).skip = h.skip := by
  unfold Hart.closePass; dsimp only; split_ifs <;> simp
@[simp] theorem closePass_member : (h.closePass next).member = h.member := by
  unfold Hart.closePass; dsimp only; split_ifs <;> simp
@[simp] theorem closePass_parent : (h.closePass next).parent = h.parent := by
  unfold Hart.closePass; dsimp only; split_ifs <;> simp
@[simp] theorem closePass_index : (h.closePass next).index = h.index := by
  unfold Hart.closePass; dsimp only; split_ifs <;> simp
@[simp] theorem closePass_maint : (h.closePass next).maint = h.maint := by
  unfold Hart.closePass; dsimp only; split_ifs <;> simp
@[simp] theorem closePass_fences : (h.closePass next).fences = h.fences := by
  unfold Hart.closePass; dsimp only; split_ifs <;> simp
@[simp] theorem closePass_colls : (h.closePass next).colls = h.colls := by
  unfold Hart.closePass; dsimp only; split_ifs <;> simp
@[simp] theorem closePass_tflags : (h.closePass next).tflags = h.tflags := by
  unfold Hart.closePass; dsimp only; split_ifs <;> simp
@[simp] theorem closePass_badv : (h.closePass next).badv = h.badv := by
  unfold Hart.closePass; dsimp only; split_ifs <;> simp
@[simp] theorem closePass_badh : (h.closePass next).badh = h.badh := by
  unfold Hart.closePass; dsimp only; split_ifs <;> simp
@[simp] theorem closePass_callRd : (h.closePass next).callRd = h.callRd := by
  unfold Hart.closePass; dsimp only; split_ifs <;> simp
@[simp] theorem closePass_answer : (h.closePass next).answer = h.answer := by
  unfold Hart.closePass; dsimp only; split_ifs <;> simp
@[simp] theorem closePass_members : (h.closePass next).members = h.members := by
  unfold Hart.closePass; dsimp only; split_ifs <;> simp
@[simp] theorem closePass_convoy : (h.closePass next).convoy = h.convoy := by
  unfold Hart.closePass; dsimp only; split_ifs <;> simp
@[simp] theorem closePass_noRoom : (h.closePass next).noRoom = h.noRoom := by
  unfold Hart.closePass; dsimp only; split_ifs <;> simp
@[simp] theorem closePass_dueAt : (h.closePass next).dueAt = h.dueAt := by
  unfold Hart.closePass; dsimp only; split_ifs <;> simp
@[simp] theorem closePass_move : (h.closePass next).move = h.move := by
  unfold Hart.closePass; dsimp only; split_ifs <;> simp
@[simp] theorem closePass_ending : (h.closePass next).ending = h.ending := by
  unfold Hart.closePass; dsimp only; split_ifs <;> simp
/-- The end of a pass changes no x register but its count register. -/
theorem getX_closePass_other (hq : q ≠ h.rep.reg.toNat) : (h.closePass next).getX q = h.getX q := by
  unfold Hart.closePass
  dsimp only
  split_ifs <;> exact getX_setX_other _ _ _ _ hq

@[simp] theorem retire_run : (h.retire n next).run = h.run := by
  unfold Hart.retire; dsimp only; split_ifs <;> simp
@[simp] theorem retire_gang : (h.retire n next).gang = h.gang := by
  unfold Hart.retire; dsimp only; split_ifs <;> simp
@[simp] theorem retire_g : (h.retire n next).g = h.g := by
  unfold Hart.retire; dsimp only; split_ifs <;> simp
@[simp] theorem retire_v : (h.retire n next).v = h.v := by
  unfold Hart.retire; dsimp only; split_ifs <;> simp
@[simp] theorem retire_m : (h.retire n next).m = h.m := by
  unfold Hart.retire; dsimp only; split_ifs <;> simp
@[simp] theorem retire_h : (h.retire n next).h = h.h := by
  unfold Hart.retire; dsimp only; split_ifs <;> simp
@[simp] theorem retire_vl : (h.retire n next).vl = h.vl := by
  unfold Hart.retire; dsimp only; split_ifs <;> simp
@[simp] theorem retire_vvl : (h.retire n next).vvl = h.vvl := by
  unfold Hart.retire; dsimp only; split_ifs <;> simp
@[simp] theorem retire_vlPending : (h.retire n next).vlPending = h.vlPending := by
  unfold Hart.retire; dsimp only; split_ifs <;> simp
@[simp] theorem retire_vcfg : (h.retire n next).vcfg = h.vcfg := by
  unfold Hart.retire; dsimp only; split_ifs <;> simp
@[simp] theorem retire_vstart : (h.retire n next).vstart = h.vstart := by
  unfold Hart.retire; dsimp only; split_ifs <;> simp
@[simp] theorem retire_gshift : (h.retire n next).gshift = h.gshift := by
  unfold Hart.retire; dsimp only; split_ifs <;> simp
@[simp] theorem retire_first : (h.retire n next).first = h.first := by
  unfold Hart.retire; dsimp only; split_ifs <;> simp
@[simp] theorem retire_count : (h.retire n next).count = h.count := by
  unfold Hart.retire; dsimp only; split_ifs <;> simp
@[simp] theorem retire_flags : (h.retire n next).flags = h.flags := by
  unfold Hart.retire; dsimp only; split_ifs <;> simp
@[simp] theorem retire_nohint : (h.retire n next).nohint = h.nohint := by
  unfold Hart.retire; dsimp only; split_ifs <;> simp
@[simp] theorem retire_dyn : (h.retire n next).dyn = h.dyn := by
  unfold Hart.retire; dsimp only; split_ifs <;> simp
@[simp] theorem retire_srseed : (h.retire n next).srseed = h.srseed := by
  unfold Hart.retire; dsimp only; split_ifs <;> simp
@[simp] theorem retire_fstk : (h.retire n next).fstk = h.fstk := by
  unfold Hart.retire; dsimp only; split_ifs <;> simp
@[simp] theorem retire_vcp0 : (h.retire n next).vcp0 = h.vcp0 := by
  unfold Hart.retire; dsimp only; split_ifs <;> simp
@[simp] theorem retire_tvec : (h.retire n next).tvec = h.tvec := by
  unfold Hart.retire; dsimp only; split_ifs <;> simp
@[simp] theorem retire_tcause : (h.retire n next).tcause = h.tcause := by
  unfold Hart.retire; dsimp only; split_ifs <;> simp
@[simp] theorem retire_tpc : (h.retire n next).tpc = h.tpc := by
  unfold Hart.retire; dsimp only; split_ifs <;> simp
@[simp] theorem retire_tval : (h.retire n next).tval = h.tval := by
  unfold Hart.retire; dsimp only; split_ifs <;> simp
@[simp] theorem retire_tstat : (h.retire n next).tstat = h.tstat := by
  unfold Hart.retire; dsimp only; split_ifs <;> simp
@[simp] theorem retire_cg : (h.retire n next).cg = h.cg := by
  unfold Hart.retire; dsimp only; split_ifs <;> simp
@[simp] theorem retire_ufcount : (h.retire n next).ufcount = h.ufcount := by
  unfold Hart.retire; dsimp only; split_ifs <;> simp
@[simp] theorem retire_asid : (h.retire n next).asid = h.asid := by
  unfold Hart.retire; dsimp only; split_ifs <;> simp
@[simp] theorem retire_ptbase : (h.retire n next).ptbase = h.ptbase := by
  unfold Hart.retire; dsimp only; split_ifs <;> simp
@[simp] theorem retire_fqbase : (h.retire n next).fqbase = h.fqbase := by
  unfold Hart.retire; dsimp only; split_ifs <;> simp
@[simp] theorem retire_keydom : (h.retire n next).keydom = h.keydom := by
  unfold Hart.retire; dsimp only; split_ifs <;> simp
@[simp] theorem retire_entered : (h.retire n next).entered = h.entered := by
  unfold Hart.retire; dsimp only; split_ifs <;> simp
@[simp] theorem retire_held : (h.retire n next).held = h.held := by
  unfold Hart.retire; dsimp only; split_ifs <;> simp
@[simp] theorem retire_heldVl : (h.retire n next).heldVl = h.heldVl := by
  unfold Hart.retire; dsimp only; split_ifs <;> simp
@[simp] theorem retire_heldVvl : (h.retire n next).heldVvl = h.heldVvl := by
  unfold Hart.retire; dsimp only; split_ifs <;> simp
@[simp] theorem retire_heldPending : (h.retire n next).heldPending = h.heldPending := by
  unfold Hart.retire; dsimp only; split_ifs <;> simp
@[simp] theorem retire_tokens : (h.retire n next).tokens = h.tokens := by
  unfold Hart.retire; dsimp only; split_ifs <;> simp
@[simp] theorem retire_resv : (h.retire n next).resv = h.resv := by
  unfold Hart.retire; dsimp only; split_ifs <;> simp
@[simp] theorem retire_cursor : (h.retire n next).cursor = h.cursor := by
  unfold Hart.retire; dsimp only; split_ifs <;> simp
@[simp] theorem retire_splits : (h.retire n next).splits = h.splits := by
  unfold Hart.retire; dsimp only; split_ifs <;> simp
@[simp] theorem retire_skip : (h.retire n next).skip = h.skip := by
  unfold Hart.retire; dsimp only; split_ifs <;> simp
@[simp] theorem retire_member : (h.retire n next).member = h.member := by
  unfold Hart.retire; dsimp only; split_ifs <;> simp
@[simp] theorem retire_parent : (h.retire n next).parent = h.parent := by
  unfold Hart.retire; dsimp only; split_ifs <;> simp
@[simp] theorem retire_index : (h.retire n next).index = h.index := by
  unfold Hart.retire; dsimp only; split_ifs <;> simp
@[simp] theorem retire_maint : (h.retire n next).maint = h.maint := by
  unfold Hart.retire; dsimp only; split_ifs <;> simp
@[simp] theorem retire_fences : (h.retire n next).fences = h.fences := by
  unfold Hart.retire; dsimp only; split_ifs <;> simp
@[simp] theorem retire_colls : (h.retire n next).colls = h.colls := by
  unfold Hart.retire; dsimp only; split_ifs <;> simp
@[simp] theorem retire_tflags : (h.retire n next).tflags = h.tflags := by
  unfold Hart.retire; dsimp only; split_ifs <;> simp
@[simp] theorem retire_badv : (h.retire n next).badv = h.badv := by
  unfold Hart.retire; dsimp only; split_ifs <;> simp
@[simp] theorem retire_badh : (h.retire n next).badh = h.badh := by
  unfold Hart.retire; dsimp only; split_ifs <;> simp
@[simp] theorem retire_callRd : (h.retire n next).callRd = h.callRd := by
  unfold Hart.retire; dsimp only; split_ifs <;> simp
@[simp] theorem retire_answer : (h.retire n next).answer = h.answer := by
  unfold Hart.retire; dsimp only; split_ifs <;> simp
@[simp] theorem retire_members : (h.retire n next).members = h.members := by
  unfold Hart.retire; dsimp only; split_ifs <;> simp
@[simp] theorem retire_convoy : (h.retire n next).convoy = h.convoy := by
  unfold Hart.retire; dsimp only; split_ifs <;> simp
@[simp] theorem retire_noRoom : (h.retire n next).noRoom = h.noRoom := by
  unfold Hart.retire; dsimp only; split_ifs <;> simp
@[simp] theorem retire_dueAt : (h.retire n next).dueAt = h.dueAt := by
  unfold Hart.retire; dsimp only; split_ifs <;> simp
@[simp] theorem retire_move : (h.retire n next).move = h.move := by
  unfold Hart.retire; dsimp only; split_ifs <;> simp
@[simp] theorem retire_ending : (h.retire n next).ending = h.ending := by
  unfold Hart.retire; dsimp only; split_ifs <;> simp
@[simp] theorem advance_run : (h.advance n).run = h.run := retire_run h 1 _
@[simp] theorem advance_gang : (h.advance n).gang = h.gang := retire_gang h 1 _
@[simp] theorem advance_g : (h.advance n).g = h.g := retire_g h 1 _
@[simp] theorem advance_v : (h.advance n).v = h.v := retire_v h 1 _
@[simp] theorem advance_m : (h.advance n).m = h.m := retire_m h 1 _
@[simp] theorem advance_h : (h.advance n).h = h.h := retire_h h 1 _
@[simp] theorem advance_vl : (h.advance n).vl = h.vl := retire_vl h 1 _
@[simp] theorem advance_vvl : (h.advance n).vvl = h.vvl := retire_vvl h 1 _
@[simp] theorem advance_vlPending : (h.advance n).vlPending = h.vlPending := retire_vlPending h 1 _
@[simp] theorem advance_vcfg : (h.advance n).vcfg = h.vcfg := retire_vcfg h 1 _
@[simp] theorem advance_vstart : (h.advance n).vstart = h.vstart := retire_vstart h 1 _
@[simp] theorem advance_gshift : (h.advance n).gshift = h.gshift := retire_gshift h 1 _
@[simp] theorem advance_first : (h.advance n).first = h.first := retire_first h 1 _
@[simp] theorem advance_count : (h.advance n).count = h.count := retire_count h 1 _
@[simp] theorem advance_flags : (h.advance n).flags = h.flags := retire_flags h 1 _
@[simp] theorem advance_nohint : (h.advance n).nohint = h.nohint := retire_nohint h 1 _
@[simp] theorem advance_dyn : (h.advance n).dyn = h.dyn := retire_dyn h 1 _
@[simp] theorem advance_srseed : (h.advance n).srseed = h.srseed := retire_srseed h 1 _
@[simp] theorem advance_fstk : (h.advance n).fstk = h.fstk := retire_fstk h 1 _
@[simp] theorem advance_vcp0 : (h.advance n).vcp0 = h.vcp0 := retire_vcp0 h 1 _
@[simp] theorem advance_tvec : (h.advance n).tvec = h.tvec := retire_tvec h 1 _
@[simp] theorem advance_tcause : (h.advance n).tcause = h.tcause := retire_tcause h 1 _
@[simp] theorem advance_tpc : (h.advance n).tpc = h.tpc := retire_tpc h 1 _
@[simp] theorem advance_tval : (h.advance n).tval = h.tval := retire_tval h 1 _
@[simp] theorem advance_tstat : (h.advance n).tstat = h.tstat := retire_tstat h 1 _
@[simp] theorem advance_cg : (h.advance n).cg = h.cg := retire_cg h 1 _
@[simp] theorem advance_ufcount : (h.advance n).ufcount = h.ufcount := retire_ufcount h 1 _
@[simp] theorem advance_asid : (h.advance n).asid = h.asid := retire_asid h 1 _
@[simp] theorem advance_ptbase : (h.advance n).ptbase = h.ptbase := retire_ptbase h 1 _
@[simp] theorem advance_fqbase : (h.advance n).fqbase = h.fqbase := retire_fqbase h 1 _
@[simp] theorem advance_keydom : (h.advance n).keydom = h.keydom := retire_keydom h 1 _
@[simp] theorem advance_entered : (h.advance n).entered = h.entered := retire_entered h 1 _
@[simp] theorem advance_held : (h.advance n).held = h.held := retire_held h 1 _
@[simp] theorem advance_heldVl : (h.advance n).heldVl = h.heldVl := retire_heldVl h 1 _
@[simp] theorem advance_heldVvl : (h.advance n).heldVvl = h.heldVvl := retire_heldVvl h 1 _
@[simp] theorem advance_heldPending : (h.advance n).heldPending = h.heldPending := retire_heldPending h 1 _
@[simp] theorem advance_tokens : (h.advance n).tokens = h.tokens := retire_tokens h 1 _
@[simp] theorem advance_resv : (h.advance n).resv = h.resv := retire_resv h 1 _
@[simp] theorem advance_cursor : (h.advance n).cursor = h.cursor := retire_cursor h 1 _
@[simp] theorem advance_splits : (h.advance n).splits = h.splits := retire_splits h 1 _
@[simp] theorem advance_skip : (h.advance n).skip = h.skip := retire_skip h 1 _
@[simp] theorem advance_member : (h.advance n).member = h.member := retire_member h 1 _
@[simp] theorem advance_parent : (h.advance n).parent = h.parent := retire_parent h 1 _
@[simp] theorem advance_index : (h.advance n).index = h.index := retire_index h 1 _
@[simp] theorem advance_maint : (h.advance n).maint = h.maint := retire_maint h 1 _
@[simp] theorem advance_fences : (h.advance n).fences = h.fences := retire_fences h 1 _
@[simp] theorem advance_colls : (h.advance n).colls = h.colls := retire_colls h 1 _
@[simp] theorem advance_tflags : (h.advance n).tflags = h.tflags := retire_tflags h 1 _
@[simp] theorem advance_badv : (h.advance n).badv = h.badv := retire_badv h 1 _
@[simp] theorem advance_badh : (h.advance n).badh = h.badh := retire_badh h 1 _
@[simp] theorem advance_callRd : (h.advance n).callRd = h.callRd := retire_callRd h 1 _
@[simp] theorem advance_answer : (h.advance n).answer = h.answer := retire_answer h 1 _
@[simp] theorem advance_members : (h.advance n).members = h.members := retire_members h 1 _
@[simp] theorem advance_convoy : (h.advance n).convoy = h.convoy := retire_convoy h 1 _
@[simp] theorem advance_noRoom : (h.advance n).noRoom = h.noRoom := retire_noRoom h 1 _
@[simp] theorem advance_dueAt : (h.advance n).dueAt = h.dueAt := retire_dueAt h 1 _
@[simp] theorem advance_move : (h.advance n).move = h.move := retire_move h 1 _
@[simp] theorem advance_ending : (h.advance n).ending = h.ending := retire_ending h 1 _
/-- Without an active repeat the PC moves to the next instruction and nothing else changes. -/
theorem advance_plain (hr : h.rep.active = false) : h.advance n = { h with pc := h.pc + word n } := by
  simp [Hart.advance, Hart.retire, hr]
/-- With an active repeat only its count register can change among the x registers. -/
theorem getX_advance_other (hq : q ≠ h.rep.reg.toNat) : (h.advance n).getX q = h.getX q := by
  unfold Hart.advance Hart.retire
  dsimp only
  split_ifs <;> first | rfl | exact getX_closePass_other _ _ _ hq
theorem getX_advance_plain (hr : h.rep.active = false) : (h.advance n).getX q = h.getX q := by
  rw [advance_plain h n hr]; rfl

@[simp] theorem jump_run : (h.jump next).run = h.run := rfl
@[simp] theorem jump_gang : (h.jump next).gang = h.gang := rfl
@[simp] theorem jump_x : (h.jump next).x = h.x := rfl
@[simp] theorem jump_g : (h.jump next).g = h.g := rfl
@[simp] theorem jump_v : (h.jump next).v = h.v := rfl
@[simp] theorem jump_m : (h.jump next).m = h.m := rfl
@[simp] theorem jump_h : (h.jump next).h = h.h := rfl
@[simp] theorem jump_vl : (h.jump next).vl = h.vl := rfl
@[simp] theorem jump_vvl : (h.jump next).vvl = h.vvl := rfl
@[simp] theorem jump_vlPending : (h.jump next).vlPending = h.vlPending := rfl
@[simp] theorem jump_vcfg : (h.jump next).vcfg = h.vcfg := rfl
@[simp] theorem jump_vstart : (h.jump next).vstart = h.vstart := rfl
@[simp] theorem jump_gshift : (h.jump next).gshift = h.gshift := rfl
@[simp] theorem jump_first : (h.jump next).first = h.first := rfl
@[simp] theorem jump_count : (h.jump next).count = h.count := rfl
@[simp] theorem jump_flags : (h.jump next).flags = h.flags := rfl
@[simp] theorem jump_nohint : (h.jump next).nohint = h.nohint := rfl
@[simp] theorem jump_dyn : (h.jump next).dyn = h.dyn := rfl
@[simp] theorem jump_srseed : (h.jump next).srseed = h.srseed := rfl
@[simp] theorem jump_fstk : (h.jump next).fstk = h.fstk := rfl
@[simp] theorem jump_vcp0 : (h.jump next).vcp0 = h.vcp0 := rfl
@[simp] theorem jump_tvec : (h.jump next).tvec = h.tvec := rfl
@[simp] theorem jump_tcause : (h.jump next).tcause = h.tcause := rfl
@[simp] theorem jump_tpc : (h.jump next).tpc = h.tpc := rfl
@[simp] theorem jump_tval : (h.jump next).tval = h.tval := rfl
@[simp] theorem jump_tstat : (h.jump next).tstat = h.tstat := rfl
@[simp] theorem jump_cg : (h.jump next).cg = h.cg := rfl
@[simp] theorem jump_ufcount : (h.jump next).ufcount = h.ufcount := rfl
@[simp] theorem jump_asid : (h.jump next).asid = h.asid := rfl
@[simp] theorem jump_ptbase : (h.jump next).ptbase = h.ptbase := rfl
@[simp] theorem jump_fqbase : (h.jump next).fqbase = h.fqbase := rfl
@[simp] theorem jump_keydom : (h.jump next).keydom = h.keydom := rfl
@[simp] theorem jump_viq : (h.jump next).viq = h.viq := rfl
@[simp] theorem jump_entered : (h.jump next).entered = h.entered := rfl
@[simp] theorem jump_held : (h.jump next).held = h.held := rfl
@[simp] theorem jump_heldVl : (h.jump next).heldVl = h.heldVl := rfl
@[simp] theorem jump_heldVvl : (h.jump next).heldVvl = h.heldVvl := rfl
@[simp] theorem jump_heldPending : (h.jump next).heldPending = h.heldPending := rfl
@[simp] theorem jump_tokens : (h.jump next).tokens = h.tokens := rfl
@[simp] theorem jump_resv : (h.jump next).resv = h.resv := rfl
@[simp] theorem jump_cursor : (h.jump next).cursor = h.cursor := rfl
@[simp] theorem jump_splits : (h.jump next).splits = h.splits := rfl
@[simp] theorem jump_skip : (h.jump next).skip = h.skip := rfl
@[simp] theorem jump_member : (h.jump next).member = h.member := rfl
@[simp] theorem jump_parent : (h.jump next).parent = h.parent := rfl
@[simp] theorem jump_index : (h.jump next).index = h.index := rfl
@[simp] theorem jump_maint : (h.jump next).maint = h.maint := rfl
@[simp] theorem jump_fences : (h.jump next).fences = h.fences := rfl
@[simp] theorem jump_colls : (h.jump next).colls = h.colls := rfl
@[simp] theorem jump_tflags : (h.jump next).tflags = h.tflags := rfl
@[simp] theorem jump_badv : (h.jump next).badv = h.badv := rfl
@[simp] theorem jump_badh : (h.jump next).badh = h.badh := rfl
@[simp] theorem jump_callRd : (h.jump next).callRd = h.callRd := rfl
@[simp] theorem jump_answer : (h.jump next).answer = h.answer := rfl
@[simp] theorem jump_members : (h.jump next).members = h.members := rfl
@[simp] theorem jump_convoy : (h.jump next).convoy = h.convoy := rfl
@[simp] theorem jump_noRoom : (h.jump next).noRoom = h.noRoom := rfl
@[simp] theorem jump_dueAt : (h.jump next).dueAt = h.dueAt := rfl
@[simp] theorem jump_move : (h.jump next).move = h.move := rfl
@[simp] theorem jump_ending : (h.jump next).ending = h.ending := rfl
@[simp] theorem jump_pc : (h.jump next).pc = next := rfl
@[simp] theorem jump_rep : (h.jump next).rep = {} := rfl
@[simp] theorem getX_jump : (h.jump next).getX q = h.getX q := rfl

/-! ### Arithmetic, masks, tokens -/

@[simp] theorem withF_run (c : FState) : (h.withF c).run = h.run := rfl
@[simp] theorem withF_gang (c : FState) : (h.withF c).gang = h.gang := rfl
@[simp] theorem withF_x (c : FState) : (h.withF c).x = h.x := rfl
@[simp] theorem withF_g (c : FState) : (h.withF c).g = h.g := rfl
@[simp] theorem withF_pc (c : FState) : (h.withF c).pc = h.pc := rfl
@[simp] theorem withF_v (c : FState) : (h.withF c).v = h.v := rfl
@[simp] theorem withF_m (c : FState) : (h.withF c).m = h.m := rfl
@[simp] theorem withF_h (c : FState) : (h.withF c).h = h.h := rfl
@[simp] theorem withF_vl (c : FState) : (h.withF c).vl = h.vl := rfl
@[simp] theorem withF_vvl (c : FState) : (h.withF c).vvl = h.vvl := rfl
@[simp] theorem withF_vlPending (c : FState) : (h.withF c).vlPending = h.vlPending := rfl
@[simp] theorem withF_vcfg (c : FState) : (h.withF c).vcfg = h.vcfg := rfl
@[simp] theorem withF_vstart (c : FState) : (h.withF c).vstart = h.vstart := rfl
@[simp] theorem withF_gshift (c : FState) : (h.withF c).gshift = h.gshift := rfl
@[simp] theorem withF_first (c : FState) : (h.withF c).first = h.first := rfl
@[simp] theorem withF_count (c : FState) : (h.withF c).count = h.count := rfl
@[simp] theorem withF_nohint (c : FState) : (h.withF c).nohint = h.nohint := rfl
@[simp] theorem withF_dyn (c : FState) : (h.withF c).dyn = h.dyn := rfl
@[simp] theorem withF_fstk (c : FState) : (h.withF c).fstk = h.fstk := rfl
@[simp] theorem withF_vcp0 (c : FState) : (h.withF c).vcp0 = h.vcp0 := rfl
@[simp] theorem withF_tvec (c : FState) : (h.withF c).tvec = h.tvec := rfl
@[simp] theorem withF_tcause (c : FState) : (h.withF c).tcause = h.tcause := rfl
@[simp] theorem withF_tpc (c : FState) : (h.withF c).tpc = h.tpc := rfl
@[simp] theorem withF_tval (c : FState) : (h.withF c).tval = h.tval := rfl
@[simp] theorem withF_tstat (c : FState) : (h.withF c).tstat = h.tstat := rfl
@[simp] theorem withF_cg (c : FState) : (h.withF c).cg = h.cg := rfl
@[simp] theorem withF_ufcount (c : FState) : (h.withF c).ufcount = h.ufcount := rfl
@[simp] theorem withF_asid (c : FState) : (h.withF c).asid = h.asid := rfl
@[simp] theorem withF_ptbase (c : FState) : (h.withF c).ptbase = h.ptbase := rfl
@[simp] theorem withF_fqbase (c : FState) : (h.withF c).fqbase = h.fqbase := rfl
@[simp] theorem withF_keydom (c : FState) : (h.withF c).keydom = h.keydom := rfl
@[simp] theorem withF_rep (c : FState) : (h.withF c).rep = h.rep := rfl
@[simp] theorem withF_viq (c : FState) : (h.withF c).viq = h.viq := rfl
@[simp] theorem withF_entered (c : FState) : (h.withF c).entered = h.entered := rfl
@[simp] theorem withF_held (c : FState) : (h.withF c).held = h.held := rfl
@[simp] theorem withF_heldVl (c : FState) : (h.withF c).heldVl = h.heldVl := rfl
@[simp] theorem withF_heldVvl (c : FState) : (h.withF c).heldVvl = h.heldVvl := rfl
@[simp] theorem withF_heldPending (c : FState) : (h.withF c).heldPending = h.heldPending := rfl
@[simp] theorem withF_tokens (c : FState) : (h.withF c).tokens = h.tokens := rfl
@[simp] theorem withF_resv (c : FState) : (h.withF c).resv = h.resv := rfl
@[simp] theorem withF_cursor (c : FState) : (h.withF c).cursor = h.cursor := rfl
@[simp] theorem withF_splits (c : FState) : (h.withF c).splits = h.splits := rfl
@[simp] theorem withF_skip (c : FState) : (h.withF c).skip = h.skip := rfl
@[simp] theorem withF_member (c : FState) : (h.withF c).member = h.member := rfl
@[simp] theorem withF_parent (c : FState) : (h.withF c).parent = h.parent := rfl
@[simp] theorem withF_index (c : FState) : (h.withF c).index = h.index := rfl
@[simp] theorem withF_maint (c : FState) : (h.withF c).maint = h.maint := rfl
@[simp] theorem withF_fences (c : FState) : (h.withF c).fences = h.fences := rfl
@[simp] theorem withF_colls (c : FState) : (h.withF c).colls = h.colls := rfl
@[simp] theorem withF_tflags (c : FState) : (h.withF c).tflags = h.tflags := rfl
@[simp] theorem withF_badv (c : FState) : (h.withF c).badv = h.badv := rfl
@[simp] theorem withF_badh (c : FState) : (h.withF c).badh = h.badh := rfl
@[simp] theorem withF_callRd (c : FState) : (h.withF c).callRd = h.callRd := rfl
@[simp] theorem withF_answer (c : FState) : (h.withF c).answer = h.answer := rfl
@[simp] theorem withF_members (c : FState) : (h.withF c).members = h.members := rfl
@[simp] theorem withF_convoy (c : FState) : (h.withF c).convoy = h.convoy := rfl
@[simp] theorem withF_noRoom (c : FState) : (h.withF c).noRoom = h.noRoom := rfl
@[simp] theorem withF_dueAt (c : FState) : (h.withF c).dueAt = h.dueAt := rfl
@[simp] theorem withF_move (c : FState) : (h.withF c).move = h.move := rfl
@[simp] theorem withF_ending (c : FState) : (h.withF c).ending = h.ending := rfl
@[simp] theorem getX_withF (c : FState) : (h.withF c).getX q = h.getX q := rfl
@[simp] theorem setM_run (x : Nat) : (h.setM r x).run = h.run := by unfold Hart.setM; split <;> rfl
@[simp] theorem setM_gang (x : Nat) : (h.setM r x).gang = h.gang := by unfold Hart.setM; split <;> rfl
@[simp] theorem setM_x (x : Nat) : (h.setM r x).x = h.x := by unfold Hart.setM; split <;> rfl
@[simp] theorem setM_g (x : Nat) : (h.setM r x).g = h.g := by unfold Hart.setM; split <;> rfl
@[simp] theorem setM_pc (x : Nat) : (h.setM r x).pc = h.pc := by unfold Hart.setM; split <;> rfl
@[simp] theorem setM_v (x : Nat) : (h.setM r x).v = h.v := by unfold Hart.setM; split <;> rfl
@[simp] theorem setM_h (x : Nat) : (h.setM r x).h = h.h := by unfold Hart.setM; split <;> rfl
@[simp] theorem setM_vl (x : Nat) : (h.setM r x).vl = h.vl := by unfold Hart.setM; split <;> rfl
@[simp] theorem setM_vvl (x : Nat) : (h.setM r x).vvl = h.vvl := by unfold Hart.setM; split <;> rfl
@[simp] theorem setM_vlPending (x : Nat) : (h.setM r x).vlPending = h.vlPending := by unfold Hart.setM; split <;> rfl
@[simp] theorem setM_vcfg (x : Nat) : (h.setM r x).vcfg = h.vcfg := by unfold Hart.setM; split <;> rfl
@[simp] theorem setM_vstart (x : Nat) : (h.setM r x).vstart = h.vstart := by unfold Hart.setM; split <;> rfl
@[simp] theorem setM_gshift (x : Nat) : (h.setM r x).gshift = h.gshift := by unfold Hart.setM; split <;> rfl
@[simp] theorem setM_first (x : Nat) : (h.setM r x).first = h.first := by unfold Hart.setM; split <;> rfl
@[simp] theorem setM_count (x : Nat) : (h.setM r x).count = h.count := by unfold Hart.setM; split <;> rfl
@[simp] theorem setM_flags (x : Nat) : (h.setM r x).flags = h.flags := by unfold Hart.setM; split <;> rfl
@[simp] theorem setM_nohint (x : Nat) : (h.setM r x).nohint = h.nohint := by unfold Hart.setM; split <;> rfl
@[simp] theorem setM_dyn (x : Nat) : (h.setM r x).dyn = h.dyn := by unfold Hart.setM; split <;> rfl
@[simp] theorem setM_srseed (x : Nat) : (h.setM r x).srseed = h.srseed := by unfold Hart.setM; split <;> rfl
@[simp] theorem setM_fstk (x : Nat) : (h.setM r x).fstk = h.fstk := by unfold Hart.setM; split <;> rfl
@[simp] theorem setM_vcp0 (x : Nat) : (h.setM r x).vcp0 = h.vcp0 := by unfold Hart.setM; split <;> rfl
@[simp] theorem setM_tvec (x : Nat) : (h.setM r x).tvec = h.tvec := by unfold Hart.setM; split <;> rfl
@[simp] theorem setM_tcause (x : Nat) : (h.setM r x).tcause = h.tcause := by unfold Hart.setM; split <;> rfl
@[simp] theorem setM_tpc (x : Nat) : (h.setM r x).tpc = h.tpc := by unfold Hart.setM; split <;> rfl
@[simp] theorem setM_tval (x : Nat) : (h.setM r x).tval = h.tval := by unfold Hart.setM; split <;> rfl
@[simp] theorem setM_tstat (x : Nat) : (h.setM r x).tstat = h.tstat := by unfold Hart.setM; split <;> rfl
@[simp] theorem setM_cg (x : Nat) : (h.setM r x).cg = h.cg := by unfold Hart.setM; split <;> rfl
@[simp] theorem setM_ufcount (x : Nat) : (h.setM r x).ufcount = h.ufcount := by unfold Hart.setM; split <;> rfl
@[simp] theorem setM_asid (x : Nat) : (h.setM r x).asid = h.asid := by unfold Hart.setM; split <;> rfl
@[simp] theorem setM_ptbase (x : Nat) : (h.setM r x).ptbase = h.ptbase := by unfold Hart.setM; split <;> rfl
@[simp] theorem setM_fqbase (x : Nat) : (h.setM r x).fqbase = h.fqbase := by unfold Hart.setM; split <;> rfl
@[simp] theorem setM_keydom (x : Nat) : (h.setM r x).keydom = h.keydom := by unfold Hart.setM; split <;> rfl
@[simp] theorem setM_rep (x : Nat) : (h.setM r x).rep = h.rep := by unfold Hart.setM; split <;> rfl
@[simp] theorem setM_viq (x : Nat) : (h.setM r x).viq = h.viq := by unfold Hart.setM; split <;> rfl
@[simp] theorem setM_entered (x : Nat) : (h.setM r x).entered = h.entered := by unfold Hart.setM; split <;> rfl
@[simp] theorem setM_held (x : Nat) : (h.setM r x).held = h.held := by unfold Hart.setM; split <;> rfl
@[simp] theorem setM_heldVl (x : Nat) : (h.setM r x).heldVl = h.heldVl := by unfold Hart.setM; split <;> rfl
@[simp] theorem setM_heldVvl (x : Nat) : (h.setM r x).heldVvl = h.heldVvl := by unfold Hart.setM; split <;> rfl
@[simp] theorem setM_heldPending (x : Nat) : (h.setM r x).heldPending = h.heldPending := by unfold Hart.setM; split <;> rfl
@[simp] theorem setM_tokens (x : Nat) : (h.setM r x).tokens = h.tokens := by unfold Hart.setM; split <;> rfl
@[simp] theorem setM_resv (x : Nat) : (h.setM r x).resv = h.resv := by unfold Hart.setM; split <;> rfl
@[simp] theorem setM_cursor (x : Nat) : (h.setM r x).cursor = h.cursor := by unfold Hart.setM; split <;> rfl
@[simp] theorem setM_splits (x : Nat) : (h.setM r x).splits = h.splits := by unfold Hart.setM; split <;> rfl
@[simp] theorem setM_skip (x : Nat) : (h.setM r x).skip = h.skip := by unfold Hart.setM; split <;> rfl
@[simp] theorem setM_member (x : Nat) : (h.setM r x).member = h.member := by unfold Hart.setM; split <;> rfl
@[simp] theorem setM_parent (x : Nat) : (h.setM r x).parent = h.parent := by unfold Hart.setM; split <;> rfl
@[simp] theorem setM_index (x : Nat) : (h.setM r x).index = h.index := by unfold Hart.setM; split <;> rfl
@[simp] theorem setM_maint (x : Nat) : (h.setM r x).maint = h.maint := by unfold Hart.setM; split <;> rfl
@[simp] theorem setM_fences (x : Nat) : (h.setM r x).fences = h.fences := by unfold Hart.setM; split <;> rfl
@[simp] theorem setM_colls (x : Nat) : (h.setM r x).colls = h.colls := by unfold Hart.setM; split <;> rfl
@[simp] theorem setM_tflags (x : Nat) : (h.setM r x).tflags = h.tflags := by unfold Hart.setM; split <;> rfl
@[simp] theorem setM_badv (x : Nat) : (h.setM r x).badv = h.badv := by unfold Hart.setM; split <;> rfl
@[simp] theorem setM_badh (x : Nat) : (h.setM r x).badh = h.badh := by unfold Hart.setM; split <;> rfl
@[simp] theorem setM_callRd (x : Nat) : (h.setM r x).callRd = h.callRd := by unfold Hart.setM; split <;> rfl
@[simp] theorem setM_answer (x : Nat) : (h.setM r x).answer = h.answer := by unfold Hart.setM; split <;> rfl
@[simp] theorem setM_members (x : Nat) : (h.setM r x).members = h.members := by unfold Hart.setM; split <;> rfl
@[simp] theorem setM_convoy (x : Nat) : (h.setM r x).convoy = h.convoy := by unfold Hart.setM; split <;> rfl
@[simp] theorem setM_noRoom (x : Nat) : (h.setM r x).noRoom = h.noRoom := by unfold Hart.setM; split <;> rfl
@[simp] theorem setM_dueAt (x : Nat) : (h.setM r x).dueAt = h.dueAt := by unfold Hart.setM; split <;> rfl
@[simp] theorem setM_move (x : Nat) : (h.setM r x).move = h.move := by unfold Hart.setM; split <;> rfl
@[simp] theorem setM_ending (x : Nat) : (h.setM r x).ending = h.ending := by unfold Hart.setM; split <;> rfl
@[simp] theorem pushToken_run : (h.pushToken k).run = h.run := rfl
@[simp] theorem pushToken_gang : (h.pushToken k).gang = h.gang := rfl
@[simp] theorem pushToken_x : (h.pushToken k).x = h.x := rfl
@[simp] theorem pushToken_g : (h.pushToken k).g = h.g := rfl
@[simp] theorem pushToken_pc : (h.pushToken k).pc = h.pc := rfl
@[simp] theorem pushToken_v : (h.pushToken k).v = h.v := rfl
@[simp] theorem pushToken_m : (h.pushToken k).m = h.m := rfl
@[simp] theorem pushToken_h : (h.pushToken k).h = h.h := rfl
@[simp] theorem pushToken_vl : (h.pushToken k).vl = h.vl := rfl
@[simp] theorem pushToken_vvl : (h.pushToken k).vvl = h.vvl := rfl
@[simp] theorem pushToken_vlPending : (h.pushToken k).vlPending = h.vlPending := rfl
@[simp] theorem pushToken_vcfg : (h.pushToken k).vcfg = h.vcfg := rfl
@[simp] theorem pushToken_vstart : (h.pushToken k).vstart = h.vstart := rfl
@[simp] theorem pushToken_gshift : (h.pushToken k).gshift = h.gshift := rfl
@[simp] theorem pushToken_first : (h.pushToken k).first = h.first := rfl
@[simp] theorem pushToken_count : (h.pushToken k).count = h.count := rfl
@[simp] theorem pushToken_flags : (h.pushToken k).flags = h.flags := rfl
@[simp] theorem pushToken_nohint : (h.pushToken k).nohint = h.nohint := rfl
@[simp] theorem pushToken_dyn : (h.pushToken k).dyn = h.dyn := rfl
@[simp] theorem pushToken_srseed : (h.pushToken k).srseed = h.srseed := rfl
@[simp] theorem pushToken_fstk : (h.pushToken k).fstk = h.fstk := rfl
@[simp] theorem pushToken_vcp0 : (h.pushToken k).vcp0 = h.vcp0 := rfl
@[simp] theorem pushToken_tvec : (h.pushToken k).tvec = h.tvec := rfl
@[simp] theorem pushToken_tcause : (h.pushToken k).tcause = h.tcause := rfl
@[simp] theorem pushToken_tpc : (h.pushToken k).tpc = h.tpc := rfl
@[simp] theorem pushToken_tval : (h.pushToken k).tval = h.tval := rfl
@[simp] theorem pushToken_tstat : (h.pushToken k).tstat = h.tstat := rfl
@[simp] theorem pushToken_cg : (h.pushToken k).cg = h.cg := rfl
@[simp] theorem pushToken_ufcount : (h.pushToken k).ufcount = h.ufcount := rfl
@[simp] theorem pushToken_asid : (h.pushToken k).asid = h.asid := rfl
@[simp] theorem pushToken_ptbase : (h.pushToken k).ptbase = h.ptbase := rfl
@[simp] theorem pushToken_fqbase : (h.pushToken k).fqbase = h.fqbase := rfl
@[simp] theorem pushToken_keydom : (h.pushToken k).keydom = h.keydom := rfl
@[simp] theorem pushToken_rep : (h.pushToken k).rep = h.rep := rfl
@[simp] theorem pushToken_viq : (h.pushToken k).viq = h.viq := rfl
@[simp] theorem pushToken_entered : (h.pushToken k).entered = h.entered := rfl
@[simp] theorem pushToken_held : (h.pushToken k).held = h.held := rfl
@[simp] theorem pushToken_heldVl : (h.pushToken k).heldVl = h.heldVl := rfl
@[simp] theorem pushToken_heldVvl : (h.pushToken k).heldVvl = h.heldVvl := rfl
@[simp] theorem pushToken_heldPending : (h.pushToken k).heldPending = h.heldPending := rfl
@[simp] theorem pushToken_cursor : (h.pushToken k).cursor = h.cursor := rfl
@[simp] theorem pushToken_splits : (h.pushToken k).splits = h.splits := rfl
@[simp] theorem pushToken_skip : (h.pushToken k).skip = h.skip := rfl
@[simp] theorem pushToken_member : (h.pushToken k).member = h.member := rfl
@[simp] theorem pushToken_parent : (h.pushToken k).parent = h.parent := rfl
@[simp] theorem pushToken_index : (h.pushToken k).index = h.index := rfl
@[simp] theorem pushToken_maint : (h.pushToken k).maint = h.maint := rfl
@[simp] theorem pushToken_fences : (h.pushToken k).fences = h.fences := rfl
@[simp] theorem pushToken_colls : (h.pushToken k).colls = h.colls := rfl
@[simp] theorem pushToken_tflags : (h.pushToken k).tflags = h.tflags := rfl
@[simp] theorem pushToken_badv : (h.pushToken k).badv = h.badv := rfl
@[simp] theorem pushToken_badh : (h.pushToken k).badh = h.badh := rfl
@[simp] theorem pushToken_callRd : (h.pushToken k).callRd = h.callRd := rfl
@[simp] theorem pushToken_answer : (h.pushToken k).answer = h.answer := rfl
@[simp] theorem pushToken_members : (h.pushToken k).members = h.members := rfl
@[simp] theorem pushToken_convoy : (h.pushToken k).convoy = h.convoy := rfl
@[simp] theorem pushToken_noRoom : (h.pushToken k).noRoom = h.noRoom := rfl
@[simp] theorem pushToken_dueAt : (h.pushToken k).dueAt = h.dueAt := rfl
@[simp] theorem pushToken_move : (h.pushToken k).move = h.move := rfl
@[simp] theorem pushToken_ending : (h.pushToken k).ending = h.ending := rfl

end Sys2Proof.Machine
end

