-- ==== Sys2Proof/Laws/Ops.lean ====
section
/-! SUPPORT. What the shared operations over a hart's registers do, and how a scalar instruction runs. -/

namespace Sys2Proof.Machine

open Sys2Proof

variable (s : State) (h : Hart)

@[simp] theorem putHart_putHart (k : Nat) (h' : Hart) : (s.putHart k h).putHart k h' = s.putHart k h' := by
  simp [State.putHart]

@[simp] theorem run_me : me s = .ok s.me s := rfl
@[simp] theorem run_setMe : setMe h s = .ok () (s.putHart s.cur h) := rfl
@[simp] theorem run_modMe (f : Hart → Hart) : modMe f s = .ok () (s.putHart s.cur (f s.me)) := rfl
@[simp] theorem run_getX (r : Nat) : getX r s = .ok (s.me.getX r) s := rfl
@[simp] theorem run_setX (r : Nat) (v : Word) : setX r v s = .ok () (s.putHart s.cur (s.me.setXNow r v)) := rfl
@[simp] theorem run_setG (r : Nat) (b : Bool) : setG r b s = .ok () (s.putHart s.cur (s.me.setG r b)) := rfl
@[simp] theorem run_myCtx : myCtx s = .ok (s.ctx s.cur) s := rfl
@[simp] theorem run_myGang : myGang s = .ok (s.gangOf s.me) s := rfl

/-- With an empty queue no register is waited for (R108). -/
theorem ready_of_empty (hv : h.viq = []) (regs : List Nat) : h.ready regs = true := by simp [Hart.ready, hv]

/-- Every earlier vector instruction has completed. -/
theorem run_vectorDone (hv : s.me.viq = []) : vectorDone s = .ok () s := by simp [vectorDone, hv]
theorem vectorDone_wait (hv : s.me.viq ≠ []) : vectorDone s = .error .wait s := by
  have : s.me.viq.isEmpty = false := by simpa using hv
  simp [vectorDone, this]

/-- S level passes the check of an S-level instruction (R373). -/
theorem run_sOnly (i : Instr) (hs : s.me.isS = true) : sOnly i s = .ok () s := by simp [sOnly, hs]

/-! ### Scalar instructions -/

variable {s} {regs : List Nat} {len : Nat} {body : Exec Flow}

/-- A guarded-off instruction only moves the scalar side on (R58). -/
theorem scalarStep_off : scalarStep false regs len body s = .next (s.putHart s.cur (s.me.advance len)) := rfl

/-- An instruction that reads a register of a queued vector instruction waits (R108). -/
theorem scalarStep_wait (hr : s.me.ready regs = false) : scalarStep true regs len body s = .next s := by
  simp [scalarStep, outcome, scalarWork, hr, settleStop]

theorem scalarStep_seq {s' : State} (hr : s.me.ready regs = true) (hb : body s = .ok .seq s') :
    scalarStep true regs len body s = .next (s'.putHart s'.cur (s'.me.advance len)) := by
  simp [scalarStep, outcome, scalarWork, hr, hb]

theorem scalarStep_jump {s' : State} {t : Word} (hr : s.me.ready regs = true) (hb : body s = .ok (.jump t) s') :
    scalarStep true regs len body s = .next (s'.putHart s'.cur (s'.me.jump t)) := by
  simp [scalarStep, outcome, scalarWork, hr, hb]

theorem scalarStep_stay {s' : State} (hr : s.me.ready regs = true) (hb : body s = .ok .stay s') :
    scalarStep true regs len body s = .next s' := by
  simp [scalarStep, outcome, scalarWork, hr, hb]

theorem scalarStep_stop {s' : State} {e : Stop} (hr : s.me.ready regs = true) (hb : body s = .error e s') :
    scalarStep true regs len body s = outcome .scalar (throw e) s' := by
  simp [scalarStep, outcome, scalarWork, hr, hb]

/-- What an instruction or event leaves is a next state: a stop of the machine is not among the outcomes. -/
theorem outcome_answers (p : Point) (m : Exec Unit) (s : State) : ∃ t, outcome p m s = .next t := by
  unfold outcome; split
  · exact ⟨_, rfl⟩
  · split <;> exact ⟨_, rfl⟩

theorem eventStep_answers (m : Exec Unit) (s : State) : ∃ t, eventStep m s = .next t := by
  unfold eventStep; split <;> exact ⟨_, rfl⟩

/-- A trap of a scalar instruction with an empty queue is taken (R109). -/
theorem outcome_trap {c d : Nat} {v : Word} (hv : s.me.viq = []) :
    outcome .scalar (throw (.trap c d v)) s =
      match takeTrap .scalar c d v s with | .ok _ s' => .next s' | .error _ s' => .next s' := by
  unfold outcome
  simp only [run_throw, settleStop, run_bind, run_me, hv, List.isEmpty_nil, Bool.not_true, Bool.and_false, if_false,
    Bool.false_eq_true]
  all_goals (cases takeTrap .scalar c d v s <;> rfl)

/-- A trap with a handler enters it (R405). -/
theorem takeTrap_handled (p : Point) (c d : Nat) (v : Word) (ht : s.me.tvec.getLsbD 0 = true) (hi : s.me.tstat.inh = false) :
    takeTrap p c d v s = .ok () (s.putHart s.cur (s.me.enterTrap p c d v)) := by
  simp [takeTrap, ht, hi]

/-- Every outcome is a next state. -/
theorem outcome_next (p : Point) (m : Exec Unit) : ∃ t, outcome p m s = .next t := by
  unfold outcome
  split
  · exact ⟨_, rfl⟩
  · split <;> exact ⟨_, rfl⟩

theorem eventStep_next (m : Exec Unit) : ∃ t, eventStep m s = .next t := by
  unfold eventStep
  split <;> exact ⟨_, rfl⟩

theorem eventStep_ok {m : Exec Unit} {s' : State} (hm : m s = .ok () s') : eventStep m s = .next s' := by
  simp [eventStep, hm]

end Sys2Proof.Machine
end

