-- ==== Sys2Proof/Laws/Mem.lean ====
section
/-! SUPPORT. Checked accesses to a hart's own scratchpad: what the check, a read and a write of it do. -/

namespace Sys2Proof.Machine

open Sys2Proof

variable {s : State} {a n : Nat}

/-- A range in one 64 KiB page is not cut. -/
theorem cuts_one (hn : 0 < n) (h : a / 65536 = (a + n - 1) / 65536) : cuts a n = [(a, n)] := by
  have h1 : (a + n + 65535) / 65536 - a / 65536 = 1 := by omega
  simp [cuts, h1]
  omega

theorem ownScratch_window (h : s.ownScratch a n) : inWindow a = true := by
  obtain ⟨h1, h2, h3, h4, h5, h6⟩ := h
  have : a < windowBase + 0x6000000 := by omega
  simp [inWindow, h1, this]

theorem ownScratch_addrOk (h : s.ownScratch a n) : addrOk (a : Int) n = true := by
  obtain ⟨h1, h2, h3, h4, h5, h6⟩ := h
  simp [addrOk, canonical, windowBase] at *
  omega

theorem ownScratch_bounds (h : s.ownScratch a n) : Machine.outOfBounds (s.ctx s.cur) a n = none := by
  obtain ⟨h1, h2, h3, h4, h5, h6⟩ := h
  have e1 : (s.ctx s.cur).splo = (s.gangOf s.me).splo.toNat := rfl
  have e2 : (s.ctx s.cur).sphi = (s.gangOf s.me).sphi.toNat := rfl
  unfold Machine.outOfBounds
  rw [e1, e2]
  unfold windowBase at *
  dsimp only
  split
  · rfl
  · rw [if_neg (by simp; omega), if_neg (by omega)]

/-- The check of an access to the hart's own scratchpad passes and gives its place (R269). -/
theorem checkAccess_scratch {al : Nat} {k : Kind} (h : s.ownScratch a n) (ha : a % al = 0) :
    checkAccess (s.ctx s.cur) a n al k s = .ok [(a, n, .scratch (s.scratchAt a))] s := by
  have ha' : ((a : Int) % (al : Int) = 0) := by exact_mod_cast ha
  simp [checkAccess, run_need, ownScratch_addrOk h, ha', ownScratch_bounds h, cuts_one h.2.2.2.2.1 h.2.2.2.2.2, each,
    placePart, ownScratch_window h]
  rfl

/-- No byte of the range is vague: it stands as it is. -/
theorem run_blur {colls : List (Nat × Nat × Nat)} {spot v : Nat} (h : ∀ i < n, s.vague colls (spot + i) = false) :
    blur colls spot n v s = .ok v s := by
  have h' : ((List.range n).any fun i => s.vague colls (spot + i)) = false := by simpa using h
  simp only [blur, run_bind, run_get, h', Bool.false_eq_true, if_false]
  rfl

/-- What is vague to no hart in particular is vague to every hart. -/
theorem vague_nil {colls : List (Nat × Nat × Nat)} {spot : Nat} (h : s.vague colls spot = false) : s.vague [] spot = false := by
  simp only [State.vague, Bool.or_eq_false_iff, List.any_eq_false] at h ⊢
  refine ⟨h.1, fun q hq => ?_⟩
  have := h.2 q hq
  simp only [Bool.and_eq_true, Bool.or_eq_true, not_and, not_or] at this ⊢
  intro hb
  exact ⟨(this hb).1, by simp⟩

/-- A read of plain scratchpad bytes by the hart whose turn it is. -/
theorem readAccess_scratch {c : Ctx} {near wr : Bool} {key : Nat} (hc : c.h.colls = s.me.colls) (h : s.plainScratch key n) :
    readAccess c near wr [(a, n, .scratch key)] s = .ok (s.scratch.readN key n) s := by
  have e := run_blur (v := s.scratch.readN key n) h.2.1
  simp only [Nat.reducePow] at e
  simp [readAccess, each, readPart, takePart, h.1, Place.spot, hc, e]

/-- A load from the hart's own scratchpad. -/
theorem load_scratch {al : Nat} (h : s.ownScratch a n) (ha : a % al = 0) (hp : s.plainScratch (s.scratchAt a) n) :
    load (s.ctx s.cur) a n al s = .ok (s.scratch.readN (s.scratchAt a) n) s := by
  simp [load, checkAccess_scratch h ha, readAccess_scratch (c := s.ctx s.cur) rfl hp]

/-- No hart sleeps on a line: waking it changes nothing. -/
theorem wakeLine_none {line : Nat} (h : ∀ k x l t, (k, x) ∈ s.harts → x.run = .asleep l t → l ≠ line) :
    wakeLine line s = .ok () s := by
  have : (s.harts.map fun (k, x) => match x.run with
      | .asleep l _ => if l = line then (k, { x with run := Run.woken }) else (k, x)
      | _ => (k, x)) = s.harts := by
    conv_rhs => rw [← List.map_id s.harts]
    apply List.map_congr_left
    rintro ⟨k, x⟩ hx
    simp only [id]
    split
    · rename_i l t hr
      simp [h k x l t hx hr]
    · rfl
  simp only [wakeLine, run_modify]
  congr 1
  exact congrArg (fun l => { s with harts := l }) this

theorem wakeRange_none {lo hi : Nat} (h : ∀ k x l t, (k, x) ∈ s.harts → x.run = .asleep l t → l < lo / 128 ∨ hi / 128 < l) :
    wakeRange lo hi s = .ok () s := by
  unfold wakeRange
  have key : ∀ ls : List Nat, (∀ i ∈ ls, lo / 128 + i ≤ hi / 128) → forAll ls (fun i => wakeLine (lo / 128 + i)) s = .ok () s := by
    intro ls
    induction ls with
    | nil => intro _; rfl
    | cons i t ih =>
      intro hi'
      rw [forAll_cons, wakeLine_none]
      · exact ih fun j hj => hi' j (List.mem_cons_of_mem _ hj)
      · intro k x l t' hx hr
        have := hi' i List.mem_cons_self
        rcases h k x l t' hx hr with h | h <;> omega
  apply key
  intro i hi'
  have := List.mem_range.mp hi'
  omega

/-- A write of plain scratchpad bytes. -/
theorem writeAccess_scratch {c : Ctx} {near wt : Bool} {key v : Nat} (hc : c.h.colls = s.me.colls) (h : s.plainScratch key n) :
    writeAccess c near wt v [(a, n, .scratch key)] s = .ok () (s.storeScratch key n v) := by
  have hw : wakeRange (2 ^ 67 + key) (2 ^ 67 + key + n - 1) (s.storeScratch key n v) = .ok () (s.storeScratch key n v) :=
    wakeRange_none h.2.2
  have hp : writePart c near wt a v (a, n, .scratch key) s = .ok () (s.storeScratch key n v) := by
    simp only [writePart, putPart, Place.spot, hc, run_bind, Nat.sub_self, Nat.mul_zero, Nat.pow_zero, Nat.div_one,
      run_blur h.2.1, run_modify]
    exact hw
  simp only [writeAccess, run_bind, forAll_cons, forAll_nil, run_pure, hp]

/-- A store to the hart's own scratchpad. -/
theorem store_scratch {al v : Nat} {wt : Bool} (h : s.ownScratch a n) (ha : a % al = 0)
    (hp : s.plainScratch (s.scratchAt a) n) :
    store (s.ctx s.cur) a n al wt v s = .ok () (s.storeScratch (s.scratchAt a) n v) := by
  simp [store, checkAccess_scratch h ha, writeAccess_scratch (c := s.ctx s.cur) rfl hp]

/-! ### The L1I (R53) -/

@[simp] theorem fillLine_mem (s : State) (k : Nat) (d : Domain) (l : Nat) : (s.fillLine k d l).mem = s.mem := rfl
@[simp] theorem fillLine_scratch (s : State) (k : Nat) (d : Domain) (l : Nat) : (s.fillLine k d l).scratch = s.scratch := rfl
@[simp] theorem fillLine_harts (s : State) (k : Nat) (d : Domain) (l : Nat) : (s.fillLine k d l).harts = s.harts := rfl
@[simp] theorem fillLine_cur (s : State) (k : Nat) (d : Domain) (l : Nat) : (s.fillLine k d l).cur = s.cur := rfl
@[simp] theorem dropL1i_mem (s : State) (k : Nat) : (s.dropL1i k).mem = s.mem := rfl
@[simp] theorem dropL1i_harts (s : State) (k : Nat) : (s.dropL1i k).harts = s.harts := rfl

end Sys2Proof.Machine
end

