-- ==== Sys2Proof/Laws/Phys.lean ====
section
/-! SUPPORT. The device's own reads and writes of physical memory always answer: they neither stop nor wait. -/

namespace Sys2Proof.Machine

open Sys2Proof

variable {α β : Type}

/-- A computation that answers in every state. -/
def Answers (m : Exec α) : Prop := ∀ s, ∃ v t, m s = .ok v t

theorem answers_pure (a : α) : Answers (pure a) := fun s => ⟨a, s, rfl⟩
theorem answers_ask (f : State → α) : Answers (ask f) := fun s => ⟨f s, s, rfl⟩
theorem answers_modify (f : State → State) : Answers (modify f) := fun s => ⟨(), f s, rfl⟩
theorem answers_nextFresh : Answers nextFresh := fun s => ⟨_, _, run_nextFresh s⟩

theorem answers_bind {m : Exec α} {k : α → Exec β} (hm : Answers m) (hk : ∀ a, Answers (k a)) : Answers (m >>= k) := fun s => by
  obtain ⟨v, t, h⟩ := hm s
  obtain ⟨w, u, h'⟩ := hk v t
  exact ⟨w, u, by simp [run_bind, h, h']⟩

theorem answers_ite {c : Prop} [Decidable c] {m n : Exec α} (hm : Answers m) (hn : Answers n) : Answers (if c then m else n) := by
  split <;> assumption

theorem answers_forAll {f : α → Exec Unit} (h : ∀ a, Answers (f a)) : ∀ l, Answers (forAll l f)
  | [] => answers_pure ()
  | _ :: l => answers_bind (h _) fun _ => answers_forAll h l

theorem answers_each {f : α → Exec β} (h : ∀ a, Answers (f a)) : ∀ l, Answers (each l f)
  | [] => answers_pure []
  | _ :: l => answers_bind (h _) fun _ => answers_bind (answers_each h l) fun _ => answers_pure _

theorem answers_backingData (d : Domain) (g : Nat) : Answers (backingData d g) := by
  unfold backingData
  refine answers_bind (answers_ask _) fun o => answers_ite (answers_ask _) (answers_ite (answers_ask _) ?_)
  exact answers_bind answers_nextFresh fun _ => answers_pure _

theorem answers_dramRead (w : Who) (va g : Nat) : Answers (dramRead w va g) := by
  unfold dramRead
  refine answers_bind (answers_ask _) fun o => ?_
  split <;> first
    | exact answers_pure _
    | exact answers_bind (answers_modify _) fun _ => answers_pure _

theorem answers_mergePoison (w : Who) (g : Nat) : Answers (mergePoison w g) :=
  answers_bind answers_nextFresh fun _ => answers_modify _

theorem answers_setPoison (g : Nat) (p : Bool) : Answers (setPoison g p) := answers_modify _
theorem answers_putBacking (d : Domain) (g data : Nat) : Answers (putBacking d g data) := answers_modify _

theorem answers_writeBacking (w : Who) (d : Domain) (g data mask : Nat) : Answers (writeBacking w d g data mask) := by
  unfold writeBacking
  repeat first
    | exact answers_modify _ | exact answers_putBacking _ _ _ | exact answers_setPoison _ _ | exact answers_mergePoison _ _
    | exact answers_pure _ | exact answers_ask _ | exact answers_backingData _ _ | exact answers_dramRead _ _ _
    | (with_reducible refine answers_bind ?_ fun _ => ?_) | split

theorem answers_writeBack (g : Nat) : Answers (writeBack g) := by
  unfold writeBack
  repeat first
    | exact answers_modify _ | exact answers_setPoison _ _ | exact answers_writeBacking _ _ _ _ _ | exact answers_pure _ | exact answers_ask _
    | (with_reducible refine answers_bind ?_ fun _ => ?_) | split

theorem answers_claimLine (d : Domain) (l : Nat) : Answers (claimLine d l) := by
  unfold claimLine
  refine answers_forAll (fun g => answers_bind (answers_ask _) fun o => ?_) _
  split
  · exact answers_ite (answers_bind (answers_writeBack _) fun _ => answers_modify _) (answers_pure _)
  · exact answers_pure _

theorem answers_copyOf (w : Who) (d : Domain) (g : Nat) : Answers (copyOf w d g) :=
  answers_bind (answers_ask _) fun _ => answers_pure _

theorem answers_readGranule (w : Who) (d : Domain) (keep : Bool) (va g want : Nat) : Answers (readGranule w d keep va g want) := by
  unfold readGranule
  repeat first
    | exact answers_claimLine _ _ | exact answers_copyOf _ _ _ | exact answers_modify _ | exact answers_backingData _ _
    | exact answers_dramRead _ _ _ | exact answers_pure _ | exact answers_ask _
    | (with_reducible refine answers_bind ?_ fun _ => ?_) | split

theorem answers_writeGranule (w : Who) (d : Domain) (wt : Bool) (g data mask : Nat) : Answers (writeGranule w d wt g data mask) := by
  unfold writeGranule
  refine answers_bind (answers_claimLine _ _) fun _ => answers_bind (answers_copyOf _ _ _) fun c => answers_bind (answers_modify _) fun _ => ?_
  exact answers_ite (answers_writeBack _) (answers_pure _)

/-- A coherent read of physical memory answers, with its data and an error class. -/
theorem answers_readPhys (w : Who) (d : Domain) (keep : Bool) (va pa n : Nat) : Answers (readPhys w d keep va pa n) :=
  answers_bind (answers_each (fun _ => answers_bind (answers_readGranule _ _ _ _ _ _) fun _ => answers_pure _) _) fun _ => answers_pure _

/-- A coherent write of physical memory answers. -/
theorem answers_writePhys (w : Who) (d : Domain) (wt : Bool) (pa n v : Nat) : Answers (writePhys w d wt pa n v) :=
  answers_forAll (fun _ => answers_writeGranule _ _ _ _ _ _) _

/-- A coherent write that fills no line answers. -/
theorem answers_writeHome (w : Who) (d : Domain) (pa n v : Nat) : Answers (writeHome w d pa n v) := by
  refine answers_forAll (fun p => ?_) _
  obtain ⟨g, lo, len⟩ := p
  refine answers_bind (answers_claimLine _ _) fun _ => answers_bind (answers_ask _) fun o => ?_
  exact answers_ite (answers_writeGranule _ _ _ _ _ _) (answers_writeBacking _ _ _ _ _)

/-- The device's own reads and writes answer. -/
theorem answers_readOwn (pa n : Nat) : Answers (readOwn pa n) :=
  answers_bind (answers_ask _) fun _ => answers_bind (answers_readPhys _ _ _ _ _ _) fun _ => answers_pure _
theorem answers_writeOwn (pa n v : Nat) : Answers (writeOwn pa n v) :=
  answers_bind (answers_ask _) fun _ => answers_writeHome _ _ _ _ _

theorem answers_readCount (pa : Nat) : Answers (readCount pa) := answers_bind (answers_ask _) fun _ => answers_readOwn _ _
theorem answers_writeCount (pa v : Nat) : Answers (writeCount pa v) := answers_bind (answers_ask _) fun _ => answers_writeOwn _ _ _
theorem answers_writeSeal (pa v : Nat) : Answers (writeSeal pa v) := answers_bind (answers_ask _) fun _ => answers_writeOwn _ _ _
theorem answers_flushPool : Answers flushPool := answers_bind (answers_ask _) fun _ => answers_forAll answers_writeBack _

theorem answers_addFree (pa : Nat) : Answers (addFree pa) := by
  unfold addFree
  refine answers_bind (answers_ask _) fun _ => answers_ite (answers_pure _) (answers_bind (answers_ask _) fun _ => ?_)
  iterate 4 refine answers_bind (answers_readOwn _ _) fun _ => ?_
  exact answers_ite (answers_bind (answers_readOwn _ _) fun _ => answers_writeOwn _ _ _)
    (answers_bind (answers_writeOwn _ _ _) fun _ => answers_writeOwn _ _ _)

theorem answers_dropCount (pa : Nat) : Answers (dropCount pa) :=
  answers_bind (answers_readCount _) fun _ => answers_ite (answers_pure _)
    (answers_bind (answers_writeCount _ _) fun _ => answers_ite (answers_addFree _) (answers_pure _))

end Sys2Proof.Machine
end

