-- ==== Sys2Proof/Laws/Queue.lean ====
section
/-! SUPPORT. How a near vector instruction with nothing before it enters, issues and completes, and what a run of elements
leaves. -/

namespace Sys2Proof.Machine

open Sys2Proof

variable {s s' : State} {i : Instr} {f : VForm} {op : BitVec 8}

theorem viqRoom_calm {h : Hart} (hv : h.viq = []) (hh : h.held.length < 64) : h.viqRoom ≠ 0 := by
  simp [Hart.viqRoom, hv, Config.viqDepth]; omega

/-- A queue that owes no x register is left as it is by the scalar side moving on (R134). -/
theorem advance_viq {h : Hart} (ho : ∀ e ∈ h.viq, ∀ r, e.owes r = false) (n : Nat) : (h.advance n).viq = h.viq := by
  have hr : ∀ regs, h.ready regs = true := by
    intro regs
    simp only [Hart.ready, List.all_eq_true, Bool.or_eq_true, decide_eq_true_eq, Bool.not_eq_true']
    exact fun r _ => Or.inr fun e he => ho e he r
  unfold Hart.advance Hart.retire
  dsimp only
  split_ifs <;> first | rfl | exact absurd (hr _) ‹_› | simp

/-- The queue of an instruction that entered an empty one: itself, where it will write no x register. -/
theorem viq_entered (hv : s.me.viq = []) (hx : pendingX i = none) : (s.entered i f).me.viq = [s.me.capture i f] := by
  have ho : ∀ r, (s.me.capture i f).owes r = false := by
    intro r; simp only [VEntry.owes, Hart.capture, hx]; rfl
  unfold State.entered
  rw [me_putHart]
  unfold Hart.enqueue
  rw [advance_viq] <;> simp_all

/-- Room in the queue for a calm instruction (R1, R406). -/
theorem findRoom_calm {s : State} (hv : s.me.viq = []) (hr : s.me.tstat.inh = true → s.me.noRoom = false)
    (hh : s.me.held.length < 64) : findRoom i s = .ok () s := by
  have h0 := viqRoom_calm hv hh
  cases hi : s.me.tstat.inh <;> simp [findRoom, hi, h0]
  simp [hr hi]

/-- Entry of a calm instruction (R107). -/
theorem enterQueue_calm (hc : s.calm f) : enterQueue i f noHook s = .ok true (s.entered i f) := by
  obtain ⟨-, hv, hr, hh, -⟩ := hc
  simp only [enterQueue, run_bind, run_me, ready_of_empty _ hv, await_true, findRoom_calm hv hr hh, noHook, run_pure,
    run_modMe, hv, List.isEmpty_nil]
  rfl

/-- Nothing delays the issue of a calm instruction (R352). -/
theorem rivals_calm (hc : s.calm f) (u : Nat) : (s.entered i f).rivals (s.entered i f).cur u = false := by
  obtain ⟨⟨-, -, ha⟩, -⟩ := hc
  unfold State.rivals
  rw [List.any_eq_false]
  rintro ⟨j, h⟩ hj hcon
  simp only [ne_eq, Bool.and_eq_true, decide_eq_true_eq] at hcon
  obtain ⟨⟨h1, h2⟩, h3⟩ := hcon
  rcases Tab.mem_put_or _ hj with h4 | h4
  · exact h1 (Prod.ext_iff.mp h4).1
  · have := ha _ h4 h1 h2
    simp only at this
    simp [Hart.headUnits, this] at h3

theorem late_calm (hc : s.calm f) : (s.entered i f).late (s.entered i f).cur = false := hc.1.2.1

/-- No member of a convoy is still to enter. -/
theorem filling_calm (hc : s.calm f) : (s.entered i f).me.filling = false := by
  have hm : (s.entered i f).me.members = [] := by simp [State.entered, Hart.enqueue, hc.1.1]
  simp [Hart.filling, hm]

/-- A captured entry has no element performed ahead and no fence behind it. -/
theorem capture_early (h : Hart) : (h.capture i f).early = 0 := rfl
theorem capture_flush (h : Hart) : (h.capture i f).flush = false := rfl
@[simp] theorem capture_doneAhead (h : Hart) : (h.capture i f).doneAhead = false := by simp [VEntry.doneAhead, capture_early]
@[simp] theorem without_zero (m : Nat) : without m 0 = m := rfl

theorem issueCtx_calm (hc : s.calm f) :
    issueCtx (s.me.capture i f) f (s.entered i f) = .ok (s.calmCtx i f) (s.entered i f) := by
  obtain ⟨-, hv, -, hh, hp, hpop, hpsh, hrm, hbad, hfar⟩ := hc
  have hd : (s.me.capture i f).dyn = s.me.dyn := rfl
  have hl : ∀ h, (s.me.capture i f).length h = s.me.vl.toNat := by intro h; simp [VEntry.length, Hart.capture, hp]
  have h6 : ¬ (f.rm.toNat = 6 ∧ 6 ≤ s.me.dyn.toNat) := by
    rintro ⟨a, b⟩; have := hrm (BitVec.eq_of_toNat_eq (by simpa using a)); omega
  have hm : (s.entered i f).me.mode f = s.me.mode f := by simp [Hart.mode, State.entered, Hart.enqueue]
  have hmask : ∀ n, (s.entered i f).me.governing f.vm.toNat n = s.me.governing f.vm.toNat n := by
    simp [Hart.governing, Hart.getM, Hart.maskLen, Hart.regBytes, Hart.nregs, State.entered, Hart.enqueue]
  have hb : (s.entered i f).me.regBytes = s.me.regBytes := by simp [Hart.regBytes, Hart.nregs, State.entered, Hart.enqueue]
  have hn : (s.entered i f).me.nregs = s.me.nregs := by simp [Hart.nregs, State.entered, Hart.enqueue]
  have hst : (s.entered i f).me.vstart = s.me.vstart := by simp [State.entered, Hart.enqueue]
  have hsl : (s.entered i f).me.slot f.slot.toNat = s.me.slot f.slot.toNat := by simp [Hart.slot, State.entered, Hart.enqueue]
  have hport : (s.entered i f).port = s.port := rfl
  by_cases hP : f.p = 1
  · obtain ⟨h1, h2, h3, h4, h5, h7, h8⟩ := hfar hP
    have h45 : ¬ (f.rm.toNat = 6 ∧ s.me.dyn.toNat = 5) := by
      rintro ⟨a, b⟩
      exact h4 (BitVec.eq_of_toNat_eq (by simpa using a)) (BitVec.eq_of_toNat_eq (by simpa using b))
    have h45' : ¬ ((if f.rm.toNat = 6 then s.me.dyn.toNat else f.rm.toNat) = 5 ∧ f.rm.toNat = 6) := by
      rintro ⟨a, b⟩; rw [if_pos b] at a; exact h45 ⟨b, a⟩
    simp [issueCtx, capture_early, hd, hl, h6, State.calmCtx, hP, hsl, h1, h2, h3, hport, h45', State.side, hmask, hst, Hart.mode]
  · have hP' : (f.p = 1#1) = False := eq_false hP
    simp [issueCtx, capture_early, hd, hl, h6, State.calmCtx, hP', State.side, hmask, hst, hb, hn, Hart.mode]

theorem takeTokens_calm (hv : s.me.viq = []) (hx : pendingX i = none) (hpop : f.tpop = 0) (hpsh : f.tpsh = 0) :
    takeTokens (s.me.capture i f) f (s.entered i f) = .ok (s.me.capture i f) (s.entered i f) := by
  have hq := viq_entered (f := f) hv hx
  have hsame : (s.entered i f).putHart (s.entered i f).cur { (s.entered i f).me with viq := [s.me.capture i f] } =
      s.entered i f := by
    rw [← hq]
    show (s.putHart s.cur _).putHart s.cur _ = _
    rw [putHart_putHart]
    show s.putHart s.cur (s.entered i f).me = _
    rw [show (s.entered i f).me = s.me.enqueue i (s.me.capture i f) from me_putHart _ _]
    rfl
  have hq' : (s.entered i f).me.viq.tail = [] := by rw [hq]; rfl
  simp only [takeTokens, hpop, hpsh, run_bind, run_me]
  simp [setHead, run_modMe, hq]
  exact hsame

theorem issueHead_calm {m : VCtx → Exec Unit} (hc : s.calm f) (hi : i.vForm = some (op, f)) (hx : pendingX i = none) :
    issueHead (bodyNow m) (s.entered i f) = match m (s.calmCtx i f) (s.entered i f) with
      | .ok _ t => .ok () (t.putHart t.cur t.me.leave)
      | .error e t => .error e t := by
  obtain ⟨-, hv, -, -, -, hpop, hpsh, -⟩ := id hc
  have hi' : (s.me.capture i f).instr.vForm = some (op, f) := hi
  simp only [issueHead, run_bind, run_me, viq_entered hv hx, hi', takeTokens_calm hv hx hpop hpsh, bodyNow, issueCtx_calm hc,
    capture_doneAhead, Bool.false_eq_true, if_false]
  cases m (s.calmCtx i f) (s.entered i f) with
  | ok a t => simp [completeHead, hpsh, Hart.leave, capture_flush]
  | error e t => rfl

/-- The body of a calm instruction is run once, and the instruction completes (R352). -/
theorem plainStep_calm {m : VCtx → Exec Unit} (hc : s.calm f) (hi : i.vForm = some (op, f)) (hx : pendingX i = none)
    (hb : m (s.calmCtx i f) (s.entered i f) = .ok () s') (hs : s'.cur = s.cur) : plainStep i f m s = .next (s'.leave i f) := by
  have hp : (s'.putHart s'.cur s'.me.leave).cur = s.cur := hs
  simp only [plainStep, vectorStep, enterQueue_calm hc, rivals_calm hc, late_calm hc, filling_calm hc, outcome, run_bind, issueHead_calm hc hi hx,
    hb, passPointer, run_modify]
  simp only [Bool.not_false, Bool.and_true, if_true, State.leave, State.passed, hp]
  rfl

/-- A stop of the body is settled at the instruction (R404). -/
theorem plainStep_stop {m : VCtx → Exec Unit} {e : Stop} (hc : s.calm f) (hi : i.vForm = some (op, f)) (hx : pendingX i = none)
    (hb : m (s.calmCtx i f) (s.entered i f) = .error e s') :
    plainStep i f m s = outcome (.vector s.me.pc (f.p = 1)) (throw e) s' := by
  simp only [plainStep, vectorStep, enterQueue_calm hc, rivals_calm hc, late_calm hc, filling_calm hc, outcome, run_bind, issueHead_calm hc hi hx,
    hb, run_throw, Bool.not_false, Bool.and_true, if_true]

/-! ### Elements of a register (R73) -/

theorem testBit_setBits (n lo w v k : Nat) : (setBits n lo w v).testBit k =
    if k < lo then n.testBit k else if k < lo + w then v.testBit (k - lo) else n.testBit k := by
  have e : setBits n lo w v = 2 ^ (lo + w) * (n / 2 ^ (lo + w)) + (2 ^ lo * (v % 2 ^ w) + n % 2 ^ lo) := by
    unfold setBits; ring
  have hlo : n % 2 ^ lo < 2 ^ lo := Nat.mod_lt _ (by positivity)
  have hv : v % 2 ^ w < 2 ^ w := Nat.mod_lt _ (by positivity)
  have hb : 2 ^ lo * (v % 2 ^ w) + n % 2 ^ lo < 2 ^ (lo + w) := by
    rw [pow_add]
    calc 2 ^ lo * (v % 2 ^ w) + n % 2 ^ lo < 2 ^ lo * (v % 2 ^ w) + 2 ^ lo := by omega
      _ = 2 ^ lo * (v % 2 ^ w + 1) := by ring
      _ ≤ 2 ^ lo * 2 ^ w := Nat.mul_le_mul_left _ hv
  rw [e, Nat.testBit_two_pow_mul_add _ hb, Nat.testBit_two_pow_mul_add _ hlo]
  by_cases h1 : k < lo
  · simp [h1, Nat.lt_add_right w h1]
  · by_cases h2 : k < lo + w
    · have : k - lo < w := by omega
      simp [h1, h2, this]
    · have : k - (lo + w) + (lo + w) = k := by omega
      simp only [h1, h2, if_false, Nat.testBit_div_two_pow, this]

theorem testBit_elemAt (r i w k : Nat) : (elemAt r i w).testBit k = (decide (k < w) && r.testBit (i * w + k)) := by
  simp [elemAt, Nat.testBit_mod_two_pow, Nat.testBit_div_two_pow, Nat.add_comm]

/-- An element read after one is written. -/
theorem elemAt_elemSet (r i j w v : Nat) : elemAt (elemSet r i w v) j w = if j = i then v % 2 ^ w else elemAt r j w := by
  apply Nat.eq_of_testBit_eq
  intro k
  rw [testBit_elemAt, elemSet, testBit_setBits]
  by_cases hk : k < w
  · by_cases hj : j = i
    · subst hj
      simp [hk, Nat.testBit_mod_two_pow]
    · rw [if_neg hj, testBit_elemAt]
      rcases Nat.lt_or_gt_of_ne hj with h | h
      · have : j * w + w ≤ i * w := by nlinarith
        have : j * w + k < i * w := by omega
        simp [hk, this]
      · have : i * w + w ≤ j * w := by nlinarith
        have h1 : ¬ j * w + k < i * w := by omega
        have h2 : ¬ j * w + k < i * w + w := by omega
        simp [hk, h1, h2]
  · by_cases hj : j = i
    · simp [hk, hj, Nat.testBit_mod_two_pow]
    · simp [hk, hj, testBit_elemAt]

theorem elemAt_lt (r i w : Nat) : elemAt r i w < 2 ^ w := Nat.mod_lt _ (by positivity)

/-- A run of operations that raise nothing: every element of the list takes its value, every other keeps its own. -/
theorem runElems_pure {wd : Nat} {g : Nat → Nat → Nat} (els : List Nat) (l : LoopState) (hn : els.Nodup)
    (hh : l.fs.hit = none) :
    let r := runElems wd (fun i old => pure (g i old)) els l
    r.fs = l.fs ∧ r.stop = l.stop ∧
      ∀ j, elemAt r.dst j wd = if j ∈ els then g j (elemAt l.dst j wd) % 2 ^ wd else elemAt l.dst j wd := by
  induction els generalizing l with
  | nil => simp [runElems]
  | cons i t ih =>
    have hr : runElems wd (fun i old => pure (g i old)) (i :: t) l =
        runElems wd (fun i old => pure (g i old)) t
          { l with dst := elemSet l.dst i wd (g i (elemAt l.dst i wd)), done := i :: l.done } := by
      rw [runElems]
      simp [hh, pure, StateT.pure]
    rw [hr]
    obtain ⟨h1, h2, h3⟩ := ih { l with
      dst := elemSet l.dst i wd (g i (elemAt l.dst i wd)), done := i :: l.done } (List.nodup_cons.mp hn).2 hh
    refine ⟨h1, h2, fun j => ?_⟩
    rw [h3 j, elemAt_elemSet]
    have hi := (List.nodup_cons.mp hn).1
    by_cases hj : j = i
    · subst hj; simp [hi]
    · simp [hj]

/-- No word poisoned: no element stops. -/
theorem firstPoison_none {c : VCtx} (hf : c.far = none) (hb : s.me.badv = []) (reads : Reads) (els : List Nat) :
    c.firstPoison reads els s = .ok none s := by
  have he : ∀ l : List (Nat × Nat × Nat), ∃ r, each l (fun (r, w, j) => c.poisonAt r w j) s = .ok r s ∧ r.findSome? id = none := by
    intro l
    induction l with
    | nil => exact ⟨[], rfl, rfl⟩
    | cons a t ih =>
      obtain ⟨r, h1, h2⟩ := ih
      refine ⟨none :: r, ?_, by simpa using h2⟩
      have ha : c.poisonAt a.1 a.2.1 a.2.2 s = .ok none s := by simp [VCtx.poisonAt, hf, hb]
      simp only [each, run_bind, ha, h1]
      rfl
  induction els with
  | nil => rfl
  | cons i t ih =>
    obtain ⟨r, h1, h2⟩ := he (reads i)
    simp only [VCtx.firstPoison, run_bind, h1, h2]
    exact ih

/-- A vector instruction answers a next state, whatever its entry and issue do. -/
theorem vectorStep_answers (i : Instr) (f : VForm) (k : EntryHook) (b : Body) (s : State) :
    ∃ t, vectorStep i f k b s = .next t := by
  unfold vectorStep
  dsimp only
  repeat' split
  all_goals first | exact ⟨_, rfl⟩ | exact outcome_answers _ _ _

end Sys2Proof.Machine
end

