-- ==== Sys2Proof/Machine/Loader.lean ====
section
/-! DEFINITION. The host's loader: objects, the resolution of their sizes, and the fields of the launch record they fill
(R79 to R81). It runs on the host; no instruction calls it (log 20). -/

namespace Sys2Proof.Machine

open Sys2Proof

/-- Why the loader refuses an object: the cases of R81, and a file too short for what it announces (log 20). -/
inductive LoadRefusal where
  | unrecognised
  | lanes
  | vectorLength
  | site
  | literal
  | overlap
  | short
  deriving DecidableEq, Repr

/-- A section entry (R79). -/
structure ObjSection where
  kind   : Nat
  align  : Nat
  offset : Nat
  size   : Nat
  addr   : Nat
  deriving DecidableEq, Repr

/-- A size relocation (R79). -/
structure SizeReloc where
  site : Nat
  n    : Int
  c    : Int
  deriving DecidableEq, Repr

/-- What a loaded object gives: its sections' bytes by offset in the task image, and its part of the launch record. -/
structure LoadedObj where
  image  : List (Nat × List Byte)
  record : Record
  deriving DecidableEq, Repr

/-- A little-endian field of a file. -/
def fileField (file : List Byte) (off n : Nat) : Nat :=
  ((file.drop off).take n).foldr (fun b acc => b.toNat + 256 * acc) 0

/-- The n bytes of a number. -/
def fieldBytes (n v : Nat) : List Byte := (List.range n).map fun i => BitVec.ofNat 8 (v / 256 ^ i)

/-- The section entry at an offset, and whether its reserved bytes are zero. -/
def objSection (file : List Byte) (at_ : Nat) : ObjSection × Bool :=
  ({ kind := fileField file at_ 1, align := fileField file (at_ + 1) 1, offset := fileField file (at_ + 8) 8,
     size := fileField file (at_ + 16) 8, addr := fileField file (at_ + 24) 8 },
   fileField file (at_ + 2) 6 = 0)

/-- The size relocation at an offset. -/
def sizeReloc (file : List Byte) (at_ : Nat) : SizeReloc :=
  { site := fileField file at_ 8, n := (BitVec.ofNat 32 (fileField file (at_ + 8) 4)).toInt,
    c := (BitVec.ofNat 32 (fileField file (at_ + 12) 4)).toInt }

/-- VLMAXB: the bytes of one vector register (R80). -/
def vlmaxB (lanes vcfg : Nat) : Nat := lanes * 4096 / (8 * 2 ^ vcfg)

/-- Bytes with those from an offset replaced. -/
def patchBytes (l new : List Byte) (off : Nat) : List Byte := l.take off ++ new ++ l.drop (off + new.length)

/-- One relocation resolved in the text section (R80, R81): its site is a parcel of a LIT32 or LIT64. -/
def resolve (text : List Byte) (bytes : Nat) (r : SizeReloc) : Except LoadRefusal (List Byte) :=
  let v := r.n * bytes + r.c
  let op := fileField text r.site 1
  let room (n : Nat) : Bool := r.site % 4 = 0 && r.site + 4 + n ≤ text.length
  if op = 0x09 && room 4 then
    if -2 ^ 31 ≤ v && v < 2 ^ 31 then .ok (patchBytes text (fieldBytes 4 (v % 2 ^ 32).toNat) (r.site + 4)) else .error .literal
  else if op = 0x0A && room 8 then .ok (patchBytes text (fieldBytes 8 (v % 2 ^ 64).toNat) (r.site + 4))
  else .error .site

/-- Every relocation, in the table's order. -/
def resolveAll (bytes : Nat) : List SizeReloc → List Byte → Except LoadRefusal (List Byte)
  | [], text => .ok text
  | r :: rs, text => match resolve text bytes r with
    | .ok t => resolveAll bytes rs t
    | .error e => .error e

/-- Two sections share a byte of the task image, or one of no bytes lies strictly inside the other, which the model's choice
refuses too: R81 does not say (log 21). -/
def ObjSection.meets (a b : ObjSection) : Bool := a.addr < b.addr + b.size && b.addr < a.addr + a.size

/-- No two sections of a list meet. -/
def apart : List ObjSection → Bool
  | [] => true
  | a :: l => l.all (fun b => !a.meets b) && apart l

/-- An object loaded for a number of lanes per hart, at an image base (R79 to R81). -/
def loadObject (file : List Byte) (lanes base : Nat) : Except LoadRefusal LoadedObj :=
  let f := fileField file
  let vcfg := f 0x0C 1
  let nsect := f 0x20 4
  let nsize := f 0x24 4
  let entries := (List.range nsect).map fun i => objSection file (f 0x28 8 + 32 * i)
  let sections := entries.map (·.1)
  let relocs := (List.range nsize).map fun i => sizeReloc file (f 0x30 8 + 16 * i)
  let inFile := 64 ≤ file.length && (nsect = 0 || f 0x28 8 + 32 * nsect ≤ file.length) &&
    (nsize = 0 || f 0x30 8 + 16 * nsize ≤ file.length)
  if !inFile then .error .short
  else if !(f 0 4 = 0x014F424D && f 4 2 = 1 && f 6 2 = 0 && f 0x15 3 = 0 && f 0x38 8 = 0 && entries.all (·.2)) then
    .error .unrecognised
  else if !([4, 8, 16, 32].contains lanes && f 0x0D 1 ≤ lanes) then .error .lanes
  else if !(f 0x08 2 ≤ lanes * (2048 / 2 ^ vcfg) / 32 && lanes * (2048 / 2 ^ vcfg) / 32 ≤ f 0x0A 2) then .error .vectorLength
  else if !(sections.all fun s => s.kind = 3 || s.offset + s.size ≤ file.length) then .error .short
  else
    let bytesOf (s : ObjSection) : List Byte := if s.kind = 3 then List.replicate s.size 0 else (file.drop s.offset).take s.size
    match sections.find? (·.kind = 1) with
    | none => .error .short
    | some text =>
      match resolveAll (vlmaxB lanes vcfg) relocs (bytesOf text) with
      | .error e => .error e
      | .ok t =>
        if !apart sections then .error .overlap
        else .ok {
          image := sections.map fun s => (s.addr, if s = text then t else bytesOf s)
          record := { entry := BitVec.ofNat 64 (base + text.addr + f 0x18 8), lanes := lanes, vcfg := vcfg, harts := f 0x0E 1,
                      farctx := f 0x0F 1, scratch := f 0x10 4, tilerows := f 0x14 1 } }

end Sys2Proof.Machine
end

