-- ==== Sys2Proof/Tests/Slice0.lean ====
section
/-! SUPPORT. Tests: the checks of WellFormed refuse an ill-formed term each; words of the spec decode; single steps; and for
every statement a state and operands that meet its hypotheses. Expected results are the spec's. -/

namespace Sys2Proof.Tests

open Sys2Proof Sys2Proof.Machine

/-! ### Small states -/

/-- A running hart with a handler, at U level. -/
def hart : Hart :=
  { run := .running, pc := 0x1000, tvec := 0x2001, vcfg := 3, count := 8
    x := [(5, 7), (6, 3), (8, 0xFFF0000000001000), (9, 0xFFF0000000001040), (10, 0x40000), (11, 0xFFF0000000002000)] }

/-- It alone in the machine, with the first 64 KiB of the scratchpad as its gang's. -/
def st : State :=
  { State.reset with harts := [(0, hart)], gangs := [(0, { splo := 0xFFF0000000000000, sphi := 0xFFF0000000010000 })] }

/-- The same hart changed. -/
def withHart (g : Hart → Hart) : State := { st with harts := [(0, g hart)] }

/-- At S level. -/
def sup : State := withHart fun h => { h with tstat := { lvl := true } }

/-- The domain of slot 0 under the zero SEAL, and granules last written under it. -/
def d0 : Domain := { kslot := 0, key := 0, sealv := 0 }
def known (gs : List Nat) (s : State) : State := { s with domains := gs.map (·, d0) ++ s.domains }

/-- The TLB entry of core 0 for address 0x40000, of a leaf. -/
def tlb0 (leaf : Word) : TlbEntry :=
  { holder := 0, asid := 0, big := false, page := 4, leaf := leaf, leafPa := 0x5000, sealv := 0, key := 0 }

/-- With the page of address 0x40000 in the TLB, mapped to the 64 KiB from 0x300000, that frame covered, and granules of the
frame and its census entry written under its domain. -/
def mapped (s : State) : State :=
  known (0xC :: (List.range 64).map (0x18000 + ·)) { s with census := [(0, 1)], tlb := [tlb0 0x30000F] }

/-- With the code of each gang what memory holds, as it was when the gang was placed. -/
def placed (s : State) : State := { s with gangs := s.gangs.map fun (k, g) => (k, { g with code := s.view }) }

/-- With the host window open. -/
def opened (s : State) : State := { s with port := { s.port with state := 1 } }

/-- A computation answers, with a result and a state that a test accepts. -/
def okay {α : Type} (m : Exec α) (s : State) (p : α → State → Bool := fun _ _ => true) : Bool :=
  match m s with
  | .ok v t => p v t
  | .error _ _ => false

theorem okay_iff {α : Type} {m : Exec α} {s : State} {p : α → State → Bool} (h : okay m s p = true) :
    ∃ v t, m s = .ok v t ∧ p v t = true := by
  unfold okay at h
  cases hm : m s with
  | ok v t => exact ⟨v, t, rfl, by simpa [hm] using h⟩
  | error e t => simp [hm] at h

/-- No hart sleeps. -/
def awake (s : State) : Bool := s.harts.all fun p => match p.2.run with | .asleep .. => false | _ => true

theorem plain_of {s : State} {key n : Nat} (hb : s.badScratch = []) (hs : s.streams = []) (hw : awake s = true)
    (hr : s.rounds = [] := by rfl) : s.plainScratch key n := by
  refine ⟨by simp [State.badScratchIn, hb], by simp [State.vague, State.bufferByte, hs, hr], ?_⟩
  intro k h line t hm hr
  have := List.all_eq_true.1 hw _ hm
  simp [hr] at this

/-! ### Forms -/

def sf (fn : BitVec 5) : SForm := { fn := fn, gn := 0, g := 0, rs2 := 6, rs1 := 5, rd := 7 }
def im (imm : BitVec 10) : IForm := { imm := imm, gn := 0, g := 0, rs1 := 5, rd := 7 }
def mf (w : BitVec 3) : MForm := { imm := 0, scope := 0, ord := 0, w := w, rs1 := 8, rd := 5 }
def off (i : IForm) : IForm := { i with g := 1 }
def vf (vd vs1 vs2 : BitVec 6) (fmt fn : BitVec 4) : VForm :=
  { vd := vd, vs1 := vs1, vs2 := vs2, vm := 0, p := 0, vs3 := 0, fmt := fmt, slot := 0, g := 0, rm := 0, tpop := 0, popu := 0
    tpsh := 0, pshu := 0, fn := fn, xs := 0 }

/-- A hart with a queued VMVX that will write x7. -/
def busy : State := withHart fun h => { h with viq := [h.capture (.vmvx { vf 7 0 0 2 1 with vm := 0 }) (vf 7 0 0 2 1)] }

/-- An entry of an HCALL, and one of an unsorted index. -/
def entry (code kind : Nat) : Entry :=
  { taskid := 0, addr := 3, val := 0, pc := 0x1000, pte := 0, elem := 0, hartid := 0, asid := 0, code := code, detail := 0
    kind := kind, src := 0 }

/-- A pending entry of ring 0x5004, written as entry 7 or held. -/
def pend (seq : Option Nat) : Pending :=
  { id := 1, ring := 0x5004, seq := seq, entry := entry 0x17 0, harts := [], stream := none, conv := none }

/-! ### Hypotheses met: scalar instructions -/

theorem witness_IntegerResult : ∀ f ∈ [sf 0, sf 3, sf 15, sf 16, sf 19, sf 31],
    st.me.guardOn f.g f.gn = true ∧ st.me.ready f.regs = true := by decide

theorem witness_ImmediateResult : (∀ f ∈ [im 0, im 255, im 256, im 287],
    st.me.guardOn f.g f.gn = true ∧ st.me.ready f.regs = true) ∧ (im 255).imm.toNat / 256 = 0 ∧ (im 256).imm.toNat / 256 = 1 ∧
    (im 287).imm.toNat % 64 < 32 ∧ addrOk ((st.me.getX 5).toNat + 1 * 8) 1 = true ∧
    addrOk ((st.me.getX 5).toNat + (-1) * 8) 1 = false ∧ st.me.catches := by decide

theorem witness_GuardResult : (∀ f ∈ [sf 0, sf 5, sf 6, sf 7, sf 8, sf 16, sf 23],
    st.me.guardOn f.g f.gn = true ∧ st.me.ready f.regs = true) ∧ st.me.guardOn (im 0).g (im 0).gn = true ∧
    st.me.ready (im 0).regs = true := by decide

theorem witness_GuardedOffDoesNothing : st.me.guardOn (off (im 0)).g (off (im 0)).gn = false ∧
    busy.me.guardOn 0 0 = true ∧ busy.me.ready ({ sf 0 with rs2 := 7 }).regs = false ∧
    busy.me.ready ({ im 0 with rs1 := 7 }).regs = false ∧ busy.me.ready ({ mf 0 with rs1 := 7 }).regs = false := by decide

theorem witness_ScalarFloatResult : st.me.guardOn 0 0 = true ∧ st.me.viq = [] ∧ st.me.dyn.toNat < 6 ∧ (0 : BitVec 5).toNat % 8 < 6 ∧
    Wf.fcvtRm { sf 0 with rs2 := 0 } < 6 ∧ (faluF 0 8 0 0x3F800000 0x3F800000 st.me.fstate).2.hit = none ∧
    (faluF 0 8 0 0x7F800001 0 (withHart fun h => { h with tstat := { nve := true } }).me.fstate).2.hit = some 0 ∧
    (withHart fun h => { h with tstat := { nve := true } }).me.catches ∧ 6 ≤ (withHart fun h => { h with dyn := 6 }).me.dyn.toNat ∧
    (withHart fun h => { h with dyn := 6 }).me.catches ∧ ({ sf 0 with rs2 := 6 } : SForm).rs2.toNat % 8 = 6 ∧
    Wf.fcvtRm { sf 0 with rs2 := 6 } = 6 := by decide

theorem witness_TransferResult : st.me.guardOn 0 0 = true ∧ st.me.ready [7] = true ∧
    Spec.targetOk ((st.me.pc.toNat : Int) + (-1) * 4) ∧ Spec.targetOk ((withHart fun h => { h with x := [(5, 8)] }).me.getX 5).toNat ∧
    st.me.catches ∧ ((st.me.getX 5).toNat : Int) % 4 ≠ 0 ∧ ((4 : Int) + (-2) * 4 < 0) ∧ canonical (2 ^ 55) = false ∧
    inScratchRegion 0xFFF0000000001000 = true := by decide

theorem witness_RepeatResult : st.me.guardOn 0 0 = true ∧ st.me.ready (im 0).regs = true ∧ st.me.rep.active = false ∧
    st.me.getX 5 ≠ 0 ∧ st.me.getX 4 = 0 ∧
    (let s := withHart fun h => { h with rep := { active := true, reg := 5, len := 2, pos := 0, start := 0x1000 } }
     s.me.rep.active = true ∧ s.me.catches ∧ s.me.rep.pos + 1 < s.me.rep.len) ∧
    (let s := withHart fun h => { h with rep := { active := true, reg := 5, len := 2, pos := 1, start := 0xFFC } }
     s.me.rep.pos + 1 = s.me.rep.len ∧ 1 < (s.me.getX 5).toNat) ∧
    (let s := withHart fun h => { h with x := [(5, 1)], rep := { active := true, reg := 5, len := 2, pos := 1, start := 0xFFC } }
     s.me.rep.pos + 1 = s.me.rep.len ∧ s.me.getX 5 = 1 ∧ s.me.ready [5] = true) ∧
    (let s := { busy with harts := [(0, { busy.me with rep := { active := true, reg := 7, len := 2, pos := 1, start := 0xFFC } })] }
     s.me.guardOn 0 0 = true ∧ s.me.ready (im 0).regs = true ∧ s.me.rep.active = true ∧
     s.me.rep.pos + 1 = s.me.rep.len ∧ s.me.ready [7] = false) := by decide

theorem witness_RepeatResult_skip : okay (afterBody ((placed (mapped st)).ctx 0) 0x40000 3) (placed (mapped st)) = true := by decide +kernel

/-! ### Scalar memory -/

theorem witness_LoadStoreResult : st.me.ready (mf 3).regs = true ∧ st.me.ready [(mf 3).rd.toNat] = true ∧ st.me.viq = [] ∧ st.ownScratch 0xFFF0000000001000 8 ∧
    0xFFF0000000001000 % 8 = 0 ∧ (0xFFF0000000001000 : Int) = (st.me.getX 8).toNat + (mf 3).imm.toInt * 8 := by decide
theorem witness_LoadStoreResult_plain (key n : Nat) : st.plainScratch key n := plain_of rfl rfl rfl
theorem witness_LoadStoreResult_load : okay (load ((mapped st).ctx 0) 0x40000 8 1) (mapped st) = true ∧
    okay (store ((mapped st).ctx 0) 0x40000 8 1 false 0x1122) (mapped st) (fun _ t =>
      okay (atScope 0) t && okay (atScope 5) t) = true := by decide +kernel

theorem witness_AtomicResult : st.me.ready ({ mf 1 with imm := 12 }).regs3 = true ∧
    okay (atomic (st.ctx 0) 0xFFF0000000001000 4 4 fun v => some (v + 1)) st = true ∧
    okay (atomic (st.ctx 0) 0xFFF0000000001000 8 8 fun v => some (max v 3)) st = true ∧
    st.me.guardOn 0 0 = true ∧ st.me.viq = [] := by decide +kernel

theorem witness_AccessTraps : st.me.catches ∧ addrOk (-8) 8 = false ∧ addrOk 0x40004 8 = true ∧ (0x40004 : Int) % 8 ≠ 0 ∧
    addrOk 0xFFF0000000010000 8 = true ∧ Machine.outOfBounds (st.ctx st.cur) 0xFFF0000000010000 8 = some 0xFFF0000000010000 := by
  decide

theorem witness_FenceResult : (mf 0).w ≠ 1 ∧ (mf 0).w ≠ 3 ∧ busy.me.viq ≠ [] ∧ st.me.viq = [] ∧ st.me.ready [8] = true ∧
    inScratchRegion 0xFFF0000000001000 = true ∧ addrOk 0x40000 1 = true ∧
    okay (caught (fetchLine ((mapped st).ctx 0) 0x40000)) (mapped st) = true ∧ (im 3).imm.setWidth 8 ≠ 0#8 ∧
    (im 0).imm.setWidth 8 = 0#8 ∧ (∃ pre e, busy.me.viq = pre ++ [e]) ∧
    ({ busy.me.capture (.vmvx (vf 7 0 0 2 1)) (vf 7 0 0 2 1) with fence := true } : VEntry).fence = true := by
  constructorm* _ ∧ _ <;> first | exact ⟨[], _, rfl⟩ | decide +kernel

theorem witness_MaintenanceResult : st.me.guardOn 0 0 = true ∧ st.me.ready (sf 0).regs = true ∧
    okay (maintRange ((mapped st).ctx 0) .read 0x40000 128) (mapped st) (fun _ t => decide (t.me.maint.length < 16)) = true ∧
    okay (maintRange ((mapped st).ctx 0) .discard 0x40000 128) (mapped st) = true ∧ st.me.getX 4 = 0 ∧
    (let m : Maint := { id := 0, kind := .clnr, lines := [(0x6000, 1)], after := [] }
     let h := { hart with maint := [m], gang := 1 }
     let s : State := { st with harts := [], gangs := [(1, { saved := [⟨0, h, []⟩] })] }
     (s.hart 0).maint.find? (s.maintReady 0 (s.hart 0)) = none ∧ s.savedAt 0 = [h] ∧ h.maint.find? (s.maintReady 0 h) = some m) ∧
    (let m : Maint := { id := 0, kind := .invr, lines := [(0x6000, 1)], after := [] }
     let s := withHart fun h => { h with maint := [m] }
     (s.hart 0).maint.find? (s.maintReady 0 (s.hart 0)) = some m ∧
     okay (forAll m.lines fun p => forAll (List.range p.2) fun i => maintLine m.kind (p.1 + i)) s = true) := by decide +kernel

/-- A dirty sector of granule 0x18000. -/
def dirty : Sector :=
  { data := 0x1234, valid := fullMask, written := fullMask, dirty := true, poison := false
    domain := { kslot := 0, key := 0, sealv := 0 }, task := 0, asid := 0 }

theorem witness_MaintenanceResult_sector :
    Tab.find ({ st with sectors := [(0x18000, dirty)] } : State).sectors 0x18000 = some dirty ∧ dirty.dirty = true ∧
    dirty.valid = fullMask ∧ dirty.poison = false := by decide

theorem witness_HandleLoadStore : st.me.ready [8] = true ∧
    okay (load (st.ctx 0) 0xFFF0000000001000 64 64) st (fun v _ => (Handle.ofBytes v).ok) = true ∧
    okay (load (st.ctx 0) 0xFFF0000000001000 64 64) { st with scratch := [(0x1038 + 7, 0xFF)] }
      (fun v t => !(Handle.ofBytes v).ok && t.me.viq.isEmpty && t.me.tvec.getLsbD 0 && !t.me.tstat.inh) = true ∧
    st.me.badh.contains 5 = false ∧ okay (store (st.ctx 0) 0xFFF0000000001000 64 64 false 0) st (fun _ t => okay (atScope 5) t) = true := by decide +kernel

/-! ### Hypotheses met: special registers, traps, fault service -/

theorem witness_SpecialRegisterRead : st.me.viq = [] ∧ ({ num := 0x060, rd := 7 } : SrForm).num.toNat < 0x100 ∧
    sup.me.viq = [] ∧ sup.me.isS = true ∧ ({ num := 0x107, rd := 7 } : SrForm).num.toNat = 0x107 := by decide

/-- At S level with ring 0x5004, whose first granules are written. -/
def ringed : State := known ((List.range 16).map (0x280 + ·)) (withHart fun h => { h with tstat := { lvl := true }, fqbase := 0x5004 })

/-- Before the two parcels of a VADD at 0x40008 (words of the model's decoding test), with the PC in mapped memory. -/
def beforeVector (pc : Word) : State := placed (mapped { withHart fun h => { h with pc := pc } with
  mem := (Memory.writeN [] 0x300000 0x0000001B0000001B 8).writeN 0x300008 0x00000C8028308183 8 })

theorem witness_SpecialRegisterRead_vcp : (withHart fun h => { h with held := busy.me.viq }).me.held ≠ [] ∧
    hart.held = [] ∧ hart.rep.active = false ∧ hart.entered = 0 ∧
    (let s := beforeVector 0x40004
     let c := s.putHart s.cur { s.me.retire 1 (s.me.pc + 4) with run := .running }
     okay (fetchParcels (c.ctx s.cur) c.me.pc.toNat) c (fun ps t => opIsV (opcodeOf (ps.headD 0)).toNat && t.me.pc = 0x40008)) = true ∧
    okay (nextVector 7) (beforeVector 0x40000) (fun r _ => r = some 0x40008) = true ∧
    okay (nextVector 7) (withHart fun h => { h with pc := 0x0080000000000000 }) (fun r _ => r = none) = true ∧
    (∀ off ∈ [0, 8], okay (checkOwn (ringed.ctx 0) (ringPa ringed.me.fqbase + off) false (ringPa ringed.me.fqbase + off) 8) ringed
      (fun _ t => okay (readOwn (ringPa ringed.me.fqbase + off) 8) t) = true) := by decide +kernel

theorem witness_SpecialRegisterWritten : sup.me.viq = [] ∧ sup.me.isS = true ∧ sup.me.ready [7] = true ∧
    (∀ p ∈ sup.pending, p.seq ≠ none) ∧ ringOk sup.me.fqbase = false ∧
    okay (do writeOwn (ringPa sup.me.fqbase) 8 5; flushPool; drainRing sup.me.fqbase 0) (known [0] sup) = true ∧
    ringOk ringed.me.fqbase = true ∧
    (∀ l ∈ [[], [pend none]], let s : State := { ringed with pending := l }
      okay (do writeOwn (ringPa s.me.fqbase) 8 5; flushPool) s (fun _ t => (t.heldOf s.me.fqbase).length = l.length &&
        okay (do drainRing s.me.fqbase l.length; setWaiting s.me.fqbase) t && okay (writeOwn (ringPa s.me.fqbase + 16) 8 0) t) = true) := by
  decide +kernel

theorem witness_TrapResult : st.me.guardOn 0 0 = true ∧ st.me.catches ∧ hart.held = [] ∧ hart.tstat.inh = false ∧
    hart.tstat.shn = 0 ∧ hart.viq.length < 128 ∧ hart.rep = {} ∧ busy.me.viq ≠ [] ∧ busy.me.viq.length < 128 ∧
    (let t : Tstat := { inh := true, pl := false, ract := true, rreg := 5, rpos := 2, rb := 2 }
     let s := withHart fun h => { h with tstat := t, tpc := 0x1004 }
     s.me.guardOn 0 0 = true ∧ s.me.viq = [] ∧ t.inh = true ∧ (t.pl = true → t.lvl = true) ∧ Spec.targetOk s.me.tpc.toNat ∧
       t.rreg ≠ 0 ∧ t.rpos.toNat ≤ t.rb.toNat) ∧
    (let s := withHart fun h => { h with pc := 0x0080000000000000 }
     s.me.catches ∧ canonical s.me.pc.toNat = false) ∧
    (let s := withHart fun h => { h with pc := 0xFFF0000000000000 }
     s.me.catches ∧ canonical s.me.pc.toNat = true ∧ inScratchRegion s.me.pc.toNat = true) := by decide

theorem witness_HcallAndRestart : st.me.guardOn 0 0 = true ∧ st.me.viq = [] ∧ st.backgroundOf st.cur 0x17 3 = none ∧
    ringOk st.me.fqbase = false ∧ okay (postEntry 0x5004 (entry 0x17 0) [0] none none) ringed = true ∧
    (∀ c ∈ [0, 3, 4], (let s := withHart fun h => { h with run := .restart c 9 (entry 0x17 0) }
      (s.hart 0).run = .restart c 9 (entry 0x17 0) ∧ s.restartsNext 0 = true ∧ (entry 0x17 0).kind < 4 ∧ (s.hart 0).tvec.getLsbD 0 = true ∧
      (s.hart 0).tstat.inh = false)) ∧
    (let r : Run := .restart 0 9 (entry 0x17 0)
     ({ st with harts := [(0, { hart with run := r, dueAt := 5 }), (1, { hart with run := r, dueAt := 3 })] } : State).restartsNext 0 =
       false) := by decide +kernel

theorem witness_FaultEntryService :
    (let s : State := { ringed with pending := [pend (some 7)] }
     s.me.guardOn 0 0 = true ∧ s.me.viq = [] ∧ s.me.isS = true ∧ s.me.run = .running ∧
     (s.pending.find? fun p => sameRing p.ring s.me.fqbase && p.seq = some (s.me.getX 6).toNat) = none ∧
     (s.pending.find? fun p => sameRing p.ring s.me.fqbase && p.seq = some (s.me.getX 5).toNat) = some (pend (some 7)) ∧
     completionAllowed (entry 0x17 0) 1 = false ∧ completionAllowed (entry 0x17 0) 4 = true ∧
     completionAllowed (entry 0x17 0) 2 = true ∧ okay (endTask 0 3) s (fun _ t => t.me.run ≠ .free) = true ∧
     okay (endTask 0 3) { s with tasks := [(0, { record := { gangs := 1, harts := 1, lanes := 8 }, queue := 0, left := 1 })] } (fun _ t => t.me.run = .free) = true) ∧
    (let s : State := { ringed with pending := [pend none] }
     (s.pending.find? fun p => p.seq = none && p.ring.toNat / 2 ^ 12 = 5) = some (pend none) ∧ ringOk (pend none).ring = true ∧
     okay (ringSpace 0x5004) s (fun b t => b && okay (do writeEntry (pend none); setWaiting 0x5004) t) = true ∧
     (let full : State := { s with mem := Memory.writeN [] 0x5008 16 8 }
      okay (ringSpace 0x5004) full (fun b t => !b && okay (setWaiting 0x5004) t) = true)) := by decide +kernel

/-! ### Harts, waits and pre-emption -/

/-- A hart of 8 lanes that can be halved, its child of the other half, and one that has joined. -/
def family : State :=
  { st with
    harts := [(0, { hart with first := 0, count := 4 }), (1, { hart with parent := some 0, member := false, first := 4, count := 4 })]
    gangs := [(0, { splo := 0xFFF0000000000000, sphi := 0xFFF0000000010000, gbar := { expect := 1, next := 2 } })] }

theorem witness_HartLife_fork : st.me.guardOn 0 0 = true ∧ st.me.viq = [] ∧ st.me.tstat.inh = false ∧
    Spec.targetOk ((st.me.pc.toNat : Int) + 4 * 4) ∧ st.freeContext (st.cur / 8) = some 1 ∧ st.me.count ≠ 4 ∧
    (st.gang st.me.gang).gbar.expect = 0 ∧ family.me.count = 4 := by decide

theorem witness_HartLife_end : st.me.viq = [] ∧ st.copiesDone st.cur = true ∧ st.me.leases.all st.slotQuiet = true ∧
    st.streamsOf st.cur = [] ∧ busy.me.viq ≠ [] ∧
    (let s : State := { family with cur := 1 }
     s.me.guardOn 0 0 = true ∧ s.me.ready (im 0).regs = true ∧ s.me.tstat.inh = false ∧ s.me.parent ≠ none ∧ s.children s.cur = [] ∧
     s.me.viq = [] ∧ s.copiesDone s.cur = true ∧ s.me.leases.all s.slotQuiet = true ∧ s.streamsOf s.cur = [] ∧
     okay endJobs s (fun _ s1 => okay (leaveBarrier s1.me.gang s1.me.member) (s1.putHart s1.cur { s1.me with
       run := .joined ((s1.me.getX 5).setWidth 32), v := [], m := [], badv := [], tokens := [], resv := [] })) = true) ∧
    st.me.parent = none ∧ st.children st.cur = [] ∧ st.banks = [] ∧
    okay endJobs st (fun _ s1 => s1.banks.isEmpty && okay (clearHart s1.cur) s1 fun _ s2 => okay (leaveBarrier s1.me.gang s1.me.member) s2 fun _ s3 =>
      (s3.gangHarts s1.me.gang).isEmpty && okay (endGang s1.me.gang) s3) = true ∧
    (let s : State := { st with harts := [(0, hart), (8, hart)] }
     s.children s.cur = [] ∧ okay endJobs s (fun _ s1 => s1.banks.isEmpty && okay (clearHart s1.cur) s1 fun _ s2 =>
       okay (leaveBarrier s1.me.gang s1.me.member) s2 fun _ s3 => !(s3.gangHarts s1.me.gang).isEmpty) = true) := by decide +kernel

theorem witness_HartLife_lanes :
    (let s : State := { family with harts := [(0, { hart with first := 0, count := 4 }), (1, { hart with
       run := .joined 9, parent := some 0, member := false, first := 4, count := 4 })] }
     s.me.guardOn 0 0 = true ∧ s.me.viq = [] ∧ s.me.tstat.inh = false ∧ s.me.count.toNat ≠ 32 ∧
     s.me.first.toNat % (2 * s.me.count.toNat) = 0 ∧
     s.laneHolders (s.cur / 8) (s.me.first.toNat + s.me.count.toNat) s.me.count.toNat = [1] ∧ (s.hart 1).count.toNat = 4 ∧
     s.isAncestor s.cur 8 1 = true ∧ (s.hart 1).run = .joined 9 ∧ okay (clearHart 1) s = true) ∧
    (withHart fun h => { h with count := 32 }).me.count.toNat = 32 ∧
    (let g := (family.gang 0).gbar
     family.me.member = true ∧ g.arrived + 1 = g.expect ∧ g.expect ≠ 0 ∧ g.early ≠ g.next) ∧
    ((st.gang 0).gbar.arrived + 1 ≠ (st.gang 0).gbar.expect) ∧ (im 0).imm = 0 ∧ (im 3).imm ≠ 0 := by decide +kernel

theorem witness_WaitResult : st.me.guardOn 0 0 = true ∧ st.me.ready (sf 0).regs = true ∧
    okay (checkAccess (st.ctx 0) 0xFFF0000000001000 4 4 .read) st (fun acc s1 =>
      okay (readAccess (st.ctx 0) true false acc) s1 fun v _ => v = 0) = true ∧ (st.me.getX 4).toNat % 2 ^ 32 = 0 ∧
    (st.me.getX 5).toNat % 2 ^ 32 ≠ 0 ∧ st.me.run ≠ .woken ∧
    (let s := withHart fun h => { h with run := .asleep 5 100 }
     (s.hart 0).run = .asleep 5 100 ∧ s.clock < 100 ∧ 100 ≤ ({ s with clock := 100 } : State).clock) ∧
    (let s := withHart fun h => { h with run := .yielding 100 }
     (s.hart 0).run = .yielding 100 ∧ s.clock < 100 ∧ 100 ≤ ({ s with clock := 100 } : State).clock) ∧
    (opened st).port.state = 1 ∧ (opened st).port.cmds = [] ∧ (383 : Word).toNat ≤ 383 ∧ (0xFFFF : Word).toNat = 0xFFFF ∧
    okay (load (st.ctx 0) 0xFFF0000000001000 8 8) st (fun v _ => v = 0) = true ∧ (st.me.getX 4).toNat ≤ 0 ∧
    0 < (st.me.getX 5).toNat ∧ narrows 0xFFF0000000001000 2 = false := by decide +kernel

/-- A hart at a WMWAIT in mapped memory: `wmwait.pkg x10,[x5],x6` at 0x40000. -/
def atWmwait : State := placed (mapped { withHart fun h => { h with pc := 0x40000, x := [(5, 0x40100)] } with
  mem := Memory.writeN [] 0x300000 0x1818AA4D 4 })

theorem witness_WaitResult_pass : (busy.headOf 0).isSome = true ∧ (busy.headOf 0).all (!·.isSetvlw) = true ∧
    (withHart fun h => { h with run := .asleep 5 100 }).headOf 0 = none ∧
    (withHart fun h => { h with run := .asleep 5 100 }).runs 0 = false ∧
    atWmwait.headOf 0 = none ∧ atWmwait.runs 0 = true ∧
    (match fetchAt { atWmwait with cur := 0 } with
     | (.instr (.wmwait f), s1) => match exec (.wmwait f) s1 with | .next _ => true | _ => false
     | _ => false) = true := by decide +kernel

/-- It waits on a word of its own scratchpad, for a bound x6. -/
def atScratchWmwait (x6 : Word) : State := placed { atWmwait with
  harts := [(0, { hart with pc := 0x40000, x := [(5, 0xFFF0000000001000), (6, x6)] })] }

theorem witness_WaitResult_scratch : ([0, 1] : List Word).all (fun b =>
    (atScratchWmwait b).headOf 0 = none && (atScratchWmwait b).runs 0 &&
    match fetchAt { atScratchWmwait b with cur := 0 } with
    | (.instr (.wmwait f), s1) => let a := (s1.me.getX f.rs1.toNat).toNat
      s1.me.guardOn f.g f.gn && s1.me.viq.isEmpty && decide (s1.ownScratch a 8) && a % 8 = 0 && s1.badScratch.isEmpty &&
      s1.streams.isEmpty && awake s1 && s1.rounds.isEmpty &&
      decide ((s1.me.getX f.rs2.toNat).toNat ≤ s1.scratch.readN (s1.scratchAt a) 8) == decide (b = 0)
    | _ => false) = true := by decide +kernel

/-- Queue 3 open to device launches, its ring of 32 records at 0x200000. -/
def launching (tail : Word) : State := { st with port := { st.port with
  queues := [(3, { qring := 0x200005, en := true, devlaunch := true, qtail := tail })] } }

theorem witness_LaunchAndPreempt_launch : st.me.guardOn 0 0 = true ∧ st.me.viq = [] ∧ (st.me.getX 6).toNat % 64 = 3 ∧
    okay (load ((launching 0).ctx 0) 0xFFF0000000001000 128 128) (launching 0) (fun r s1 =>
      okay (atScope 0) s1 && okay (atScope 5) s1 && (s1.queue 3).devlaunch && decide (¬ringRecords (s1.queue 3).qring ≤ (s1.queue 3).qtail.toNat - (s1.queue 3).qhead.toNat) &&
      okay (writeOwn (slotPa (s1.queue 3).qring (s1.queue 3).qtail.toNat) 128 r) s1) = true ∧
    okay (load ((launching 32).ctx 0) 0xFFF0000000001000 128 128) (launching 32) (fun _ s1 =>
      decide (ringRecords (s1.queue 3).qring ≤ (s1.queue 3).qtail.toNat - (s1.queue 3).qhead.toNat)) = true ∧
    okay (load (st.ctx 0) 0xFFF0000000001000 128 128) st (fun _ s1 => !(s1.queue 3).devlaunch && s1.me.viq.isEmpty) = true := by
  decide +kernel

theorem witness_LaunchAndPreempt_preempt : sup.me.guardOn 0 0 = true ∧ sup.me.ready (sf 0).regs = true ∧ sup.me.isS = true ∧
    sup.me.answer = none ∧ sup.me.catches ∧ (sup.me.getX 5).toNat ≤ 383 ∧ sup.gangsOn (sup.me.getX 5).toNat = [] ∧
    383 < (sup.me.getX 8).toNat ∧ sup.gangsOn (sup.me.getX 4).toNat ≠ [] ∧ (sup.me.getX 4).toNat = sup.cur / 8 ∧
    okay (requestPreempt 0 false []) sup = true ∧
    (withHart fun h => { h with tstat := { lvl := true }, answer := some 2 }).me.answer = some 2 ∧
    (let s : State := { sup with gangs := [(1, { splo := 1, core := 7 })] }
     s.gangsOn (s.me.getX 5).toNat ≠ [] ∧ (s.me.getX 5).toNat ≠ s.cur / 8 ∧ Tab.find s.preempts 7 = none) ∧
    (opened st).gangsOn 0 ≠ [] ∧ (opened st).port.state = 1 ∧ (opened st).port.cmds = [] ∧ st.harts.all (·.2.viq.isEmpty) = true ∧
    (let s : State := { st with preempts := [(0, {})] }
     Tab.find s.preempts 0 = some {} ∧ ({} : Preempting).halted = none) ∧
    (let p : Preempting := { halted := some 0 }
     let s : State := { st with preempts := [(0, p)] }
     Tab.find s.preempts 0 = some p ∧ okay (forAll (s.gangsOn 0) (saveGang 0 false)) s = true) := by decide +kernel

/-- A gang of a live task with its last hart gone. -/
def saving : State := { st with
  gangs := [(1, { core := 2, splo := 0xFFF0000000000000 })]
  tasks := [(0, { record := { gangs := 1, harts := 1, lanes := 8, save := 0x40000 }, queue := 0, left := 1 })] }

/-- With a hart, and a save area that is at no address. -/
def unsavable : State := { saving with
  harts := [(16, { hart with gang := 1, viq := busy.me.viq })]
  tasks := [(0, { record := { gangs := 1, harts := 1, lanes := 8, save := 0x0080000000000000 }, queue := 0, left := 1 })] }

theorem witness_LaunchAndPreempt_save : saving.gang 1 ≠ {} ∧ (Tab.find saving.tasks (saving.gang 1).task).isSome = true ∧
    (let g := saving.gang 1
     match Tab.find saving.tasks g.task with
     | some t => okay (storeImage (t.ctx g.task) (g.imageBase t false) g false [] (saving.columns 2 0).1) saving
     | none => false) = true ∧ okay (saveGang 2 false 1) saving = true ∧
    (∀ s ∈ [saving, unsavable], okay (forAll ((s.gangHarts 1).flatMap fun k => (s.streamsOf k).map (·.1)) fun k => do
      let _ ← caught (storeProg k)) s = true) := by
  decide +kernel

theorem witness_LaunchAndPreempt_unsaved :
    let g := unsavable.gang 1
    let hs := (unsavable.gangHarts 1).map fun k => (k, unsavable.hart k)
    (match Tab.find unsavable.tasks g.task with
     | some t => match storeImage (t.ctx g.task) (g.imageBase t false) g false hs (unsavable.columns 2 (laneMask (hs.map (·.2)))).1 unsavable with
       | .error .. => true
       | .ok .. => false
     | none => false) = true := by decide +kernel

/-! ### Hypotheses met: isolation and translation -/

/-- S level with key slots: 5 live at generation 3, 6 spent, 7 live at generation 15. -/
def keyed (x5 : Word) : State := { withHart fun h => { h with tstat := { lvl := true }, x := [(5, x5)] } with
  slots := [(5, { state := .live, gen := 3 }), (6, { state := .spent, gen := 15 }), (7, { state := .live, gen := 15 })] }

theorem witness_KeyDomainResult : (keyed 5).me.guardOn 0 0 = true ∧ (keyed 5).me.viq = [] ∧ (keyed 5).me.isS = true ∧
    ((keyed 6).keySlot 6).state = .spent ∧ ((keyed 5).keySlot 5).state ≠ .spent ∧ ((keyed 5).me.getX 5).toNat < 4096 ∧
    ((keyed 0x3000).me.getX 5).toNat % 4096 = 0 ∧
    ((keyed 0x4005).keySlot 5).gen.toNat ≠ ((keyed 0x4005).me.getX 5).toNat / 4096 ∧
    ([0x3005, 0xF007].all fun v => ((keyed v).me.getX 5).toNat < 2 ^ 16 && ((keyed v).keySlot (v.toNat % 4096)).state = .live &&
      ((keyed v).keySlot (v.toNat % 4096)).gen.toNat = v.toNat / 4096 &&
      (let s := keyed v
       let started := (s.putSlot (v.toNat % 4096) { s.keySlot (v.toNat % 4096) with state := .ending }).putHart s.cur
         { s.me with ending := some (sf 0) }
       let cmd : BankCmd := { id := 1, hart := 0, gang := 0, ctx := 519, task := 0, asid := 0, stackMask := 0
                              op := .ybop 0 8 0 4 [⟨0, 32, ⟨v.toNat % 4096, 0, 0⟩⟩] [] [] [] }
       s.me.ending.isNone && started.me.ending.isSome && !started.keyHeld (v.toNat % 4096) &&
         ({ started with banks := [cmd] } : State).keyHeld (v.toNat % 4096))) = true := by decide +kernel

theorem get_map (l : List Nat) (d v : KeySlot) (b n : Nat) (h : n ∈ l) : Tab.get d (l.map fun n => (b * 4096 + n, v)) (b * 4096 + n) = v := by
  induction l with
  | nil => simp at h
  | cons a t ih =>
    simp only [List.map_cons, Tab.get]
    split
    · rfl
    · exact ih ((List.mem_cons.1 h).resolve_left (by omega))

theorem witness_KeyDomainResult_free :
    (List.range 4096).find? (fun n => n ≠ 0 && ((keyed 5).keySlot n).state = .free) = some 1 ∧
    ∃ s : State, s.me.guardOn 0 0 = true ∧ s.me.viq = [] ∧ s.me.isS = true ∧ ∀ n < 4096, n ≠ 0 → (s.keySlot n).state ≠ .free := by
  constructor
  · rw [List.range_eq_range', show 4096 = 1 + 1 + 4094 from rfl, List.range'_succ, List.range'_succ]
    rfl
  · refine ⟨{ keyed 5 with slots := (List.range 4096).map fun n => (0 * 4096 + n, { state := .live, gen := 1 }) }, rfl, rfl, rfl, ?_⟩
    intro n hn _
    have e (t : Tab KeySlot) : ({ keyed 5 with slots := t } : State).keySlot n = Tab.get {} t (0 * 4096 + n) := rfl
    rw [e, get_map (List.range 4096) {} { state := .live, gen := 1 } 0 n (List.mem_range.2 hn)]
    decide

/-- S level with the frame at 0x300000 covered, its COUNT c, and x5 the frame. -/
def counted (c : Nat) : State := { mapped (withHart fun h => { h with tstat := { lvl := true }, x := [(5, 0x300000), (6, 3)] }) with
  mem := Memory.writeN [] 0x180 c 4 }

theorem witness_PageCountResult : (counted 0).me.guardOn 0 0 = true ∧ (counted 0).me.ready (sf 0).regs = true ∧
    (counted 0).me.isS = true ∧ (counted 0).present (paPkg 0x300000) = true ∧ (counted 0).covered 0x300000 = true ∧
    ((counted 0).me.getX 5).toNat = 0x300000 ∧ sup.covered 7 = false ∧ sup.me.catches ∧
    okay (do checkCount ((counted 0).ctx 0) 0x300000 0x300000; readCount 0x300000) (counted 0) (fun c s1 => c = 0 && okay (writeCount 0x300000 1) s1 fun _ s2 =>
      okay (writeSeal 0x300000 3) s2) = true ∧
    okay (do checkCount ((counted 1).ctx 0) 0x300000 0x300000; readCount 0x300000) (counted 1) (fun c s1 => c = 1 &&
      okay (checkFreeq (s1.ctx s1.cur) 0x300000 (paPkg 0x300000)) s1) = true ∧
    okay (do checkCount ((counted 3).ctx 0) 0x300000 0x300000; readCount 0x300000) (counted 3) (fun c s1 => c = 3 && okay (writeCount 0x300000 4) s1 && okay (dropCount 0x300000) s1) = true ∧
    okay (do checkCount ((counted 0xFFFFFFFF).ctx 0) 0x300000 0x300000; readCount 0x300000) (counted 0xFFFFFFFF) (fun c _ => c = 2 ^ 32 - 1) = true := by decide +kernel

theorem witness_PageCountResult_last (s : State) : ∃ t, dropCount 0x300000 s = .ok () t := by
  obtain ⟨_, t, h⟩ := answers_dropCount 0x300000 s
  exact ⟨t, h⟩

theorem witness_PageCountResult_new : let s := counted 0
    ∃ s0 s1 s2 s3, checkCount (s.ctx s.cur) 0x300000 0x300000 s = .ok () s0 ∧ readCount 0x300000 { s0 with fresh := s0.fresh + 1 } = .ok 0 s1 ∧
      writeCount 0x300000 1 s1 = .ok () s2 ∧ writeSeal 0x300000 (Config.drbgSeal s0.fresh).toNat s2 = .ok () s3 := by
  obtain ⟨_, s0, h0, hs⟩ := okay_iff (show okay (checkCount ((counted 0).ctx 0) 0x300000 0x300000) (counted 0)
    (fun _ t => okay (readCount 0x300000) { t with fresh := t.fresh + 1 } fun c _ => c = 0) = true by decide +kernel)
  obtain ⟨c, s1, h1, hc⟩ := okay_iff hs
  obtain ⟨_, s2, h2⟩ := answers_writeCount 0x300000 1 s1
  obtain ⟨_, s3, h3⟩ := answers_writeSeal 0x300000 (Config.drbgSeal s0.fresh).toNat s2
  exact ⟨s0, s1, s2, s3, h0, by simpa [of_decide_eq_true hc] using h1, h2, h3⟩

/-- S level with a PTSET block in the scratchpad at [x8]: entry address 0x40000, its new value, level, and x7 expected. -/
def ptsetting (x7 : Word) : State := { mapped (withHart fun h => { h with
    tstat := { lvl := true }, x := [(5, 0xFFF0000000001000), (7, x7)] }) with
  scratch := Memory.writeN [] (scratchKey 0 0xFFF0000000001000)
    (0x40000 + 2 ^ 64 * 0x30000F + 2 ^ 128 * 0x50000 + 2 ^ 192 * 9 + 2 ^ 208 * 3) 32 }

/-- S level with a page table for 0x40000 whose leaf maps 0x300000, of COUNT a; the frame at 0x310000 has COUNT b. -/
def tabled (a b x6 : Nat) : State := known [0xC, 0x1000, 0x3000, 0x3801] { withHart fun h => { h with
    tstat := { lvl := true }, ptbase := 0x20000, x := [(5, 0x40000), (6, BitVec.ofNat 64 x6)] } with
  census := [(0, 1)]
  mem := ((((Memory.writeN [] 0x20000 0x61001 8).writeN 0x60000 0x71001 8).writeN 0x70020 0x30000F 8).writeN 0x180 a 4).writeN 0x188 b 4 }

theorem witness_TranslationControl_migr :
    ([(1, 0, 0x310000, 0), (2, 0, 0x310000, 2), (1, 5, 0x310000, 4), (1, 0, 2 ^ 52, 4)] : List (Nat × Nat × Nat × Nat)).all
      (fun (a, b, dst, _) => let s := tabled a b dst
        s.me.guardOn 0 0 && s.me.viq.isEmpty && s.me.isS && s.me.move.isNone && s.plan.hold.isEmpty &&
        canonical 0x40000 && !inScratchRegion 0x40000 &&
        okay (walk (s.ctx s.cur) 0x40000 .read) s fun fd s1 =>
          !fd.big && leafTier fd.leaf ≠ 2 && !leafBit fd.leaf 5 && s1.leafForm false fd.leaf 0x40000 &&
          decide (dst < 2 ^ 52 ∧ s1.covered dst = true ∧ paPkg dst = paPkg 0x300000) == decide (dst ≠ 2 ^ 52) &&
          okay (do checkCount (s.ctx s.cur) 0x40000 0x300000; readCount 0x300000) s1 fun v s2 => v = a && (dst = 2 ^ 52 ||
            okay (do checkCount (s.ctx s.cur) 0x40000 dst; readCount dst) s2 fun w s3 => w = b &&
            okay (do checkFreeq (s.ctx s.cur) 0x40000 0; casOwn fd.at_ fd.leaf (setBits fd.leaf 5 1 1)) s3 fun o s4 => o && s4.plan.hold.isEmpty &&
              !({ s4 with tlb := [] } : State).frameHeld 0x300000)) = true ∧
    (let s := tabled 1 0 0x310000
     let s := { s with mem := s.mem.writeN 0x20000 0 8 }
     okay (caught (walk (s.ctx 0) 0x40000 .read)) s (fun r _ => r matches .error (.park 0x10 ..)) = true) ∧
    Tab.get .none st.dram 0x18000 = .none := by decide +kernel

/-- A copy-on-write page whose frame has COUNT c. -/
def cowed (c : Nat) : State := { mapped st with tlb := [tlb0 0x300019], mem := Memory.writeN [] 0x180 c 4 }

theorem witness_TranslationControl_cow : ([1, 3] : List Nat).all (fun n => let s := cowed n
      let fd : Found := ⟨false, 0x300019, 0x5000, 0, .core⟩
      canonical 0x40000 && !inScratchRegion 0x40000 &&
      decide (s.tlb.find? (fun t => t.hits (0 / 8) (s.ctx 0).h.asid 0x40000) = some (tlb0 0x300019)) && !(tlb0 0x300019).big &&
      okay (findLeaf (s.ctx 0) 0x40000 .write) s && okay (checkLeaf (s.ctx 0) 0x40000 .write fd) s && leafTier 0x300019 ≠ 2 &&
      leafBit 0x300019 4 && !leafBit 0x300019 5 && !s.frameHeld 0x300000 &&
      s.leafKeySlot false 0x300019 0x40000 = 0 && leafGen 0x300019 = 0 &&
      okay (do checkCount (s.ctx 0) 0x40000 0x300000; readCount 0x300000) s fun c s1 => c = n &&
        okay (do checkFreeq (s.ctx 0) 0x40000 0; if c = 1 then checkFreeq (s.ctx 0) 0x40000 0) s1) = true := by decide +kernel

theorem witness_TranslationControl : sup.me.guardOn 0 0 = true ∧ sup.me.viq = [] ∧ sup.me.isS = true ∧
    sup.xlatHeld (fun _ => true) (fun _ _ => true) = false ∧ (opened st).port.cmds = [] ∧
    (let m : Maint := { id := 0, kind := .invr, lines := [], after := [] }
     (withHart fun h => { h with maint := [m] }).xlatHeld (fun _ => true) (fun _ _ => true) = true) ∧
    (sup.me.getX 5).toNat < 2 ^ 16 ∧ (opened st).port.state = 1 ∧
    (opened st).xlatHeld (fun x => x.toNat = 5) (fun x v => x.toNat = 5 && pageOf true v = 0) = false ∧
    ([((0 : Word), true), (1, false)].all fun p => let s := ptsetting p.1
      okay (load (s.ctx s.cur) (s.me.getX 5).toNat 32 32) s (fun b s1 => bits b 215 208 = 3 && b / 2 ^ 216 = 0 &&
        okay (ptsetPlace (s.ctx s.cur) (b % 2 ^ 64)) s1 fun acc s2 => s2.me.viq.isEmpty &&
          okay (readAccess (s.ctx s.cur) true true acc) s2 fun old s3 => !s3.xlatHeld (fun _ => true) (fun _ _ => true) &&
            decide (old = (s3.me.getX 7).toNat) == p.2 && okay (writeAccess (s.ctx s.cur) true false (bits b 127 64) acc) s3) = true) ∧
    (let s := tabled 2 0 0x310000
     canonical (s.me.getX 5).toNat = true ∧ inScratchRegion (s.me.getX 5).toNat = false ∧
     okay (migrBody (s.ctx s.cur) (sf 0) (s.me.getX 5).toNat ((s.me.getX 6).toNat / 65536 * 65536)) s = true) ∧
    (let s : State := known [0x280] (cowed 1)
     canonical 0x40000 = true ∧ inScratchRegion 0x40000 = false ∧
     okay (findLeaf (s.ctx 0) 0x40000 .write) s (fun fd s1 => okay (checkLeaf (s.ctx 0) 0x40000 .write fd) s1 &&
       decide (leafTier fd.leaf ≠ 2) && leafBit fd.leaf 4 && !fd.big && !leafBit fd.leaf 5 &&
       okay (copyOnWrite (s.ctx 0) 0x40000 fd) s1) = true) := by decide +kernel

theorem witness_PrivilegedInstructionsTrap : st.me.guardOn 0 0 = true ∧ st.me.catches ∧ st.me.isS = false ∧
    0x100 ≤ ({ num := 0x107, rd := 7 } : SrForm).num.toNat := by decide

/-! ### Hypotheses met: the Yarder and the boundary -/

/-- A launch record: one gang of one hart of 8 lanes; a watermark at an address and of a bound, or none. -/
def rec8 (wm : Option (Nat × Nat)) : Nat :=
  0x1000 + 2 ^ (8 * 0x1C) * 1 + 2 ^ (8 * 0x1E) * 1 + 2 ^ (8 * 0x1F) * 8 + 2 ^ (8 * 0x30) * 0x40000 +
    (match wm with | some (a, b) => 2 ^ (8 * 0x26) + 2 ^ (8 * 0x40) * a + 2 ^ (8 * 0x48) * b | none => 0)

/-- Queue 3 enabled, with a record announced. -/
def announced (v : Nat) : State := { known ((List.range 4).map (0x10000 + ·)) (mapped (opened st)) with
  mem := Memory.writeN [] 0x200000 v 128
  port := { (opened st).port with queues := [(3, { qring := 0x200005, en := true, qtail := 1 })] } }

/-- Queue 3 with the record at its head, a candidate since a clock or not yet. -/
def atHead (v : Nat) (since : Option Nat) : State :=
  let x : Queue := { qring := 0x200005, en := true, qtail := 1 }
  let t := x.taskOf 3 v
  { mapped (opened st) with
    tasks := [(3, t)]
    port := { (opened st).port with queues := [(3, { x with head := some { record := t.record, task := 3, since := since } })] } }

theorem witness_YarderResult_records :
    (∀ v ∈ [rec8 none, rec8 (some (0x40000, 9)), rec8 (some (2 ^ 63, 9)), 0], (announced v).port.state = 1 ∧
      ((announced v).queue 3).en = true ∧
      ((announced v).queue 3).head = none ∧ ((announced v).queue 3).qhead ≠ ((announced v).queue 3).qtail ∧
      (announced v).statuses = [] ∧
      okay (readOwn (slotPa ((announced v).queue 3).qring 0) 128) (announced v) (fun w s1 => w = v &&
        let t := ((announced v).queue 3).taskOf 3 v
        let y := { s1.queue 3 with qhead := (s1.queue 3).qhead + 1 }
        let taken : State := { s1 with port := { s1.port with queues := Tab.put {} s1.port.queues 3 y } }
        if v = 0 then !t.record.ok
        else t.record.ok && (okay (marksPassed (t.ctx 3) t.record.wms) taken == decide (v ≠ rec8 (some (2 ^ 63, 9))))) = true) ∧
    (∀ v ∈ [rec8 none, rec8 (some (0x40000, 9)), rec8 (some (2 ^ 63, 9))], ((atHead v none).queue 3).head.isSome = true ∧
      (Tab.find (atHead v none).tasks 3).isSome = true ∧
      (match Tab.find (atHead v none).tasks 3 with
       | some t => (match marksPassed (t.ctx 3) t.record.wms (atHead v none) with
         | .ok b _ => b = (v = rec8 none)
         | .error .. => v = rec8 (some (2 ^ 63, 9)))
       | none => false) = true) := by decide +kernel

/-- A suspended gang of a live task, on core 0. -/
def suspended : State := { mapped (opened State.reset) with
  gangs := [(1, { task := 3, suspended := true })]
  tasks := [(3, { record := { save := 0x40000 }, queue := 3 })] }

/-- One whose image, of the block of a hart in context 2, has not changed. -/
def unchanged : State := known ((List.range 128).map (0x18100 + ·)) { suspended with
  gangs := [(1, { task := 3, suspended := true, image := [0], saved := [⟨2, { hart with gang := 1, count := 0 }, []⟩] })] }

theorem witness_YarderResult_resume : let g := unchanged.gang 1
    (Tab.find unchanged.tasks g.task).all (fun t => unchanged.takesGangs 0 &&
      g.saved.all (fun x => (unchanged.hart (0 * 8 + x.ctx)).run = .free &&
        (unchanged.laneHolders 0 x.hart.first.toNat x.hart.count.toNat).isEmpty) &&
      !g.spilled && decide (g.saved.map (·.ctx)).Nodup && decide (g.saved.length ≤ g.image.length) && g.core = 0 &&
      okay (each (imageParts (g.imageBase t false) t.record.scratch false (g.saved.map (·.ctx))
          (lanesOf (laneMask (g.saved.map (·.hart))))) fun (a, n) => do
        readAccess (t.ctx g.task) false false (← imageAccess (t.ctx g.task) a n .read)) unchanged (fun v _ => v = g.image)) = true := by
  decide +kernel

/-- A gang narrowed before, whose grant is to be raised or lowered, beside one of the same priority. -/
def narrow (x y : BitVec 2) : State := { st with gangs := [(0, { splo := 1, gshift := x, grantAt := some 0 }), (1, { gshift := y })], clock := 65536 }

theorem witness_YarderResult_grant : ∀ p ∈ [((0 : BitVec 2), (0 : BitVec 2), 2), (2, 3, 1), (1, 0, 0)],
    let s := narrow p.1 p.2.1
    let g := s.gang 0
    (0, g) ∈ s.gangs ∧ p.2.2 ≤ 3 ∧ g.gshift.toNat ≠ p.2.2 ∧ g.grantAt = some 0 ∧ 0 + 65536 ≤ s.clock ∧
    (∀ q ∈ s.gangs, if g.gshift.toNat < p.2.2 then s.gangPrio g ≤ s.gangPrio q.2 ∨ q.2.gshift ≠ 0
      else s.gangPrio q.2 ≤ s.gangPrio g ∨ q.2.gshift = 0) ∧
    (∀ q ∈ s.gangs, q.1 ≠ 7) ∧ ∀ q ∈ (narrow 0 0).gangs, q.2.gshift = 0 := by decide +kernel

theorem witness_YarderResult_placement :
    okay (age 0) (atHead (rec8 none) (some 0)) (fun _ s1 =>
      decide (topOf (s1.waiting 0) = [{ head := true, key := 3, level := 0, since := 0 }]) &&
      (match (s1.queue 3).head with
       | some h => (Tab.find s1.tasks h.task).isSome && s1.fits 0 h.record && h.record.ok && decide (7 < 2 ^ 16) &&
           (Tab.find s1.tasks h.task).all (·.record == h.record) &&
           s1.gangs.all fun (_, g) => clusterOfCore g.core ≠ 0 || g.gangid.toNat ≠ 7
       | none => false)) = true ∧
    okay (age 0) suspended (fun _ s1 => decide (topOf (s1.waiting 0) = [{ head := false, key := 1, level := 0, since := 0 }]) &&
      okay (resumeGang 1 0) { s1 with fresh := s1.fresh + 1 }) = true ∧
    (0, st.gang 0) ∈ st.gangs ∧ (st.gang 0).gshift.toNat ≠ 1 ∧ (st.gang 0).grantAt = none ∧
    (∀ p ∈ st.gangs, if (st.gang 0).gshift.toNat < 1 then st.gangPrio (st.gang 0) ≤ st.gangPrio p.2 ∨ p.2.gshift ≠ 0
      else st.gangPrio p.2 ≤ st.gangPrio (st.gang 0) ∨ p.2.gshift = 0) ∧
    (let s := st.putGang 0 { st.gang 0 with grantAt := some 0 }
     (0, s.gang 0) ∈ s.gangs ∧ (s.gang 0).grantAt = some 0 ∧ s.clock < 0 + 65536) := by decide +kernel

theorem witness_HostWindowWritten : (opened st).port.state = 1 ∧ (opened st).port.cmds = [] ∧
    (let s : State := { st with port := { st.port with state := 1, queues := [(3, { qring := 0x200005, en := true, qtail := 1 }),
       (4, { en := true, devlaunch := true })] } }
     (s.queue 3).en = true ∧ (s.queue 3).devlaunch = false ∧ (s.queue 3).qtail.toNat ≤ 32 ∧
     32 ≤ (s.queue 3).qhead.toNat + 2 ^ ((s.queue 3).qring.toNat % 32) ∧ (s.queue 5).en = false ∧ (s.queue 4).devlaunch = true) ∧
    st.port.state ≠ 1 ∧
    okay (endTask 3 3) (opened (atHead (rec8 none) none)) = true ∧
    (Tab.find (atHead (rec8 none) none).tasks 3).isSome = true ∧
    (Tab.find { saving with gangs := [(1, { core := 2, splo := 0xFFF0000000000000 })] }.tasks 0).isSome = true ∧
    okay (endTask 0 0) saving = true ∧ (Tab.find saving.tasks 0).all (·.record.status = 0) = true ∧
    ([true, false].all fun en => 
     let p : Port := { (opened st).port with apertures := [(0, { en := en })], queues := [(3, { en := en })] }
     let s : State := { opened st with port := p }
     (Tab.get ({} : Aperture) s.port.apertures 0).en == en && (s.queue 3).en == en) = true ∧
    ((0x5004 : Word) &&& 0x000FFFFFFFFFF01F) = 0x5004 ∧
    (let s : State := { opened st with pending := [pend (some 7)] }
     ∀ c ∈ [0, 1, 4], okay (completeSeq 0x5004 7 c 0) s fun r _ => r = (if c = 1 then 2 else 0)) ∧
    okay (completeSeq 0x5004 7 0 0) (opened st) (fun r _ => r = 1) = true := by decide +kernel

/-- Aperture 0 over memory, aperture 1 RAW, aperture 2 on a package that is not there. -/
def windows : State := { opened st with port := { (opened st).port with
  apertures := [(0, { base := 0x30, size := 1, wr := true, en := true }), (1, { base := 0x30, size := 1, wr := true, en := true, raw := true }),
    (2, { base := 0x700000000, size := 1, wr := true, en := true })] } }

theorem witness_ApertureResult : windows.port.state = 1 ∧
    (∀ a ∈ [0, 1, 2], (Tab.get ({} : Aperture) windows.port.apertures a).en = true ∧ 64 + 8 ≤ 1 * 2 ^ 16 ∧
      (Tab.get ({} : Aperture) windows.port.apertures a).wr = true) ∧
    windows.reaches (0x30 * 2 ^ 16 + 64) 8 = true ∧ windows.reaches (0x700000000 * 2 ^ 16 + 64) 8 = false ∧
    windows.domainLive 0 0 = true ∧
    okay (readPhys {} (windows.domainAt 0 0x300040) true 0 0x300040 8) windows (fun r _ => r.2 = 0) = true ∧
    okay (writeHome {} (windows.domainAt 0 0x300040) 0x300040 8 5) windows (fun _ s1 =>
      okay flushPool s1 fun _ s2 => okay (wakeRange 0x300040 0x300047) s2) = true ∧
    okay (rawRead 0x300040 8) windows = true ∧ okay (rawWrite 0x300040 8 5) windows = true ∧
    (Tab.get ({} : Aperture) windows.port.apertures 3).en = false ∧ (Tab.get ({} : Aperture) windows.port.apertures 1).raw = true ∧
    (Tab.get ({} : Aperture) windows.port.apertures 0).raw = false ∧ (0x300040 / 65536 = (0x300040 + 8 - 1) / 65536) ∧
    (let s : State := { windows with port := { windows.port with
       apertures := [(0, { base := 0x30, size := 1, wr := true, en := true, slot := 5, gen := 2 })] } }
     s.reaches (0x30 * 2 ^ 16 + 64) 8 = true ∧
     s.domainLive ((Tab.get ({} : Aperture) s.port.apertures 0).kslot 0x300040) 2 = false) := by decide +kernel

theorem witness_DomainIsolation : (⟨1, 2, 3⟩ : Domain) ≠ ⟨1, 2, 4⟩ ∧ (⟨1, 2, 3⟩ : Domain) ≠ Domain.raw ∧
    Tab.find st.domains 5 = none := by decide

/-- Package 5 in the pod table, and far context 7 of Landing 2 leased to it. -/
def guests : State := { mapped st with
  port := { st.port with podTable := [5] }, far := [(2 * 256 + 7, { leased := true })] }

theorem witness_LinkAndPodResult : okay stopPackage st = true ∧ 5 ≠ st.pkg ∧ 5 ∉ st.port.lostPkgs ∧
    5 ∈ guests.port.podTable ∧ 5 ≠ guests.pkg ∧ 6 ∉ guests.port.podTable ∧
    paPkg (requestAddr (.read (5 * 2 ^ 45) 8 0)) ≠ guests.pkg ∧
    (∀ r ∈ [UaRequest.read 0x300040 8 0, .write 0x300040 [1, 2] 0, .atomicAdd 0x300040 8 5 0, .atomic 4 0x300040 4 5 0,
      .compareSwap 0x300040 8 0 5 0, .lease 2, .release 519, .far 519 0 ⟨4, 0, 15, 0, 0, 7, 3, 8, 1, 0⟩, .farLoad 519 1 2 [(0, 0x300040, 0)],
      .farStore 519 1 2 true [(0, 0x300040, 0)], .farRead 519 1, .farWrite 519 1 5, .combine 519 0 8 0 4 [] [] [],
      .reduce 519 0 8 0 4 [] [] none none], paPkg (requestAddr r) = guests.pkg ∧ requestAddr r < 2 ^ 52) ∧
    (0x300040 / 65536 = (0x300040 + 8 - 1) / 65536) ∧
    (List.range 256).filter (guests.freeFar 2) ≠ [] ∧ Tab.get [] guests.leaseq 2 = [] ∧
    Tab.get [] ({ guests with leaseq := [(2, [9])] } : State).leaseq 2 ≠ [] ∧
    guests.slotQuiet 519 = true ∧ (guests.farCtx 519).leased = true ∧ (guests.farCtx 520).leased = false ∧
    ({ guests with banks := [{ id := 1, hart := 0, gang := 0, ctx := 519, task := 0, asid := 0, stackMask := 0, op := .ybop 0 8 0 4 [] [] [] [] }] } : State).slotQuiet 519 = false := by decide +kernel

/-- A member in package 5 of a group at 0x300040, and a live round with it alone there. -/
def guestPart (added : Bool) : Contribution :=
  { job := 1, rank := 0, hart := 9, gang := 0, values := [7], active := 1, added := added, remote := true, pkg := 5 }
def meeting (n : Nat) (p : Contribution) (aborted : Bool := false) : State :=
  { guests with rounds := [(0x300040, { serial := 4, fmt := 2, vl := 1, nmem := n, parts := [p], aborted := aborted })] }

/-- Package 5 lost; its member with all there and all added, before that, and after an abort; a context whose y register
waits for a YIRED, or has a poisoned word. -/
theorem witness_LinkAndPodResult_members :
    (let s := meeting 1 (guestPart true)
     let r := s.round 0x300040
     5 ≠ s.pkg ∧ 5 ∉ s.port.lostPkgs ∧ r.ended = false ∧ (guestPart true) ∈ r.parts ∧ 5 ∈ s.port.podTable ∧
     paPkg (requestAddr (.phase (0x300040, 64, 0) [] 9 0 0 2 1 1 1 [7] 3)) = s.pkg ∧
     r.parts.length = r.nmem ∧ r.aborted = false ∧ r.parts.all (·.added) = true) ∧
    ((meeting 1 (guestPart false)).round 0x300040).parts.all (·.added) = false ∧
    (let r := (meeting 2 (guestPart false)).round 0x300040
     r.parts.length ≠ r.nmem) ∧
    ((meeting 1 (guestPart true) true).round 0x300040).aborted = true ∧ (guests.round 0x300040).parts = [] ∧
    (let b : BankCmd := { id := 1, hart := 0, gang := 0, ctx := 519, task := 0, asid := 0, stackMask := 0
                          op := .yired 0 8 0 4 [] [] (some 1) none }
     ({ guests with banks := [b] } : State).yBusy 519 1 = true ∧ guests.yBusy 519 1 = false ∧
     ({ guests with far := [(519, { leased := true, marks := [(1, 0)] })] } : State).farCtx 519 =
       { leased := true, marks := [(1, 0)] }) := by
  constructorm* _ ∧ _ <;> decide +kernel

/-- A malformed image fails; whether a well-formed one passes rests on the opaque checks of its signatures (log 13). -/
theorem witness_BootResult (i : FwImage) (hm : i.malformed = false) (hr : Config.rsaVerifies i.body i.rsaSig = true)
    (hs : Config.slhVerifies i.body i.slhSig = true) : (i.malformed = false ∧ Config.rsaVerifies i.body i.rsaSig = true ∧
      Config.slhVerifies i.body i.slhSig = true ∧ (opened st).port.fused ≤ i.version) ∧ (opened st).port.state = 1 :=
  ⟨⟨hm, hr, hs, Nat.zero_le _⟩, rfl⟩

/-! ### Hypotheses met: vector registers -/

/-- Three elements on, in the hart's registers. -/
def vst (n : BitVec 16) (g : Hart → Hart := id) : State := withHart fun h => g { h with vl := n }

/-- Slot 0 bound to context 5 of Landing 2. -/
def bound : State := vst 3 fun h => { h with fstk := [(0, { stack := 2, fctx := 5, bound := true })] }

/-- A far form. -/
def far (f : VForm) : VForm := { f with p := 1 }

theorem witness_VectorIntegerResult :
    (vst 3).calm (vf 2 4 6 2 4) ∧ (vst 3).vlOk (vf 2 4 6 2 4) 2 (twoRegs (vf 2 4 6 2 4)) ∧ (vst 3).vlOk (vf 2 4 6 2 4) 2 [2, 4] ∧
    bound.calm (far (vf 2 4 6 3 4)) ∧ bound.vlOk (far (vf 2 4 6 3 4)) 3 (twoRegs (far (vf 2 4 6 3 4))) ∧
    ((vst 3).side (vf 2 4 6 2 4)).groupOk 2 2 ∧ ((vst 3).side (vf 2 4 6 2 4)).groupOk 4 2 ∧
    (bound.side (far (vf 2 4 6 2 4))).groupOk 2 2 ∧ (vst 3).vlOk (vf 2 4 6 2 4) 2 ((twoRegs (vf 2 4 6 2 4)).drop 1) ∧
    (vst 3).vlOk (vf 2 4 6 2 4) 2 ((twoRegs (vf 2 4 6 2 4)).drop 2) := by
  constructorm* _ ∧ _ <;> decide +kernel

/-- Invalid operations enabled to trap. -/
def strict : State := vst 3 fun h => { h with tstat := { nve := true }, v := [(4, 0x7F800001)] }

theorem witness_VectorArithmeticResult :
    (vst 3).calm (vf 2 4 6 8 0) ∧ (vst 3).vlOk (vf 2 4 6 8 0) 8 (twoRegs (vf 2 4 6 8 0)) ∧ (vst 3).vlOk (vf 2 4 6 8 0) 8 [2, 4] ∧
    ((vst 3).side (vf 2 4 6 6 4)).groupOk 2 2 ∧ (vst 3).vlOk (vf 2 4 6 6 4) 6 ((twoRegs (vf 2 4 6 6 4)).drop 1) ∧
    ((vst 3).side (vf 2 4 6 1 5)).groupOk 4 2 ∧ (vst 3).vlOk (vf 2 4 6 1 5) 1 [2, 6] ∧
    strict.calm (vf 2 4 6 8 0) ∧ strict.me.catches ∧
    (strict.inOrder (vf 2 4 6 8 0) (strict.me.actives (vf 2 4 6 8 0)) 2 1 32
      (fun i _ => vfaluF 0 8 0 (elemAt ((strict.side (vf 2 4 6 8 0)).reg 4) i 32) 0)).stop = some (0, 0) := by
  constructorm* _ ∧ _ <;> decide +kernel

theorem witness_MaskResult :
    (vst 3).calm (vf 2 4 6 2 0) ∧ (vst 3).vlOk (vf 2 4 6 2 0) 2 ((twoRegs (vf 2 4 6 2 0)).drop 1) ∧ (vst 3).me.vstart = 0 ∧
    (vst 3).vlOk (vf 2 4 6 2 0) 2 (twoRegs (vf 2 4 6 2 0)) ∧ strict.me.catches ∧
    (runElems 1 (fun i _ => (fun c : Bool => if c then 1 else 0) <$> vcmpF 2 8 (elemAt ((strict.side (vf 2 4 6 8 2)).reg 4) i 32) 0)
      (strict.me.actives (vf 2 4 6 8 2)) { dst := 0, fs := strict.me.fstate, done := [], stop := none }).stop = some (0, 0) ∧
    (runElems 1 (fun _ _ => (fun c : Bool => if c then 1 else 0) <$> vcmpF 0 8 0 0)
      ((vst 3).me.actives (vf 2 4 6 8 0)) { dst := 0, fs := (vst 3).me.fstate, done := [], stop := none }).stop = none := by
  constructorm* _ ∧ _ <;> decide +kernel

theorem witness_VectorMoveResult :
    (vst 3).calm (vf 2 4 6 0 0) ∧ (vst 3).vlOk (vf 2 4 6 0 0) 0 [2, 4] ∧ 6 < ((vst 3).side (vf 2 4 6 0 0)).nregs ∧
    (vst 3).vlOk (vf 2 4 6 0 0) 0 [2, 4, 6, 0] ∧ (vst 3).vlOk (vf 2 4 6 0 0) 0 [2] ∧ (vst 3).me.vstart.toNat < (vst 3).me.vl.toNat := by
  constructorm* _ ∧ _ <;> decide +kernel

theorem witness_ReductionResult :
    (vst 3).calm (vf 2 4 6 2 0) ∧ (vst 3).vlOk (vf 2 4 6 2 0) 2 (twoRegs (vf 2 4 6 2 0)) ∧ (vst 3).me.vstart = 0 ∧ (vst 3).me.vl.toNat ≠ 0 ∧
    (vst 0).calm (vf 2 4 6 2 0) ∧ (vst 0).me.vl.toNat = 0 ∧ (vst 3).vlOk (vf 2 4 6 2 0) 2 (twoRegs (vf 2 4 6 2 0) ++ [0]) ∧
    (let s := vst 3
     let r := runCarry 32 (fun i k => (fun v => (v, v)) <$> redF 0 8 0 k (elemAt ((s.side (vf 2 4 6 8 0)).reg 4) i 32))
       (s.me.actives (vf 2 4 6 8 0)) 0 { dst := 0, fs := s.me.fstate, done := [], stop := none }
     r.2.stop = none) ∧
    (let s := strict
     let r := runCarry 32 (fun i k => (fun v => (v, v)) <$> redF 0 8 0 k (elemAt ((s.side (vf 2 4 6 8 0)).reg 4) i 32))
       (s.me.actives (vf 2 4 6 8 0)) 0 { dst := 0, fs := s.me.fstate, done := [], stop := none }
     r.2.stop = some (0, 0) ∧ s.me.catches) ∧
    (let s := vst 3
     (redF 0 8 0 0 (elemAt ((s.side (vf 2 4 6 8 0)).reg 4) 0 32) s.me.fstate).2.hit = none) ∧
    (let s := strict
     (redF 0 8 0 0 (elemAt ((s.side (vf 2 4 6 8 0)).reg 4) 0 32) s.me.fstate).2.hit = some 0) ∧
    (let g := groupSize (vlmaxOf 8 512) 32 512
     (vst 3).vlOk (vf 8 4 6 8 0) 8 [4] ∧ ((vst 3).side (vf 8 4 6 8 0)).groupOk 8 g ∧ (vst 3).me.tstat.nve = false ∧
     strict.me.tstat.nve = true ∧ ((strict.me.actives (vf 8 4 6 8 0)).any fun i =>
       (Fp.decode 8 (elemAt ((strict.side (vf 8 4 6 8 0)).reg 4) i 32)).isSig) = true) := by
  constructorm* _ ∧ _ <;> decide +kernel

/-- A register whose first record has a reserved header (an infinite scale). -/
def reservedHdr : State := vst 3 fun h => { h with v := [(4, 0x7C00)] }

theorem witness_ConversionResult :
    (vst 3).calm (vf 2 4 6 2 0) ∧ (vst 3).me.vl.toNat ≤ (vst 3).longest (vf 2 4 6 2 0) 0 ∧ ((vst 3).side (vf 2 4 6 2 0)).groupOk 4 4 ∧
    groupSize (vlmaxOf 0 512) 32 512 = 4 ∧ ((vst 3).side (vf 4 4 6 2 0)).groupOk 4 4 ∧ ((vst 3).side (vf 4 4 6 2 0)).groupOk 4 1 ∧
    (walkReg 12 512 3 0).2 = none ∧ (∀ r ∈ (walkReg 12 512 3 0).1, Fp.hdrOk 12 r.hdr = true ∧
      ((List.range (min r.b (3 - r.first))).all fun j => bitAt ((vst 3).me.getM 0) (r.first + j)) = true) ∧
    (vst 3).me.actives (vf 2 4 6 8 12) ≠ [] ∧ (vst 3).me.vstart.toNat < (vst 3).me.vl.toNat ∧ (vst 3).me.catches ∧
    (∃ r, (walkReg 12 512 3 ((reservedHdr.side (vf 2 4 6 8 12)).reg 4)).1.head? = some r ∧ 0 < r.b ∧ Fp.hdrOk 12 r.hdr = false) ∧
    reservedHdr.calm (vf 2 4 6 8 12) ∧ reservedHdr.me.catches := by
  constructorm* _ ∧ _ <;> decide +kernel

theorem witness_ConversionResult_quant :
    (vst 3).calm (vf 2 4 6 12 2) ∧ (vst 3).me.vl.toNat ≤ (vst 3).longest (vf 2 4 6 12 2) 12 ∧
    2 < ((vst 3).side (vf 2 4 6 12 2)).nregs ∧
    ((vst 3).side (vf 2 8 6 12 2)).groupOk 8 (groupSize (vlmaxOf 12 512) 32 512) ∧ Fp.recBytes 12 32 ≤ 512 ∧
    (quantRecord 12 0 0 0 false (Config.free 0) [.num false 1 0 false] (vst 3).me.fstate).2.hit = none ∧
    (quantRecord 12 0 0 0 false (Config.free 0) [Fp.decode 8 0x7F800001] strict.me.fstate).2.hit = some 0 ∧
    strict.calm (vf 2 4 6 12 2) ∧ strict.me.catches := by
  constructorm* _ ∧ _ <;> decide +kernel

theorem witness_BlockRecordResult :
    (vst 3).calm (vf 2 4 8 12 0) ∧ (vst 3).me.vl.toNat ≤ (vst 3).longest (vf 2 4 8 12 0) 12 ∧ (vst 3).me.vstart = 0 ∧
    4 < ((vst 3).side (vf 2 4 8 12 0)).nregs ∧
    (let g := groupSize (vlmaxOf 12 512) 32 512
     ((vst 3).side (vf 8 4 8 12 0)).groupOk 8 g) ∧ (walkReg 12 512 3 0).2 = none ∧
    ((walkReg 12 512 3 0).1.all fun r => (List.range (min r.b (3 - r.first))).all fun j => bitAt ((vst 3).me.getM 0) (r.first + j)) = true ∧
    ((walkReg 12 512 3 0).1.any fun r => (List.range (min r.b (3 - r.first))).all fun j => bitAt ((vst 3).me.getM 0) (r.first + j)) = true ∧
    Fp.hdrOk 12 0 = true ∧ Fp.hdrOk 12 0x7C00 = false ∧ (vst 3).me.catches ∧ okay (zeroCode 12 0) (vst 3) = true ∧
    (walkReg 12 512 3 (2 ^ 24 * 3)).2 = some (0, 0) ∧
    ((vst 3).side (vf 2 4 8 12 0)).groupOk 8 (groupSize (vlmaxOf 12 512) 16 512) ∧
    (∃ r, (walkReg 12 512 3 0).1[0]? = some r ∧ 3 ≤ r.b) ∧
    okay (((vst 3).calmCtx (.vperm (vf 2 4 8 12 0)) (vf 2 4 8 12 0)).permRecords 12 0 0 (walkReg 12 512 3 0) 1 0 0 0)
      ((vst 3).entered (.vperm (vf 2 4 8 12 0)) (vf 2 4 8 12 0)) = true := by
  constructorm* _ ∧ _ <;> decide +kernel

/-! ### Hypotheses met: vector memory -/

theorem scratchEls_of {s : State} {els : List Nat} {addr : Nat → Int} {n : Nat} (hb : s.badScratch = []) (hs : s.streams = [])
    (hw : awake s = true) (hr : s.rounds = []) (h : (els.all fun i => decide (0 ≤ addr i ∧ s.ownScratch (addr i).toNat n ∧ (addr i).toNat % n = 0)) = true) :
    s.scratchEls els addr n := fun i hi => by
  have := of_decide_eq_true (List.all_eq_true.1 h i hi)
  exact ⟨this.1, this.2.1, this.2.2, plain_of hb hs hw hr⟩

/-- A near form at the address of x8, the index register being v8. -/
def nf (fmt fn : BitVec 4) : VForm := vf 2 8 8 fmt fn

/-- The third element of a load from x8 lies past the gang's bounds. -/
def edge : State := vst 3 fun h => { h with x := [(8, 0xFFF000000000FFF8)] }

theorem witness_VectorLoadResult :
    (vst 3).calm (nf 2 0) ∧ (vst 3).vlOk (nf 2 0) 2 [2] ∧
    (vst 3).scratchEls ((vst 3).me.actives (nf 2 0)) ((vst 3).linearAddr (nf 2 0) 4) 4 ∧
    (vst 3).indexOk (nf 2 0) ∧ (vst 3).scratchEls ((vst 3).me.actives (nf 2 0)) ((vst 3).indexAddr (nf 2 0) 4) 4 ∧
    edge.calm (nf 2 0) ∧ edge.vlOk (nf 2 0) 2 [2] ∧ edge.me.catches ∧
    ((edge.me.actives (nf 2 0)).find? fun j => (Machine.outOfBounds (edge.ctx edge.cur) (edge.linearAddr (nf 2 0) 4 j).toNat 4).isSome) = some 2 ∧
    edge.scratchEls ((edge.me.actives (nf 2 0)).filter (· < 2)) (edge.linearAddr (nf 2 0) 4) 4 ∧
    addrOk (edge.linearAddr (nf 2 0) 4 2) 4 = true ∧ edge.linearAddr (nf 2 0) 4 2 % 4 = 0 ∧
    Machine.outOfBounds (edge.ctx edge.cur) (edge.linearAddr (nf 2 0) 4 2).toNat 4 = some 0xFFF0000000010000 ∧
    edge.me.vstart.toNat < 2 := by
  constructorm* _ ∧ _ <;> first | exact scratchEls_of rfl rfl rfl rfl (by decide +kernel) | decide +kernel

theorem witness_VectorLoadResult_any :
    okay (((vst 3).calmCtx (.vld (nf 2 0)) (nf 2 0)).fetch 0 ((vst 3).me.actives (nf 2 0)) (fun i =>
        .mem <$> checkAccess ((vst 3).entryCtx (.vld (nf 2 0)) (nf 2 0)) ((vst 3).linearAddr (nf 2 0) 4 i) 4 4 .read))
      ((vst 3).entered (.vld (nf 2 0)) (nf 2 0)) (fun r t => r.2.isNone && okay (((vst 3).calmCtx (.vld (nf 2 0)) (nf 2 0)).putEls 2 32 r.1) t) = true ∧
    (nf 2 0).fn.getLsbD 1 = false ∧
    okay (((vst 3).calmCtx (.vldx (nf 2 0)) (nf 2 0)).fetch 0 ((vst 3).me.actives (nf 2 0)) (fun i => do
        ((vst 3).calmCtx (.vldx (nf 2 0)) (nf 2 0)).cleanAt [(8, 32, i)]
        return .mem (← checkAccess ((vst 3).entryCtx (.vldx (nf 2 0)) (nf 2 0)) ((vst 3).indexAddr (nf 2 0) 4 i) 4 4 .read)))
      ((vst 3).entered (.vldx (nf 2 0)) (nf 2 0)) (fun r t => r.2.isNone && okay (((vst 3).calmCtx (.vldx (nf 2 0)) (nf 2 0)).putEls 2 32 r.1) t) = true := by
  constructorm* _ ∧ _ <;> decide +kernel

theorem witness_VectorLoadResult_block :
    (vst 3).calm (nf 12 0) ∧ (vst 3).vlOk (nf 12 0) 12 [2] ∧ (vst 3).me.vstart.toNat < (vst 3).me.vl.toNat ∧
    (let c := (vst 3).calmCtx (.vld (nf 12 0)) (nf 12 0)
     okay (c.scanRecords ((vst 3).entryCtx (.vld (nf 12 0)) (nf 12 0)) 12 true c.linear (fun _ => []) 0 1 0 0 0)
       ((vst 3).entered (.vld (nf 12 0)) (nf 12 0)) (fun r t => r.2.isNone &&
         okay (forAll r.1 fun (off, size, v) => putBytes 512 2 off size v) t) = true) ∧
    (vst 3).me.vstart = 0 ∧ 3 ≤ Fp.blockSize 0 ∧ 3 ≤ (vst 3).me.maskLen ∧ Fp.hdrOk 12 0 = true ∧
    (vst 3).ownScratch 0xFFF0000000001000 (Fp.recBytes 12 32) ∧
    (vst 3).plainScratch ((vst 3).scratchAt 0xFFF0000000001000) (Fp.recBytes 12 32) ∧ Fp.recBytes 12 32 ≤ 512 := by
  constructorm* _ ∧ _ <;> first | exact plain_of rfl rfl rfl | decide +kernel

theorem witness_VectorStoreResult :
    okay (((vst 3).calmCtx (.vst (nf 2 0)) (nf 2 0)).storeEls 0 false true ((vst 3).me.actives (nf 2 0)) (fun i => do
        let acc ← checkAccess ((vst 3).entryCtx (.vst (nf 2 0)) (nf 2 0)) ((vst 3).linearAddr (nf 2 0) 4 i) 4 4 .write
        ((vst 3).calmCtx (.vst (nf 2 0)) (nf 2 0)).cleanAt [(2, 32, i)]
        return some acc) (fun _ => 0)) ((vst 3).entered (.vst (nf 2 0)) (nf 2 0)) (fun r _ => r.isNone) = true ∧
    (let c := (vst 3).calmCtx (.vst (nf 12 0)) (nf 12 0)
     okay (c.storeBlock false true c.linear (fun _ => [])) ((vst 3).entered (.vst (nf 12 0)) (nf 12 0)) (fun r _ => r.isNone) = true) ∧
    (∃ r, walkReg 12 512 3 0 = ([r], none) ∧ (vst 3).ownScratch 0xFFF0000000001000 r.size) ∧ (vst 3).inv ∧
    (nf 2 2).fn.toNat / 2 % 2 = 1 ∧ (nf 2 0).fn.toNat / 2 % 2 ≠ 1 := by
  constructorm* _ ∧ _ <;> first | exact ⟨_, rfl, by decide +kernel⟩ | decide +kernel

/-- h2 is a handle of 3 by 1 32-bit elements at x8's address. -/
def handled (x : Handle) : State := vst 3 fun h => { h with x := [], h := [(2, x)] }

theorem witness_HandleAccessResult :
    let x : Handle := { base := 0xFFF0000000001000, ext0 := 2, fmt := 2 }
    let f := vf 2 2 8 2 0
    let s := handled x
    let at_ (i j : Nat) : Nat := if j = 0 then i else 0
    s.calm f ∧ f.p = 0 ∧ s.me.vl.toNat ≤ s.longest f 2 ∧ 2 < (s.side f).nregs ∧ s.me.badh.contains 2 = false ∧
    Tab.get {} s.me.h 2 = x ∧ (s.me.getX 8).toNat = 0 ∧ (s.me.getX 0).toNat = 0 ∧
    (∀ i < 3, ((∀ j < 4, at_ i j < 2 ^ 32 ∧ x.goff j ≤ at_ i j ∧ at_ i j < x.goff j + x.ext j) ↔ i < 2)) ∧
    s.scratchEls [0, 1] (fun i => (x.base.toNat + i * 4 : Nat)) 4 := by
  constructorm* _ ∧ _ <;> first | rfl | exact scratchEls_of rfl rfl rfl rfl (by decide +kernel) | decide +kernel

theorem witness_HandleAccessResult_any :
    (let f := vf 2 2 8 2 0
     let s := handled { base := 0xFFF0000000001000, ext0 := 2, fmt := 2 }
     let c := s.calmCtx (.vldh f) f
     okay (c.fetch 0 (s.me.actives f) (fun i => do
        match ← c.handleAddr (s.entryCtx (.vldh f) f) i with
        | none => return .value 0
        | some a => return .mem (← checkAccess (s.entryCtx (.vldh f) f) a 4 4 .read))) (s.entered (.vldh f) f)
       (fun r t => r.2.isNone && okay (c.putEls 2 32 r.1) t fun _ t1 => okay (trimVl c.insideVl) t1) = true ∧
     (let c := s.calmCtx (.vsth f) f
      okay (c.storeEls 0 false true (s.me.actives f) (fun i => do
        match ← c.handleAddr (s.entryCtx (.vsth f) f) i with
        | none => return none
        | some a => do
          let acc ← checkAccess (s.entryCtx (.vsth f) f) a 4 4 .write
          c.cleanAt [(2, 32, i)]
          return some acc) (fun _ => 0)) (s.entered (.vsth f) f) (fun r _ => r.isNone) = true)) ∧
    (let f := vf 2 2 8 12 0
     let s := handled { base := 0xFFF0000000001000, ext0 := 256, fmt := 12, tag := 4 }
     s.calm f ∧ okay (s.calmCtx (.vldh f) f).loadQ128 (s.entered (.vldh f) f) (fun r t => r.isNone &&
       okay (trimVl (s.calmCtx (.vldh f) f).insideVl) t) = true ∧
     okay ((s.calmCtx (.vsth f) f).storeQ128 false) (s.entered (.vsth f) f) (fun r _ => r.isNone) = true) ∧
    (let s := handled { fmt := 3 }
     s.calm (vf 2 2 8 2 0) ∧ s.me.catches ∧ (Tab.get ({} : Handle) s.me.h 2).fmt ≠ 2) := by
  constructorm* _ ∧ _ <;> decide +kernel

theorem witness_VectorLengthResult :
    (vst 3).alone ∧ (vst 3).me.viq = [] ∧ (vst 3).me.held.length < 64 ∧ (vst 3).me.tstat.inh = false ∧
    (∀ r ∈ [(5 : Nat), 0], let s := withHart fun h => { h with x := [(5, 7), (8, 0xFFF0000000001000)] }
      s.ownScratch (s.me.getX 8).toNat 8 ∧ (s.me.getX 8).toNat % 8 = 0 ∧
      ((s.me.getX r).toNat + 0 ≤ s.scratch.readN (s.scratchAt 0xFFF0000000001000) 8 ↔ r = 0)) ∧
    st.plainScratch (st.scratchAt 0xFFF0000000001000) 8 := by
  exact ⟨by decide, by decide, by decide, by decide, by decide +kernel, plain_of rfl rfl rfl⟩

/-- A true convoy: VINT and VMUL in 32-bit integers. -/
def convoyHead : CForm := { guard := 0, u5 := 7, u4 := 7, u3 := 7, u2 := 7, u1 := 1, u0 := 0, n := 0 }

/-- Its members' words after the PC, in mapped memory, inside no repeat. -/
def convoy : State := placed (mapped { withHart fun h => { h with pc := 0x40004 } with
  mem := Memory.writeN [] 0x300008 (ofBytes (encodeBytes (.vint (vf 2 4 6 2 0)) ++ encodeBytes (.vmul (vf 2 4 6 2 0)))) 16 })

/-- The tail of a queue waits for a token of unit 1. -/
def tokened (n : Nat) : State :=
  let f := { vf 2 4 6 2 0 with tpop := 1, popu := 1 }
  withHart fun h => { h with viq := [h.capture (.vint f) f], tokens := if n = 0 then [] else [(popFifo (.vint f) f, n)] }

/-- The hart issues to a unit class, or its head waits. -/
def issues (s : State) (went : Bool) : Bool :=
  match s.headOf 0 with
  | some e => (s.issueOrder (0 / 8) e.unit).head? = some 0 && (s.me.viq.head?.map (·.convoy)) = some none && s.plan.ahead.isEmpty &&
      okay (issueOn 0) s (fun b t => b == went && (List.range 8).all fun i => i = 0 || (t.headOf i).isNone) &&
      (match issueHead (issueBody e.instr) { s with cur := 0 } with
       | .ok .. => went
       | .error .wait _ => !went
       | .error .. => false)
  | none => false

/-- A hart with a far VINT queued. -/
def farQueued : State := bound.putHart 0 { bound.me with viq := [bound.me.capture (.vint (far (vf 2 4 6 2 0))) (far (vf 2 4 6 2 0))] }

theorem witness_QueueResult_issue : issues busy true = true ∧ issues (tokened 0) false = true ∧ issues (tokened 2) true = true ∧
    st.headOf 0 = none ∧ (farQueued.headOf 0).any (·.isFar) = true ∧ okay (issueOn 0) farQueued = true ∧
    (busy.headOf 0).any (!·.isFar) = true := by decide +kernel

/-- A head that is the last of a pass of a repeat counted in x7, of one more pass or of the last. -/
def closing (n : Word) : State :=
  let h := { hart with x := [(7, n)], rep := { active := true, reg := 7, len := 2, pos := 1, start := 0xFFC } }
  { st with harts := [(0, { h with viq := [{ h.capture (.vmvx (vf 7 0 0 2 1)) (vf 7 0 0 2 1) with ends := true }] })] }

theorem witness_QueueResult_tokens :
    (let f := { vf 2 4 6 2 0 with tpop := 1, popu := 1 }
     Tab.get 0 (tokened 0).me.tokens (popFifo (.vint f) f) = 0 ∧ 0 < Tab.get 0 (tokened 2).me.tokens (popFifo (.vint f) f) ∧
     ((tokened 0).me.viq.head?.any fun e => !e.popped && !e.reserved && !e.ends) = true ∧ (tokened 0).me.rep.active = false) ∧
    (let f := { vf 2 4 6 2 0 with tpsh := 1, pshu := 1 }
     let s : State := withHart fun h => { h with viq := [h.capture (.vint f) f], tokens := [(pushFifo (.vint f) f, 15)]
                                                 resv := [(pushFifo (.vint f) f, 1)] }
     16 ≤ Tab.get 0 s.me.tokens (pushFifo (.vint f) f) + Tab.get 0 s.me.resv (pushFifo (.vint f) f) ∧
     (s.me.viq.head?.any fun e => !e.popped && !e.reserved && !e.ends) = true) ∧
    ([(1 : Word), 2].all fun n => (closing n).me.rep.active &&
      (closing n).me.viq.head?.any fun e => !e.popped && !e.reserved && e.ends) = true := by decide +kernel

theorem witness_QueueResult_convoy :
    (Instr.convoyHeader { convoyHead with u1 := 0 }).wf = false ∧ convoy.me.catches ∧ (Instr.convoyHeader convoyHead).wf = true ∧
    okay (each (List.range 2) (checkMember (.convoyHeader convoyHead) convoyHead convoy.me.pc)) convoy (fun l _ => l.length = 2 &&
      l.all fun m => pendingX m.1 = none && !trims m.1) = true ∧ convoy.me.rep.active = false ∧ convoy.me.getG 0 = true ∧
    convoy.me.getG 3 = false ∧ convoy.me.viq = [] ∧ convoy.me.held = [] ∧ convoy.me.vlPending = false := by decide +kernel

/-- A hart whose queue is full of held entries, in a handler or not. -/
def full (inh : Bool) (g : Hart → Hart := id) : State := withHart fun h =>
  g { h with tstat := { inh := inh }, held := List.replicate 64 (h.capture (.vint (vf 2 4 6 2 0)) (vf 2 4 6 2 0)), viq := busy.me.viq }

theorem witness_QueueResult :
    busy.me.viq ≠ [] ∧ busy.me.held.length + busy.me.viq.length < 64 ∧ busy.me.tstat.inh = false ∧ busy.me.rep.active = false ∧
    (let f := vf 2 4 6 2 0
     ∀ op ∈ [Instr.vint, .vmul, .vsat, .vld, .vst, .vldh, .vperm, .vcvt], busy.me.ready (xFieldsOf (op f) f) = true) ∧
    (let f := { vf 2 4 6 2 0 with xs := 1, vs3 := 7 }
     ∀ op ∈ [Instr.vint, .vmul, .vsat, .vld, .vst], busy.me.ready (xFieldsOf (op f) f) = false) ∧
    (let f := vf 2 4 6 2 0
     (full false).me.ready (xFieldsOf (.vint f) f) = true ∧ (full false).me.tstat.inh = false ∧ (full true).me.tstat.inh = true ∧
     64 ≤ (full false).me.held.length + (full false).me.viq.length ∧ (full true).me.viq ≠ [] ∧
     (full true fun h => { h with held := [], noRoom := true }).me.noRoom = true) ∧
    (vst 3).alone ∧ (vst 3).me.viq = [] ∧ (vst 3).me.held.length < 64 ∧ (vst 3).me.vlPending = false ∧ (vst 3).me.catches ∧
    6 ≤ (vst 3 fun h => { h with dyn := 6 }).me.dyn.toNat ∧
    (far (vf 2 4 6 2 0)).p = 1 ∧ ((vst 3).me.slot 0).bound = false ∧
    (vst 3).calm (vf 2 4 6 2 0) ∧ ¬(vst 600).vlOk (vf 2 4 6 2 0) 2 (twoRegs (vf 2 4 6 2 0)) ∧ (vst 600).calm (vf 2 4 6 2 0) := by
  constructorm* _ ∧ _ <;> decide +kernel

/-! ### Hypotheses met: tiles and attention -/

/-- 32 lanes and 8 registers, two elements; x6 a row word of one row from row 3. -/
def wide : State := vst 2 fun h => { h with count := 32, vcfg := 0, x := [(5, 7), (6, 0x103), (8, 0xFFF0000000001000)] }

theorem witness_MatrixResult :
    wide.calm (vf 8 2 4 6 0) ∧ wide.badTile = [] ∧ 0 < wide.me.count.toNat ∧ 4 * wide.me.vl.toNat ≤ 64 * wide.me.count.toNat ∧
    4 + 1 ≤ (wide.side (vf 8 2 4 6 0)).nregs ∧ wide.me.vl.toNat ≤ wide.me.vlmax 6 ∧ 128 ≤ wide.me.vlmax 6 ∧ 128 ≤ wide.me.vlmax 2 ∧
    (∀ m < 128, (wide.me.getX 8).toNat + elemAt ((wide.side (vf 8 2 4 6 0)).reg 2) m 32 = 0xFFF0000000001000) ∧
    max windowBase (wide.gangOf wide.me).splo.toNat ≤ 0xFFF0000000001000 ∧
    0xFFF0000000001000 + 2 ≤ min (wide.gangOf wide.me).sphi.toNat (windowBase + 0x6000000) ∧
    wide.plainScratch (wide.scratchAt 0xFFF0000000001000) 2 ∧ wide.me.vstart.toNat < 1 ∧ wide.me.catches ∧
    addrOk (wide.me.getX 5).toNat 1 = true ∧ ¬max windowBase (wide.gangOf wide.me).splo.toNat ≤ (wide.me.getX 5).toNat ∧
    wide.calm (vf 2 2 4 12 0) ∧ 32 * wide.me.vl.toNat ≤ wide.me.vlmax 6 ∧ 128 * Fp.recBytes 12 32 ≤ (wide.side (vf 2 2 4 12 0)).bytes ∧
    Fp.hdrOk 12 0 = true ∧ Fp.hdrOk 12 0x7C00 = false := by
  constructorm* _ ∧ _ <;> first | exact plain_of rfl rfl rfl | decide +kernel

theorem witness_TileMoveResult :
    wide.calm (vf 0 8 6 2 0) ∧ wide.badTile = [] ∧ (wide.me.getX 6).toNat % 128 + (wide.me.getX 6).toNat / 256 % 256 ≤ 128 ∧
    (wide.me.getX 6).toNat / 256 % 256 = 1 ∧ wide.me.vl.toNat ≤ wide.me.vlmax 2 ∧ wide.me.vl.toNat * 32 / 8 ≤ 64 * 32 ∧
    (∀ c < 2, wide.ownScratch (0xFFF0000000001000 + c * 4) 4 ∧ (0xFFF0000000001000 + c * 4) % 4 = 0) ∧
    wide.plainScratch (wide.scratchAt 0xFFF0000000001000) 4 ∧ wide.plainScratch (wide.scratchAt 0xFFF0000000001004) 4 ∧
    wide.me.vl.toNat ≠ 0 ∧ wide.me.vstart.toNat < 1 ∧ (wide.side (vf 0 4 6 2 0)).groupOk 4 (groupSize 2 32 (wide.side (vf 0 4 6 2 0)).bytes) ∧
    (wide.side (vf 4 4 6 2 1)).groupOk 4 (groupSize 2 32 (wide.side (vf 4 4 6 2 1)).bytes) ∧ wide.me.vstart = 0 := by
  constructorm* _ ∧ _ <;> first | exact plain_of rfl rfl rfl | decide +kernel

theorem witness_AttentionResult :
    wide.calm (vf 2 2 4 6 0) ∧ wide.me.vstart = 0 ∧ 0 + 1 < wide.me.count.toNat ∧ wide.me.vl.toNat ≤ wide.me.vlmax 8 ∧
    (let g := groupSize (2 * 16) 16 (wide.side (vf 2 2 4 6 0)).bytes
     (wide.side (vf 2 2 4 6 0)).groupOk 4 g ∧ overlaps 4 g 2 1 = false) ∧ wide.me.vl.toNat ≠ 0 ∧ (vst 0).me.vl.toNat = 0 ∧
    wide.me.vl.toNat ≤ 16 ∧ wide.me.actives (vf 2 2 4 6 0) = 0 :: [1] ∧
    ({ vf 2 2 4 6 0 with vm := 3 } : VForm).vm = 3 ∧ wide.me.actives { vf 2 2 4 6 0 with vm := 3 } = [] := by
  constructorm* _ ∧ _ <;> decide +kernel

/-! ### Hypotheses met: far contexts, bank commands, Flume -/

/-- A command of context 5 of Landing 2. -/
def cmd (op : BankOp) : BankCmd := { id := 1, hart := 0, gang := 0, ctx := 2 * 256 + 5, task := 0, asid := 0, stackMask := 0, op := op }

theorem witness_FarContextResult :
    st.calm (vf 0 5 0 2 0) ∧ (st.me.slot 0).bound = false ∧ (st.me.slot 0).lost = false ∧ (st.me.getX 5).toNat < 1024 ∧
    st.present ((st.me.getX 5).toNat / 8) = true ∧ Tab.get 0 st.granted st.cur = 0 ∧
    Tab.get 0 ({ st with granted := [(0, 8)] } : State).granted 0 = 7 + 1 ∧
    1024 ≤ (st.me.getX 10).toNat ∧ st.me.catches ∧ bound.calm (vf 0 5 0 2 0) ∧ (bound.me.slot 0).bound = true ∧ bound.me.catches ∧
    (bound.me.slot 0).lost = false ∧ bound.slotQuiet (bound.me.slot 0).key = true ∧
    okay (freeLease (bound.me.slot 0).key) (bound.entered (.frel (vf 0 5 0 2 0)) (vf 0 5 0 2 0)) = true ∧
    (let s : State := { bound with banks := [cmd (.ybop 0 2 0 0 [] [] [] [])] }
     s.calm (vf 0 5 0 2 0) ∧ s.slotQuiet (s.me.slot 0).key = false) ∧
    (let s := vst 3 fun h => { h with fstk := [(0, { lost := true })] }
     s.calm (vf 0 5 0 2 0) ∧ (s.me.slot 0).lost = true) ∧
    bound.calm (far (vf 2 4 0 2 0)) ∧ bound.me.badv = [] ∧ bound.me.vl.toNat ≤ bound.me.vlmax 2 ∧ bound.me.vl.toNat ≤ farLen 32 ∧
    4 < bound.me.nregs ∧ Tab.get [] st.leaseq 7 = [] ∧
    (let s : State := { st with leaseq := [(7, [0])] }
     Tab.get [] s.leaseq 7 = [0] ∧ s.freeFar 7 5 = true) ∧
    ({ st with far := [(7 * 256 + 5, { leased := true })] } : State).freeFar 7 5 = false := by
  constructorm* _ ∧ _ <;> decide +kernel

/-- A descriptor at x8: one packet of one row of 8 words at 0x40000. -/
def bankState : State := { mapped (vst 3 fun h => { h with fstk := [(0, { stack := 2, fctx := 5, bound := true })] }) with
  scratch := Memory.writeN (Memory.writeN [] (scratchKey 0 0xFFF0000000001000)
      (0x40000 + 2 ^ 64 * 32 + 2 ^ 128 * 0xFFF0000000001040 + 2 ^ 320 + 2 ^ 352 * 8) 64)
    (scratchKey 0 0xFFF0000000001040) (2 ^ 512 - 2 ^ 32) 64 }

def span0 : Span := { pa := 0x300000, bytes := 32, domain := bankState.domainAt 0 0x300000 }

theorem witness_BankCommandResult :
    (let f := far (vf 2 8 0 2 0)
     let s := bankState
     let da := (s.me.getX 8).toNat
     let d := IredDesc.ofBytes (s.scratch.readN (s.scratchAt da) 64)
     let s0 := (s.entered (.yired f) f).putHart s.cur { (s.entered (.yired f) f).me with vstart := 0 }
     s.calm f ∧ s.ownScratch da 64 ∧ da % 64 = 0 ∧ d.ok 32 false 2 = true ∧ s.me.vl.toNat ≤ s.longest f 2 ∧
     okay (each (List.range d.npkt) (packetRows (s.entryCtx (.yired f) f) d 32)) s0 (fun rows s1 => rows.flatten.length = 1 &&
       okay (acceptCmd (s.calmCtx (.yired f) f) (.yired 0 2 0 8 rows.flatten [] (some 2) none) rows.flatten.flatten) s1) = true ∧
     d.ok 32 true 2 = false ∧ s.me.catches) ∧
    bankState.plainScratch (bankState.scratchAt 0xFFF0000000001000) 64 ∧
    (let f : VForm := { far (vf 10 10 10 2 0) with vs3 := 6 }
     let s := bankState
     let s0 := (s.entered (.ybop f) f).putHart s.cur { (s.entered (.ybop f) f).me with vstart := 0 }
     s.calm f ∧ (s.me.getX 10).toNat = 0x40000 ∧ (s.me.getX 6).toNat * 4 ≤ 2 ^ 24 ∧ 2 ^ 24 < (s.me.getX 8).toNat * 4 ∧
     okay (cmdRange (s.entryCtx (.ybop f) f) 0x40000 12 4 .write) s0 (fun d s1 =>
       okay (cmdRange (s.entryCtx (.ybop f) f) 0x40000 12 4 .read) s1 fun a s2 =>
         okay (acceptCmd (s.calmCtx (.ybop f) f) (.ybop 0 2 0 3 d a a []) (d ++ a ++ a)) s2) = true) ∧
    (let b := cmd (.ybop 0 2 0 3 [span0] [span0] [span0] [])
     let s : State := { bankState with banks := [b] }
     s.banks.find? (·.id = 1) = some b ∧ s.bankReady b = true ∧ b.raised = false ∧ b.todo = [0] ∧
     okay (bankPart b 0) s (fun b' _ => b'.todo.isEmpty) = true) ∧
    (let b := cmd (.yired 0 2 0 8 [[span0]] [] (some 2) (some { span0 with bytes := 8 }))
     let s : State := { bankState with banks := [b] }
     s.bankReady b = true ∧ b.todo = [0] ∧ okay (bankPart b 0) s (fun b' s1 => b'.todo.isEmpty &&
       okay (putYd b' 2 0 32 fun _ _ => false) s1 fun _ s2 => okay (addCword b' { span0 with bytes := 8 }) s2) = true) ∧
    (let b := cmd (.yired 0 2 0 8 [[span0, { span0 with pa := 0x310000 }]] [] (some 2) none)
     b.todo = [0, 1] ∧ b.ctx ≠ noCtx ∧ okay (bankPart b 1) bankState (fun b' _ => b'.todo = [0]) = true ∧
     (cmd (.ybop 0 2 0 0 [] [] [] [])).todo = []) := by
  refine ⟨?_, plain_of rfl rfl rfl, ?_, ?_, ?_, ?_⟩ <;> constructorm* _ ∧ _ <;> decide +kernel

theorem witness_BankCommandResult_more :
    (let s := bankState.putHart 0 { bankState.me with vl := 1000 }
     s.calm (far (vf 2 8 0 2 0)) ∧ s.longest (far (vf 2 8 0 2 0)) 2 < s.me.vl.toNat ∧ s.me.catches) ∧
    (let b := { cmd (.ybop 0 2 0 3 [span0] [span0] [span0] []) with id := 2 }
     let s : State := { bankState with banks := [{ b with id := 1 }, b] }
     s.bankReady b = false) ∧
    (let b := { cmd (.yired 0 2 0 8 [[span0]] [] (some 2) (some { span0 with bytes := 8 })) with raised := true }
     let s : State := { bankState with banks := [b] }
     s.bankReady b = true ∧ okay (addCword b { span0 with bytes := 8 }) s = true) ∧
    fmtWidth 2 ≠ 0 ∧ bankState.plainScratch (bankState.scratchAt 0xFFF0000000001000) 64 := by
  refine ⟨⟨?_, ?_, ?_⟩, ?_, ⟨?_, ?_⟩, ?_, plain_of rfl rfl rfl⟩ <;> decide +kernel

/-- x11 a buffer word for one line of the gang's scratchpad, x12 one past its end; x8 a block of the scratchpad. -/
def flows : State := vst 3 fun h => { h with
  x := [(5, 7), (6, 3), (8, 0xFFF0000000001000), (10, 0x40000), (11, 0x100002000), (12, 0x100010000)] }

/-- With a paged block at x8: table 0xFFF0000000001080, two tokens of 8-byte rows, 16 a block. -/
def paging : State := { flows with
  scratch := Memory.writeN [] (scratchKey 0 0xFFF0000000001000) (0xFFF0000000001080 + 2 ^ 128 * 2 + 2 ^ (8 * 0x18) * 8 + 2 ^ (8 * 0x1C) * 16) 64 }

/-- A stream of hart 0 into that buffer, from mapped memory, with n elements fetched of 8. -/
def strm (n : Nat) (stop : JobStop := .none) : Stream :=
  { job := 0, owner := 0, kind := .stream, pc := 0x1000, fmt := 2, avl := 8, fetched := n, stop := stop, base := 0x40000, stride := 4,
    buf := 0xFFF0000000002000, cap := 16 }

def streaming (x : Stream) : State := mapped { flows with streams := [(0, x)] }

theorem witness_FlumeResult :
    flows.calm (vf 11 10 6 2 0) ∧ Tab.find flows.streams 0 = none ∧ flows.me.catches ∧
    (let v := (flows.me.getX 11).toNat
     v / 2 ^ 48 = 0 ∧ 1 ≤ v / 2 ^ 32 % 2 ^ 16 ∧ v / 2 ^ 32 % 2 ^ 16 ≤ 8192 ∧ v % 64 = 0 ∧
     Machine.outOfBounds (flows.ctx 0) (windowBase + v % 2 ^ 32) 64 = none) ∧
    (let v := (flows.me.getX 12).toNat
     v / 2 ^ 48 = 0 ∧ 1 ≤ v / 2 ^ 32 % 2 ^ 16 ∧ v % 64 = 0 ∧
     Machine.outOfBounds (flows.ctx 0) (windowBase + v % 2 ^ 32) 64 = some 0xFFF0000000010000) ∧
    (flows.me.getX 5).toNat / 2 ^ 32 = 0 ∧ flows.me.mode (vf 11 10 6 2 0) ≠ 5 ∧
    (let f := vf 11 10 6 2 0
     let s := streaming (strm 8)
     s.calm f ∧ Tab.find s.streams 0 = some (strm 8) ∧ (strm 8).owner = s.cur ∧ s.me.vstart = 0 ∧
     okay (stopStream 0) ((s.entered (.flstream f) f).putHart s.cur { (s.entered (.flstream f) f).me with vstart := 0 })
       (fun _ t => t.cur = s.cur) = true ∧ okay (stopStream 0) (s.entered (.flstop f) f) = true) ∧
    (let p := PagedBlock.ofBytes (paging.scratch.readN (paging.scratchAt 0xFFF0000000001000) 64)
     paging.calm (vf 11 8 6 2 0) ∧ paging.ownScratch 0xFFF0000000001000 64 ∧ p.ok 4 = true ∧ p.count = 1 ∧ p.first = 0 ∧
     p.btab = 0xFFF0000000001080 ∧ paging.ownScratch 0xFFF0000000001080 8) ∧
    (let p := PagedBlock.ofBytes (flows.scratch.readN (flows.scratchAt 0xFFF0000000001000) 64)
     p.ok 4 = false) ∧
    (let st := { strm 8 with owner := 1 }
     let s := streaming st
     s.calm (vf 11 10 6 2 0) ∧ Tab.find s.streams 0 = some st ∧ st.owner ≠ s.cur ∧ s.me.catches) := by
  constructorm* _ ∧ _ <;> decide +kernel

/-- A paged stream of the hart whose block is that of `paging`, with rows done beyond the PROG it has stored at an address. -/
def pagedRow (done a : Nat) : Stream := { strm 8 with kind := .paged, rowElems := 2, consumed := 2 * done, progAddr := a }

/-- A suspended hart of another gang of the core keeps a stream number. -/
def reserved (sid : Nat) (s : State) : State :=
  { s with gangs := s.gangs ++ [(9, { suspended := true, saved := [⟨3, {}, [(sid, strm 1)]⟩] })] }

theorem witness_FlumeResult_room :
    (let s := flows
     (s.gangs.flatMap fun (_, g) => g.saved.flatMap (·.streams)) = [] ∧
     (s.streams.filter fun (k, _) => k / 16 = 0).length + (s.savedStreams 0).length < 16) ∧
    (let s : State := reserved 3 { flows with streams := (List.range 15).map fun k => (k + 1, strm 8) }
     s.calm (vf 11 10 6 2 0) ∧ Tab.find s.streams 0 = none ∧
     (∀ p ∈ s.gangs.flatMap fun (_, g) => g.saved.flatMap (·.streams), p.1 ≠ 0) ∧
     ¬((s.streams.filter fun (k, _) => k / 16 = 0).length + (s.savedStreams 0).length < 16)) ∧
    (let s : State := { flows with streams := (List.range 16).map fun k => (k, strm 8) }
     s.calm (vf 11 10 6 2 0) ∧ Tab.find s.streams 0 = some (strm 8) ∧ (strm 8).owner = s.cur ∧
     ¬((s.streams.filter fun (k, _) => k / 16 = 0).length + (s.savedStreams 0).length < 16)) ∧
    (let s := reserved 0 flows
     s.calm (vf 11 10 6 2 0) ∧ Tab.find s.streams 0 = none ∧
     (∃ p ∈ s.gangs.flatMap fun (_, g) => g.saved.flatMap (·.streams), p.1 = 0) ∧ s.me.catches) := by
  constructorm* _ ∧ _ <;> first | exact ⟨(0, strm 1), by decide +kernel, rfl⟩ | decide +kernel

theorem witness_FlumeResult_paged :
    (let f := vf 11 8 6 2 0
     let z (s : State) : State := (s.entered (.flpaged f) f).putHart s.cur { (s.entered (.flpaged f) f).me with vstart := 0 }
     (let s : State := mapped { paging with streams := [(0, pagedRow 0 0x40000)] }
      s.calm f ∧ Tab.find s.streams 0 = some (pagedRow 0 0x40000) ∧ (pagedRow 0 0x40000).rowsDone = (pagedRow 0 0x40000).progDone ∧
      okay (settleProg 0) (z s) (fun _ t1 => t1.cur = s.cur && decide (t1.ownScratch 0xFFF0000000001000 64) &&
        decide (t1.ownScratch 0xFFF0000000001080 8) && t1.badScratch.isEmpty && awake t1 && t1.rounds.isEmpty &&
        okay (stopStream 0) t1 fun _ t => t.cur = s.cur) = true) ∧
     (let s : State := { mapped { paging with streams := [(0, pagedRow 1 0x40000)] } with tlb := [tlb0 0x30002F] }
      s.calm f ∧ (match settleProg 0 (z s) with | .error .wait _ => true | _ => false) = true)) ∧
    (let p := PagedBlock.ofBytes (paging.scratch.readN (paging.scratchAt 0xFFF0000000001000) 64)
     p.ok 4 = true ∧ p.count = 1) ∧ (pagedRow 1 0).rowsDone ≠ (pagedRow 1 0).progDone := by
  constructorm* _ ∧ _ <;> decide +kernel

theorem witness_FlumeResult_scratch : flows.plainScratch (flows.scratchAt 0xFFF0000000001000) 64 ∧
    paging.plainScratch (paging.scratchAt 0xFFF0000000001000) 64 ∧ paging.plainScratch (paging.scratchAt 0xFFF0000000001080) 8 :=
  ⟨plain_of rfl rfl rfl, plain_of rfl rfl rfl, plain_of rfl rfl rfl⟩

theorem witness_FlumeResult_take :
    (let s := streaming (strm 8)
     s.vlOk (vf 2 0 0 2 0) 2 [2] ∧ (strm 8).fmt = 2 ∧ min (min s.me.vl.toNat 8) 16 ≤ 8 ∧
     (∀ i < 3, s.badScratchIn (s.scratchAt (0xFFF0000000002000 + i * 4)) 4 = none)) ∧
    (strm 0 (.entry 4)).stop = .entry 4 ∧ (strm 0).fetched - (strm 0).consumed = 0 ∧
    (let s := streaming { strm 8 with kind := .copy }
     s.calm (vf 2 0 0 2 0) ∧ s.me.catches ∧ Tab.find s.streams 0 = some { strm 8 with kind := .copy }) ∧
    (let s := (streaming (strm 8)).putHart 0 { flows.me with vstart := 1 }
     s.calm (vf 2 0 0 2 0) ∧ s.me.vstart ≠ 0 ∧ s.me.catches) ∧ (strm 8).fmt ≠ 3 ∧
    (strm 1).fetched < 3 ∧ (strm 1).stop = .none ∧ (strm 0 (.failure 0x05 0 7)).stop = .failure 0x05 0 7 ∧
    (strm 8).avl ≤ (strm 8).fetched ∧ (strm 1).fetched < (strm 1).avl ∧ (flows.me.getX 0).toNat ≤ (strm 1).fetched ∧
    (strm 1).fetched < min (flows.me.getX 5).toNat (strm 1).avl ∧ (∀ c d u, (strm 1).stop ≠ .failure c d u) ∧
    flows.me.allPushed = true ∧ (withHart fun h => { h with resv := [(1, 1)] }).me.allPushed = false := by
  constructorm* _ ∧ _ <;> first | exact (fun _ _ _ h => by cases h) | decide +kernel


theorem witness_FlumeMoves :
    (let x := strm 1
     let s := streaming x
     Tab.find s.streams (0 * 16 + 0) = some x ∧ s.streamFree 0 x = true ∧ x.fetched < x.avl ∧ x.fetched < x.consumed + x.cap ∧
     okay (match x.addr 1 with | some a => jobRead (s.ctx 0) a 4 | none => pure 0) s = true) ∧
    (let x := strm 8
     Tab.find (streaming x).streams (0 * 16 + 0) = some x ∧ (streaming x).streamFree 0 x = true ∧ x.avl ≤ x.fetched) ∧
    (let x := strm 1 (.failure 0x05 0 7)
     (streaming x).streamFree 0 x = false) ∧
    (let x := { strm 1 with kind := .copy, dst := 0x40100 }
     let s := streaming x
     s.streamFree 0 x = true ∧ x.dst = 0x40100 ∧ x.base + x.avl * 4 ≤ x.dst ∧
     okay (jobRead (s.ctx 0) (0x40004 : Nat) 4) s (fun v s1 => okay (jobWrite (s.ctx 0) (0x40104 : Nat) 4 v) s1) = true) ∧
    (let x := { strm 0 with kind := .foldo, dst := 0x40100, avl := 1 }
     let s := streaming x
     s.streamFree 0 x = true ∧ 0 < x.avl ∧ okay (jobRead (s.ctx 0) (x.dst : Nat) 4) s (fun a s0 =>
       okay (jobRead (s.ctx 0) (x.base : Nat) 4) s0 fun v s1 =>
         okay (jobWrite (s.ctx 0) (x.dst : Nat) 4 (redOp 0 2 0 0 a v).1) s1) = true) ∧
    (let x := { strm 1 with kind := .foldu, dst := 0x40100 }
     let s := streaming x
     s.streamFree 0 x = true ∧ x.fetched ≠ 0 ∧ x.fetched + 1 < x.avl ∧
     okay (jobRead (s.ctx 0) (0x40004 : Nat) 4) s = true ∧ ∀ a ∈ [1, 2], a < 2 ^ 32) := by
  constructorm* _ ∧ _ <;> decide +kernel

/-- A job meets a failure: an address past the scratchpad bounds, a page not there. -/
def failing (m : Exec Nat) (s : State) (trap : Bool) : Bool :=
  match m s with
  | .error (.trap ..) _ => trap
  | .error (.park ..) t => !trap && (Tab.find t.streams 0).isSome
  | _ => false

theorem witness_FlumeMoves_fold :
    (let x := { strm 7 with kind := .foldu, dst := 0x40100, strip := [1, 2] }
     let s := streaming x
     s.streamFree 0 x = true ∧ x.fetched + 1 = x.avl ∧ okay (jobRead (s.ctx 0) (0x4001C : Nat) 4) s (fun _ s1 =>
       okay (jobWrite (s.ctx 0) (x.dst : Nat) 4 3) s1) = true) ∧
    (let x := { strm 0 with kind := .foldu, dst := 0x40100, avl := 1 }
     let s := streaming x
     s.streamFree 0 x = true ∧ x.fetched + 1 = x.avl ∧ okay (jobRead (s.ctx 0) (x.dst : Nat) 4) s (fun _ s0 =>
       okay (jobRead (s.ctx 0) (x.base : Nat) 4) s0 fun v s1 => okay (jobWrite (s.ctx 0) (x.dst : Nat) 4 v) s1) = true) ∧
    (let x := { strm 255 with kind := .foldu, dst := 0x40100, avl := 300, strip := List.replicate 255 1 }
     let s := streaming x
     s.streamFree 0 x = true ∧ (1 :: x.strip).length = 256 ∧ x.fetched + 1 < x.avl ∧
     okay (jobRead (s.ctx 0) (0x403FC : Nat) 4) s = true) := by
  constructorm* _ ∧ _ <;> decide +kernel

theorem witness_FlumeMoves_stopped :
    (∀ p ∈ ([(0xFFF0000000010000, true), (0x40000, false)] : List (Nat × Bool)),
      let x := { strm 1 with base := p.1, stride := 0 }
      let s := { streaming x with port := { (streaming x).port with lostPkgs := [0] } }
      s.streamFree 0 x = true ∧ x.addr 1 = some (p.1 : Int) ∧ failing (jobRead (s.ctx 0) (p.1 : Nat) 4) s p.2 = true) ∧
    (∀ p ∈ ([(0xFFF0000000010000, true)] : List (Nat × Bool)),
      let x := { strm 7 with kind := .foldo, dst := p.1 }
      let s := streaming x
      s.streamFree 0 x = true ∧ x.fetched + 1 = x.avl ∧ okay (jobRead (s.ctx 0) (0x4001C : Nat) 4) s (fun v s1 =>
        failing (do jobWrite (s.ctx 0) (p.1 : Nat) 4 (redOp 0 2 0 0 0 v).1; return 0) s1 p.2) = true) ∧
    okay (postJobEntry st.me st.me.fqbase (entry 0x10 0) (some 0) none) (streaming (strm 1)) (fun _ t =>
      (Tab.find t.streams 0).isSome) = true := by
  constructorm* _ ∧ _ <;> decide +kernel

/-! ### Hypotheses met: Collator, Imposition, collectives -/

/-- A coordinate stream of n four-byte coordinates from 0xFFF0000000001100. -/
def crds (n : Nat) : ClDesc := 0xFFF0000000001100 + 2 ^ 64 * n

/-- A cursor over two streams, in a state, in its first segment or at its start. -/
def cursor (cfg state segin a b : Nat) : Nat := Cursor.toNat
  { adesc := a, bdesc := b, state := state, mode := 0, cfg := cfg, segin := segin, seg := 0, segend := 1
    a := ⟨0, 0, 0, 2, 0, 0⟩, b := ⟨0, 0, 0, 1, 0, 0⟩, emit := 0, fdet := 0, fcrd := 0, faddr := 0 }

def collating (c : Nat) (g : Hart → Hart := id) : State := vst 3 fun h => g { h with cursor := c }

/-- A descriptor block at x8. -/
def setting (e : Nat) : State := { vst 3 with scratch := Memory.writeN [] (scratchKey 0 0xFFF0000000001000) e 32 }

theorem witness_CollatorResult_set :
    (vst 3).calm (vf 2 8 5 2 0) ∧ (vst 3).me.vstart = 0 ∧ (vst 3).me.catches ∧
    (vst 3 fun h => { h with vstart := 1 }).me.vstart ≠ 0 ∧ (vst 3 fun h => { h with vstart := 1 }).calm (vf 2 8 5 2 0) ∧
    (vst 3).ownScratch 0xFFF0000000001000 32 ∧
    (let e : ClDesc := (setting (crds 2)).scratch.readN ((setting (crds 2)).scratchAt 0xFFF0000000001000) 32
     e = crds 2 ∧ ClDesc.enc e ≤ 1 ∧ ClDesc.stf e ≤ 2 ∧ ClDesc.reserved e = 0 ∧ ClDesc.base e % 4 = 0 ∧
     rangeOk (ClDesc.base e) (ClDesc.len e * ClDesc.unit e) = true ∧ ClDesc.nseg e = 0) ∧
    ClDesc.enc (crds 2 + 2 ^ 224 * 5) = 5 ∧ ClDesc.base (crds 2 + 2) % 4 ≠ 0 ∧
    rangeOk (ClDesc.base (2 ^ 55 + 2 ^ 64)) 4 = false ∧
    (let e : ClDesc := crds 2 + 2 ^ 128 * 2 ^ 55 + 2 ^ 192
     ClDesc.nseg e = 1 ∧ rangeOk (ClDesc.segt e) (2 * ClDesc.entry e) = false) := by
  constructorm* _ ∧ _ <;> decide +kernel

theorem witness_CollatorResult_run :
    (let s := collating (cursor 3 1 0 (crds 2) (crds 1))
     let k := Cursor.ofNat s.me.cursor
     s.calm (vf 2 0 5 2 0) ∧ k.cfg = 3 ∧ max (ClDesc.nseg k.adesc) 1 = max (ClDesc.nseg k.bdesc) 1) ∧
    (Cursor.ofNat (vst 3).me.cursor).cfg ≠ 3 ∧ (Cursor.ofNat (vst 3).me.cursor).state < 2 ∧
    (let k := Cursor.ofNat (cursor 3 1 0 (crds 2 + 2 ^ 192 * 2) (crds 1))
     k.cfg = 3 ∧ max (ClDesc.nseg k.adesc) 1 ≠ max (ClDesc.nseg k.bdesc) 1) ∧
    (let s := collating (cursor 3 2 0 (crds 2) (crds 1))
     let k := Cursor.ofNat s.me.cursor
     s.calm (vf 2 0 0 2 3) ∧ k.state = 2 ∧ 2 + (2 + 3 % 2 + 3 / 2 % 2) ≤ (s.side (vf 2 0 0 2 3)).nregs ∧
     s.vlOk (vf 2 0 0 2 3) 2 [] ∧ k.segin = 0 ∧ k.segend = k.seg + 1 ∧ ClDesc.nseg k.adesc = 0 ∧ ClDesc.nseg k.bdesc = 0 ∧
     s.me.vstart = 0 ∧ 0 < s.me.vl.toNat ∧ ClDesc.len k.adesc = 2 ∧ ClDesc.len k.bdesc = 1 ∧ ClDesc.enc k.adesc ≤ 1 ∧
     (∀ i < 2, s.ownScratch (ClDesc.base k.adesc + (0 + i) * ClDesc.unit k.adesc) (ClDesc.unit k.adesc)) ∧
     (∀ i, i + 1 < 2 → s.scratch.readN (s.scratchAt (0xFFF0000000001100 + i * 4)) 4 ≤ s.scratch.readN (s.scratchAt (0xFFF0000000001100 + (i + 1) * 4)) 4) ∧
     2 + 1 ≤ 2 * s.me.vl.toNat + 62) ∧
    (collating (cursor 3 3 0 (crds 2) (crds 1))).calm (vf 2 0 0 2 3) ∧
    (let s := collating (cursor 3 2 0 (crds 2) (crds 1)) fun h => { h with vstart := 3 }
     s.calm (vf 2 0 0 2 3) ∧ s.me.vl.toNat ≤ s.me.vstart.toNat) := by
  refine ⟨?_, by decide +kernel, by decide +kernel, ?_, ?_, by decide +kernel, ?_⟩
  · constructorm* _ ∧ _ <;> decide +kernel
  · constructorm* _ ∧ _ <;> decide +kernel
  · have e (k : Nat) : Memory.readN [] k 4 = 0 := by simp [Memory.readN, Memory.read, Tab.get, Memory.unlisted]
    constructorm* _ ∧ _ <;> first | exact fun i _ => Nat.le_of_eq ((e _).trans (e _).symm) | decide +kernel
  · constructorm* _ ∧ _ <;> decide +kernel

/-- A copy of the hart in flight, which writes the lines of x8's block and of the cursor's streams. -/
def copying (s : State) : State := { s with streams := [(0, { strm 1 with
  kind := .copy, job := 1, regions := region 0xFFF0000000001000 0xFFF0000000001400 true })] }

theorem witness_CollatorResult_waits :
    (let s := vst 3
     (s.earlierJobs s.cur (region 0xFFF0000000001000 0xFFF0000000001200 true)).all s.jobDone = true ∧
     (s.earlierJobs s.cur (Cursor.ofNat (cursor 3 1 0 (crds 2) (crds 1))).regions).all s.jobDone = true) ∧
    (let s := copying (vst 3)
     s.calm (vf 2 8 5 2 0) ∧ s.me.vstart = 0 ∧ (s.me.getX 8).toNat = 0xFFF0000000001000 ∧
     (s.earlierJobs s.cur (region 0xFFF0000000001000 0xFFF0000000001020 false)).all s.jobDone = false ∧
     (s.earlierJobs s.cur (region 0xFFF0000000001000 0xFFF0000000001200 true)).all s.jobDone = false) ∧
    ([1, 2].all fun state => let s := copying (collating (cursor 3 state 0 (crds 2) (crds 1)))
     let k := Cursor.ofNat s.me.cursor
     s.me.vstart = 0 && k.cfg = 3 && k.state = state && !(s.earlierJobs s.cur k.regions).all s.jobDone) = true := by
  constructorm* _ ∧ _ <;> decide +kernel

theorem witness_CollatorResult_split :
    (let s := collating (cursor 3 2 1 (crds 2) (crds 1))
     let k := Cursor.ofNat s.me.cursor
     let f := vf 2 0 0 2 1
     s.calm f ∧ 33 ≤ s.me.vlmax 2 ∧ 2 + 1 < (s.side f).nregs ∧ k.state = 2 ∧ k.segin = 1 ∧ bitAt k.a.flg 1 = false ∧
     k.a.end_ - k.a.unit = 2 ∧ k.b.end_ - k.b.unit = 1 ∧ ClDesc.enc k.adesc ≤ 1) ∧
    (let k := Cursor.ofNat (cursor 3 2 1 (crds 2 + 2 ^ 224 * 2) (crds 1))
     1 < ClDesc.enc k.adesc ∧ k.state = 2 ∧ k.segin = 1) ∧
    (Cursor.ofNat (cursor 3 3 0 (crds 2) (crds 1))).state = 3 ∧
    (vst 3).calm (vf 2 8 0 2 0) ∧ (vst 3).ownScratch 0xFFF0000000001000 512 ∧ 0xFFF0000000001000 % 64 = 0 ∧
    blockOk ((vst 3).scratch.readN ((vst 3).scratchAt 0xFFF0000000001000) 512) = true ∧ blockOk (2 ^ (8 * 0x44)) = false := by
  constructorm* _ ∧ _ <;> decide +kernel

theorem witness_CollatorResult_scratch : (vst 3).plainScratch ((vst 3).scratchAt 0xFFF0000000001000) 512 ∧
    ∀ a, (collating (cursor 3 2 0 (crds 2) (crds 1))).plainScratch a 4 := ⟨plain_of rfl rfl rfl, fun _ => plain_of rfl rfl rfl⟩

/-- h2 a handle of 2 by 2 words in the gang's scratchpad, with an IMPID or none; x9 the new base. -/
def imposing (x : Handle) (b : Word := 0xFFF0000000001040) : State := withHart fun h => { h with h := [(2, x)], x := [(9, b)] }
def tensor : Handle := { base := 0xFFF0000000001000, ext0 := 2, ext1 := 2, pitch1 := 8, rank1 := 1, fmt := 2 }

theorem witness_ImpositionResult :
    (let s := imposing tensor
     let g : Handle := { tensor with oldTag := 0, oldBase := tensor.base, tag := 1, base := 0xFFF0000000001040 }
     s.calm (vf 0 2 9 2 1) ∧ s.me.badh = [] ∧ Tab.find s.convs 0 = none ∧ tensor.impid = 0 ∧ tensor.tag.toNat < 4 ∧ tensor.fmt.toNat < 10 ∧ tensor.tiles ≤ 2 ^ 24 ∧
     (s.me.getX 9).toNat % 64 = 0 ∧ canonical (s.me.getX 9).toNat = true ∧
     spanAddr tensor.base.toNat (g.spanEnd 0 tensor.base.toNat) = none ∧ spanAddr g.base.toNat (g.spanEnd 1 g.base.toNat) = none ∧
     Machine.outOfBounds (s.ctx s.cur) tensor.base.toNat (g.spanEnd 0 tensor.base.toNat - tensor.base.toNat) = none ∧
     Machine.outOfBounds (s.ctx s.cur) g.base.toNat (g.spanEnd 1 g.base.toNat - g.base.toNat) = none ∧ s.me.catches) ∧
    ({ tensor with fmt := 12 } : Handle).fmt.toNat = 12 ∧ (4 : Word).toNat % 64 ≠ 0 ∧ canonical (0x0080000000000000 : Word).toNat = false ∧
    (imposing tensor 4).calm (vf 0 2 9 2 1) ∧ (imposing { tensor with impid := 5 }).calm (vf 0 2 9 2 1) := by
  constructorm* _ ∧ _ <;> decide +kernel

theorem freeImpids_mem (s : State) (i : Nat) (h0 : i ≠ 0) (hi : i < 4096) (h : Tab.find s.convs i = none) : s.freeImpids ≠ [] := by
  intro he
  have : i ∈ s.freeImpids := by simp [State.freeImpids, h, hi, h0]
  simp [he] at this

/-- A conversion of no tiles, and one of a tile of `tensor`. -/
def conv0 : Conv :=
  { job := 0, old := {}, new := {}, tiles := 0, bay := 0, hart := 0, pc := 0, task := 0, asHart := {}, splo := 0, sphi := 0 }
def conv1 : Conv := { conv0 with
  old := tensor, new := { tensor with tag := 1, base := 0xFFF0000000001040 }, tiles := 1, accepted := true
  splo := 0xFFF0000000000000, sphi := 0xFFF0000000010000 }

theorem find_map (l : List Nat) (i : Nat) (h : i ∈ l) : (Tab.find (l.map fun i => (i, conv0)) i).isNone = false := by
  induction l with
  | nil => simp at h
  | cons a t ih =>
    simp only [List.map_cons, Tab.find]
    split
    · rfl
    · exact ih ((List.mem_cons.1 h).resolve_left (by omega))

theorem witness_ImpositionResult_free : (imposing tensor).freeImpids ≠ [] ∧
    ∃ l : List (Nat × Conv), ({ imposing tensor with convs := l } : State).freeImpids = [] := by
  refine ⟨freeImpids_mem _ 1 (by decide) (by decide) rfl, (List.range 4096).map fun i => (i, conv0), ?_⟩
  rw [State.freeImpids, List.filter_eq_nil_iff]
  intro i hi
  simp [find_map _ i hi]

theorem witness_ImpositionResult_wait :
    (let s : State := { imposing { tensor with impid := 5 } with convs := [(5, conv0)] }
     Tab.find s.convs 5 = some conv0 ∧ conv0.tiles ≤ conv0.ndone ∧ conv0.token = none ∧ conv0.task = (s.gangOf s.me).task) ∧
    conv1.ndone < conv1.tiles ∧ (∀ a b u, conv1.stop ≠ .failure a b u) ∧
    ({ conv1 with stop := .failure 0x05 0 7 } : Conv).stop = .failure 0x05 0 7 ∧
    (let c := conv1
     let s : State := { st with convs := [(5, c)] }
     Tab.find s.convs 5 = some c ∧ c.accepted = true ∧ c.stop = .none ∧ c.after = [] ∧ c.got.length < (c.tileEls 0).length ∧
     okay (each (((c.tileEls 0).drop 0).take 128) fun l => jobRead c.ctx (c.oldAddr l) 4) s = true) ∧
    (let c := { conv1 with stored := [0] }
     let s : State := { st with convs := [(5, c)] }
     c.ndone ∈ c.stored ∧ okay (each (((c.tileEls 0).drop 0).take (c.tileEls 0).length) fun l => jobRead c.ctx (c.oldAddr l) 4) s = true) ∧
    (let c := { conv1 with got := [1, 2, 3, 4] }
     let part := (((c.tileEls 0).zip c.got).drop 0).take 128
     (c.tileEls 0).length ≤ c.got.length ∧ c.overlaps (c.tileEls 0) = false ∧
     okay (forAll part fun p => jobWrite c.ctx (c.newAddr p.1) 4 p.2) st = true) ∧
    (let c := { conv1 with new := { tensor with tag := 1 }, got := [1, 2, 3, 4] }
     let part := (((c.tileEls 0).zip c.got).drop 0).take 128
     c.overlaps (c.tileEls 0) = true ∧ okay (forAll part fun p => do jobWrite c.ctx (c.newAddr p.1) 4 (← freeBits 32)) st (fun _ t =>
       okay (blurEls c c.oldAddr (part.map (·.1))) t) = true) ∧
    (let c := { conv1 with sphi := 0xFFF0000000001000 }
     (match convertMove c (c.tileEls 0) st with
      | .error e t => e ≠ .wait && okay (blurEls c c.newAddr (c.tileEls 0)) t fun _ u => okay (convFault 5 { c with got := [], put := 0 } e) u
      | .ok .. => false) = true) := by
  refine ⟨?_, by decide, fun _ _ _ h => by (cases h), rfl, ?_, ?_, ?_, ?_, ?_⟩
  · constructorm* _ ∧ _ <;> decide +kernel
  · constructorm* _ ∧ _ <;> decide +kernel
  · constructorm* _ ∧ _ <;> decide +kernel
  · constructorm* _ ∧ _ <;> decide +kernel
  · constructorm* _ ∧ _ <;> decide +kernel
  · decide +kernel

/-- CG0 names rank 0 of the group whose descriptor is at 0x40000: n members, a buffer at 0x40200. -/
def grouped (n : Nat) : State := { mapped (vst 3 fun h => { h with cg := [(0, 0x40000)] }) with
  mem := Memory.writeN [] 0x300000 (n + 2 ^ 64 * 0x40200 + 2 ^ 128 * 0x1000) 64 }

def cf : VForm := vf 2 4 0 8 0

/-- After VCOLL has entered the queue with CG0 captured. -/
def collEntered (n : Nat) : State :=
  let s := grouped n
  (s.entered (.vcoll cf) cf).putHart s.cur { (s.entered (.vcoll cf) cf).me with viq := [{ s.me.capture (.vcoll cf) cf with x3 := 0x40000 }] }

def collCtx (n : Nat) : VCtx := { (grouped n).calmCtx (.vcoll cf) cf with e := { (grouped n).me.capture (.vcoll cf) cf with x3 := 0x40000 } }
def posCtx (s : State) : Ctx := { s.ctx s.cur with pos := (grouped 1).me.entered }

/-- An access kept the hart and the rounds. -/
def keeps (t u : State) : Bool := u.cur = t.cur && u.me = t.me && u.rounds = t.rounds

/-- The round of the first member's arrival in a group of n. -/
def firstRound (n serial : Nat) (da ba : Access) (added : Bool) : Round :=
  let p : Contribution := {
    job := serial, rank := 0, hart := 0, gang := 0, values := [0, 0, 0], active := (grouped n).me.governing 0 3, added := added
    regions := region 0x40000 0x40040 true ++ region 0x40200 (0x40200 + 560) true }
  { serial := serial, fmt := 8, vl := 3, nmem := n, parts := [p], desc := da, buf := ba }

/-- The arrival of a member and its phases, up to the words of the round in memory, for a group of n. -/
def arrives (n : Nat) : Bool :=
  let s0 := collEntered n
  okay (groupAccess (collCtx n) (posCtx s0)) s0 fun (da, g) s1 =>
    let key := groupKey da
    g.zero && g.nmem = n && g.buf = 0x40200 && g.size = 0x1000 && (s0.round key).parts.isEmpty && !(s0.round key).aborted &&
    (n = 0 || okay (bufferAccess (collCtx n) (posCtx s0) g) s1 fun ba s2 => okay (takeAccess (posCtx s0) (ba.slice ba.start 512)) s2 fun _ s3 =>
      keeps s0 s3 && okay (awaitBanks (posCtx s0) ba) s3 (fun _ t => t = s3) &&
      let put (t : State) (added : Bool) : State := { t with rounds := Tab.put {} t.rounds key (firstRound n s3.fresh da ba added) }
      let j : State := put { s3.putHart s3.cur { s3.me with
        viq := [{ s0.me.capture (.vcoll cf) cf with x3 := 0x40000, coll := some (key, s3.fresh) }], vstart := 1
        colls := Tab.set s3.me.colls 0 (key, s3.fresh) } with fresh := s3.fresh + 1 } false
      okay (scribble (posCtx s0) da ba false) j fun _ s4 => okay (scribbleSlots (posCtx s0) 0 ba) s4 fun _ s5 => keeps j s5 &&
        (n ≠ 1 || okay (awaitBanks (posCtx s5) ba) s5 (fun _ t => keeps s5 t) &&
          okay (scribbleSlots (posCtx s5) 0 ba) (put s5 true) fun _ s6 => keeps (put s5 true) s6 &&
            let u := s6.putHart s6.cur { s6.me with vstart := 2 }
            okay (scribble (posCtx u) da ba true) u fun _ s7 => keeps u s7)) &&
    (n ≠ 0 || okay (scribbleDesc (posCtx s0) da) { s1 with
        fresh := s1.fresh + 1, rounds := Tab.put {} s1.rounds key { serial := s1.fresh } } fun _ s2 =>
       s2.cur = s0.cur && s2.me = s0.me && s2.round key = { serial := s1.fresh })

theorem witness_CollectiveResult : (grouped 1).calm cf ∧ cf.fn.toNat < 5 ∧ (grouped 1).me.vl.toNat ≤ (grouped 1).me.vlmax 8 ∧
    4 < (grouped 1).me.nregs ∧ 512 + 16 * 3 = 560 ∧ cgRank 0x40000 = 0 ∧ cgDesc 0x40000 = 0x40000 ∧ (grouped 1).me.vstart = 0 ∧
    ((grouped 1).side cf).groupOk 4 (groupSize 3 32 512) ∧ ((grouped 1).side cf).groupOk 2 (groupSize 3 32 512) ∧
    ((grouped 1).earlierJobs 0 (region 0x40000 0x40040 true ++ region 0x40200 0x40430 true)).all (grouped 1).jobDone = true ∧
    (grouped 1).me.catches ∧ arrives 1 = true ∧ arrives 2 = true ∧ arrives 0 = true ∧
    (let s := vst 3 fun h => { h with vstart := 1 }
     s.calm cf ∧ s.me.vstart ≠ 0 ∧ s.me.vl.toNat ≤ s.me.vlmax 8 ∧ 4 < s.me.nregs ∧ Tab.find s.me.colls 0 = none) := by
  constructorm* _ ∧ _ <;> decide +kernel

/-- The round of a group of two with both contributions, and VCOLL of rank 0 at the head of the queue, waiting in it. -/
def contributed : State :=
  let p : Contribution := { job := 1, rank := 0, hart := 0, gang := 0, values := [1, 2, 3], active := 7 }
  let q : Contribution := { job := 2, rank := 1, hart := 8, gang := 1, values := [4, 5, 6], active := 7, added := true }
  let s := grouped 2
  { s.putHart 0 { s.me with viq := [{ s.me.capture (.vcoll cf) cf with x3 := 0x40000, coll := some (0x300000, 9) }], vstart := 1 } with
    rounds := [(0x300000, { serial := 9, fmt := 8, vl := 3, nmem := 2, parts := [p, q]
                            desc := [(0x40000, 64, .phys 0x300000 (s.domainAt 0 0x300000))]
                            buf := [(0x40200, 560, .phys 0x300200 (s.domainAt 0 0x300000))] })] }

theorem witness_CollectiveResult_phase :
    (let s := contributed
     let h := s.hart 0
     let r := s.round 0x300000
     let mine (q : Contribution) : Bool := q.hart = 0 && q.gang = h.gang && !q.remote
     let seen := r.parts.map fun q => if mine q then { q with added := true } else q
     match s.headOf 0, r.parts.find? mine with
     | some e, some p =>
       let x (t : State) : Ctx := { t.ctx 0 with pos := e.seq }
       let t0 : State := State.putHart { s with cur := 0 } 0 h
       let t1 : State := { t0 with rounds := Tab.put {} s.rounds 0x300000 { r with parts := seen } }
       e.instr = .vcoll cf && e.coll = some (0x300000, r.serial) && cf.p = 0 && cf.tpop = 0 && cf.tpsh = 0 && cf.rm ≠ 6 &&
       !h.vlPending && e.vl = some 3 && e.convoy = none && s.plan.ahead.isEmpty && !(h.rep.active && e.ends) && !r.aborted &&
       r.parts.length = r.nmem && (r.parts.all fun q => (q.added || mine q) && !q.remote) &&
       !Round.ended { r with parts := seen.map fun q => if q.rank = p.rank then { q with read := true } else q } &&
       (r.parts.any fun q => mine q && !q.added) && okay (awaitBanks (x t0) r.buf) t0 (fun _ t => t = t0) &&
       okay (scribbleSlots (x t0) r.op r.buf) t1 (fun _ t => t.cur = 0 && t.hart 0 = h && t.rounds = t1.rounds)
     | _, _ => false) = true ∧
    (busy.headOf 0).any (!·.isVcoll) = true ∧ st.headOf 0 = none := by decide +kernel

theorem witness_CollectiveResult_wait :
    (let s : State := { vst 3 fun h => { h with colls := [(0, 5, 9)] } with rounds := [(5, { serial := 9, nmem := 1, parts := [] })] }
     s.calm cf ∧ Tab.find s.me.colls 0 = some (5, 9) ∧ (s.round 5).serial = 9 ∧ (s.round 6).serial ≠ 9) ∧
    Tab.find (vst 3).me.colls 0 = none ∧ fmtIsInt 2 = true ∧ fmtIsInt 8 = false := by
  constructorm* _ ∧ _ <;> decide +kernel

/-! ### Hypotheses met: the machine -/

theorem witness_ScalarFrame : st.me.tvec.getLsbD 0 = true ∧ st.me.tstat.inh = false ∧ (∃ t, exec (.alu (sf 0)) st = .next t) ∧
    (let s := withHart fun h => { h with tvec := 0, tstat := { inh := true } }
     match exec (.nop (im 0)) s with | .next t => decide (t.me.run = .running) | _ => false) = true :=
  ⟨by decide, by decide, ⟨_, rfl⟩, by decide⟩

theorem witness_MemoryFrame : (mapped st).sectors = [] ∧ Tab.find (mapped st).domains (0x300000 / 32) = some (st.slot0 0x300000) ∧
    (∀ i < 8, (mapped st).vague ((mapped st).ctx 0).h.colls (0x300000 + i) = false) ∧
    okay (readAccess ((mapped st).ctx 0) true false [(0x40000, 8, .phys 0x300000 (st.slot0 0x300000))]) (mapped st) = true ∧
    okay (writeAccess ((mapped st).ctx 0) true false 5 [(0x40000, 8, .phys 0x300000 (st.slot0 0x300000))]) (mapped st) = true ∧
    okay (writeAccess ((mapped st).ctx 0) true true 5 [(0x40000, 8, .phys 0x300000 (st.slot0 0x300000)),
      (0x40080, 8, .phys 0x300080 (st.slot0 0x300080))]) (mapped st) = true ∧ ((mapped st).ctx 0).probe = false ∧
    ((mapped st).ctx 0).keep = true ∧ Tab.find (mapped st).domains (0x300080 / 32) = some (st.slot0 0x300080) := by
  decide +kernel

/-- A hart at a parcel of mapped memory. -/
def fetching (w : Nat) : State := placed (mapped { withHart fun h => { h with pc := 0x40000 } with
  mem := Memory.writeN [] 0x300000 w 4 })

/-- R53: a core's L1I holds what it fetched, and placing a gang there invalidates it. -/
theorem test_l1i : okay (fetchParcel ((fetching 0x1B).ctx 0) 0x40000) (fetching 0x1B) (fun _ t =>
    t.heldParcel 0 (st.slot0 0x300000) 0x300000 = some 0x1B ∧
    (t.dropL1i 0).heldParcel 0 (st.slot0 0x300000) 0x300000 = none) = true := by decide +kernel

/-- R378: a translation is evicted. -/
theorem test_evict_translation : (match step { mapped st with arrays := (mapped st).tlb.map .translation } with
    | .next t => t.tlb.length < (mapped st).tlb.length
    | _ => false) = true := by decide +kernel

theorem witness_StepRunsDecoded : (fetching 0x1B).stopped = false ∧ (fetching 0x1B).crowded = none ∧ (fetching 0x1B).arrays = [] ∧
    (fetching 0x1B).me.members = [] ∧ (fetching 0x1B).agenda = [] ∧
    (fetching 0x1B).unitMove = none ∧ (fetching 0x1B).runs (fetching 0x1B).cur = true ∧
    okay (fetchParcels ((fetching 0x1B).ctx 0) 0x40000) (fetching 0x1B) (fun ps _ => match decodeParcels ps with
      | .ok (i, _) => i.wf && placedRight (opcodeOf (ps.headD 0)).toNat 0x40000
      | .error _ => false) = true ∧
    okay (fetchParcels ((fetching 0).ctx 0) 0x40000) (fetching 0) (fun ps _ => match decodeParcels ps with
      | .ok _ => false
      | .error _ => true) = true ∧
    (match fetchParcels (st.ctx 0) 0x0080000000000000 st with | .error .wait _ => false | .error _ _ => true | .ok _ _ => false) = true ∧
    (let s : State := { mapped st with
       tlb := [tlb0 0x30002F] }
     (match fetchParcels (s.ctx 0) 0x40000 s with | .error .wait _ => true | _ => false) = true) ∧
    (let s := withHart fun h => { h with run := .asleep 5 100 }
     s.unitMove = none ∧ s.runs s.cur = false) ∧
    (withHart fun h => { h with members := [(.vint (vf 2 4 6 2 0), vf 2 4 6 2 0)] }).me.members.length = 1 ∧
    ({ st with arrays := [.sector 5] } : State).arrays = [.sector 5] ∧
    ({ busy with clock := 1 } : State).unitMove = some (.vectorIssue 0) ∧ ({ st with agenda := [.vectorIssue 0] } : State).agenda = [.vectorIssue 0] := by
  constructorm* _ ∧ _ <;> decide +kernel

theorem witness_InvariantKept : State.reset.inv ∧ st.inv ∧ st.stopped = false ∧ 
    (fetching 0x1B).inv ∧ (match step (fetching 0x1B) with | .next _ => true | _ => false) = true := by
  constructorm* _ ∧ _ <;> decide +kernel

theorem witness_RoundTrip : (Instr.vint (vf 2 4 6 2 0)).wf = true ∧
    decode [0x1B, 0x00, 0x00, 0x00] = .ok (.nop { im 0 with rs1 := 0, rd := 0 }, []) := by decide

/-! ### A program comes to run: withFetchWord -/

theorem test_first_step_runs_word : (match step (State.reset.withFetchWord 32 0x0000001B) with
    | .next t => (t.hart 0).pc = ((State.reset.withFetchWord 32 0x0000001B).hart 0).pc + 4
    | _ => false) = true := by decide +kernel

/-! ### WellFormed: an ill-formed term for each check -/

/-- Forms of zeros. -/
def s0 : SForm := { fn := 0, gn := 0, g := 0, rs2 := 0, rs1 := 0, rd := 0 }
def i0 : IForm := { imm := 0, gn := 0, g := 0, rs1 := 0, rd := 0 }
def m0 : MForm := { imm := 0, scope := 0, ord := 0, w := 0, rs1 := 0, rd := 0 }

theorem test_wf_scalar : ([
    .mul { s0 with fn := 4 }, .div { s0 with fn := 20 }, .bitc { s0 with rs2 := 1 }, .cmp { s0 with rd := 8 },
    .glog { s0 with fn := 9 }, .sel { s0 with fn := 16 }, .fma { s0 with fn := 4 }, .fsqrt { s0 with fn := 1 },
    .fcmp { s0 with rd := 8 }, .fcvt { s0 with fn := 0, rs2 := 0 }, .clnr { s0 with rd := 1 }, .invr { s0 with rd := 1 },
    .cflr { s0 with rd := 1 }, .waita { s0 with fn := 6 }, .launch { s0 with fn := 6 }, .wmpub { s0 with rd := 1 },
    .wmwait { s0 with fn := 6 }, .kdnew { s0 with rs1 := 1 }, .kdnewRecycle { s0 with fn := 1, rs2 := 1 },
    .kdend { s0 with rs2 := 1 }, .pgref { s0 with fn := 3 }, .pgrefNew { s0 with fn := 1, rs2 := 1 },
    .pgrefSeal { s0 with fn := 3 }, .pgunref { s0 with rs2 := 1 }, .tlbinvPage { s0 with fn := 8 },
    .tlbinvAsid { s0 with fn := 1, rs2 := 1 }, .tlbinvAll { s0 with fn := 2, rs1 := 1 }, .preempt { s0 with rs2 := 1 },
    .fqdone { s0 with fn := 5 }, .migr { s0 with fn := 1 }, .ptset { s0 with rs2 := 1 }, .shi { i0 with imm := 512 },
    .lit32 { i0 with imm := 2 } 0, .lit64 { i0 with imm := 1 } 0, .lea { i0 with imm := 512, rs1 := 1 },
    .cmpi { i0 with imm := 512, rd := 8 }, .cbr { i0 with rd := 6 }, .rep { i0 with rs1 := 0 }, .nop { i0 with imm := 1 },
    .stkfence { i0 with imm := 256 }, .gsync { i0 with rd := 1 }, .fork { i0 with rs1 := 1 }, .join { i0 with rd := 1 },
    .joinl { i0 with rs1 := 1 }, .yield { i0 with rd := 1 }, .halt { i0 with imm := 1 }, .trap { i0 with imm := 256 },
    .tret { i0 with rs1 := 1 }, .ld { m0 with w := 7 }, .st { m0 with w := 4 }, .amo { m0 with scope := 6 },
    .cas { m0 with w := 1 }, .fence { m0 with rd := 1 }, .pfetch { m0 with rd := 1 }, .hset { m0 with rd := 16 },
    .hget { m0 with ord := 1 }, .srd { num := 0x009, rd := 1 }, .swr { num := 0x019, rd := 1 },
    .convoyHeader ⟨0, 7, 7, 7, 7, 7, 0, 0⟩, .convoyHeader ⟨0, 7, 7, 7, 7, 0, 0, 0⟩, .convoyHeader ⟨0, 0, 1, 2, 3, 4, 5, 5⟩,
    .vectorIssue 0, .doorbell 0 0] : List Instr).all (fun i => !i.wf) = true := by decide

theorem test_wf_vector : ([
    .setvl (vf 0 2 0 0 1), .setvlw (vf 0 2 4 15 0), .vcfg (vf 0 0 0 0 4), .vint (vf 0 2 4 0 15), .vmul (vf 0 2 4 0 6),
    .vsat (vf 0 2 4 0 9), .vmulw (vf 0 2 4 0 6), .vaddw (vf 0 2 4 0 6), .vnarrow (vf 0 2 4 0 6), .vabsd (vf 0 2 4 0 5),
    .vbitc (vf 0 2 0 0 5), .vfalu (vf 0 2 4 8 9), .vfma (vf 0 2 4 8 5), .vfdiv (vf 0 2 0 8 3), .vfsqrt (vf 0 2 0 8 2),
    .vfexp2 (vf 0 2 0 8 2), .vfclass (vf 0 2 0 8 1), .vcmp (vf 8 2 4 2 0), .vmlog (vf 8 2 4 0 0), .vmpop (vf 0 2 0 0 3),
    .vsel (vf 0 2 4 0 1), .vcvt (vf 0 2 0 2 15), .vquant (vf 0 2 4 12 3), .vblkhdr (vf 0 2 0 12 3), .vperm (vf 0 2 4 0 1),
    .vpermb (vf 2 4 6 0 2), .vslide { vf 2 4 0 2 5 with xs := 1 }, .vcompress (vf 0 2 0 0 2), .vexpand (vf 0 2 0 0 2),
    .vsplat (vf 0 2 0 0 2), .vmvx (vf 0 2 0 0 3), .vmvv (vf 0 2 0 0 2), .viota (vf 0 2 0 0 3), .vred (vf 0 2 0 0 8),
    .vredo (vf 0 2 0 0 8), .vscan (vf 0 2 4 4 0), .vrecur (vf 0 2 4 0 1), .vtopk (vf 0 2 0 0 2), .vld (vf 0 2 0 2 1),
    .vldff (vf 0 2 0 2 1), .vldx (vf 0 2 4 2 12), .vst (vf 0 2 0 2 2), .vstx (vf 0 2 4 2 12), .vstxa (vf 0 2 4 0 2),
    .vldh (vf 0 2 4 2 4), .vsth (vf 0 2 4 2 8), .vls (vf 0 0 0 10 0), .vmma (vf 0 2 4 0 4), .vmmax (vf 0 2 4 0 4),
    .vmmaq (vf 0 2 4 12 12), .tld (vf 0 2 4 2 15), .tst (vf 0 2 4 2 15), .tmov (vf 0 2 4 2 8), .tzero (vf 0 0 0 0 1),
    .tflags (vf 0 0 0 0 2), .vsoft (vf 0 2 4 6 4), .vsmerge (vf 0 0 0 0 1), .yxfer { vf 0 0 0 0 2 with p := 1 },
    .vcoll (vf 0 2 0 0 5), .fbind (vf 0 2 0 0 1), .frel (vf 0 0 0 0 1), .fdone { vf 0 0 0 0 1 with p := 1 },
    .yired { vf 0 0 0 2 8 with p := 1 }, .ybop { vf 0 2 4 0 6 with p := 1 }, .ysync { vf 0 0 0 0 1 with p := 1 },
    .flstream (vf 0 2 4 10 0), .flpaged (vf 0 2 0 10 0), .flcopy (vf 0 2 4 10 0), .flwait (vf 0 2 0 1 0),
    .flstop (vf 0 0 0 1 0), .clset (vf 0 2 0 0 2), .clsplit (vf 0 0 0 2 2), .clrun (vf 0 2 4 0 8), .clnext (vf 0 0 0 2 4),
    .clsave (vf 0 2 0 0 1), .clrest (vf 0 2 0 0 1), .impose (vf 0 2 4 0 4), .impwait (vf 0 2 0 0 1),
    .collwait (vf 0 0 0 0 1), .tkclr (vf 0 0 0 0 1)] : List Instr).all (fun i => !i.wf) = true := by decide

theorem test_wf_shared : ([
    .vint { vf 0 2 4 2 0 with slot := 1 }, .vint { vf 0 2 4 2 0 with g := 1 }, .vint { vf 0 2 4 2 0 with rm := 1 },
    .vint { vf 0 2 4 2 0 with vs3 := 1 }, .vint { vf 8 2 4 2 0 with p := 1 }, .vint { vf 0 2 4 2 0 with pshu := 1 },
    .vint { vf 0 2 4 2 0 with tpsh := 1, pshu := 7 }, .vint { vf 0 2 4 2 0 with tpop := 1, popu := 0 },
    .vfalu { vf 0 2 4 8 0 with rm := 7 }, .vfalu { vf 0 2 4 8 0 with p := 1, rm := 5 }, .vld { vf 0 2 0 2 0 with rm := 6 },
    .vld { vf 0 2 0 2 0 with g := 2 }, .vst { vf 0 2 0 2 0 with g := 1 }, .vmulw (vf 1 2 4 1 0), .vmulw (vf 2 2 4 1 0)] : List Instr).all (fun i => !i.wf) = true := by decide

/-! ### Decoding: words of the spec's examples -/

/-- The parcels decode to the instruction alone. -/
def word (ps : List (BitVec 32)) (i : Instr) : Bool := decide (decode (ps.flatMap bytesOfParcel) = .ok (i, []))

/-- A V form of zeros with VD, VS1, VS2, FMT and FN. -/
def vw (vd vs1 vs2 : BitVec 6) (fmt fn : BitVec 4) : VForm := vf vd vs1 vs2 fmt fn

/-- The program of R133's chapter, and the guarded add. -/
theorem test_decode_scalar : (word [0x00000709, 0x0000000A] (.lit32 { i0 with rd := 7 } 10) && word [0x00000604] (.addi { i0 with rd := 6 }) &&
    word [0x0000090E] (.cmpi { i0 with rd := 9 }) && word [0x0040E01A] (.rep { i0 with imm := 1, rs1 := 7 }) &&
    word [0x001CC601] (.alu { s0 with rs2 := 7, rs1 := 6, rd := 6 }) && word [0x00450804] (.addi { i0 with imm := 1, g := 1, rs1 := 8, rd := 8 }) &&
    word [0x0000001B] (.nop i0)) = true := by decide

/-- R271, R276, R279, R290, R317, R318, R345, R362. -/
theorem test_decode_memory : (word [0x5DE58A1E] (.amo { m0 with imm := 23, scope := 3, ord := 3, w := 1, rs1 := 12, rd := 10 }) &&
    word [0x01400040] (.stkfence { i0 with imm := 5 }) && word [0x00416041] (.clnr { s0 with rs2 := 16, rs1 := 11 }) &&
    word [0x0041A042] (.invr { s0 with rs2 := 16, rs1 := 13 }) && word [0x000AB71D] (.st { m0 with rs1 := 21, rd := 23, w := 2 }) &&
    word [0x4818AA44] (.waita { s0 with fn := 9, rs2 := 6, rs1 := 5, rd := 10 }) &&
    word [0x1818AA4D] (.wmwait { s0 with fn := 3, rs2 := 6, rs1 := 5, rd := 10 })) = true := by decide

/-- R31, R345, R357 to R361, R370, R386 to R398, R408 to R417. -/
theorem test_decode_system : (word [0x01400A46] (.fork { i0 with imm := 5, rd := 10 }) && word [0x00000047] (.join i0) &&
    word [0x00000B48] (.joinl { i0 with rd := 11 }) && word [0x00000045] (.gsync i0) && word [0x00000049] (.yield i0) &&
    word [0x0000AA58] (.preempt { s0 with rs1 := 5, rd := 10 }) && word [0x0000AA55] (.pgref { s0 with rs1 := 5, rd := 10 }) &&
    word [0x0800AA55] (.pgrefNew { s0 with fn := 1, rs1 := 5, rd := 10 }) &&
    word [0x1018AA55] (.pgrefSeal { s0 with fn := 2, rs2 := 6, rs1 := 5, rd := 10 }) &&
    word [0x0000AA56] (.pgunref { s0 with rs1 := 5, rd := 10 }) && word [0x0018AA5C] (.migr { s0 with rs2 := 6, rs1 := 5, rd := 10 }) &&
    word [0x0000AA54] (.kdend { s0 with rs1 := 5, rd := 10 }) && word [0x00000A53] (.kdnew { s0 with rd := 10 }) &&
    word [0x0800AA53] (.kdnewRecycle { s0 with fn := 1, rs1 := 5, rd := 10 }) &&
    word [0x0800AA5D] (.ptset { s0 with fn := 1, rs1 := 5, rd := 10 }) &&
    word [0x2018A057] (.tlbinvPage { s0 with fn := 4, rs2 := 6, rs1 := 5 }) && word [0x01C0A050] (.trap { i0 with imm := 7, rs1 := 5 }) &&
    word [0x00000051] (.tret i0) && word [0x0006754E] (.srd { num := 0x33, rd := 21 })) = true := by decide

/-- R60, R65, R149, R162, R168, R284, R287: near, far and scalar operands; the convoy header of chapter 2. -/
theorem test_decode_vector : (word [0x28308183, 0x00000C80] (.vint { vw 1 2 3 2 0 with vm := 2, p := 1, slot := 3 }) &&
    word [0x00008183, 0x80000085] (.vint { vw 1 2 0 2 0 with vs3 := 5, xs := 1 }) &&
    word [0x0001059A, 0x80000005] (.vslide { vw 5 4 0 0 0 with vs3 := 5, xs := 1 }) &&
    word [0x01410699, 0x00000005] (.vpermb { vw 6 4 20 0 0 with vs3 := 5 }) && word [0x0001C783, 0xC0000007] (.vint { vw 7 7 0 0 8 with vs3 := 7, xs := 1 }) &&
    word [0x0161C886, 0x00000000] (.vmulw (vw 8 7 22 0 0)) && word [0x000042A1, 0x80000200] (.vred { vw 2 1 0 8 0 with xs := 1 }) &&
    word [0x004146AA, 0x10000081] (.vstx { vw 6 5 4 2 2 with vs3 := 1 }) && word [0x004147A8, 0x00000081] (.vldx { vw 7 5 4 2 0 with vs3 := 1 }) &&
    word [0x00A088AC, 0x0000018B] (.vldh { vw 8 2 10 6 0 with vs3 := 11 }) &&
    word [0x5FFE18C0] (.convoyHeader ⟨2, 7, 7, 7, 7, 0, 3, 0⟩)) = true := by decide

/-- R181, R193, R205 to R220, R307 to R330. -/
theorem test_decode_engines : (word [0x010200AF, 0x00004180] (.vmma { vw 0 8 16 6 0 with g := 2 }) &&
    word [0x004040B7, 0x08000180] (.vsoft (vw 0 1 4 6 1)) && word [0x000180CC, 0x08000000] (.clset (vw 0 6 0 0 1)) &&
    word [0x0081C0CE, 0x10000000] (.clrun (vw 0 7 8 0 2)) && word [0x000008CF, 0x080000C0] (.clnext (vw 8 0 0 3 1)) &&
    word [0x00000CCD, 0x08000080] (.clsplit (vw 12 0 0 2 1)) && word [0x000400D0, 0] (.clsave (vw 0 16 0 0 0)) &&
    word [0x000400D1, 0] (.clrest (vw 0 16 0 0 0)) && word [0x00614BC7, 0x00000207] (.flstream { vw 11 5 6 8 0 with vs3 := 7 }) &&
    word [0x000004AE, 0x00000200] (.vls (vw 4 0 0 8 0)) && word [0x0001CBC8, 0x10000180] (.flpaged (vw 11 7 0 6 2)) &&
    word [0x200241B9, 0x000008C0] (.yxfer { vw 1 9 0 3 0 with p := 1, slot := 2 }) &&
    word [0x20000CC3, 0x00000C00] (.fdone { vw 12 0 0 0 0 with p := 1, slot := 3 }) &&
    word [0x200380C4, 0x20000200] (.yired { vw 0 14 0 8 4 with p := 1 }) &&
    word [0x20C2CDC5, 0x0000018A] (.ybop { vw 13 11 12 6 0 with p := 1, vs3 := 10 }) && word [0x000000D5, 0] (.tkclr (vw 0 0 0 0 0))) = true := by
  decide
/-! ### One step each: the spec's worked examples -/

/-- A hart with VL and registers, at one vector instruction. -/
def regs (n : BitVec 16) (v : List (Nat × Nat)) : State := vst n fun h => { h with v := v }

/-- What a step leaves in element i of a register, and in its hart. -/
def after (o : Host.Outcome State Fault Refusal) (p : Hart → Bool) : Bool := match o with | .next t => p t.me | _ => false

/-- R102's chapter: two elements rounded stochastically to BF16 from SRSEED 1. -/
theorem test_stochastic_rounding : after (exec (.vcvt { vf 2 4 0 6 8 with rm := 5 }) (regs 2 [(4, 0x3F80FC003F806000)])) (fun h =>
    elemAt (Tab.get 0 h.v 2) 0 16 = 0x3F80 && elemAt (Tab.get 0 h.v 2) 1 16 = 0x3F81 && h.srseed = 0x04080601 && h.flags = 0x10) = true := by
  decide +kernel

/-- R166's chapter: the tree gives 1 + 2^−22, and the sequential order 1.0, for 1.0 and four copies of 2^−24. -/
theorem test_reduction_order :
    let s := regs 5 [(1, 0x3F800000 + 2 ^ 32 * 0x33800000 + 2 ^ 64 * 0x33800000 + 2 ^ 96 * 0x33800000 + 2 ^ 128 * 0x33800000)]
    after (exec (.vred { vf 2 1 0 8 0 with xs := 1 }) s) (fun h => elemAt (Tab.get 0 h.v 2) 0 32 = 0x3F800002 && h.flags = 0x10) = true ∧
    after (exec (.vredo { vf 2 1 0 8 0 with xs := 1 }) s) (fun h => elemAt (Tab.get 0 h.v 2) 0 32 = 0x3F800000) = true := by
  decide +kernel

/-- R201: 1.0, 2^−30 and −1.0 give 2^−30 with no flag; with 2^−70 as well, the same and NX. -/
theorem test_collective_sum : collCombine 0 8 [0x3F800000, 0x30800000, 0xBF800000] = (0x30800000, 0) ∧
    collCombine 0 8 [0x3F800000, 0x30800000, 0xBF800000, 0x1C800000] = (0x30800000, Fp.NX) := by decide +kernel

/-- R381's example: the frame and key slot of a leaf, and the Landing that owns it. -/
theorem test_leaf : leafPa false 0x02A0000000350319 0x000012349ABC = 0x359ABC ∧ leafSlot 0x02A0000000350319 = 42 ∧
    leafGen 0x02A0000000350319 = 3 ∧ landingOf 0x359ABC = 5 := by decide +kernel

/-- R443: SHA-384 of the three bytes "abc", as FIPS 180-4 gives it. -/
theorem test_sha384 : sha384 [0x61, 0x62, 0x63] = ofBytes (Sha.bigEndian 48
    0xcb00753f45a35e8bb5a03d699ac65007272c32ab0eded1631a8b605a43ff5bed8086072ba1e7cc2358baeca134c825a7) := by decide +kernel

/-- R79 to R81: an object whose text is one LIT32 and a NOP, with a size relocation of 2 VLMAXB − 8 at the LIT32; at 32
lanes and VCFG 1, VLMAXB is 8,192. Its other fields are those of the header's table. -/
def mbo (op : Nat) : List Byte :=
  [(4, 0x014F424D), (2, 1), (2, 0), (2, 4), (2, 2048), (1, 1), (1, 4), (1, 2), (1, 3), (4, 4096), (1, 16), (3, 0), (8, 0),
    (4, 1), (4, 1), (8, 64), (8, 96), (8, 0), (1, 1), (1, 6), (6, 0), (8, 112), (8, 12), (8, 0x1000), (8, 0), (4, 2),
    (4, 0xFFFFFFF8), (4, op), (4, 0), (4, 0x1B)].flatMap fun (n, v) => fieldBytes n v

theorem test_load_object : (match loadObject (mbo 0x09) 32 0x100000 with
      | .ok o => o.image = [(0x1000, fieldBytes 4 0x09 ++ fieldBytes 4 16376 ++ fieldBytes 4 0x1B)] &&
          o.record.entry = 0x101000 && o.record.vcfg = 1 && o.record.harts = 2 && o.record.farctx = 3 &&
          o.record.scratch = 4096 && o.record.tilerows = 16
      | .error _ => false) = true ∧
    (match loadObject (mbo 0x1B) 32 0 with | .error .site => true | _ => false) = true ∧
    (match loadObject (mbo 0x09) 2 0 with | .error .lanes => true | _ => false) = true := by decide +kernel

end Sys2Proof.Tests
end

section
/-! SUPPORT. How a vector instruction alone in its queue enters, issues, and completes or stops, whatever its entry changes and
whether or not it owes an x register. -/

namespace Sys2Proof.Machine

open Sys2Proof

variable {s t : State} {g h : Hart} {i : Instr} {f : VForm} {op : BitVec 8} {e : VEntry} {hook : EntryHook} {b : Body}

/-- A computation goes on from where its first part ends. -/
theorem run_bind_ok {α β : Type} {m : Exec α} {k : α → Exec β} {x : α} (hm : m s = .ok x t) :
    (m >>= k) s = k x t := by
  rw [run_bind, hm]

/-! ### The turn's own hart -/

/-- No head of another hart of the core competes, whatever the hart of the turn has queued (R352). -/
theorem rivals_alone (ha : s.alone) (u : Nat) : (s.putHart s.cur h).rivals s.cur u = false := by
  obtain ⟨-, -, hothers⟩ := ha
  unfold State.rivals
  rw [List.any_eq_false]
  rintro ⟨j, x⟩ hj hrival
  simp only [ne_eq, Bool.and_eq_true, decide_eq_true_eq] at hrival
  obtain ⟨⟨hne, hcore⟩, hunit⟩ := hrival
  rcases Tab.mem_put_or _ hj with heq | hmem
  · exact hne (Prod.ext_iff.mp heq).1
  · have hidle : x.viq = [] := hothers _ hmem hne hcore
    simp [Hart.headUnits, hidle] at hunit

/-- Nor does the plan delay the hart (log 2). -/
theorem late_alone (ha : s.alone) : (s.putHart s.cur h).late s.cur = false := by
  obtain ⟨-, hlate, -⟩ := ha
  exact hlate

theorem filling_of_no_members (hm : h.members = []) : h.filling = false := by simp [Hart.filling, hm]

/-! ### Entry (R107) -/

/-- Entry into an empty queue with room, its hook having changed the hart of the turn to g. -/
theorem enterQueue_hook (hv : s.me.viq = []) (hr : s.me.tstat.inh = true → s.me.noRoom = false)
    (hh : s.me.held.length < 64) (hk : hook (s.me.capture i f) s = .ok e (s.putHart s.cur g)) :
    enterQueue i f hook s = .ok true (s.putHart s.cur (g.enqueue i e)) := by
  simp [enterQueue, ready_of_empty _ hv, findRoom_calm hv hr hh, hk, hv]

/-- What is queued on an empty queue is the entry, perhaps marked as the end of a pass (R134). -/
theorem enqueue_viq (hv : g.viq = []) : ∃ m, (g.enqueue i e).viq = [{ e with ends := m }] := by
  unfold Hart.enqueue Hart.advance Hart.retire
  dsimp only
  rw [hv, List.nil_append]
  split_ifs
  · exact ⟨e.ends, by simp⟩
  · by_cases ho : e.owes g.rep.reg.toNat = true
    · exact ⟨true, by simp [markEnd, ho]⟩
    · exact ⟨e.ends, by simp [markEnd, ho]⟩
  · exact ⟨e.ends, rfl⟩
  · exact ⟨e.ends, rfl⟩

/-- An entry that owes no x register and trims no VL: the scalar side moves on as it would with nothing queued. -/
theorem enqueue_idle (hv : g.viq = []) (ho : ∀ r, e.owes r = false) (hm : g.members = []) (hp : g.vlPending = false)
    (ht : trims i = false) : g.enqueue i e = { g.advance 8 with viq := [e], entered := g.entered + 1 } := by
  have hready : g.ready [g.rep.reg.toNat] = true := ready_of_empty _ hv _
  have hready' : ({ g with viq := [e], entered := g.entered + 1 } : Hart).ready [g.rep.reg.toNat] = true := by
    simp [Hart.ready, ho]
  have hq : ({ g with
      viq := g.viq ++ [e], entered := g.entered + 1
      vlPending := g.vlPending || trims i, members := g.members.tail } : Hart) =
      { g with viq := [e], entered := g.entered + 1 } := by simp [hv, hm, hp, ht]
  unfold Hart.enqueue
  rw [hq]
  unfold Hart.advance Hart.retire
  simp only [hready, hready', if_true]
  unfold Hart.closePass Hart.setX Hart.getX
  dsimp only
  split_ifs <;> rfl

/-! ### Issue and completion (R352, R144) -/

theorem takeTokens_head (hq : h.viq = [e]) (hpop : f.tpop = 0) (hpsh : f.tpsh = 0) :
    takeTokens e f (s.putHart s.cur h) = .ok e (s.putHart s.cur h) := by
  simp only [takeTokens, hpop, hpsh, run_bind, run_me]
  simp [setHead, hq]
  rw [← hq]

/-- The only entry of a queue runs its body, and leaves the queue unless that stops. -/
theorem issueHead_single (hq : h.viq = [e]) (hi : e.instr.vForm = some (op, f)) (hpop : f.tpop = 0) (hpsh : f.tpsh = 0)
    (he : e.early = 0) (hf : e.flush = false) :
    issueHead b (s.putHart s.cur h) = match b e f (s.putHart s.cur h) with
      | .ok _ t => .ok () (t.putHart t.cur t.me.leave)
      | .error st t => .error st t := by
  have hd : e.doneAhead = false := by simp [VEntry.doneAhead, he]
  simp only [issueHead, run_bind, run_me, me_putHart, hq, hi, takeTokens_head hq hpop hpsh, hd, Bool.false_eq_true, if_false]
  cases b e f (s.putHart s.cur h) with
  | ok r t => simp [completeHead, hpsh, Hart.leave, hf]
  | error st t => rfl

section Alone
variable (ha : s.alone) (hent : enterQueue i f hook s = .ok true (s.putHart s.cur h)) (hm : h.members = []) (hq : h.viq = [e])
  (hi : e.instr.vForm = some (op, f)) (hpop : f.tpop = 0) (hpsh : f.tpsh = 0) (he : e.early = 0) (hf : e.flush = false)
include ha hent hm hq hi hpop hpsh he hf

/-- An instruction that entered an empty queue issues at once, and completes as its body leaves the state. -/
theorem vectorStep_done {r : Retire} (hb : b e f (s.putHart s.cur h) = .ok r t) (ht : t.cur = s.cur) :
    vectorStep i f hook b s = .next (t.leave i f) := by
  simp [vectorStep, hent, rivals_alone ha, late_alone ha, filling_of_no_members hm, outcome,
    issueHead_single hq hi hpop hpsh he hf, hb, passPointer, ht, State.leave, State.passed, coreOf, ctxOf]

/-- A stop of its body is settled at the instruction (R404). -/
theorem vectorStep_stop {st : Stop} (hb : b e f (s.putHart s.cur h) = .error st t) :
    vectorStep i f hook b s = outcome (.vector s.me.pc (f.p = 1)) (throw st) t := by
  simp [vectorStep, hent, rivals_alone ha, late_alone ha, filling_of_no_members hm, outcome,
    issueHead_single hq hi hpop hpsh he hf, hb]

end Alone

/-- A trap at a vector instruction, in a hart with a handler (R404, R405). -/
theorem outcome_vectorTrap {pc : Word} {far : Bool} {c d : Nat} {v : Word} (hv : s.me.tvec.getLsbD 0 = true)
    (hi : s.me.tstat.inh = false) : outcome (.vector pc far) (throw (.trap c d v)) s =
      .next (s.putHart s.cur (s.me.enterTrap (.vector pc far) c d v)) := by
  simp [outcome, settleStop, takeTrap_handled _ c d v hv hi]

/-- A wait leaves the state where it is. -/
theorem outcome_wait {p : Point} : outcome p (throw .wait) s = .next s := rfl

/-- The hart of a completed queue entry that ends no pass. -/
theorem leave_single (hq : h.viq = [e]) (hend : e.ends = false) : h.leave = { h with viq := [], vstart := 0 } := by
  simp [Hart.leave, hq, hend]

end Sys2Proof.Machine
end

section
/-! PROOFS. Vector length and configuration (R22, R35, R136 to R138). -/

namespace Sys2Proof.Machine

open Sys2Proof

variable {s : State} {g h : Hart} {i : Instr} {f : VForm} {e : VEntry} {a n : Nat}

/-! ### The scratchpad as a queue entry reads it -/

/-- A key that reads as something else than an unlisted one is listed. -/
theorem mem_of_get_ne {α : Type} {d : α} {t : Tab α} {k : Nat} (hne : Tab.get d t k ≠ d) : (k, Tab.get d t k) ∈ t := by
  induction t with
  | nil => exact absurd rfl hne
  | cons p t ih =>
    obtain ⟨j, v⟩ := p
    by_cases hj : j = k
    · simp [Tab.get, hj]
    · simp only [Tab.get, hj, if_false] at hne ⊢
      exact List.mem_cons_of_mem _ (ih hne)

theorem ownScratch_putHart (hg : h.gang = s.me.gang) (ho : s.ownScratch a n) : (s.putHart s.cur h).ownScratch a n := by
  have hgang : (s.putHart s.cur h).gangOf (s.putHart s.cur h).me = s.gangOf s.me := by
    rw [putHart_gangOf, me_putHart, State.gangOf, hg, State.gangOf]
  simpa only [State.ownScratch, hgang] using ho

/-- Plain scratchpad bytes stay plain when the hart of the turn changes, but for its state of running and its collectives. -/
theorem plainScratch_putHart {key : Nat} (hr : h.run = s.me.run) (hc : h.colls = s.me.colls) (hp : s.plainScratch key n) :
    (s.putHart s.cur h).plainScratch key n := by
  obtain ⟨hbad, hvague, hasleep⟩ := hp
  refine ⟨hbad, by rw [me_putHart, hc]; exact hvague, fun k x line t hx hrun => ?_⟩
  rcases Tab.mem_put_or _ hx with heq | hmem
  · obtain ⟨-, rfl⟩ := Prod.mk.inj heq
    have hme : s.me.run = .asleep line t := by rw [← hr]; exact hrun
    have hlisted : s.me ≠ {} := fun h0 => by rw [h0] at hme; cases hme
    exact hasleep s.cur s.me line t (mem_of_get_ne hlisted) hme
  · exact hasleep k x line t hmem hrun

/-- A load from the hart's own scratchpad by a queue entry, at its own place among the hart's work. -/
theorem load_scratch_at {al p : Nat} (ho : s.ownScratch a n) (ha : a % al = 0) (hp : s.plainScratch (s.scratchAt a) n) :
    load { s.ctx s.cur with pos := p, probe := false } a n al s = .ok (s.scratch.readN (s.scratchAt a) n) s := by
  have hcheck : checkAccess { s.ctx s.cur with pos := p, probe := false } a n al .read s =
      .ok [(a, n, .scratch (s.scratchAt a))] s := by
    have ha' : ((a : Int) % (al : Int) = 0) := by exact_mod_cast ha
    have hb : outOfBounds { s.ctx s.cur with pos := p, probe := false } a n = none := ownScratch_bounds ho
    obtain ⟨-, -, -, -, hn, hpage⟩ := id ho
    simp [checkAccess, run_need, ownScratch_addrOk ho, ha', hb, cuts_one hn hpage, each, placePart, ownScratch_window ho]
    rfl
  simp only [load, run_bind, hcheck]
  exact readAccess_scratch rfl hp

/-- An access to the window sets NARROW at a scope above CLUSTER (R228). -/
theorem run_narrow (scope : Nat) (hw : inWindow a = true) :
    narrow a scope (s.putHart s.cur h) = .ok () (s.putHart s.cur (h.narrowIf (decide (3 ≤ scope)))) := by
  by_cases hs : 3 ≤ scope <;> simp [narrow, Hart.narrowIf, hs, hw]

/-! ### SETVL and SETVLW at VIQ entry (R136) -/

/-- The length they give: the least of the application length, VLMAX, and the granted part of VLMAX. -/
def State.setvlLength (s : State) (f : VForm) : Nat :=
  let m := s.me.vlmax f.fmt.toNat
  let lanes := s.me.count.toNat
  min (s.me.getX (f.vs1.toNat % 32)).toNat (min m (m * max 1 (lanes / 2 ^ (s.gangOf s.me).gshift.toNat) / lanes))

/-- The hart with the gang's grant, x(VD) and VL set. -/
def State.setvlHart (s : State) (f : VForm) : Hart :=
  { s.me.setX f.vd.toNat (BitVec.ofNat 64 (s.setvlLength f)) with
    gshift := (s.gangOf s.me).gshift, vl := BitVec.ofNat 16 (s.setvlLength f), vlPending := false }

/-- The entry, which captures the length given. -/
def State.setvlEntry (s : State) (i : Instr) (f : VForm) : VEntry := { s.me.capture i f with vl := some (s.setvlLength f) }

/-- The hook gives the length, to the hart and to the entry. -/
theorem run_setvlHook (hv : s.me.viq = []) :
    setvlHook f (s.me.capture i f) s = .ok (s.setvlEntry i f) (s.putHart s.cur (s.setvlHart f)) := by
  have hvl : ({ s.me with gshift := (s.gangOf s.me).gshift } : Hart).grantedVl f.fmt.toNat (s.me.capture i f).x1.toNat =
      s.setvlLength f := rfl
  simp only [setvlHook, run_bind, run_myGang, run_modMe, run_me, me_putHart, hvl, run_pure, putHart_cur, putHart_putHart]
  rw [setXNow_idle _ _ _ (show ({ s.me with gshift := (s.gangOf s.me).gshift } : Hart).viq = [] from hv)]
  unfold State.setvlHart Hart.setX
  split <;> rfl

/-- Where a VCFG, SETVL or SETVLW stands in its queue: alone, with nothing held back. -/
structure State.QueueFree (s : State) : Prop where
  alone : s.alone
  empty : s.me.viq = []
  held : s.me.held.length < 64
  room : s.me.tstat.inh = true → s.me.noRoom = false

theorem State.QueueFree.members (hs : s.QueueFree) : s.me.members = [] := by
  obtain ⟨⟨hm, -, -⟩, -, -, -⟩ := hs
  exact hm

/-- The hart once such an instruction, its hook having changed the hart to g, is queued alone. -/
def Hart.queued (g : Hart) (e : VEntry) : Hart := { g.advance 8 with viq := [e], entered := g.entered + 1 }

/-- Entry of an instruction that owes no x register and trims no VL, by the hart its hook leaves. -/
theorem enterQueue_idle {hook : EntryHook} (hs : s.QueueFree) (hk : hook (s.me.capture i f) s = .ok e (s.putHart s.cur g))
    (hx : pendingX e.instr = none) (ht : trims i = false) (hv : g.viq = []) (hm : g.members = []) (hp : g.vlPending = false) :
    enterQueue i f hook s = .ok true (s.putHart s.cur (g.queued e)) := by
  have ho : ∀ r, e.owes r = false := by simp [VEntry.owes, hx]
  rw [enterQueue_hook hs.empty hs.room hs.held hk, enqueue_idle hv ho hm hp ht]
  rfl

theorem advance_idle_viq (hv : g.viq = []) (n : Nat) : (g.advance n).viq = [] := by
  rw [advance_viq (by simp [hv]), hv]

/-- A queued instruction that changes nothing more leaves the queue. -/
theorem leave_queued (hv : g.viq = []) (hend : e.ends = false) :
    (g.queued e).leave = { g.advance 8 with entered := g.entered + 1, vstart := 0 } := by
  rw [leave_single rfl hend]
  simp [Hart.queued, advance_idle_viq hv]

section Setvl
variable (hs : s.QueueFree)
include hs

theorem setvlHart_viq : (s.setvlHart f).viq = [] := by simp [State.setvlHart, hs.empty]
theorem setvlHart_members : (s.setvlHart f).members = [] := by simp [State.setvlHart, hs.members]

theorem enterQueue_setvl (hx : pendingX i = none) (ht : trims i = false) :
    enterQueue i f (setvlHook f) s = .ok true (s.putHart s.cur ((s.setvlHart f).queued (s.setvlEntry i f))) :=
  enterQueue_idle hs (run_setvlHook hs.empty) hx ht (setvlHart_viq hs) (setvlHart_members hs) rfl

end Setvl

/-- What SETVL, and a SETVLW whose watermark has passed, leave of the hart; `k` is what the turn in the queue adds. -/
def State.setvlDone (s : State) (f : VForm) (k : Hart → Hart) : State :=
  s.putHart s.cur { k ((s.setvlHart f).advance 8) with entered := s.me.entered + 1, vstart := 0 }

/-- SETVL completes as it enters (R136). -/
theorem exec_setvl (hs : s.QueueFree) (hpop : f.tpop = 0) (hpsh : f.tpsh = 0) :
    exec (.setvl f) s = .next ((s.setvlDone f id).passed (.setvl f) f) := by
  have hdone := vectorStep_done hs.alone (enterQueue_setvl (i := .setvl f) hs rfl rfl)
    (by simp [Hart.queued, setvlHart_members hs]) rfl rfl hpop hpsh rfl rfl (b := setvlBody) rfl rfl
  have hent : (s.setvlHart f).entered = s.me.entered := by simp [State.setvlHart]
  calc exec (.setvl f) s = vectorStep (.setvl f) f (setvlHook f) setvlBody s := rfl
    _ = .next (State.leave (s.putHart s.cur ((s.setvlHart f).queued (s.setvlEntry (.setvl f) f))) (.setvl f) f) := hdone
    _ = .next ((s.setvlDone f id).passed (.setvl f) f) := by
      simp [State.leave, leave_queued (setvlHart_viq hs) (e := s.setvlEntry (.setvl f) f) rfl, State.setvlDone, hent]

/-! ### SETVLW's turn (R137) -/

/-- The place of SETVLW's watermark, and whether it has passed lo + vl. -/
abbrev State.watermarkAddr (s : State) (f : VForm) : Nat := (s.me.getX (f.vs2.toNat % 32)).toNat
abbrev State.watermarkPassed (s : State) (f : VForm) : Prop :=
  (s.me.getX (f.vs3.toNat % 32)).toNat + s.setvlLength f ≤ s.scratch.readN (s.scratchAt (s.watermarkAddr f)) 8

/-- The hart of a SETVLW at the head of its queue, and that hart once it has read its watermark. -/
def State.setvlwHead (s : State) (f : VForm) : Hart := (s.setvlHart f).queued (s.setvlEntry (.setvlw f) f)
def State.setvlwRead (s : State) (f : VForm) : Hart :=
  ({ s.setvlwHead f with vstart := 0 } : Hart).narrowIf (decide (3 ≤ f.rm.toNat))

/-- The hart that has read the watermark: as SETVL leaves it, with NARROW as the access sets it, and the entry still queued. -/
theorem setvlwRead_eq : s.setvlwRead f = { ((s.setvlHart f).advance 8).narrowIf (decide (3 ≤ f.rm.toNat)) with
    viq := [s.setvlEntry (.setvlw f) f], entered := s.me.entered + 1, vstart := 0 } := by
  have hent : (s.setvlHart f).entered = s.me.entered := by simp [State.setvlHart]
  unfold State.setvlwRead State.setvlwHead Hart.queued Hart.narrowIf
  rw [hent]
  split <;> rfl

section Setvlw
variable (ho : s.ownScratch (s.watermarkAddr f) 8) (ha : s.watermarkAddr f % 8 = 0)
  (hp : s.plainScratch (s.scratchAt (s.watermarkAddr f)) 8)
include ho ha hp

/-- SETVLW's turn reads the watermark, and completes when it is at least lo + vl. -/
theorem run_setvlwBody : setvlwBody (s.setvlEntry (.setvlw f) f) f (s.putHart s.cur (s.setvlwHead f)) =
    if s.watermarkPassed f then .ok .now (s.putHart s.cur (s.setvlwRead f))
    else .error .wait (s.putHart s.cur (s.setvlwRead f)) := by
  obtain ⟨t, ht⟩ : ∃ t, t = s.putHart s.cur { s.setvlwHead f with vstart := 0 } := ⟨_, rfl⟩
  have hstart : setVstart 0 (s.putHart s.cur (s.setvlwHead f)) = .ok () t := by simp [ht, setVstart]
  have hctx : (s.setvlEntry (.setvlw f) f).ctx t = .ok { t.ctx t.cur with pos := s.me.entered, probe := false } t := rfl
  have hload : load { t.ctx t.cur with pos := s.me.entered, probe := false } (s.watermarkAddr f) 8 8 t =
      .ok (s.scratch.readN (s.scratchAt (s.watermarkAddr f)) 8) t := by
    rw [ht]
    exact load_scratch_at (ownScratch_putHart (by simp [State.setvlwHead, Hart.queued, State.setvlHart]) ho) ha
      (plainScratch_putHart (by simp [State.setvlwHead, Hart.queued, State.setvlHart])
        (by simp [State.setvlwHead, Hart.queued, State.setvlHart]) hp)
  have hnarrow : narrow (s.watermarkAddr f) f.rm.toNat t = .ok () (s.putHart s.cur (s.setvlwRead f)) := by
    rw [ht]
    exact run_narrow f.rm.toNat (ownScratch_window ho)
  refine (run_bind_ok hstart).trans ((run_bind_ok hctx).trans ((run_bind_ok hload).trans ((run_bind_ok hnarrow).trans ?_)))
  show (await (decide (s.watermarkPassed f)) >>= fun _ => pure Retire.now : Exec Retire) (s.putHart s.cur (s.setvlwRead f)) = _
  by_cases hpass : s.watermarkPassed f
  · rw [if_pos hpass, decide_eq_true hpass, run_bind_ok (await_true _)]
    rfl
  · rw [if_neg hpass, decide_eq_false hpass, run_bind, await_false]

section Issued
variable (hs : s.QueueFree) (hpop : f.tpop = 0) (hpsh : f.tpsh = 0)
include hs hpop hpsh

/-- A SETVLW whose watermark has passed completes (R137). -/
theorem exec_setvlw_passed (hpass : s.watermarkPassed f) : exec (.setvlw f) s =
    .next ((s.setvlDone f (·.narrowIf (decide (3 ≤ f.rm.toNat)))).passed (.setvlw f) f) := by
  have hbody := run_setvlwBody ho ha hp
  rw [if_pos hpass] at hbody
  have hdone := vectorStep_done hs.alone (enterQueue_setvl (i := .setvlw f) hs rfl rfl)
    (by simp [Hart.queued, setvlHart_members hs]) rfl rfl hpop hpsh rfl rfl hbody rfl
  have hviq : (((s.setvlHart f).advance 8).narrowIf (decide (3 ≤ f.rm.toNat))).viq = [] := by
    unfold Hart.narrowIf; split <;> exact advance_idle_viq (setvlHart_viq hs) 8
  have hleave : (s.setvlwRead f).leave = { ((s.setvlHart f).advance 8).narrowIf (decide (3 ≤ f.rm.toNat)) with
      entered := s.me.entered + 1, vstart := 0 } := by
    rw [setvlwRead_eq, leave_single rfl rfl, ← hviq]
  calc exec (.setvlw f) s = vectorStep (.setvlw f) f (setvlHook f) setvlwBody s := rfl
    _ = .next (State.leave (s.putHart s.cur (s.setvlwRead f)) (.setvlw f) f) := hdone
    _ = _ := by simp [State.leave, hleave, State.setvlDone]

/-- A SETVLW whose watermark has not passed waits at the head of its queue. -/
theorem exec_setvlw_waits (hwait : ¬s.watermarkPassed f) : exec (.setvlw f) s = .next (s.putHart s.cur (s.setvlwRead f)) := by
  have hbody := run_setvlwBody ho ha hp
  rw [if_neg hwait] at hbody
  exact vectorStep_stop hs.alone (enterQueue_setvl (i := .setvlw f) hs rfl rfl)
    (by simp [Hart.queued, setvlHart_members hs]) rfl rfl hpop hpsh rfl rfl hbody

end Issued

end Setvlw

/-! ### VCFG (R138, R21) -/

/-- The hart with a register count set: the registers are invalid, and VL is 0. -/
def Hart.configured (h : Hart) (c : BitVec 2) : Hart :=
  { h with vl := 0, vlPending := false, vcfg := c, v := [], m := [], badv := [] }

/-- The scalar side moves on alike with another configuration. -/
theorem advance_configured (hv : h.viq = []) (c : BitVec 2) (n : Nat) :
    (h.configured c).advance n = (h.advance n).configured c := by
  have hready : h.ready [h.rep.reg.toNat] = true := ready_of_empty _ hv _
  have hready' : ({ h with vl := 0, vlPending := false, vcfg := c, v := [], m := [], badv := [] } : Hart).ready
      [h.rep.reg.toNat] = true := ready_of_empty _ hv _
  unfold Hart.configured Hart.advance Hart.retire
  simp only [hready, hready', if_true]
  unfold Hart.closePass Hart.setX Hart.getX
  dsimp only
  split_ifs <;> rfl

/-- VCFG configures the hart as it enters. -/
theorem run_vcfgHook (hv : s.me.viq = []) (hi : s.me.tstat.inh = false) :
    vcfgHook f e s = .ok e (s.putHart s.cur (s.me.configured (f.fn.setWidth 2))) := by
  simp [vcfgHook, notInHandler, hi, run_vectorDone s hv, Hart.configured]

theorem exec_vcfg (hs : s.QueueFree) (hi : s.me.tstat.inh = false) (hpop : f.tpop = 0) (hpsh : f.tpsh = 0) :
    exec (.vcfg f) s = .next (State.passed (s.putHart s.cur { (s.me.advance 8).configured (f.fn.setWidth 2) with
      entered := s.me.entered + 1, vstart := 0 }) (.vcfg f) f) := by
  have hviq : (s.me.configured (f.fn.setWidth 2)).viq = [] := hs.empty
  have hent := enterQueue_idle hs (run_vcfgHook (f := f) (e := s.me.capture (.vcfg f) f) hs.empty hi) (i := .vcfg f) rfl rfl hviq
    hs.members rfl
  have hdone := vectorStep_done hs.alone hent (by simp [Hart.queued, Hart.configured, hs.members]) rfl rfl hpop hpsh rfl rfl
    (b := vcfgBody) rfl rfl
  calc exec (.vcfg f) s = vectorStep (.vcfg f) f (vcfgHook f) vcfgBody s := rfl
    _ = _ := hdone
    _ = _ := by
      simp [State.leave, leave_queued (e := s.me.capture (.vcfg f) f) hviq rfl, advance_configured hs.empty]
      rfl

/-- Settles O42: SETVL and SETVLW are followed from the entry hook that gives the length, through the queue that the hart has
to itself, to the turn that completes them or waits for the watermark; VCFG's hook makes its effect at entry. -/
theorem vectorLengthResult : Obligations.VectorLengthResult := by
  intro f s ha hv hh hr hpop hpsh
  have hs : s.QueueFree := ⟨ha, hv, hh, hr⟩
  refine ⟨exec_setvl hs hpop hpsh, fun ho hal hp => ⟨fun hpass => ?_, fun hwait => ?_⟩, fun hi => exec_vcfg hs hi hpop hpsh⟩
  · exact exec_setvlw_passed ho hal hp hs hpop hpsh hpass
  · refine (exec_setvlw_waits ho hal hp hs hpop hpsh (Nat.not_le.mpr hwait)).trans ?_
    rw [setvlwRead_eq, putHart_putHart, me_putHart]
    rfl

end Sys2Proof.Machine
end

section
/-! SUPPORT. What the body of a calm vector instruction finds and leaves: its checks, its operands near and far, its elements,
and the state it completes or traps in. -/

namespace Sys2Proof.Machine

open Sys2Proof

variable {s t : State} {i : Instr} {f : VForm} {op : BitVec 8} {m : VCtx → Exec Unit}

/-! ### The hart of an entered instruction -/

theorem me_entered : (s.entered i f).me = s.me.enqueue i (s.me.capture i f) := me_putHart _ _

@[simp] theorem entered_getM (r : Nat) : (s.entered i f).me.getM r = s.me.getM r := by
  simp [Hart.getM, Hart.maskLen, Hart.regBytes, Hart.nregs, me_entered, Hart.enqueue]
@[simp] theorem entered_fstate : (s.entered i f).me.fstate = s.me.fstate := by simp [Hart.fstate, me_entered, Hart.enqueue]
@[simp] theorem entered_vlmax (fmt : Nat) : (s.entered i f).me.vlmax fmt = s.me.vlmax fmt := by
  simp [Hart.vlmax, Hart.regBytes, Hart.nregs, me_entered, Hart.enqueue]
@[simp] theorem entered_v : (s.entered i f).me.v = s.me.v := by simp [me_entered, Hart.enqueue]
@[simp] theorem entered_badv : (s.entered i f).me.badv = s.me.badv := by simp [me_entered, Hart.enqueue]
@[simp] theorem entered_tvec : (s.entered i f).me.tvec = s.me.tvec := by simp [me_entered, Hart.enqueue]
@[simp] theorem entered_tstat : (s.entered i f).me.tstat = s.me.tstat := by simp [me_entered, Hart.enqueue]

@[simp] theorem entered_farCtx (k : Nat) : (s.entered i f).farCtx k = s.farCtx k := rfl

/-- VL is known after a calm instruction that trims none has entered. -/
theorem entered_vlPending (hc : s.calm f) (ht : trims i = false) : (s.entered i f).me.vlPending = false := by
  obtain ⟨-, -, -, -, hp, -⟩ := hc
  simp [me_entered, Hart.enqueue, hp, ht]

@[simp] theorem putHart_entered (h : Hart) : (s.entered i f).putHart (s.entered i f).cur h = s.putHart s.cur h :=
  putHart_putHart s _ s.cur h

/-- The state of an entered instruction lists its hart. -/
theorem entered_eq : s.putHart s.cur (s.entered i f).me = s.entered i f := by rw [me_entered]; rfl

/-! ### Completion and traps of a calm instruction -/

/-- Only what an instruction makes of its own hart counts. -/
theorem vecDone_congr {g g' : Hart → Hart} (hg : g (s.entered i f).me = g' (s.entered i f).me) :
    s.vecDone i f g = s.vecDone i f g' := by
  unfold State.vecDone
  dsimp only
  rw [hg]

/-- What a calm instruction that trims no VL leaves is its hart changed, and the queue empty. -/
theorem vecDone_eq {g : Hart → Hart} (hc : s.calm f) (ht : trims i = false) (hg : ∀ h, (g h).vlPending = h.vlPending) :
    s.vecDone i f g = State.leave (s.putHart s.cur (g (s.entered i f).me)) i f := by
  have hp : (g (s.entered i f).me).vlPending = false := by rw [hg, entered_vlPending hc ht]
  unfold State.vecDone
  dsimp only
  rw [← hp]

/-- A body that only changes its hart completes. -/
theorem plainStep_vecDone {g : Hart → Hart} (hc : s.calm f) (hi : i.vForm = some (op, f)) (hx : pendingX i = none)
    (ht : trims i = false) (hg : ∀ h, (g h).vlPending = h.vlPending)
    (hm : m (s.calmCtx i f) (s.entered i f) = .ok () (s.putHart s.cur (g (s.entered i f).me))) :
    plainStep i f m s = .next (s.vecDone i f g) := by
  rw [vecDone_eq hc ht hg]
  exact plainStep_calm hc hi hx hm rfl

/-- A body that changes its hart and traps is taken by the handler. -/
theorem plainStep_vecTrapped {g : Hart → Hart} {c d : Nat} {v : Word} (hc : s.calm f) (hcat : s.me.catches)
    (hi : i.vForm = some (op, f)) (hx : pendingX i = none) (htvec : ∀ h, (g h).tvec = h.tvec)
    (htstat : ∀ h, (g h).tstat = h.tstat)
    (hm : m (s.calmCtx i f) (s.entered i f) = .error (.trap c d v) (s.putHart s.cur (g (s.entered i f).me))) :
    plainStep i f m s = .next (s.vecTrapped i f g c d v) := by
  obtain ⟨hh, hinh, -⟩ := hcat
  rw [plainStep_stop hc hi hx hm, outcome_vectorTrap (by simp [htvec, hh]) (by simp [htstat, hinh])]
  simp [State.vecTrapped, State.entered]

/-- The mark of a pass's end on an entry (R134) changes nothing of the context it issues in. -/
theorem issueCtx_ends (e : VEntry) (b : Bool) : issueCtx { e with ends := b } f t = match issueCtx e f t with
    | .ok c t => .ok { c with e := { e with ends := b } } t
    | .error st t => .error st t := by
  have hlength : ∀ h, ({ e with ends := b } : VEntry).length h = e.length h := fun _ => rfl
  simp only [issueCtx, run_bind, run_me, run_ite, run_ask, run_throw, run_pure, illegalAtIssue, run_trap, hlength]
  split_ifs <;> rfl

/-- A body that leaves its hart changed completes, whether or not its entry is marked as the end of a pass (R134). -/
theorem plainStep_owing {g : Hart → Hart} (hc : s.calm f) (hi : i.vForm = some (op, f)) (ht : trims i = false)
    (hg : ∀ h, (g h).vlPending = h.vlPending)
    (hm : ∀ b, m { s.calmCtx i f with e := { s.me.capture i f with ends := b } } (s.entered i f) =
      .ok () (s.putHart s.cur (g (s.entered i f).me))) : plainStep i f m s = .next (s.vecDone i f g) := by
  obtain ⟨ha, hv, -, -, -, hpop, hpsh, -⟩ := id hc
  obtain ⟨hmembers, -, -⟩ := id ha
  obtain ⟨b, hq⟩ := enqueue_viq (i := i) (e := s.me.capture i f) hv
  have hctx : issueCtx { s.me.capture i f with ends := b } f (s.entered i f) =
      .ok { s.calmCtx i f with e := { s.me.capture i f with ends := b } } (s.entered i f) := by
    rw [issueCtx_ends, issueCtx_calm hc]
  rw [vecDone_eq hc ht hg]
  exact vectorStep_done ha (enterQueue_calm hc) (by simp [Hart.enqueue, hmembers]) hq hi hpop hpsh rfl rfl
    ((run_bind_ok hctx).trans (run_bind_ok (hm b))) rfl

/-! ### Checks and operands -/

/-- No element of a calm instruction reads a poisoned word. -/
theorem poisonAt_calm (hc : s.calm f) (r w j : Nat) :
    (s.calmCtx i f).poisonAt r w j (s.entered i f) = .ok none (s.entered i f) := by
  obtain ⟨-, -, -, -, -, -, -, -, hnear, hfar⟩ := hc
  rcases BitVec.eq_zero_or_eq_one f.p with hp | hp
  · have hside : (s.calmCtx i f).far = none := by simp [State.calmCtx, State.side, hp]
    simp [VCtx.poisonAt, hside, hnear hp]
  · obtain ⟨-, -, -, -, hbanks, hbady, hmarks⟩ := hfar hp
    have hside : (s.calmCtx i f).far = some (s.me.slot f.slot.toNat).key := by simp [State.calmCtx, State.side, hp]
    have hbusy : ∀ reg, (s.entered i f).yBusy (s.me.slot f.slot.toNat).key reg = false := by
      intro reg
      simp only [State.yBusy, List.any_eq_false]
      intro x hx
      simp [hbanks x hx]
    simp [VCtx.poisonAt, hside, hbusy, hbady, hmarks]

theorem firstPoison_of_clean {c : VCtx} (hp : ∀ r w j, c.poisonAt r w j t = .ok none t) (reads : Reads) (els : List Nat) :
    c.firstPoison reads els t = .ok none t := by
  have heach : ∀ l : List (Nat × Nat × Nat), each l (fun (r, w, j) => c.poisonAt r w j) t = .ok (l.map fun _ => none) t := by
    intro l
    induction l with
    | nil => rfl
    | cons a l ih => simp [each, hp, ih]
  induction els with
  | nil => rfl
  | cons k els ih =>
    have hnone : ((reads k).map fun _ => (none : Option Nat)).findSome? id = none := by simp
    simp only [VCtx.firstPoison, run_bind, heach, hnone]
    exact ih

theorem firstPoison_calm (hc : s.calm f) (reads : Reads) (els : List Nat) :
    (s.calmCtx i f).firstPoison reads els (s.entered i f) = .ok none (s.entered i f) :=
  firstPoison_of_clean (poisonAt_calm hc) reads els

theorem run_need_true {c : VCtx} {b : Bool} (hb : b = true) : c.need b t = .ok () t := by simp [VCtx.need, hb]

/-- VL and the registers of an instruction pass its checks (R17, R140). -/
theorem checkEw_calm {fmt : Nat} {regs : List Nat} (hl : s.vlOk f fmt regs) :
    (s.calmCtx i f).checkEw fmt regs (s.entered i f) = .ok () (s.entered i f) := by
  obtain ⟨hvl, hregs⟩ := hl
  have hlen : (decide (s.me.vl.toNat ≤ s.me.vlmax fmt) &&
      ((s.side f).far.isNone || decide (s.me.vl.toNat ≤ farLen (fmtWidth fmt)))) = true := by
    rcases BitVec.eq_zero_or_eq_one f.p with hp | hp
    · have hnear : s.me.vl.toNat ≤ s.me.vlmax fmt := by simpa [State.longest, hp] using hvl
      simp [State.side, hp, hnear]
    · obtain ⟨hnear, hfar⟩ : s.me.vl.toNat ≤ s.me.vlmax fmt ∧ s.me.vl.toNat ≤ farLen (fmtWidth fmt) := by
        simpa [State.longest, hp] using hvl
      simp [hnear, hfar]
  have hall : (regs.all fun r => decide (r < (s.side f).nregs)) = true := by simpa using hregs
  have hcheck : (s.calmCtx i f).checkVl fmt (s.entered i f) = .ok () (s.entered i f) := by
    refine (run_bind_ok (run_me _)).trans (run_need_true ?_)
    rw [entered_vlmax]
    exact hlen
  exact (run_bind_ok hcheck).trans (run_need_true hall)

theorem group_one (d : VSide) (r : Nat) : d.group r 1 = d.reg r := by simp [VSide.group, VSide.reg, groupVal]

theorem read_calm (r g : Nat) : (s.calmCtx i f).read r g (s.entered i f) = .ok ((s.side f).group r g) (s.entered i f) := by
  rcases BitVec.eq_zero_or_eq_one f.p with hp | hp
  · simp [VCtx.read, State.calmCtx, State.side, hp, VSide.group]
  · simp [VCtx.read, State.calmCtx, State.side, hp, VSide.group]

/-- A body goes on with a second operand that reads as R142's, whether it is a scalar or a register. -/
theorem second_calm : ∃ v, (∀ k : Nat → Exec Unit, (if (s.calmCtx i f).f.xs = 1 then pure 0 >>= k
      else (s.calmCtx i f).read (s.calmCtx i f).f.vs2.toNat 1 >>= k) (s.entered i f) = k v (s.entered i f)) ∧
    ∀ j w, (s.calmCtx i f).second v j w = s.operand2 f w j := by
  have hx3 : (s.me.capture i f).x3 = s.me.getX (f.vs3.toNat % 32) := rfl
  by_cases hxs : f.xs = 1
  · refine ⟨0, fun k => ?_, fun j w => ?_⟩
    · rw [if_pos (by exact hxs)]
      rfl
    · simp [VCtx.second, State.operand2, State.calmCtx, hxs, hx3]
  · refine ⟨(s.side f).group f.vs2.toNat 1, fun k => ?_, fun j w => ?_⟩
    · rw [if_neg (by exact hxs)]
      exact run_bind_ok (read_calm _ _)
    · simp only [VCtx.second, State.operand2, State.calmCtx, hx3, group_one]

theorem range_calm : (s.calmCtx i f).range = s.me.fromStart := by simp [VCtx.range, State.calmCtx, Hart.fromStart, Hart.capture]
theorem actives_calm : (s.calmCtx i f).actives = s.me.actives f := by
  rw [VCtx.actives, range_calm]
  rfl

theorem operand2_lt (s : State) (f : VForm) (w j : Nat) : s.operand2 f w j < 2 ^ w := by
  unfold State.operand2
  split
  · exact Nat.mod_lt _ (by positivity)
  · exact elemAt_lt _ _ _

theorem fromStart_nodup (h : Hart) : h.fromStart.Nodup := List.nodup_range.map fun _ _ hab => Nat.add_right_cancel hab

theorem actives_nodup (h : Hart) (f : VForm) : (h.actives f).Nodup := (fromStart_nodup h).filter _

theorem regs2_calm : (s.calmCtx i f).regs2 = twoRegs f := by
  by_cases hxs : f.xs = 1#1 <;> simp [VCtx.regs2, twoRegs, State.calmCtx, hxs]

/-! ### Ends of a run of elements -/

theorem endRun_done {l : LoopState} (hl : l.stop = none) : endRun l none t = .ok () (t.putHart t.cur (t.me.withF l.fs)) := by
  simp [endRun, hl]

theorem endRun_trap {l : LoopState} {j d : Nat} (hl : l.stop = some (j, d)) : endRun l none t =
    .error (.trap 0x03 d 0) (t.putHart t.cur { t.me.withF l.fs with vstart := BitVec.ofNat 16 j }) := by
  simp [endRun, hl, setVstart]

/-- Nothing raised and no rounding: FLAGS and SRSEED stay. -/
theorem withF_fstate {h h' : Hart} (hs : h'.srseed = h.srseed) : h'.withF h.fstate = h' := by
  simp [Hart.withF, Hart.fstate, ← hs]

/-! ### Register groups written (R18, R29) -/

theorem side_entered : (s.entered i f).side f = s.side f := by
  simp [State.side, Hart.slot, Hart.regBytes, Hart.nregs, me_entered, Hart.enqueue]

/-- A register group written near is the hart's, and written far it is the context's of its slot. -/
theorem putGroup_near (hp : f.p = 0#1) (r g v : Nat) :
    t.putGroup f r g v = t.putHart t.cur { t.me with v := setGroup t.me.v t.me.regBytes r v g } := by
  simp [State.putGroup, State.putRegs, State.side, hp]
theorem putGroup_far (hp : f.p = 1#1) (r g v : Nat) : t.putGroup f r g v =
    t.putFar (t.me.slot f.slot.toNat).key { t.farCtx (t.me.slot f.slot.toNat).key with
      y := setGroup (t.farCtx (t.me.slot f.slot.toNat).key).y yBytes r v g } := by
  simp [State.putGroup, State.putRegs, State.side, hp]

/-- A register group written by a body: nothing there was poisoned, so nothing else changes. -/
theorem write_calm (hc : s.calm f) (r g v w : Nat) (done : List Nat) :
    (s.calmCtx i f).write r g v w done (s.entered i f) = .ok () ((s.entered i f).putGroup f r g v) := by
  obtain ⟨-, -, -, -, -, -, -, -, hnear, hfar⟩ := hc
  unfold State.putGroup State.putRegs
  rw [side_entered]
  rcases BitVec.eq_zero_or_eq_one f.p with hp | hp
  · simp [VCtx.write, State.calmCtx, State.side, hp, hnear hp]
  · obtain ⟨-, -, -, -, -, hbady, hmarks⟩ := hfar hp
    simp [VCtx.write, State.calmCtx, State.side, hp, hbady, hmarks]

theorem putFar_putHart (k j : Nat) (c : FarCtx) (h : Hart) : (t.putFar k c).putHart j h = (t.putHart j h).putFar k c := rfl

/-- A hart that raised nothing keeps its FLAGS and SRSEED. -/
theorem withF_putGroup (r g v : Nat) : ((s.entered i f).putGroup f r g v).putHart ((s.entered i f).putGroup f r g v).cur
    (((s.entered i f).putGroup f r g v).me.withF s.me.fstate) = (s.entered i f).putGroup f r g v := by
  have hseed : (s.entered i f).me.srseed = s.me.srseed := by simp [me_entered, Hart.enqueue]
  rcases BitVec.eq_zero_or_eq_one f.p with hp | hp
  · rw [putGroup_near hp, putHart_cur, putHart_putHart, me_putHart, withF_fstate (by exact hseed)]
  · rw [putGroup_far hp, putFar_cur, putFar_me, withF_fstate hseed, putFar_putHart, putHart_entered, entered_eq]

/-- The queue entry leaves alike before and after a v register is written. -/
theorem leave_withV (h : Hart) (v : Tab Nat) : ({ h with v := v } : Hart).leave = { h.leave with v := v } := by
  unfold Hart.leave Hart.closePass Hart.setX Hart.getX
  dsimp only
  split_ifs <;> rfl

theorem leave_registers (h : Hart) : h.leave.v = h.v ∧ h.leave.regBytes = h.regBytes ∧ h.leave.fstk = h.fstk := by
  unfold Hart.leave Hart.regBytes Hart.nregs
  dsimp only
  split <;> simp

theorem leave_putGroup (r g v : Nat) : (t.leave i f).putGroup f r g v = State.leave (t.putGroup f r g v) i f := by
  obtain ⟨hv, hbytes, hfstk⟩ := leave_registers t.me
  have hme : (t.leave i f).me = t.me.leave := me_putHart t _
  rcases BitVec.eq_zero_or_eq_one f.p with hp | hp
  · rw [putGroup_near hp, putGroup_near hp, hme, hv, hbytes, ← leave_withV]
    unfold State.leave
    rw [me_putHart, putHart_cur, putHart_putHart]
    exact congrArg (State.passed · i f) (putHart_putHart t _ t.cur _)
  · rw [putGroup_far hp, putGroup_far hp, hme, Hart.slot, hfstk]
    rfl

end Sys2Proof.Machine
end

section
/-! SUPPORT. Mask registers as sets of bits: what the mask instructions' own functions compute (R20, R139, R154 to R156). -/

namespace Sys2Proof.Machine

open Sys2Proof

variable {a b m n i vl : Nat} {h : Hart}

/-! ### Bits -/

theorem bitAt_eq_testBit (m i : Nat) : bitAt m i = m.testBit i := by rw [bitAt, Nat.testBit_eq_decide_div_mod_eq]

theorem bitAt_eq_elemAt (m i : Nat) : bitAt m i = decide (elemAt m i 1 = 1) := by simp [bitAt, elemAt]

theorem bitAt_and (x y i : Nat) : bitAt (x &&& y) i = (bitAt x i && bitAt y i) := by simp [bitAt_eq_testBit]

theorem bitAt_ones (n i : Nat) : bitAt (2 ^ n - 1) i = decide (i < n) := by rw [bitAt_eq_testBit, Nat.testBit_two_pow_sub_one]

/-- The mask with its low n bits set by a function, the others kept. -/
theorem bitAt_maskOf (p : Nat → Bool) (old n i : Nat) : bitAt (maskOf p old n) i = if i < n then p i else bitAt old i := by
  induction n with
  | zero => rfl
  | succ n ih =>
    rw [bitAt_eq_elemAt, maskOf, elemAt_elemSet]
    by_cases hin : i = n
    · subst hin
      cases p i <;> simp
    · rw [if_neg hin, ← bitAt_eq_elemAt, ih]
      have hlt : i < n ↔ i < n + 1 := by omega
      simp [hlt]

/-! ### Counting and finding bits (R156) -/

theorem onesCount_eq (a n : Nat) : onesCount a n = ((List.range n).filter (bitAt a)).length := by
  induction n generalizing a with
  | zero => rfl
  | succ n ih =>
    have hhalf : (bitAt a ∘ Nat.succ) = bitAt (a / 2) := by
      funext j
      simp [bitAt_eq_testBit, Nat.testBit_succ]
    rw [onesCount, ih, List.range_succ_eq_map, List.filter_cons, List.filter_map, hhalf]
    rcases Nat.mod_two_eq_zero_or_one a with h0 | h0 <;> simp [bitAt, h0, Nat.add_comm]

theorem lowestBit_eq_head (m n : Nat) : lowestBit m n = ((List.range n).filter (bitAt m)).head? := List.head?_filter.symm

theorem highestBit_eq_last (m n : Nat) : highestBit m n = ((List.range n).filter (bitAt m)).getLast? := List.getLast?_filter.symm

/-- The first set bit below n, or n: no bit before it is set, and it is set where it is below n. -/
theorem lowestBit_spec (a n : Nat) : (∀ j < (lowestBit a n).getD n, bitAt a j = false) ∧ (lowestBit a n).getD n ≤ n ∧
    ((lowestBit a n).getD n < n → bitAt a ((lowestBit a n).getD n) = true) := by
  cases hf : lowestBit a n with
  | none =>
    have hnone := List.find?_range_eq_none.mp hf
    exact ⟨fun j hj => by simpa using hnone j hj, le_rfl, fun hlt => absurd hlt (lt_irrefl _)⟩
  | some k =>
    obtain ⟨hk, hmem, hbelow⟩ := List.find?_range_eq_some.mp hf
    exact ⟨fun j hj => by simpa using hbelow j hj, (List.mem_range.mp hmem).le, fun _ => hk⟩

theorem highestBit_none : highestBit a n = none ↔ ∀ j < n, bitAt a j = false := by simp [highestBit]

/-- The last set bit below n: it is set, and none after it is. -/
theorem highestBit_some {k : Nat} (hk : highestBit a n = some k) :
    k < n ∧ bitAt a k = true ∧ ∀ j < n, k < j → bitAt a j = false := by
  induction n with
  | zero => simp [highestBit] at hk
  | succ n ih =>
    rw [highestBit, List.range_succ, List.reverse_append, List.reverse_singleton, List.singleton_append, List.find?_cons] at hk
    cases hn : bitAt a n with
    | true =>
      rw [hn] at hk
      obtain rfl : n = k := by simpa using hk
      exact ⟨Nat.lt_succ_self _, hn, fun j hj hlt => absurd hj (by omega)⟩
    | false =>
      rw [hn] at hk
      obtain ⟨hlt, hset, habove⟩ := ih hk
      refine ⟨hlt.trans (Nat.lt_succ_self _), hset, fun j hj hkj => ?_⟩
      rcases Nat.lt_succ_iff_lt_or_eq.mp hj with hj | rfl
      · exact habove j hj hkj
      · exact hn

/-! ### VMLOG's functions (R155) -/

/-- The functions that look for the first set bit: before it, up to it, and at it. -/
theorem lt_lowestBit_iff (hi : i < vl) : i < (lowestBit a vl).getD vl ↔ ∀ j ≤ i, bitAt a j = false := by
  obtain ⟨hbelow, -, hset⟩ := lowestBit_spec a vl
  refine ⟨fun hlt j hj => hbelow j (by omega), fun hnone => ?_⟩
  by_contra hle
  have hfalse := hnone _ (Nat.not_lt.mp hle)
  rw [hset (by omega)] at hfalse
  cases hfalse

theorem le_lowestBit_iff (hi : i < vl) : i ≤ (lowestBit a vl).getD vl ↔ ∀ j < i, bitAt a j = false := by
  obtain ⟨hbelow, -, hset⟩ := lowestBit_spec a vl
  refine ⟨fun hle j hj => hbelow j (by omega), fun hnone => ?_⟩
  by_contra hlt
  have hfalse := hnone _ (Nat.not_le.mp hlt)
  rw [hset (by omega)] at hfalse
  cases hfalse

theorem eq_lowestBit_iff (hi : i < vl) : i = (lowestBit a vl).getD vl ↔ bitAt a i = true ∧ ∀ j < i, bitAt a j = false := by
  rw [← le_lowestBit_iff hi]
  obtain ⟨hbelow, -, hset⟩ := lowestBit_spec a vl
  refine ⟨fun heq => ⟨by rw [heq]; exact hset (by omega), heq.le⟩, fun ⟨hbit, hle⟩ => ?_⟩
  by_contra hne
  have hfalse := hbelow i (by omega)
  rw [hbit] at hfalse
  cases hfalse

/-- The first set bit is at or before i exactly when some bit up to i is set. -/
theorem lowestBit_le_iff (hi : i < vl) : (lowestBit a vl).getD vl ≤ i ↔ ∃ j ≤ i, bitAt a j = true := by
  rw [← Nat.not_lt, lt_lowestBit_iff hi]
  simp

theorem vmlogBit_iff (hi : i < vl) : ∀ fn, vmlogBit fn vl a b i = true ↔ Spec.vmlog fn vl (bitAt a) (bitAt b) i
  | 0 | 1 | 2 | 3 | 4 | 5 | 7 | 8 | 9 => by simp [vmlogBit, Spec.vmlog]
  | 6 => by cases hb : bitAt a i <;> simp [vmlogBit, Spec.vmlog, hb]
  | 10 => by simpa [vmlogBit, Spec.vmlog] using lt_lowestBit_iff hi
  | 11 => by simpa [vmlogBit, Spec.vmlog] using le_lowestBit_iff hi
  | 12 => by simpa [vmlogBit, Spec.vmlog] using eq_lowestBit_iff hi
  | 13 => by
    cases hh : highestBit a vl with
    | none =>
      have hnone := highestBit_none.mp hh
      simp only [vmlogBit, Spec.vmlog, hh, true_iff]
      exact fun j hj _ => hnone j hj
    | some k =>
      obtain ⟨hk, hset, habove⟩ := highestBit_some hh
      simp only [vmlogBit, Spec.vmlog, hh, decide_eq_true_eq]
      refine ⟨fun hlt j hj hij => habove j hj (by omega), fun hnone => ?_⟩
      by_contra hle
      have hfalse := hnone k hk (by omega)
      rw [hset] at hfalse
      cases hfalse
  | fn + 14 => by
    cases hh : highestBit a vl with
    | none =>
      have hnone := highestBit_none.mp hh
      simp only [vmlogBit, Spec.vmlog, hh, false_iff, Bool.false_eq_true, not_and]
      rintro - ⟨j, hj, -, hset⟩
      rw [hnone j hj] at hset
      cases hset
    | some k =>
      obtain ⟨hk, hset, habove⟩ := highestBit_some hh
      simp only [vmlogBit, Spec.vmlog, hh, Bool.and_eq_true, decide_eq_true_eq, lowestBit_le_iff hi]
      refine and_congr_right fun _ => ⟨fun hik => ⟨k, hk, hik, hset⟩, fun ⟨j, hj, hij, hbit⟩ => ?_⟩
      by_contra hlt
      rw [habove j hj (by omega)] at hbit
      cases hbit

/-! ### The governing mask (R20, R139) -/

theorem bitAt_getM_lt {r : Nat} (hb : bitAt (h.getM r) i = true) : i < h.maskLen := by
  rw [bitAt_eq_testBit, Hart.getM] at hb
  split at hb
  · simpa [Nat.testBit_two_pow_sub_one] using hb
  · rw [Nat.testBit_mod_two_pow] at hb
    simp only [Bool.and_eq_true, decide_eq_true_eq] at hb
    exact hb.1

/-- Below MASKLEN the governing mask of VM is the mask register, m0 as ones. -/
theorem bitAt_governing (vm vl : Nat) (hi : i < h.maskLen) : bitAt (h.governing vm vl) i = bitAt (h.getM vm) i := by
  by_cases hvm : vm = 0
  · simp [Hart.governing, Hart.getM, hvm, bitAt_ones, hi]
  · simp [Hart.governing, hvm]

/-- Under a mask register the governing mask selects as the register of VM does. -/
theorem bitAt_getM_and_governing (r vm vl i : Nat) :
    bitAt (h.getM r &&& h.governing vm vl) i = (bitAt (h.getM r) i && bitAt (h.getM vm) i) := by
  rw [bitAt_and]
  cases hr : bitAt (h.getM r) i with
  | false => rfl
  | true => rw [bitAt_governing vm vl (bitAt_getM_lt hr)]

/-- A register is a whole number of 64-byte units. -/
theorem regBytes_dvd (h : Hart) : 64 ∣ h.regBytes := by
  have hc : h.vcfg.toNat < 4 := h.vcfg.isLt
  unfold Hart.regBytes Hart.nregs
  interval_cases h.vcfg.toNat <;> omega

theorem fmtWidth_zero_or_ge (fmt : Nat) : fmtWidth fmt = 0 ∨ 8 ≤ fmtWidth fmt := by
  unfold fmtWidth
  split <;> decide

/-- No vector length of any format passes MASKLEN (R17, R20, R94). -/
theorem vlmax_le_maskLen (h : Hart) (fmt : Nat) : h.vlmax fmt ≤ h.maskLen := by
  obtain ⟨k, hk⟩ := regBytes_dvd h
  have hbytes : h.regBytes ≤ h.maskLen := by unfold Hart.maskLen; omega
  unfold Hart.vlmax vlmaxOf
  split_ifs with hblock hw
  · have hrec : 20 ≤ rec32 fmt := by unfold rec32; split <;> decide
    exact Nat.mul_le_mul_right 32 (Nat.div_le_div_left hrec (by decide))
  · exact Nat.zero_le _
  · have hwidth : 8 ≤ fmtWidth fmt := (fmtWidth_zero_or_ge fmt).resolve_left hw
    calc h.regBytes * 8 / fmtWidth fmt ≤ h.regBytes * 8 / 8 := Nat.div_le_div_left hwidth (by decide)
      _ = h.regBytes := Nat.mul_div_cancel _ (by decide)
      _ ≤ h.maskLen := hbytes

/-- Elements within a format's longest vector are below MASKLEN. -/
theorem fromStart_lt_maskLen {s : State} {f : VForm} {fmt j : Nat} (hvl : s.me.vl.toNat ≤ s.longest f fmt)
    (hj : j ∈ s.me.fromStart) : j < s.me.maskLen := by
  have hlongest : s.longest f fmt ≤ s.me.vlmax fmt := by
    unfold State.longest
    split
    · exact Nat.min_le_left _ _
    · exact le_rfl
  have hmask := vlmax_le_maskLen s.me fmt
  simp only [Hart.fromStart, List.mem_map, List.mem_range] at hj
  omega

end Sys2Proof.Machine
end

section
/-! PROOFS. Compares, masks and selection (R154 to R157). -/

namespace Sys2Proof.Machine

open Sys2Proof

variable {s t : State} {i : Instr} {f : VForm} {op : BitVec 8} {m : VCtx → Exec Unit}

/-! ### VCMP (R154) -/

/-- The signed reading of a w-bit number is that of its bit vector. -/
theorem sext_eq_toInt {a w : Nat} (hw : 0 < w) : Fp.sext a w = (BitVec.ofNat w a).toInt := by
  obtain ⟨k, rfl⟩ : ∃ k, w = k + 1 := ⟨w - 1, by omega⟩
  have hpow : 2 ^ (k + 1) = 2 * 2 ^ k := by ring
  rw [BitVec.toInt_eq_toNat_cond, BitVec.toNat_ofNat, Fp.sext, if_neg (by omega), Nat.add_sub_cancel]
  exact if_congr (by omega) rfl rfl

/-- An integer condition raises nothing, and is the bit vectors' own comparison. -/
theorem vcmpF_int {fn fmt a b : Nat} (hf : fmt < 4) (ha : a < 2 ^ fmtWidth fmt) (hb : b < 2 ^ fmtWidth fmt) :
    vcmpF fn fmt a b = pure (Spec.vcmp fn (BitVec.ofNat (fmtWidth fmt) a) (BitVec.ofNat (fmtWidth fmt) b)) := by
  have hint : fmtIsInt fmt = true := by simp [fmtIsInt]; omega
  have hw : 0 < fmtWidth fmt := by unfold fmtWidth; interval_cases fmt <;> decide
  rw [vcmpF, if_pos hint]
  refine congrArg pure ?_
  have heq : BitVec.ofNat (fmtWidth fmt) a = BitVec.ofNat (fmtWidth fmt) b ↔ a = b := by
    rw [← BitVec.toNat_inj, BitVec.toNat_ofNat, BitVec.toNat_ofNat, Nat.mod_eq_of_lt ha, Nat.mod_eq_of_lt hb]
  have hleInt : ∀ x y : Int, (!decide (y < x)) = decide (x ≤ y) := fun x y => by rw [← decide_not, decide_eq_decide, not_lt]
  have hleNat : ∀ x y : Nat, (!decide (y < x)) = decide (x ≤ y) := fun x y => by rw [← decide_not, decide_eq_decide, not_lt]
  unfold Spec.vcmp
  split <;> simp [sext_eq_toInt hw, hleInt, hleNat, BitVec.slt_eq_decide, BitVec.ult_eq_decide, Nat.mod_eq_of_lt ha,
    Nat.mod_eq_of_lt hb, heq]

/-- VCMP's element: the condition as a mask bit. -/
def State.vcmpAt (s : State) (f : VForm) (j _old : Nat) : Fm Nat :=
  (fun c : Bool => if c then 1 else 0) <$> vcmpF f.fn.toNat f.fmt.toNat
    (elemAt ((s.side f).reg f.vs1.toNat) j (fmtWidth f.fmt.toNat)) (s.operand2 f (fmtWidth f.fmt.toNat) j)

/-- The run of VCMP over its active elements into the mask of VD. -/
def State.vcmpRun (s : State) (f : VForm) : LoopState :=
  runElems 1 (s.vcmpAt f) (s.me.actives f) { dst := s.me.getM f.vd.toNat, fs := s.me.fstate, done := [], stop := none }

/-- What VCMP's run leaves of its hart. -/
def State.vcmpHart (s : State) (f : VForm) (h : Hart) : Hart := (h.setM f.vd.toNat (s.vcmpRun f).dst).withF (s.vcmpRun f).fs

/-- VCMP writes what its run leaves, and ends as the run does. -/
theorem run_vcmpBody (hc : s.calm f) (hl : s.vlOk f f.fmt.toNat ((twoRegs f).drop 1)) :
    vcmpBody (s.calmCtx i f) (s.entered i f) =
      endRun (s.vcmpRun f) none (s.putHart s.cur ((s.entered i f).me.setM f.vd.toNat (s.vcmpRun f).dst)) := by
  obtain ⟨b, hb, hsecond⟩ := second_calm (s := s) (i := i) (f := f)
  have hcheck : (s.calmCtx i f).checkEw f.fmt.toNat ((s.calmCtx i f).regs2.drop 1) (s.entered i f) = .ok () (s.entered i f) :=
    checkEw_calm (by rw [regs2_calm]; exact hl)
  refine (run_bind_ok hcheck).trans ((run_bind_ok (read_calm f.vs1.toNat 1)).trans ((hb _).trans
    ((run_bind_ok (firstPoison_calm hc _ _)).trans ((run_bind_ok (run_me _)).trans ?_))))
  simp only [before, actives_calm, entered_fstate, entered_getM, hsecond, group_one]
  exact (run_bind_ok (run_modMe _ _)).trans (by rw [putHart_entered]; rfl)

/-- VCMP's integer condition at element i. -/
def State.vcmpCond (s : State) (f : VForm) (j : Nat) : Bool :=
  let w := fmtWidth f.fmt.toNat
  Spec.vcmp f.fn.toNat (BitVec.ofNat w (elemAt ((s.side f).reg f.vs1.toNat) j w)) (BitVec.ofNat w (s.operand2 f w j))

theorem vcmpAt_int (hf : f.fmt.toNat < 4) : s.vcmpAt f = fun j _ => pure (if s.vcmpCond f j then 1 else 0) := by
  funext j old
  rw [State.vcmpAt, vcmpF_int hf (elemAt_lt _ _ _) (operand2_lt _ _ _ _)]
  rfl

/-- In an integer format the run raises nothing, stops nowhere, and leaves the comparison in every active bit. -/
theorem vcmpRun_int (hf : f.fmt.toNat < 4) : (s.vcmpRun f).fs = s.me.fstate ∧ (s.vcmpRun f).stop = none ∧
    ∀ j, bitAt (s.vcmpRun f).dst j = if j ∈ s.me.actives f then s.vcmpCond f j else bitAt (s.me.getM f.vd.toNat) j := by
  obtain ⟨hfs, hstop, hdst⟩ := runElems_pure (wd := 1) (g := fun j _ => if s.vcmpCond f j then 1 else 0) (s.me.actives f)
    { dst := s.me.getM f.vd.toNat, fs := s.me.fstate, done := [], stop := none } (actives_nodup _ _) rfl
  rw [State.vcmpRun, vcmpAt_int hf]
  refine ⟨hfs, hstop, fun j => ?_⟩
  rw [bitAt_eq_elemAt, hdst j]
  by_cases hj : j ∈ s.me.actives f
  · rw [if_pos hj, if_pos hj]
    cases s.vcmpCond f j <;> rfl
  · rw [if_neg hj, if_neg hj, bitAt_eq_elemAt]

section Vcmp
variable (hc : s.calm f) (hl : s.vlOk f f.fmt.toNat ((twoRegs f).drop 1))
include hc hl

theorem exec_vcmp_done (hstop : (s.vcmpRun f).stop = none) :
    exec (.vcmp f) s = .next (s.vecDone (.vcmp f) f (s.vcmpHart f)) := by
  refine plainStep_vecDone (i := .vcmp f) hc rfl rfl rfl (fun h => by simp [State.vcmpHart, Hart.withF]) ?_
  rw [run_vcmpBody hc hl, endRun_done hstop]
  simp [State.vcmpHart]

theorem exec_vcmp_trap {j d : Nat} (hstop : (s.vcmpRun f).stop = some (j, d)) (hcat : s.me.catches) :
    exec (.vcmp f) s = .next (s.vecTrapped (.vcmp f) f (fun h => { s.vcmpHart f h with vstart := BitVec.ofNat 16 j }) 0x03 d 0) := by
  refine plainStep_vecTrapped (i := .vcmp f) hc hcat rfl rfl (fun h => by simp [State.vcmpHart, Hart.withF])
    (fun h => by simp [State.vcmpHart, Hart.withF]) ?_
  rw [run_vcmpBody hc hl, endRun_trap hstop]
  simp [State.vcmpHart]

/-- In an integer format only the mask changes. -/
theorem exec_vcmp_int (hf : f.fmt.toNat < 4) :
    exec (.vcmp f) s = .next (s.vecDone (.vcmp f) f (·.setM f.vd.toNat (s.vcmpRun f).dst)) := by
  obtain ⟨hfs, hstop, -⟩ := vcmpRun_int (s := s) hf
  rw [exec_vcmp_done hc hl hstop]
  refine congrArg Host.Outcome.next (vecDone_congr ?_)
  rw [State.vcmpHart, hfs, withF_fstate (by simp [me_entered, Hart.enqueue])]

end Vcmp

/-! ### VMLOG and VMPOP (R155, R156) -/

/-- An instruction that restarts finds VSTART zero (R144). -/
theorem needStart0_calm {c : VCtx} (hstart : c.start = 0) : c.needStart0 t = .ok () t := run_need_true (by simp [hstart])

/-- The mask VMLOG leaves in VD. -/
def State.vmlogMask (s : State) (f : VForm) : Nat :=
  maskOf (vmlogBit f.fn.toNat s.me.vl.toNat (s.me.getM f.vs1.toNat) (s.me.getM f.vs2.toNat)) (s.me.getM f.vd.toNat) s.me.vl.toNat

/-- VMLOG completes with its mask (R155). -/
theorem exec_vmlog (hc : s.calm f) (hstart : s.me.vstart = 0) :
    exec (.vmlog f) s = .next (s.vecDone (.vmlog f) f (·.setM f.vd.toNat (s.vmlogMask f))) := by
  refine plainStep_vecDone (i := .vmlog f) hc rfl rfl rfl (fun h => by simp) ?_
  refine (run_bind_ok (needStart0_calm (by simp [State.calmCtx, hstart]))).trans ((run_bind_ok (run_me _)).trans ?_)
  rw [entered_getM, entered_getM, entered_getM]
  exact (run_modMe _ _).trans (by rw [putHart_entered]; rfl)

/-- VMPOP's result from the bits it finds, rising: their count, or the first or the last of them, −1 for none. -/
def popResult (fn : Nat) (found : List Nat) : Word :=
  match fn with
  | 0 => BitVec.ofNat 64 found.length
  | 1 => match found.head? with | some j => BitVec.ofNat 64 j | none => -1
  | _ => match found.getLast? with | some j => BitVec.ofNat 64 j | none => -1

theorem run_vmpopBody {c : VCtx} (hstart : c.start = 0) (hdead : c.e.dead = false) : vmpopBody c t =
    .ok () (t.putHart t.cur (t.me.setX c.f.vd.toNat (popResult c.f.fn.toNat
      ((List.range c.vl).filter (bitAt (t.me.getM c.f.vs1.toNat &&& c.mask)))))) := by
  refine (run_bind_ok (needStart0_calm hstart)).trans ((run_bind_ok (run_me _)).trans ?_)
  rw [onesCount_eq, lowestBit_eq_head, highestBit_eq_last, VCtx.putX, hdead]
  rfl

/-- The bits VMPOP counts or finds are those of VS1 that the mask register of VM selects. -/
theorem vmpop_found (h : Hart) (r vm vl : Nat) : (List.range vl).filter (bitAt (h.getM r &&& h.governing vm vl)) =
    (List.range vl).filter fun j => bitAt (h.getM r) j && bitAt (h.getM vm) j :=
  List.filter_congr fun j _ => bitAt_getM_and_governing r vm vl j

/-- VMPOP completes with its result in x(VD) (R156). -/
theorem exec_vmpop (hc : s.calm f) (hstart : s.me.vstart = 0) :
    exec (.vmpop f) s = .next (s.vecDone (.vmpop f) f (·.setX f.vd.toNat (popResult f.fn.toNat
      ((List.range s.me.vl.toNat).filter fun j => bitAt (s.me.getM f.vs1.toNat) j && bitAt (s.me.getM f.vm.toNat) j)))) := by
  refine plainStep_owing (i := .vmpop f) hc rfl rfl (fun h => by simp) fun b => ?_
  refine (run_vmpopBody (by simp [State.calmCtx, hstart]) rfl).trans ?_
  rw [putHart_entered, entered_getM, ← vmpop_found]
  rfl

/-! ### VSEL (R157) -/

/-- What VSEL puts in element i: of VS1 where the mask has a one, else of the second source. -/
def State.vselAt (s : State) (f : VForm) (j : Nat) : Nat :=
  if bitAt (s.me.governing f.vm.toNat s.me.vl.toNat) j then elemAt ((s.side f).reg f.vs1.toNat) j (fmtWidth f.fmt.toNat)
  else s.operand2 f (fmtWidth f.fmt.toNat) j

/-- The run of VSEL over the elements from VSTART. -/
def State.vselRun (s : State) (f : VForm) : LoopState :=
  s.inOrder f s.me.fromStart f.vd.toNat 1 (fmtWidth f.fmt.toNat) fun j _ => pure (s.vselAt f j)

/-- The run raises nothing, and every element from VSTART is what VSEL selects. -/
theorem vselRun_spec : (s.vselRun f).fs = s.me.fstate ∧ (s.vselRun f).stop = none ∧
    Spec.elements (s.vselRun f).dst ((s.side f).reg f.vd.toNat) (fmtWidth f.fmt.toNat) s.me.fromStart (s.vselAt f) := by
  obtain ⟨hfs, hstop, hdst⟩ := runElems_pure (wd := fmtWidth f.fmt.toNat) (g := fun j _ => s.vselAt f j) s.me.fromStart
    { dst := (s.side f).group f.vd.toNat 1, fs := s.me.fstate, done := [], stop := none } (fromStart_nodup _) rfl
  have hlt : ∀ j, s.vselAt f j < 2 ^ fmtWidth f.fmt.toNat := by
    intro j
    unfold State.vselAt
    split
    · exact elemAt_lt _ _ _
    · exact operand2_lt _ _ _ _
  refine ⟨hfs, hstop, fun j => ?_⟩
  rw [State.vselRun, State.inOrder, hdst j, Nat.mod_eq_of_lt (hlt j), group_one]

theorem run_vselBody (hc : s.calm f) (hl : s.vlOk f f.fmt.toNat (twoRegs f)) :
    vselBody (s.calmCtx i f) (s.entered i f) = .ok () ((s.entered i f).putGroup f f.vd.toNat 1 (s.vselRun f).dst) := by
  obtain ⟨b, hb, hsecond⟩ := second_calm (s := s) (i := i) (f := f)
  obtain ⟨hfs, hstop, -⟩ := vselRun_spec (s := s) (f := f)
  have hcheck : (s.calmCtx i f).checkEw f.fmt.toNat (s.calmCtx i f).regs2 (s.entered i f) = .ok () (s.entered i f) :=
    checkEw_calm (by rw [regs2_calm]; exact hl)
  refine (run_bind_ok hcheck).trans ((run_bind_ok (read_calm f.vs1.toNat 1)).trans ((hb _).trans
    ((run_bind_ok (firstPoison_calm hc _ _)).trans ((run_bind_ok (read_calm _ 1)).trans ((run_bind_ok (run_me _)).trans ?_)))))
  simp only [before, range_calm, entered_fstate, hsecond, group_one (s.side f) f.vs1.toNat]
  refine (run_bind_ok (write_calm hc f.vd.toNat 1 (s.vselRun f).dst _ (s.vselRun f).done)).trans ((endRun_done hstop).trans ?_)
  rw [hfs, withF_putGroup]

/-- VSEL completes with its run in the registers where it executes (R157). -/
theorem exec_vsel (hc : s.calm f) (hl : s.vlOk f f.fmt.toNat (twoRegs f)) :
    exec (.vsel f) s = .next ((s.vecDone (.vsel f) f id).putGroup f f.vd.toNat 1 (s.vselRun f).dst) := by
  have hcur : ((s.entered (.vsel f) f).putGroup f f.vd.toNat 1 (s.vselRun f).dst).cur = s.cur := by
    rcases BitVec.eq_zero_or_eq_one f.p with hp | hp
    · rw [putGroup_near hp]; rfl
    · rw [putGroup_far hp]; rfl
  have hdone : s.vecDone (.vsel f) f id = State.leave (s.entered (.vsel f) f) (.vsel f) f := by
    rw [vecDone_eq (i := .vsel f) (g := id) hc rfl fun _ => rfl, id, entered_eq]
  rw [hdone, leave_putGroup]
  exact plainStep_calm hc rfl rfl (run_vselBody hc hl) hcur

/-- Settles O34: VCMP runs its active elements into the mask and ends as that run does, in an integer format with the bit
vectors' own comparison in every active bit; VMLOG and VMPOP work on bits 0 to VL − 1; VSEL's selector is VM's register,
because no vector length passes MASKLEN. -/
theorem maskResult : Obligations.MaskResult := by
  intro f s hc
  refine ⟨fun hl => ⟨fun hf => ?_, exec_vcmp_done hc hl, fun j c => exec_vcmp_trap hc hl⟩,
    fun hstart => ⟨⟨s.vmlogMask f, fun i hi => ?_, fun i hi => ?_, exec_vmlog hc hstart⟩, exec_vmpop hc hstart⟩, fun hl => ?_⟩
  · obtain ⟨-, -, hbits⟩ := vcmpRun_int (s := s) hf
    exact ⟨(s.vcmpRun f).dst, hbits, exec_vcmp_int hc hl hf⟩
  · rw [State.vmlogMask, bitAt_maskOf, if_neg (Nat.not_lt.mpr hi)]
  · rw [State.vmlogMask, bitAt_maskOf, if_pos hi]
    exact vmlogBit_iff hi _
  · obtain ⟨hvl, -⟩ := id hl
    obtain ⟨-, -, hels⟩ := vselRun_spec (s := s) (f := f)
    refine ⟨(s.vselRun f).dst, fun j => ?_, exec_vsel hc hl⟩
    rw [hels j]
    refine ite_congr rfl (fun hj => ?_) fun _ => rfl
    rw [State.vselAt, bitAt_governing _ _ (fromStart_lt_maskLen hvl hj)]

end Sys2Proof.Machine
end

section
/-! SUPPORT. More ends of a calm vector instruction: nothing changed, a trap or a wait with nothing changed, a register group
written; and what its body finds of the slots and of the near registers. -/

namespace Sys2Proof.Machine

open Sys2Proof

variable {s t : State} {i : Instr} {f : VForm} {op : BitVec 8} {m : VCtx → Exec Unit}

/-- A computation stops where its first part stops. -/
theorem run_bind_error {α β : Type} {n : Exec α} {k : α → Exec β} {e : Stop} (hn : n s = .error e t) :
    (n >>= k) s = .error e t := by
  rw [run_bind, hn]

theorem run_need_false {c : VCtx} {b : Bool} (hb : b = false) :
    c.need b t = .error (.trap 0x01 1 (illegalValue c.e.instr)) t := by
  simp [VCtx.need, hb, illegalAtIssue]

/-! ### Ends -/

/-- A calm instruction whose body changes nothing completes. -/
theorem plainStep_idle (hc : s.calm f) (hi : i.vForm = some (op, f)) (hx : pendingX i = none) (ht : trims i = false)
    (hm : m (s.calmCtx i f) (s.entered i f) = .ok () (s.entered i f)) : plainStep i f m s = .next (s.vecDone i f id) :=
  plainStep_vecDone hc hi hx ht (fun _ => rfl) (by rw [id, entered_eq, hm])

/-- A body that traps with nothing changed is taken by the handler. -/
theorem plainStep_trapped {c d : Nat} {v : Word} (hc : s.calm f) (hcat : s.me.catches) (hi : i.vForm = some (op, f))
    (hx : pendingX i = none) (hm : m (s.calmCtx i f) (s.entered i f) = .error (.trap c d v) (s.entered i f)) :
    plainStep i f m s = .next (s.vecTrapped i f id c d v) :=
  plainStep_vecTrapped hc hcat hi hx (fun _ => rfl) (fun _ => rfl) (by rw [id, entered_eq, hm])

/-- A calm instruction whose body waits stays in the queue, in the state its body left. -/
theorem plainStep_wait (hc : s.calm f) (hi : i.vForm = some (op, f)) (hx : pendingX i = none)
    (hm : m (s.calmCtx i f) (s.entered i f) = .error .wait t) : plainStep i f m s = .next t := by
  rw [plainStep_stop hc hi hx hm, outcome_wait]

theorem putGroup_cur (r g v : Nat) : (t.putGroup f r g v).cur = t.cur := by
  rcases BitVec.eq_zero_or_eq_one f.p with hp | hp
  · rw [putGroup_near hp, putHart_cur]
  · rw [putGroup_far hp, putFar_cur]

/-- A body that only writes a register group where it executes completes with that group written. -/
theorem plainStep_putGroup {r g v : Nat} (hc : s.calm f) (hi : i.vForm = some (op, f)) (hx : pendingX i = none)
    (ht : trims i = false) (hm : m (s.calmCtx i f) (s.entered i f) = .ok () ((s.entered i f).putGroup f r g v)) :
    plainStep i f m s = .next ((s.vecDone i f id).putGroup f r g v) := by
  rw [vecDone_eq (g := id) hc ht fun _ => rfl, id, entered_eq, leave_putGroup]
  exact plainStep_calm hc hi hx hm (putGroup_cur r g v)

/-! ### What a body finds -/

@[simp] theorem calmCtx_f : (s.calmCtx i f).f = f := rfl
@[simp] theorem entered_slotQuiet (key : Nat) : (s.entered i f).slotQuiet key = s.slotQuiet key := rfl
@[simp] theorem entered_slot (n : Nat) : (s.entered i f).me.slot n = s.me.slot n := by
  simp [Hart.slot, me_entered, Hart.enqueue]
@[simp] theorem entered_regBytes : (s.entered i f).me.regBytes = s.me.regBytes := by
  simp [Hart.regBytes, Hart.nregs, me_entered, Hart.enqueue]
@[simp] theorem entered_nregs : (s.entered i f).me.nregs = s.me.nregs := by
  simp [Hart.nregs, me_entered, Hart.enqueue]

theorem calmCtx_far (hp : f.p = 1) : (s.calmCtx i f).far = some (s.me.slot f.slot.toNat).key := by
  simp [State.calmCtx, State.side, hp]
theorem calmCtx_far_nregs (hp : f.p = 1) : (s.calmCtx i f).nregs = 8 := by simp [State.calmCtx, State.side, hp]

theorem run_checkVl {c : VCtx} {fmt : Nat} (hn : c.vl ≤ t.me.vlmax fmt) (hf : c.vl ≤ farLen (fmtWidth fmt)) :
    c.checkVl fmt t = .ok () t :=
  (run_bind_ok (run_me _)).trans (run_need_true (by simp [hn, hf]))

/-- A hart that takes on its own FLAGS and SRSEED changes nothing. -/
theorem withF_self (h : Hart) : h.withF h.fstate = h := withF_fstate rfl

end Sys2Proof.Machine
end

section
/-! PROOFS. Far contexts: leases, transfers and counts (R319, R320, R322, R323, R364). -/

namespace Sys2Proof.Machine

open Sys2Proof

variable {s t : State} {i : Instr} {f : VForm}

/-- The hart with a slot register written. -/
def Hart.putSlot (h : Hart) (n : Nat) (k : Fstk) : Hart := { h with fstk := Tab.put {} h.fstk n k }

/-! ### FBIND (R319) -/

/-- The Landing that FBIND's operand names, and whether it is one of a package in the pod. -/
abbrev State.bindTarget (s : State) (f : VForm) : Nat := (s.me.getX (f.vs1.toNat % 32)).toNat
abbrev State.bindTargetOk (s : State) (f : VForm) : Bool := s.bindTarget f < 1024 && s.present (s.bindTarget f / 8)

/-- The state with the hart of the turn in a Landing's lease queue, once. -/
def State.joinLease (s : State) (landing : Nat) : State :=
  { s with leaseq := if s.cur ∈ Tab.get [] s.leaseq landing then s.leaseq
      else Tab.put [] s.leaseq landing (Tab.get [] s.leaseq landing ++ [s.cur]) }

theorem run_joinLease (landing : Nat) : joinLease landing s = .ok () (s.joinLease landing) := by
  by_cases hq : s.cur ∈ Tab.get [] s.leaseq landing <;> simp [joinLease, State.joinLease, hq]

/-- The state with another table of the grants that wait for their FBIND. -/
def State.withGranted (s : State) (g : Tab Nat) : State := { s with granted := g }

theorem withGranted_putHart (g : Tab Nat) (k : Nat) (h : Hart) :
    (t.withGranted g).putHart k h = (t.putHart k h).withGranted g := rfl
theorem leave_withGranted (g : Tab Nat) : (t.withGranted g).leave i f = (t.leave i f).withGranted g := rfl

/-- The slot register that a granted context gives. -/
def grantedSlot (key : Nat) : Fstk :=
  { pkg := BitVec.ofNat 7 (key / 2048), stack := BitVec.ofNat 3 (key / 256), fctx := BitVec.ofNat 8 key, bound := true }

theorem exec_fbind_bound (hc : s.calm f) (hcat : s.me.catches) (hb : (s.me.slot f.vd.toNat).bound = true) :
    exec (.fbind f) s = .next (s.vecTrapped (.fbind f) f id 0x01 1 (illegalValue (.fbind f))) :=
  plainStep_trapped (i := .fbind f) hc hcat rfl rfl
    ((run_bind_ok (run_get _)).trans (run_bind_error (run_need_false (by rw [calmCtx_f, entered_slot, hb, Bool.not_true]))))

section Unbound
variable (hb : (s.me.slot f.vd.toNat).bound = false)
include hb

theorem need_unbound : (s.calmCtx i f).need (!((s.entered i f).me.slot f.vd.toNat).bound) (s.entered i f) =
    .ok () (s.entered i f) := run_need_true (by rw [entered_slot, hb, Bool.not_false])

theorem run_fbindBody_absent (ht : s.bindTargetOk f = false) : fbindBody (s.calmCtx i f) (s.entered i f) =
    .error (.trap 0x06 0 (s.me.getX (f.vs1.toNat % 32))) (s.entered i f) :=
  (run_bind_ok (run_get _)).trans ((run_bind_ok (need_unbound hb)).trans
    (run_bind_error ((run_need _ _ _).trans (if_neg (Bool.eq_false_iff.mp ht)))))

theorem run_fbindBody_waits (ht : s.bindTargetOk f = true) (hg : Tab.get 0 s.granted s.cur = 0) :
    fbindBody (s.calmCtx i f) (s.entered i f) = .error .wait ((s.entered i f).joinLease (s.bindTarget f)) := by
  have hg' : Tab.get 0 (s.entered i f).granted (s.entered i f).cur = 0 := hg
  refine (run_bind_ok (run_get _)).trans ((run_bind_ok (need_unbound hb)).trans
    ((run_bind_ok ((run_need _ _ _).trans (if_pos ht))).trans ?_))
  rw [hg']
  exact run_bind_ok (run_joinLease _)

theorem run_fbindBody_granted {key : Nat} (ht : s.bindTargetOk f = true) (hg : Tab.get 0 s.granted s.cur = key + 1) :
    fbindBody (s.calmCtx i f) (s.entered i f) = .ok () ((s.putHart s.cur
      ((s.entered i f).me.putSlot f.vd.toNat (grantedSlot key))).withGranted (Tab.put 0 s.granted s.cur 0)) := by
  have hg' : Tab.get 0 (s.entered i f).granted (s.entered i f).cur = key + 1 := hg
  refine (run_bind_ok (run_get _)).trans ((run_bind_ok (need_unbound hb)).trans
    ((run_bind_ok ((run_need _ _ _).trans (if_pos ht))).trans ?_))
  rw [hg']
  refine (run_bind_ok (run_modify (fun u => u.withGranted (Tab.put 0 u.granted u.cur 0)) _)).trans
    ((run_modMe _ (·.putSlot f.vd.toNat (grantedSlot key))).trans ?_)
  exact congrArg (EStateM.Result.ok ())
    ((withGranted_putHart _ _ _).trans (congrArg (State.withGranted · _) (putHart_entered _)))

variable (hc : s.calm f)
include hc

theorem exec_fbind_absent (hcat : s.me.catches) (ht : s.bindTargetOk f = false) : exec (.fbind f) s =
    .next (s.vecTrapped (.fbind f) f id 0x06 0 (s.me.getX (f.vs1.toNat % 32))) :=
  plainStep_trapped (i := .fbind f) hc hcat rfl rfl (run_fbindBody_absent hb ht)

theorem exec_fbind_waits (ht : s.bindTargetOk f = true) (hg : Tab.get 0 s.granted s.cur = 0) :
    exec (.fbind f) s = .next ((s.entered (.fbind f) f).joinLease (s.bindTarget f)) :=
  plainStep_wait (i := .fbind f) hc rfl rfl (run_fbindBody_waits hb ht hg)

theorem exec_fbind_granted {key : Nat} (ht : s.bindTargetOk f = true) (hg : Tab.get 0 s.granted s.cur = key + 1) :
    exec (.fbind f) s = .next
      ((s.vecDone (.fbind f) f (·.putSlot f.vd.toNat (grantedSlot key))).withGranted (Tab.put 0 s.granted s.cur 0)) := by
  rw [vecDone_eq (g := (·.putSlot f.vd.toNat (grantedSlot key))) hc rfl fun _ => rfl, ← leave_withGranted]
  exact plainStep_calm (i := .fbind f) hc rfl rfl (run_fbindBody_granted hb ht hg) rfl

end Unbound

/-! ### FREL (R320) -/

theorem exec_frel_unbound (hc : s.calm f) (hb : (s.me.slot f.vd.toNat).bound = false)
    (hl : (s.me.slot f.vd.toNat).lost = false) : exec (.frel f) s = .next (s.vecDone (.frel f) f id) :=
  plainStep_idle (i := .frel f) hc rfl rfl rfl (by simp [frelBody, hb, hl])

theorem exec_frel_lost (hc : s.calm f) (hl : (s.me.slot f.vd.toNat).lost = true) :
    exec (.frel f) s = .next (s.vecDone (.frel f) f (·.putSlot f.vd.toNat {})) :=
  plainStep_vecDone (i := .frel f) hc rfl rfl rfl (fun _ => rfl) (by simp [frelBody, hl, Hart.putSlot])

theorem cur_of_freeLease {key : Nat} (h : freeLease key s = .ok () t) : t.cur = s.cur := by cases h; rfl

section Leased
variable (hc : s.calm f) (hb : (s.me.slot f.vd.toNat).bound = true) (hl : (s.me.slot f.vd.toNat).lost = false)
include hc hb hl

theorem exec_frel_busy (hq : s.slotQuiet (s.me.slot f.vd.toNat).key = false) :
    exec (.frel f) s = .next (s.entered (.frel f) f) :=
  plainStep_wait (i := .frel f) hc rfl rfl (by simp [frelBody, hb, hl, hq])

theorem exec_frel_quiet (hq : s.slotQuiet (s.me.slot f.vd.toNat).key = true)
    (hfree : freeLease (s.me.slot f.vd.toNat).key (s.entered (.frel f) f) = .ok () t) :
    exec (.frel f) s = .next (State.leave (t.putHart t.cur (t.me.putSlot f.vd.toNat {})) (.frel f) f) := by
  have hcur : t.cur = (s.entered (.frel f) f).cur := cur_of_freeLease hfree
  exact plainStep_calm (i := .frel f) hc rfl rfl (by simp [frelBody, hb, hl, hq, hfree, Hart.putSlot]) hcur

end Leased

/-! ### YXFER (R322) -/

/-- A register with the elements of a list copied from another. -/
def copyElems (els : List Nat) (w src old : Nat) : Nat := els.foldl (fun v j => elemSet v j w (elemAt src j w)) old

theorem elements_copyElems (els : List Nat) (w src old : Nat) :
    Spec.elements (copyElems els w src old) old w els (fun j => elemAt src j w) := by
  unfold copyElems
  induction els generalizing old with
  | nil => intro j; simp
  | cons k els ih =>
    intro j
    rw [List.foldl_cons, ih _ j, elemAt_elemSet, Nat.mod_eq_of_lt (elemAt_lt _ _ _)]
    by_cases hj : j = k <;> simp [hj]

/-- The near context of a calm far instruction. -/
def State.nearCtx (s : State) (i : Instr) (f : VForm) : VCtx :=
  { s.calmCtx i f with far := none, bytes := s.me.regBytes, nregs := s.me.nregs }

theorem run_nearSide : (s.calmCtx i f).nearSide (s.entered i f) = .ok (s.nearCtx i f) (s.entered i f) := by
  simp [VCtx.nearSide, State.nearCtx]

/-- A v register as a number. -/
def Hart.vreg (h : Hart) (r : Nat) : Nat := Tab.get 0 h.v r % 2 ^ (8 * h.regBytes)

/-- The hart with a v register written. -/
def Hart.putV (h : Hart) (r v : Nat) : Hart := { h with v := Tab.put 0 h.v r (v % 2 ^ (8 * h.regBytes)) }

theorem read_near (r : Nat) : (s.nearCtx i f).read r 1 (s.entered i f) = .ok (s.me.vreg r) (s.entered i f) := by
  simp [VCtx.read, State.nearCtx, groupVal, Hart.vreg]

theorem write_near (hb : s.me.badv = []) (r v w : Nat) (done : List Nat) :
    (s.nearCtx i f).write r 1 v w done (s.entered i f) = .ok () (s.putHart s.cur ((s.entered i f).me.putV r v)) := by
  simp [VCtx.write, State.nearCtx, setGroup, Hart.putV, hb]

section Yxfer
variable (hn : s.me.vl.toNat ≤ s.me.vlmax f.fmt.toNat) (hf : s.me.vl.toNat ≤ farLen (fmtWidth f.fmt.toNat))
include hn hf

/-- YXFER from one side to the other: it leaves the state that the write of the copied elements leaves. -/
theorem run_yxferBody {src dst : VCtx} {a old : Nat} (hsrc : (if f.fn = 0 then s.nearCtx i f else s.calmCtx i f) = src)
    (hdst : (if f.fn = 0 then s.calmCtx i f else s.nearCtx i f) = dst)
    (h1 : f.vs1.toNat < src.nregs) (hd : f.vd.toNat < dst.nregs)
    (hpoison : ∀ reads els, src.firstPoison reads els (s.entered i f) = .ok none (s.entered i f))
    (hread : src.read f.vs1.toNat 1 (s.entered i f) = .ok a (s.entered i f))
    (hold : dst.read f.vd.toNat 1 (s.entered i f) = .ok old (s.entered i f))
    (hwrite : ∀ w done, dst.write f.vd.toNat 1 (copyElems (s.me.actives f) (fmtWidth f.fmt.toNat) a old) w done
      (s.entered i f) = .ok () t)
    (hflags : t.putHart t.cur (t.me.withF t.me.fstate) = t) : yxferBody (s.calmCtx i f) (s.entered i f) = .ok () t := by
  have hlen : ∀ c : VCtx, c.vl = s.me.vl.toNat → c.checkVl f.fmt.toNat (s.entered i f) = .ok () (s.entered i f) :=
    fun c hvl => run_checkVl (by rw [entered_vlmax, hvl]; exact hn) (by rw [hvl]; exact hf)
  subst hsrc hdst
  refine (run_bind_ok run_nearSide).trans ((run_bind_ok (hlen _ rfl)).trans ((run_bind_ok (hlen _ rfl)).trans
    ((run_bind_ok (run_need_true (decide_eq_true h1))).trans ((run_bind_ok (run_need_true (decide_eq_true hd))).trans
    ((run_bind_ok (hpoison _ _)).trans ((run_bind_ok hread).trans ((run_bind_ok hold).trans ?_)))))))
  simp only [before, actives_calm]
  refine (run_bind_ok (hwrite _ _)).trans ((run_bind_ok (run_me _)).trans ((endRun_done rfl).trans ?_))
  rw [hflags]

variable (hc : s.calm f) (hp : f.p = 1) (hbad : s.me.badv = [])
include hc hp hbad

theorem run_yxferBody_in (hfn : f.fn = 0) (h1 : f.vs1.toNat < s.me.nregs) (hd : f.vd.toNat < 8) :
    yxferBody (s.calmCtx i f) (s.entered i f) = .ok () ((s.entered i f).putGroup f f.vd.toNat 1
      (copyElems (s.me.actives f) (fmtWidth f.fmt.toNat) (s.me.vreg f.vs1.toNat) ((s.side f).reg f.vd.toNat))) := by
  refine run_yxferBody hn hf (if_pos hfn) (if_pos hfn) h1 (by rwa [calmCtx_far_nregs hp])
    (firstPoison_none rfl (by rwa [entered_badv])) (read_near _) (by rw [read_calm, group_one]) (write_calm hc _ _ _) ?_
  rw [withF_self, putGroup_far hp, putFar_cur, putFar_me, putFar_putHart, putHart_entered, entered_eq]

theorem run_yxferBody_out (hfn : f.fn ≠ 0) (hd : f.vd.toNat < s.me.nregs) (h1 : f.vs1.toNat < 8) :
    yxferBody (s.calmCtx i f) (s.entered i f) = .ok () (s.putHart s.cur ((s.entered i f).me.putV f.vd.toNat
      (copyElems (s.me.actives f) (fmtWidth f.fmt.toNat) ((s.side f).reg f.vs1.toNat) (s.me.vreg f.vd.toNat)))) := by
  refine run_yxferBody hn hf (if_neg hfn) (if_neg hfn) (by rwa [calmCtx_far_nregs hp]) hd (firstPoison_calm hc)
    (by rw [read_calm, group_one]) (read_near _) (write_near hbad _ _) ?_
  rw [withF_self, me_putHart, putHart_cur, putHart_putHart]

end Yxfer

/-! ### FDONE, YSYNC (R323) -/

theorem exec_fdone (hc : s.calm f) (hp : f.p = 1) :
    exec (.fdone f) s = .next (s.vecDone (.fdone f) f (·.setX f.vd.toNat (s.farCtx (s.me.slot f.slot.toNat).key).done)) := by
  refine plainStep_owing (i := .fdone f) hc rfl rfl (fun h => by simp) fun b => ?_
  have hdead : (s.me.capture (.fdone f) f).dead = false := rfl
  simp [fdoneBody, calmCtx_far hp, VCtx.putX, hdead]

theorem exec_ysync (hc : s.calm f) : exec (.ysync f) s = .next (s.vecDone (.ysync f) f id) :=
  plainStep_idle (i := .ysync f) hc rfl rfl rfl rfl

/-! ### LEASE GRANT (R364) -/

theorem exec_leaseGrant_idle {t c : Nat} (hq : Tab.get [] s.leaseq t = []) : exec (.leaseGrant t c) s = .next s := by
  refine eventStep_ok (m := grantLease t c) ?_
  simp [grantLease, hq]

theorem exec_leaseGrant_full {t c : Nat} (hfree : s.freeFar t c = false) : exec (.leaseGrant t c) s = .next s := by
  cases hq : Tab.get [] s.leaseq t with
  | nil => exact exec_leaseGrant_idle hq
  | cons k l =>
    refine eventStep_ok (m := grantLease t c) ?_
    simp [grantLease, hq, hfree]

theorem exec_leaseGrant_free {t c k : Nat} {l : List Nat} (hq : Tab.get [] s.leaseq t = k :: l) (hfree : s.freeFar t c = true) :
    exec (.leaseGrant t c) s = .next { s.putFar (t * 256 + c) { leased := true } with
      leaseq := Tab.put [] s.leaseq t l
      granted := Tab.put 0 s.granted k (1 + t * 256 + c) } := by
  refine eventStep_ok (m := grantLease t c) ?_
  simp [grantLease, hq, hfree]

/-- Settles O47: FBIND's checks come before its wait, after which its grant is at hand or its hart joins the queue; FREL goes by
its slot register; YXFER's two directions are one body between a near and a far context, whose copied elements are those of the
source; FDONE and YSYNC complete, and LEASE GRANT acts where a hart waits and the context is free. -/
theorem farContextResult : Obligations.FarContextResult := by
  refine ⟨fun f s hc => ⟨fun hb ht hp => ?_, fun hb ht hcat => ?_, fun hb hcat => exec_fbind_bound hc hcat hb,
      fun hb hl => exec_frel_unbound hc hb hl, fun hl => exec_frel_lost hc hl,
      fun hb hl hq t hfree => exec_frel_quiet hc hb hl hq hfree, fun hb hl hq => exec_frel_busy hc hb hl hq⟩,
    fun f s hc hp hbad hn hf => ⟨fun hfn h1 hd => ?_, fun hfn hd h1 => ?_⟩,
    fun f s hc hp => ⟨exec_fdone hc hp, exec_ysync hc⟩,
    fun t c k l s => ⟨exec_leaseGrant_idle, exec_leaseGrant_free, exec_leaseGrant_full⟩⟩
  · have hok : s.bindTargetOk f = true := by simp [ht, hp]
    exact ⟨exec_fbind_waits hb hc hok, fun key => exec_fbind_granted hb hc hok⟩
  · have hok : s.bindTargetOk f = false := by
      rcases ht with hlarge | habsent
      · simp [Nat.not_lt.mpr hlarge]
      · simp [habsent]
    rw [BitVec.ofNat_toNat, BitVec.setWidth_eq]
    exact exec_fbind_absent hb hc hcat hok
  · exact ⟨_, elements_copyElems _ _ _ _,
      plainStep_putGroup (i := .yxfer f) hc rfl rfl rfl (run_yxferBody_in hn hf hc hp hbad hfn h1 hd)⟩
  · exact ⟨_, elements_copyElems _ _ _ _,
      plainStep_vecDone (i := .yxfer f) (g := (·.putV f.vd.toNat _)) hc rfl rfl rfl (fun _ => rfl)
        (run_yxferBody_out hn hf hc hp hbad hfn hd h1)⟩

end Sys2Proof.Machine
end

section
/-! PROOFS. Key domains (R391 to R394): a slot made LIVE by KDNEW and KDNEW.RECYCLE, and the end of a domain by KDEND. -/

namespace Sys2Proof.Machine

open Sys2Proof

variable {s t : State} {f : SForm}

/-! ### Key slots -/

@[simp] theorem keySlot_putSlot_same (n : Nat) (k : KeySlot) : (s.putSlot n k).keySlot n = k := Tab.get_put_same
theorem keySlot_putSlot_other {m n : Nat} (hm : m ≠ n) (k : KeySlot) : (s.putSlot n k).keySlot m = s.keySlot m :=
  Tab.get_put_other fun he => hm (Nat.add_left_cancel he)
@[simp] theorem keySlot_putHart (m k : Nat) (h : Hart) : (s.putHart k h).keySlot m = s.keySlot m := rfl

/-- The state with a slot LIVE at a generation, under keys just drawn (R394). -/
def State.slotStarted (s : State) (n gen : Nat) : State :=
  { s.putSlot n { state := .live, gen := BitVec.ofNat 4 gen, key := s.keys } with keys := s.keys + 1 }

theorem run_startSlot (n gen : Nat) : startSlot n gen s = .ok (BitVec.ofNat 64 (n + 4096 * gen)) (s.slotStarted n gen) := rfl

/-! ### Ways a scalar instruction with an empty queue ends -/

section Step
variable {body : Exec Flow} (hg : s.me.guardOn f.g f.gn = true) (hv : s.me.viq = [])
include hg hv

/-- It completes in the state its body leaves, but for its hart, as that body leaves it (R134). -/
theorem sStep_after {h : Hart} (hb : body s = .ok .seq (t.putHart t.cur h)) : sStep f body s = .next (t.after h 4) := by
  rw [sStep, hg, scalarStep_seq (ready_of_empty _ hv _) hb, me_putHart, putHart_cur, putHart_putHart, State.after]

/-- It waits in the state where its body waits. -/
theorem sStep_waits (hb : body s = .error .wait t) : sStep f body s = .next t := by
  rw [sStep, hg, scalarStep_stop (ready_of_empty _ hv _) hb, outcome_wait]

/-- It depends on its body at its own state only. -/
theorem sStep_congr {body' : Exec Flow} (hb : body s = body' s) : sStep f body s = sStep f body' s := by
  simp [sStep, hg, scalarStep, outcome, scalarWork, ready_of_empty _ hv, hb]

end Step

/-- A body that ends by writing x(r) leaves the plain write of it where nothing is queued. -/
theorem run_setX_seq (hv : s.me.viq = []) (r : Nat) (v : Word) :
    (setX r v >>= fun _ => (pure .seq : Exec Flow)) s = .ok .seq (s.putHart s.cur (s.me.setX r v)) := by
  rw [run_bind_ok (run_setX s r v), run_pure, setXNow_idle _ _ _ hv]

/-! ### KDNEW and KDNEW.RECYCLE (R394) -/

/-- The number in x(RS1): of KDNEW.RECYCLE a slot, of KDEND a slot in the low twelve bits and the generation above. -/
abbrev State.keyArg (s : State) (f : SForm) : Nat := (s.me.getX f.rs1.toNat).toNat

section New
variable (hg : s.me.guardOn f.g f.gn = true) (hv : s.me.viq = []) (hs : s.me.isS = true)
include hg hv hs

theorem exec_kdnew_free {n : Nat} (hn : (List.range 4096).find? (fun n => n ≠ 0 && (s.keySlot n).state = .free) = some n) :
    exec (.kdnew f) s = .next ((s.slotStarted n ((s.keySlot n).gen.toNat + 1)).after
      (s.me.setX f.rd.toNat (BitVec.ofNat 64 (n + 4096 * ((s.keySlot n).gen.toNat + 1)))) 4) := by
  refine sStep_after hg hv ((run_bind_ok (run_sOnly _ _ hs)).trans ((run_bind_ok (run_get _)).trans ?_))
  rw [hn]
  exact (run_bind_ok (run_startSlot _ _)).trans (run_setX_seq (s := s.slotStarted _ _) hv _ _)

theorem exec_kdnew_none (hn : ∀ n < 4096, n ≠ 0 → (s.keySlot n).state ≠ .free) :
    exec (.kdnew f) s = .next (s.after (s.me.setX f.rd.toNat (-1)) 4) := by
  have hnone : (List.range 4096).find? (fun n => n ≠ 0 && (s.keySlot n).state = .free) = none :=
    List.find?_eq_none.mpr fun n hlt => by simpa using hn n (List.mem_range.mp hlt)
  refine sStep_after hg hv ((run_bind_ok (run_sOnly _ _ hs)).trans ((run_bind_ok (run_get _)).trans ?_))
  rw [hnone]
  exact run_setX_seq hv _ _

section Recycle
variable (hlt : s.keyArg f < 4096)
include hlt

theorem exec_kdnewRecycle_spent (hk : (s.keySlot (s.keyArg f)).state = .spent) :
    exec (.kdnewRecycle f) s = .next ((s.slotStarted (s.keyArg f) 1).after
      (s.me.setX f.rd.toNat (BitVec.ofNat 64 (s.keyArg f + 4096))) 4) := by
  refine sStep_after hg hv ((run_bind_ok (run_sOnly _ _ hs)).trans ((run_bind_ok (run_getX _ _)).trans ?_))
  rw [if_neg (Nat.not_le.mpr hlt)]
  refine (run_bind_ok (run_get _)).trans ?_
  rw [if_pos hk]
  exact (run_bind_ok (run_startSlot _ _)).trans (run_setX_seq (s := s.slotStarted _ _) hv _ _)

theorem exec_kdnewRecycle_other (hk : (s.keySlot (s.keyArg f)).state ≠ .spent) :
    exec (.kdnewRecycle f) s = .next (s.after (s.me.setX f.rd.toNat (-1)) 4) := by
  refine sStep_after hg hv ((run_bind_ok (run_sOnly _ _ hs)).trans ((run_bind_ok (run_getX _ _)).trans ?_))
  rw [if_neg (Nat.not_le.mpr hlt)]
  refine (run_bind_ok (run_get _)).trans ?_
  rw [if_neg hk]
  exact run_setX_seq hv _ _

end Recycle

end New

/-! ### The end of a domain (R393) -/

/-- The state without the domain of a slot: the slot SPENT after generation 15, else FREE, and no copy or translation of it. -/
def State.slotEnded (s : State) (n : Nat) : State :=
  { s.putSlot n { state := if (s.keySlot n).gen = 15 then .spent else .free, gen := (s.keySlot n).gen, key := 0 } with
    tlb := s.tlb.filter (fun t => t.key ≠ s.pkg * 4096 + n)
    sectors := s.sectors.filter (fun x => x.2.domain.kslot ≠ s.pkg * 4096 + n) }

theorem run_endSlot (n : Nat) : endSlot n s = .ok () (s.slotEnded n) := rfl

@[simp] theorem slotEnded_cur (n : Nat) : (s.slotEnded n).cur = s.cur := rfl
@[simp] theorem slotEnded_hart (n k : Nat) : (s.slotEnded n).hart k = s.hart k := rfl
@[simp] theorem slotEnded_me (n : Nat) : (s.slotEnded n).me = s.me := rfl
theorem slotEnded_state (n : Nat) :
    ((s.slotEnded n).keySlot n).state = if (s.keySlot n).gen.toNat = 15 then .spent else .free := by
  have hgen : (s.keySlot n).gen = 15 ↔ (s.keySlot n).gen.toNat = 15 := BitVec.toNat_inj.symm
  exact (congrArg KeySlot.state (keySlot_putSlot_same n _)).trans (if_congr hgen rfl rfl)
theorem slotEnded_other {m n : Nat} (hm : m ≠ n) : (s.slotEnded n).keySlot m = s.keySlot m := keySlot_putSlot_other hm _
theorem slotEnded_tlb {n : Nat} {x : TlbEntry} (hx : x ∈ (s.slotEnded n).tlb) : x.key ≠ s.pkg * 4096 + n :=
  of_decide_eq_true (List.mem_filter.mp hx).2
theorem slotEnded_sectors {n : Nat} {x : Nat × Sector} (hx : x ∈ (s.slotEnded n).sectors) :
    x.2.domain.kslot ≠ s.pkg * 4096 + n :=
  of_decide_eq_true (List.mem_filter.mp hx).2

/-! ### Steps 2 to 4 of R393, and the result -/

theorem run_finishEnd_held {n : Nat} (hk : s.keyHeld (s.pkg * 4096 + n) = true) : finishEnd n s = .error .wait s := by
  simp [finishEnd, hk]

theorem run_finishEnd_drained {n : Nat} (hk : s.keyHeld (s.pkg * 4096 + n) = false) :
    finishEnd n s = .ok () (s.slotEnded n) := by
  simp [finishEnd, hk, run_endSlot]

/-- The hart with the KDEND it is past step 1 of, if any. -/
def Hart.withEnding (h : Hart) (e : Option SForm) : Hart := { h with ending := e }

theorem withEnding_viq (h : Hart) (e : Option SForm) : (h.withEnding e).viq = h.viq := rfl

/-- Steps 2 to 4 of KDEND and its result: what it does once past step 1. -/
def kdendFinish (n r : Nat) : Exec Flow := do
  finishEnd n
  modMe (·.withEnding none)
  setX r 0
  return .seq

theorem run_kdendFinish_held {n r : Nat} (hk : s.keyHeld (s.pkg * 4096 + n) = true) :
    kdendFinish n r s = .error .wait s := run_bind_error (run_finishEnd_held hk)

theorem run_kdendFinish_drained {n r : Nat} (hv : s.me.viq = []) (hk : s.keyHeld (s.pkg * 4096 + n) = false) :
    kdendFinish n r s = .ok .seq ((s.slotEnded n).putHart s.cur ((s.me.withEnding none).setX r 0)) := by
  rw [kdendFinish, run_bind_ok (run_finishEnd_drained hk), run_bind_ok (run_modMe _ _), run_setX_seq, putHart_cur,
    putHart_putHart, me_putHart, slotEnded_cur, slotEnded_me]
  rw [me_putHart, slotEnded_me, withEnding_viq, hv]

/-! ### KDEND (R393) -/

/-- The slot of the domain KDEND names. -/
abbrev State.kdendSlot (s : State) (f : SForm) : Nat := s.keyArg f % 4096

/-- The state after KDEND's step 1: its slot taken from LIVE, and its hart past that step. -/
def State.endStarted (s : State) (f : SForm) (n : Nat) : State :=
  (s.putSlot n { s.keySlot n with state := .ending }).putHart s.cur (s.me.withEnding (some f))

@[simp] theorem endStarted_me (n : Nat) : (s.endStarted f n).me = s.me.withEnding (some f) := me_putHart _ _
theorem endStarted_hart_other (n : Nat) {k : Nat} (hk : k ≠ s.cur) : (s.endStarted f n).hart k = s.hart k :=
  hart_putHart_other _ _ _ _ hk
theorem endStarted_gen (n : Nat) : ((s.endStarted f n).keySlot n).gen = (s.keySlot n).gen := by
  rw [State.endStarted, keySlot_putHart, keySlot_putSlot_same]
theorem endStarted_other {m n : Nat} (hm : m ≠ n) : (s.endStarted f n).keySlot m = s.keySlot m := by
  rw [State.endStarted, keySlot_putHart, keySlot_putSlot_other hm]

/-- KDEND not yet past step 1, once its checks have passed: its refusals, and step 1. -/
def kdendStart (f : SForm) (v : Nat) (k : KeySlot) : Exec Flow :=
  if v % 4096 = 0 then do
    setX f.rd.toNat 2
    return .seq
  else if k.state ≠ .live || k.gen.toNat ≠ v / 4096 then do
    setX f.rd.toNat 1
    return .seq
  else do
    vectorDone
    modify (·.putSlot (v % 4096) { k with state := .ending })
    modMe (·.withEnding (some f))
    kdendFinish (v % 4096) f.rd.toNat

theorem run_kdendStart_zero {v : Nat} {k : KeySlot} (hv : s.me.viq = []) (h0 : v % 4096 = 0) :
    kdendStart f v k s = .ok .seq (s.putHart s.cur (s.me.setX f.rd.toNat 2)) := by
  rw [kdendStart, if_pos h0]
  exact run_setX_seq hv _ _

theorem run_kdendStart_dead {v : Nat} {k : KeySlot} (hv : s.me.viq = []) (h0 : v % 4096 ≠ 0)
    (hk : k.state ≠ .live ∨ k.gen.toNat ≠ v / 4096) :
    kdendStart f v k s = .ok .seq (s.putHart s.cur (s.me.setX f.rd.toNat 1)) := by
  rw [kdendStart, if_neg h0, if_pos (by simpa using hk)]
  exact run_setX_seq hv _ _

theorem run_kdendStart_live {v : Nat} (hv : s.me.viq = []) (h0 : v % 4096 ≠ 0) (hl : (s.keySlot (v % 4096)).state = .live)
    (hgen : (s.keySlot (v % 4096)).gen.toNat = v / 4096) :
    kdendStart f v (s.keySlot (v % 4096)) s = kdendFinish (v % 4096) f.rd.toNat (s.endStarted f (v % 4096)) := by
  rw [kdendStart, if_neg h0, if_neg (by simp [hl, hgen]), run_bind_ok (run_vectorDone _ hv), run_bind_ok (run_modify _ _),
    run_bind_ok (run_modMe _ _)]
  rfl

section End
variable (hg : s.me.guardOn f.g f.gn = true) (hv : s.me.viq = [])
include hg hv

/-- The KDEND of a hart not past step 1 passes its checks. -/
theorem exec_kdend_first (hs : s.me.isS = true) (he : s.me.ending = none) (hlt : s.keyArg f < 2 ^ 16) :
    exec (.kdend f) s = sStep f (kdendStart f (s.keyArg f) (s.keySlot (s.kdendSlot f))) s := by
  have hfirst : s.me.ending.isNone = true := by rw [he]; rfl
  refine sStep_congr hg hv ((run_bind_ok (run_getX _ _)).trans ((run_bind_ok (run_me _)).trans ?_))
  rw [if_pos hfirst]
  refine (run_bind_ok (run_sOnly _ _ hs)).trans ?_
  rw [if_neg (Nat.not_le.mpr hlt)]
  exact run_bind_ok (run_ask _ _)

/-- The KDEND of a hart past step 1 goes on with step 2. -/
theorem exec_kdend_again {f' : SForm} (he : s.me.ending = some f') :
    exec (.kdend f) s = sStep f (kdendFinish (s.kdendSlot f) f.rd.toNat) s := by
  have hagain : ¬s.me.ending.isNone = true := by simp [he]
  refine sStep_congr hg hv ((run_bind_ok (run_getX _ _)).trans ((run_bind_ok (run_me _)).trans ?_))
  rw [if_neg hagain]
  rfl

section Live
variable (hs : s.me.isS = true) (he : s.me.ending = none) (hlt : s.keyArg f < 2 ^ 16) (h0 : s.kdendSlot f ≠ 0)
  (hl : (s.keySlot (s.kdendSlot f)).state = .live)
  (hgen : (s.keySlot (s.kdendSlot f)).gen.toNat = s.keyArg f / 4096)
include hs he hlt h0 hl hgen

theorem exec_kdend_live_held
    (hk : (s.endStarted f (s.kdendSlot f)).keyHeld (s.pkg * 4096 + s.kdendSlot f) = true) :
    exec (.kdend f) s = .next (s.endStarted f (s.kdendSlot f)) := by
  rw [exec_kdend_first hg hv hs he hlt]
  exact sStep_waits hg hv ((run_kdendStart_live hv h0 hl hgen).trans (run_kdendFinish_held hk))

theorem exec_kdend_live_drained
    (hk : (s.endStarted f (s.kdendSlot f)).keyHeld (s.pkg * 4096 + s.kdendSlot f) = false) :
    exec (.kdend f) s = .next (((s.endStarted f (s.kdendSlot f)).slotEnded (s.kdendSlot f)).after
      ((s.me.withEnding none).setX f.rd.toNat 0) 4) := by
  have hidle : (s.endStarted f (s.kdendSlot f)).me.viq = [] := by rw [endStarted_me, withEnding_viq, hv]
  rw [exec_kdend_first hg hv hs he hlt]
  refine sStep_after hg hv ((run_kdendStart_live hv h0 hl hgen).trans ((run_kdendFinish_drained hidle hk).trans ?_))
  rw [endStarted_me]
  rfl

end Live

end End

/-- Settles O22: KDNEW goes by the first FREE slot of its search, and KDNEW.RECYCLE by the state of the slot named; KDEND
refuses, or takes its slot from LIVE, and then as a resumed one waits where work is under way and else ends the slot. -/
theorem keyDomainResult : Obligations.KeyDomainResult := by
  intro f s hg hv hs
  refine ⟨fun n hn => exec_kdnew_free hg hv hs hn, exec_kdnew_none hg hv hs, exec_kdnewRecycle_spent hg hv hs,
    exec_kdnewRecycle_other hg hv hs, fun he hlt h0 => ?_, fun he hlt h0 hk => ?_,
    fun he hlt h0 hl hgen => ⟨?_, fun hk => ?_⟩, fun f' he => ⟨fun hk => ?_, fun hk => ?_⟩⟩
  · rw [exec_kdend_first hg hv hs he hlt]
    exact sStep_after hg hv (run_kdendStart_zero hv h0)
  · rw [exec_kdend_first hg hv hs he hlt]
    exact sStep_after hg hv (run_kdendStart_dead hv h0 hk)
  · exact exec_kdend_live_held hg hv hs he hlt h0 hl hgen
  · exact ⟨_, exec_kdend_live_drained hg hv hs he hlt h0 hl hgen hk, by rw [slotEnded_state, endStarted_gen, hgen],
      fun _ => slotEnded_tlb, fun _ => slotEnded_sectors, fun m _ hm => (slotEnded_other hm).trans (endStarted_other hm), rfl,
      fun k hother => (slotEnded_hart _ k).trans (endStarted_hart_other _ hother), rfl⟩
  · rw [exec_kdend_again hg hv he]
    exact sStep_waits hg hv (run_kdendFinish_held hk)
  · refine ⟨s.slotEnded _, ?_, slotEnded_state _, fun _ => slotEnded_tlb, fun _ => slotEnded_sectors,
      fun m _ hm => slotEnded_other hm, rfl, fun k _ => slotEnded_hart _ k, rfl⟩
    rw [exec_kdend_again hg hv he]
    exact sStep_after hg hv (run_kdendFinish_drained hv hk)

end Sys2Proof.Machine
end
